-- ==== Sys2Proof/Word.lean ====
section
/-! DEFINITION. The word types of the engine: register words, register contents, bytes and command records. -/

namespace Sys2Proof

/-- A word on the register port, a buffer address or a count: 32 bits (20 R73, 10 R21). -/
abbrev Word := BitVec 32

/-- What a controller register holds: 16 of its 32 bits are used (10 R35). -/
abbrev Half := BitVec 16

/-- A byte of caller memory, of the data register or of an operand (20 R92). -/
abbrev Byte := BitVec 8

/-- A command record of the command port, undecoded (30 R120). The layout is in Decode.lean. -/
abbrev CmdWord := BitVec 128

end Sys2Proof
end

