-- ==== Sys2Proof/Config.lean ====
section
/-! DEFINITION. The defaults of what the spec leaves to the platform: the number of controllers, their base addresses and
interrupt numbers, and the launch values the out-of-scope initialisation gives a controller. -/

namespace Sys2Proof.Config

/-- The default of the parameter `N_INST`: three I2C controllers (00 R9, decision D35; log 18). -/
def defaultNInst : Nat := 3

/-- The defaults of the parameter `BASE(i)`: I2C1, I2C2 and I2C3, in the order of their indices (20 R94). No rule depends on
the values. -/
def bases : List Word := [0x40005400, 0x40005800, 0x40005C00]

/-- The platform's interrupt numbers of the event lines of I2C1, I2C2 and I2C3; each error line's is the next number
(60 R305). -/
def evIrqNumbers : List Nat := [31, 33, 72]

/-- The peripheral clock in MHz that initialisation writes to CR2.FREQ: 70 R342 gives 16 as its example.
DESIGN CHOICE (log 3). -/
def launchFreq : BitVec 6 := 16

/-- The controllers' own addresses at launch. DESIGN CHOICE (log 3). -/
def launchOwnAddress : BitVec 7 := 0

end Sys2Proof.Config
end

