-- ==== Sys2Proof/Syntax.lean ====
section
/-! DEFINITION. The engine's commands: one constructor of Instr per row of the opcode map (30 R122). -/

namespace Sys2Proof

/-- The direction field of SEND_ADDR, op[0] (30 R121). -/
inductive Dir
  | write
  | read
deriving DecidableEq, Repr

/-- A command of the command port. The first argument `i` of each is the index of the controller it runs on
(30 R120); it is a plain number, because an index of no controller is refused by name (30 R124). -/
inductive Instr
  /-- 40 R150 -/
  | genStart (i : Nat)
  /-- 40 R151 -/
  | genStop (i : Nat)
  /-- 40 R152: `a` is the peer address operand, `d` the direction. -/
  | sendAddr (i : Nat) (a : Byte) (d : Dir)
  /-- 40 R153 -/
  | clearAddr (i : Nat)
  /-- 40 R154 -/
  | manageAck (i : Nat) (en : Bool)
  /-- 40 R155: `m` is the mask of SR1 bits awaited. -/
  | waitFlags (i : Nat) (m : Half)
  /-- 41 R181 -/
  | masterTx (i : Nat) (buf len : Word) (addr : Byte) (sr : Bool)
  /-- 41 R182 -/
  | masterRx (i : Nat) (buf len : Word) (addr : Byte) (sr : Bool)
  /-- 41 R183 -/
  | memRead (i : Nat) (addr : Byte) (memAddr : Half) (width : Byte) (buf size : Word)
  /-- 42 R210 -/
  | masterTxIt (i : Nat) (buf len : Word) (addr : Byte) (sr : Bool)
  /-- 42 R211 -/
  | masterRxIt (i : Nat) (buf len : Word) (addr : Byte) (sr : Bool)
  /-- 42 R213 -/
  | closeTx (i : Nat)
  /-- 42 R214 -/
  | closeRx (i : Nat)
  /-- 43 R240 -/
  | evIrq (i : Nat)
  /-- 44 R270 -/
  | erIrq (i : Nat)
deriving DecidableEq, Repr

/-- The rows of the opcode map, by mnemonic (30 R122). -/
inductive Mnemonic
  | GEN_START | GEN_STOP | SEND_ADDR | CLEAR_ADDR | MANAGE_ACK | WAIT_FLAGS
  | MASTER_TX | MASTER_RX | MEM_READ
  | MASTER_TX_IT | MASTER_RX_IT | CLOSE_TX | CLOSE_RX
  | EV_IRQ | ER_IRQ
deriving DecidableEq, Repr

/-- The row a command belongs to. -/
def Instr.mnemonic : Instr → Mnemonic
  | .genStart _ => .GEN_START
  | .genStop _ => .GEN_STOP
  | .sendAddr _ _ _ => .SEND_ADDR
  | .clearAddr _ => .CLEAR_ADDR
  | .manageAck _ _ => .MANAGE_ACK
  | .waitFlags _ _ => .WAIT_FLAGS
  | .masterTx _ _ _ _ _ => .MASTER_TX
  | .masterRx _ _ _ _ _ => .MASTER_RX
  | .memRead _ _ _ _ _ _ => .MEM_READ
  | .masterTxIt _ _ _ _ _ => .MASTER_TX_IT
  | .masterRxIt _ _ _ _ _ => .MASTER_RX_IT
  | .closeTx _ => .CLOSE_TX
  | .closeRx _ => .CLOSE_RX
  | .evIrq _ => .EV_IRQ
  | .erIrq _ => .ER_IRQ

/-- The controller index of a command. -/
def Instr.index : Instr → Nat
  | .genStart i => i
  | .genStop i => i
  | .sendAddr i _ _ => i
  | .clearAddr i => i
  | .manageAck i _ => i
  | .waitFlags i _ => i
  | .masterTx i _ _ _ _ => i
  | .masterRx i _ _ _ _ => i
  | .memRead i _ _ _ _ _ => i
  | .masterTxIt i _ _ _ _ => i
  | .masterRxIt i _ _ _ _ => i
  | .closeTx i => i
  | .closeRx i => i
  | .evIrq i => i
  | .erIrq i => i

end Sys2Proof
end

