-- ==== Sys2Proof/WellFormed.lean ====
section
/-! DEFINITION. Well-formed commands: every operand in its legal set (30 R124, R132). -/

namespace Sys2Proof

/-- The operands of a command beside its controller index are legal (30 R132, 41 R180, R183, 42 R210, R211):
a receive of at least one byte, no NULL buffer with a length, a memory-address width of 1 or 2. -/
def Instr.operandsLegal : Instr → Bool
  | .genStart _ => true
  | .genStop _ => true
  | .sendAddr _ _ _ => true
  | .clearAddr _ => true
  | .manageAck _ _ => true
  | .waitFlags _ _ => true
  | .masterTx _ buf len _ _ => buf != 0 || len == 0
  | .masterRx _ buf len _ _ => len != 0 && buf != 0
  | .memRead _ _ _ width buf size => (width == 1 || width == 2) && size != 0 && buf != 0
  | .masterTxIt _ buf len _ _ => buf != 0 || len == 0
  | .masterRxIt _ buf len _ _ => len != 0 && buf != 0
  | .closeTx _ => true
  | .closeRx _ => true
  | .evIrq _ => true
  | .erIrq _ => true

/-- The command names one of the `nInst` controllers, and its operands are legal. -/
def Instr.wellFormed (nInst : Nat) (x : Instr) : Bool := decide (x.index < nInst) && x.operandsLegal

/-- A well-formed command of a system of `nInst` controllers, as a proposition. -/
abbrev WellFormed (nInst : Nat) (x : Instr) : Prop := x.wellFormed nInst = true

end Sys2Proof
end

