-- ==== Sys2Proof/Decode.lean ====
section
/-! DEFINITION. Decoding a command record, total on every record, and encoding a command.

The spec gives the opcode byte (30 R121 to R123) and each operand's width (30 R124), and says that there is one format
and one length; it gives the operands no places in the record. The layout is the model's (log 1, DESIGN CHOICE):
bits 7:0 op, 15:8 i, 23:16 `a` or `addr`, 24 `sr`, 47:32 `m` or `memAddr`, 55:48 `width`, 95:64 `buf`,
127:96 `len` or `size`. Bits that a command gives no meaning are written 0 and ignored. -/

namespace Sys2Proof

/-- A row of the opcode map: `op & mask = value` (30 R122). -/
structure OpRow where
  name  : Mnemonic
  value : Byte
  mask  : Byte
deriving DecidableEq, Repr

/-- The opcode map (30 R122). -/
def opTable : List OpRow :=
  [ ⟨.GEN_START, 0x01, 0xFF⟩, ⟨.GEN_STOP, 0x02, 0xFF⟩, ⟨.SEND_ADDR, 0x04, 0xFE⟩, ⟨.CLEAR_ADDR, 0x06, 0xFF⟩,
    ⟨.MANAGE_ACK, 0x08, 0xFE⟩, ⟨.WAIT_FLAGS, 0x0A, 0xFF⟩ ] ++
  [ ⟨.MASTER_TX, 0x10, 0xFF⟩, ⟨.MASTER_RX, 0x11, 0xFF⟩, ⟨.MEM_READ, 0x12, 0xFF⟩ ] ++
  [ ⟨.MASTER_TX_IT, 0x20, 0xFF⟩, ⟨.MASTER_RX_IT, 0x21, 0xFF⟩, ⟨.CLOSE_TX, 0x22, 0xFF⟩, ⟨.CLOSE_RX, 0x23, 0xFF⟩ ] ++
  [ ⟨.EV_IRQ, 0x30, 0xFF⟩, ⟨.ER_IRQ, 0x31, 0xFF⟩ ]

/-- An opcode byte matches a row. -/
def OpRow.hits (r : OpRow) (op : Byte) : Bool := op &&& r.mask == r.value

/-- The row an opcode byte selects; none for a reserved byte (30 R123). -/
def rowOf (op : Byte) : Option OpRow := opTable.find? (·.hits op)

/-- The fields of a command record. -/
structure CmdFields where
  op    : Byte
  i     : Byte
  addr  : Byte
  sr    : BitVec 1
  m     : Half
  width : Byte
  buf   : Word
  len   : Word
deriving DecidableEq, Repr

/-- Read the fields of a record. -/
def CmdFields.ofRecord (w : CmdWord) : CmdFields where
  op    := w.extractLsb' 0 8
  i     := w.extractLsb' 8 8
  addr  := w.extractLsb' 16 8
  sr    := w.extractLsb' 24 1
  m     := w.extractLsb' 32 16
  width := w.extractLsb' 48 8
  buf   := w.extractLsb' 64 32
  len   := w.extractLsb' 96 32

/-- Lay the fields out as a record. -/
def CmdFields.toRecord (f : CmdFields) : CmdWord :=
  f.len ++ (f.buf ++ ((0#8 ++ f.width) ++ (f.m ++ ((0#7 ++ f.sr) ++ (f.addr ++ (f.i ++ f.op))))))

/-- Why a record does not decode. -/
inductive DecodeError
  /-- The opcode byte matches no row of the opcode map (30 R123). -/
  | unknownCommand (op : Byte)
deriving DecidableEq, Repr

/-- The command of a row, from the fields of a record. -/
def CmdFields.command (f : CmdFields) : Mnemonic → Instr
  | .GEN_START => .genStart f.i.toNat
  | .GEN_STOP => .genStop f.i.toNat
  | .SEND_ADDR => .sendAddr f.i.toNat f.addr (if f.op.getLsbD 0 then .read else .write)
  | .CLEAR_ADDR => .clearAddr f.i.toNat
  | .MANAGE_ACK => .manageAck f.i.toNat (f.op.getLsbD 0)
  | .WAIT_FLAGS => .waitFlags f.i.toNat f.m
  | .MASTER_TX => .masterTx f.i.toNat f.buf f.len f.addr (f.sr == 1)
  | .MASTER_RX => .masterRx f.i.toNat f.buf f.len f.addr (f.sr == 1)
  | .MEM_READ => .memRead f.i.toNat f.addr f.m f.width f.buf f.len
  | .MASTER_TX_IT => .masterTxIt f.i.toNat f.buf f.len f.addr (f.sr == 1)
  | .MASTER_RX_IT => .masterRxIt f.i.toNat f.buf f.len f.addr (f.sr == 1)
  | .CLOSE_TX => .closeTx f.i.toNat
  | .CLOSE_RX => .closeRx f.i.toNat
  | .EV_IRQ => .evIrq f.i.toNat
  | .ER_IRQ => .erIrq f.i.toNat

/-- Decode a command record: total, and a reserved opcode byte is rejected by name (30 R123). -/
def decode (w : CmdWord) : Except DecodeError Instr :=
  let f := CmdFields.ofRecord w
  match rowOf f.op with
  | some r => .ok (f.command r.name)
  | none => .error (.unknownCommand f.op)

/-- The opcode byte of a command (30 R121, R122). -/
def opcode : Instr → Byte
  | .genStart _ => 0x01
  | .genStop _ => 0x02
  | .sendAddr _ _ .write => 0x04
  | .sendAddr _ _ .read => 0x05
  | .clearAddr _ => 0x06
  | .manageAck _ false => 0x08
  | .manageAck _ true => 0x09
  | .waitFlags _ _ => 0x0A
  | .masterTx _ _ _ _ _ => 0x10
  | .masterRx _ _ _ _ _ => 0x11
  | .memRead _ _ _ _ _ _ => 0x12
  | .masterTxIt _ _ _ _ _ => 0x20
  | .masterRxIt _ _ _ _ _ => 0x21
  | .closeTx _ => 0x22
  | .closeRx _ => 0x23
  | .evIrq _ => 0x30
  | .erIrq _ => 0x31

/-- The record fields of a command with no operand beside its index. -/
def CmdFields.plain (op : Byte) (i : Nat) : CmdFields := ⟨op, BitVec.ofNat 8 i, 0, 0, 0, 0, 0, 0⟩

/-- The record fields of a transfer command. -/
def CmdFields.transfer (op : Byte) (i : Nat) (buf len : Word) (addr : Byte) (sr : Bool) : CmdFields :=
  ⟨op, BitVec.ofNat 8 i, addr, BitVec.ofBool sr, 0, 0, buf, len⟩

/-- The record fields of a command. -/
def fieldsOf (x : Instr) : CmdFields :=
  match x with
  | .genStart i => .plain (opcode x) i
  | .genStop i => .plain (opcode x) i
  | .sendAddr i a _ => ⟨opcode x, BitVec.ofNat 8 i, a, 0, 0, 0, 0, 0⟩
  | .clearAddr i => .plain (opcode x) i
  | .manageAck i _ => .plain (opcode x) i
  | .waitFlags i m => ⟨opcode x, BitVec.ofNat 8 i, 0, 0, m, 0, 0, 0⟩
  | .masterTx i buf len addr sr => .transfer (opcode x) i buf len addr sr
  | .masterRx i buf len addr sr => .transfer (opcode x) i buf len addr sr
  | .memRead i addr memAddr width buf size => ⟨opcode x, BitVec.ofNat 8 i, addr, 0, memAddr, width, buf, size⟩
  | .masterTxIt i buf len addr sr => .transfer (opcode x) i buf len addr sr
  | .masterRxIt i buf len addr sr => .transfer (opcode x) i buf len addr sr
  | .closeTx i => .plain (opcode x) i
  | .closeRx i => .plain (opcode x) i
  | .evIrq i => .plain (opcode x) i
  | .erIrq i => .plain (opcode x) i

/-- The record of a command. -/
def encode (x : Instr) : CmdWord := (fieldsOf x).toRecord

/-- The record whose low `nbits` bits are those of `w` and whose other bits are 0. -/
def recordOfTable (nbits w : Nat) : CmdWord := BitVec.ofNat 128 (w % 2 ^ nbits)

/-- The command the decoder reads from a row of the opcode table: the table gives the opcode byte, every operand is
0 (log 2). -/
def decodeTableWord (nbits w : Nat) : Option Instr :=
  match decode (recordOfTable nbits w) with
  | .ok x => some x
  | .error _ => none

end Sys2Proof
end

