-- ==== Sys2Proof/Machine/State.lean ====
section
/-! DEFINITION. The state of the engine as plain data: the handles, the controllers' registers and hidden state, caller
memory, the two contexts' positions, what the environment will do, and the state after reset. -/

namespace Sys2Proof.Machine

/-- The index of a controller (10 R20). The controllers that exist are those below the parameter `N_INST` (00 R9). -/
abbrev Idx := Nat

/-! ## Enumerations (30 R127 to R130) -/

/-- `h.transferState` (30 R127). The value 3 is never held: there is no such constructor. -/
inductive TransferState
  | ready
  | busyTx
  | busyRx
deriving DecidableEq, Repr

/-- The status a blocking command or a poll returns (30 R128). -/
inductive Status
  | ok
  | error
  | busy
  | timeout
deriving DecidableEq, Repr

/-- The callback event codes (30 R129). -/
inductive EventCode
  | txCmplt
  | rxCmplt
  | stop
  | errorBerr
  | errorArlo
  | errorAf
  | errorOvr
  | errorTimeout
  | dataReq
  | dataRcv
deriving DecidableEq, Repr

inductive Speed
  | sm
  | fm
deriving DecidableEq, Repr

inductive Duty
  | duty2
  | duty16_9
deriving DecidableEq, Repr

inductive AckControl
  | disable
  | enable
deriving DecidableEq, Repr

/-! ## Outcomes that stop a run -/

/-- What stops the machine as a fault (60 R302). It is recorded in `State.faults` where it is raised, and the next step
answers it (log 11). -/
inductive Fault
  /-- Raised by RXNE_MASTER (43 R247) when it is entered with `rxRemaining` = 0. Safe: the spec itself makes it a
  fault, and the run ends there. -/
  | rxUnderflow (i : Idx)
deriving DecidableEq, Repr

/-- What gives a command no meaning (60 R301). A command the main context issues answers its refusal at once; one raised
inside a run, by a command of the callback or by a re-initialisation, is recorded in `State.refused`, and the next step
answers it (log 11). -/
inductive Refusal
  /-- Raised by exec's arm for a command that has no meaning in this model. Safe: the run ends. -/
  | notModelled (mnemonic : String)
  /-- Raised where a command record is issued whose opcode byte matches no row (30 R123), by the main context's fetch
  or by the callback. Safe: the spec refuses it. -/
  | unknownCommand (op : Byte)
  /-- Raised by every command whose controller index is not below `N_INST` (30 R124). Safe: the spec refuses it. -/
  | noSuchInstance (i : Nat)
  /-- Raised by MASTER_RX and MASTER_RX_IT with length 0 and MEM_READ with size 0 (41 R180, R183, 42 R211). Safe: the
  spec refuses it. -/
  | zeroLengthReceive
  /-- Raised by MEM_READ with a width other than 1 and 2 (41 R183). Safe: the spec refuses it. -/
  | badAddressWidth (width : Byte)
  /-- Raised by the transfer commands given buffer 0 and a length (41 R180, R183, 42 R210, R211). Safe: the spec
  refuses it. -/
  | nullBuffer
  /-- Raised by EV_IRQ and ER_IRQ issued by anything but the dispatch (30 R137). Safe: the spec refuses it. -/
  | handlerFromSoftware
  /-- Raised by the re-initialisation input when it lands during a transfer, a command or a handler (70 R344,
  93 U20: outside the model). Safe: the spec gives it no meaning. -/
  | reinitDuringTransfer (i : Idx)
deriving DecidableEq, Repr

/-! ## The handle (10 R21) -/

/-- `h.cfg` (10 R21, R22): set at initialisation, written by no command. -/
structure Cfg where
  speed      : Speed
  duty       : Duty
  ackControl : AckControl
  ownAddress : BitVec 7
deriving DecidableEq, Repr

/-- The transfer handle of one controller (10 R20, R21). -/
structure Handle where
  inst                   : Idx
  cfg                    : Cfg
  txBuffer               : Word
  rxBuffer               : Word
  txRemaining            : Word
  rxRemaining            : Word
  rxExpectedTotal        : Word
  transferState          : TransferState
  targetDeviceAddress    : Byte
  repeatedStartRequested : Bool
deriving DecidableEq, Repr

/-! ## The controller (10 R35 to R48) -/

/-- The names of the controller's registers (10 R35). -/
inductive Reg
  | cr1 | cr2 | oar1 | oar2 | dr | sr1 | sr2 | ccr | trise | fltr
deriving DecidableEq, Repr

/-- The register block (10 R35): the used 16 bits of each register, and the two bytes at DR's address. -/
structure Regs where
  cr1   : Half
  cr2   : Half
  oar1  : Half
  oar2  : Half
  /-- DR as it is read: the byte the controller received last (10 R39, 20 R78) -/
  dr    : Byte
  /-- DR as it is written: the byte handed to the controller last (10 R39, 20 R77; log 22) -/
  tdr   : Byte
  sr1   : Half
  sr2   : Half
  ccr   : Half
  trise : Half
  fltr  : Half
deriving DecidableEq, Repr

/-- The read-sequence latches (10 R45). -/
structure Latches where
  sb    : Bool
  addr  : Bool
  btf   : Bool
  stopf : Bool
deriving DecidableEq, Repr

/-- The internal phase of the reference controller (20 R87, 10 R48; details log 15). -/
structure RefPhase where
  /-- the address byte written after SB, waiting for the peer's answer -/
  addr   : Option Byte
  /-- the address byte of the running transfer was acknowledged -/
  acked  : Bool
  /-- a data byte written to DR and not yet moved to the shift register -/
  txDr   : Option Byte
  /-- the data byte in the transmit shift register -/
  shift  : Option Byte
  /-- a received byte held before its acknowledge bit, with the clock stretched -/
  held   : Option Byte
  /-- the previous received byte of this transfer, if any, was acknowledged -/
  rxAck  : Bool
  /-- a START or STOP was requested when the previous received byte was acknowledged: the controller stands between
  bytes (RF8) -/
  gap    : Bool
deriving DecidableEq, Repr

/-- The reference controller with no transfer in progress. -/
def RefPhase.quiet : RefPhase := ⟨none, false, none, none, none, true, false⟩

/-- The parameter `CTRL` of one controller (20 R85): any hardware change, or the reference controller. -/
inductive Ctrl
  | free
  | ref (p : RefPhase)
deriving DecidableEq, Repr

/-- What the platform fixes for one controller, for the whole run. -/
structure Wiring where
  /-- `BASE(i)`, the address of the register block (20 R94) -/
  base   : Word
  /-- `NVIC_EN[i]`: both lines are routed to the engine (00 R9, 60 R305) -/
  nvicEn : Bool
deriving DecidableEq, Repr

/-- One engine: the handle of a controller, its register block, latches, pending interrupts, callback trace, the
platform's wiring and its environment. -/
structure Engine where
  h       : Handle
  regs    : Regs
  lat     : Latches
  pendEV  : Bool
  pendER  : Bool
  cbTrace : List EventCode
  wiring  : Wiring
  ctrl    : Ctrl
deriving DecidableEq, Repr

/-! ## Sequencer positions (10 R33)

A position is the list of micro-steps a command has still to perform, with its locals. Each micro-step is one access
(`Act`), and `Next` says how the pseudocode goes on after it: straight to the next line, or through a test. What each
does is in Machine/Sequence.lean. -/

/-- The registers written by read-modify-write (20 R74). -/
inductive RmwReg
  | cr1
  | cr2
deriving DecidableEq, Repr

/-- The locals of a command, named as in the pseudocode (00 R13, 10 R31). -/
structure Locals where
  /-- the word read for a read-modify-write -/
  w   : Word
  /-- the sample of SR1 -/
  v   : Word
  /-- the sample of CR2 -/
  c   : Word
  /-- the sample of SR2 -/
  u   : Word
  s   : TransferState
  /-- `rxExpectedTotal` -/
  t   : Word
  /-- a remaining count -/
  n   : Word
  /-- the count read again -/
  m   : Word
  /-- a buffer address -/
  p   : Word
  b   : Byte
  /-- the peer address -/
  a   : Byte
  /-- the repeated-start flag -/
  r   : Bool
  /-- the acknowledge policy -/
  pol : AckControl
  /-- the application's argument `code` (44 R274) -/
  code : EventCode
  /-- the node of the application's program at which it stands -/
  node : Nat
  /-- the application's own variables, of which one beyond the list holds 0 -/
  vars : List Word
deriving DecidableEq, Repr

/-- The locals of a command that has performed nothing. No rule reads one of them before writing it. -/
def Locals.init : Locals := ⟨0, 0, 0, 0, .ready, 0, 0, 0, 0, 0, 0, false, .disable, .txCmplt, 0, []⟩

/-- One micro-step: one access of a register, of memory, of the handle, or one callback emission (00 R13). -/
inductive Act
  | readW (r : RmwReg)
  | writeOr (r : RmwReg) (mask : Half)
  | writeAndNot (r : RmwReg) (mask : Half)
  | readCR2
  | readSR1
  | readSR2
  | readDR
  | writeDR (b : Byte)
  | writeDRLocal
  | sendTarget (d : Dir)
  | writeSR1 (v : Word)
  | memReadAt (a : Word)
  | memWriteAt (a : Word)
  | memReadP
  | memWriteP
  | getState
  | getTotal
  | getTxRemaining
  | getRxRemaining
  | rereadRxRemaining
  | getTxBuffer
  | getRxBuffer
  | getTarget
  | getRepeatedStart
  | getPolicy
  | setTxBuffer (v : Word)
  | setRxBuffer (v : Word)
  | setTxRemaining (v : Word)
  | setRxRemaining (v : Word)
  | setTotal (v : Word)
  | setTarget (a : Byte)
  | setRepeatedStart (sr : Bool)
  | setState (st : TransferState)
  | decTxRemaining
  | incTxBuffer
  | decRxRemaining
  | incRxBuffer
  | callback (code : EventCode)
  /-- the application's own next step (44 R276) -/
  | app
deriving DecidableEq, Repr

/-- What a poll that does not end in OK leads to: the result of WAIT_FLAGS (40 R155), or the exit of a blocking
transfer (41 R184), with `rx` for a receive. -/
inductive PollExit
  | result
  | abort (rx : Bool)
deriving DecidableEq, Repr

/-- Where a blocking transmit takes its bytes (41 R181, R183): caller memory, or MEM_READ's scratch. -/
inductive Src
  | mem (p : Word)
  | scratch (bytes : List Byte)
deriving DecidableEq, Repr

/-- How the pseudocode goes on after a micro-step. -/
inductive Next
  | straight
  | poll (mask : Half) (k : Nat) (exit : PollExit)
  | ackOffIfRx
  | ackOffIfOne
  | busyIfNotReady
  | txMore (src : Src) (n : Word) (sr : Bool)
  | rxMore (p k : Word) (sr : Bool)
  | ackOnIfPolicy
  | rejectIfBusy
  | sbEvent
  | sbByState
  | addrEvent
  | btfEvent
  | btfByState
  | btfIfNoneLeft
  | btfFinish
  | stopfEvent
  | txeEvent
  | txeByRole
  | txeByState
  | txeIfMore
  | rxneEvent
  | rxneByRole
  | rxneByState
  | rxneByte
  | rxneIfNoneLeft
  | rxneFinish
  | errEvent (mask : Half) (code : EventCode)
deriving DecidableEq, Repr

/-- A line of a command's sequence. -/
structure Line where
  act  : Act
  next : Next
deriving DecidableEq, Repr

/-- What a command returns (30 R122). -/
inductive Result
  | none
  | poll (st : Status) (e : Word)
  | status (st : Status)
  | state (st : TransferState)
deriving DecidableEq, Repr

/-- What a frame runs: a command, a handler entered by the dispatch, or the application callback. -/
inductive Owner
  | command (m : Mnemonic)
  | ev
  | er
  | app
deriving DecidableEq, Repr

/-- A sequencer position (10 R33): what runs, on which controller, the lines still to perform, the locals, and the
result it will return. -/
structure Frame where
  owner  : Owner
  inst   : Idx
  lines  : List Line
  loc    : Locals
  result : Result
deriving DecidableEq, Repr

/-! ## What the outside does (log 7, log 8) -/

/-- The launch values of a controller (70 R342): its configuration and what initialisation leaves in its registers. -/
structure Launch where
  cfg   : Cfg
  /-- CR1.ACK as initialisation left it: a parameter (70 R342) -/
  ack   : Bool
  freq  : BitVec 6
  dr    : Byte
  ccr   : BitVec 12
  trise : BitVec 6
  fltr  : BitVec 5
deriving DecidableEq, Repr

/-- A step of the FREE controller (20 R86): new values for every hardware-owned bit. -/
structure HwChange where
  sr1       : Half
  sr2       : Half
  dr        : Byte
  /-- the hardware clear of CR1.START -/
  startDone : Bool
  /-- CR1.STOP after the step: cleared when the STOP is detected, set on a timeout (20 R85) -/
  stop      : Bool
deriving DecidableEq, Repr

/-- The errors of reaction RF10 (20 R87). -/
inductive RefError
  | berr
  | ovr
  | timeout
deriving DecidableEq, Repr

/-- A reaction of the reference controller, with its draws (20 R87). -/
inductive Reaction
  | start
  | addrAck
  | addrNack
  | txReady
  | txByte
  | txNack
  | rxByte (d : Byte)
  | stop
  | arbLost
  | error (e : RefError)
  | slaveAddr (tra : Bool)
  | slaveRx (d : Byte)
  | slaveTx
  | slaveStop
deriving DecidableEq, Repr

/-- What happens at one micro-step boundary (20 R85, R96, 60 R307). -/
inductive Input
  /-- the running context performs its next micro-step -/
  | run
  /-- a step of a FREE controller -/
  | free (i : Idx) (c : HwChange)
  /-- a step of a REF controller -/
  | ref (i : Idx) (r : Reaction)
  /-- the dispatch takes a pending latch -/
  | dispatch
  /-- the platform initialises controller `i` anew (70 R344) -/
  | reinit (i : Idx) (l : Launch)
deriving DecidableEq, Repr

/-! ## The application callback (44 R275 to R277; log 8)

`APP` is a program in plain data. It stands at a node; a node is a list of rules, of which the first whose guard holds
is taken: it sets variables, makes one step of 44 R276, and goes to a node. Guards and operands are computed from the
arguments, from the values read so far (the variables), and from the handles. -/

/-- A handle field the application looks at. -/
inductive HandleField
  | txBuffer
  | rxBuffer
  | txRemaining
  | rxRemaining
  | rxExpectedTotal
  | transferState
  | targetDeviceAddress
  | repeatedStartRequested
  | speed
  | duty
  | ackControl
  | ownAddress
deriving DecidableEq, Repr

/-- The operations of the application's values. `eq` and `lt` answer 1 or 0. -/
inductive AppOp
  | add
  | sub
  | mul
  | and
  | or
  | xor
  | shiftLeft
  | shiftRight
  | eq
  | lt
deriving DecidableEq, Repr

/-- A value the application computes. -/
inductive AppExpr
  | const (v : Word)
  /-- the argument `code` -/
  | code
  /-- the argument `i` -/
  | inst
  | var (k : Nat)
  | handle (i : AppExpr) (f : HandleField)
  | op (o : AppOp) (a b : AppExpr)
deriving DecidableEq, Repr

/-- The fields of a command the application issues, each computed. -/
structure AppCommand where
  op    : AppExpr
  i     : AppExpr
  addr  : AppExpr
  sr    : AppExpr
  m     : AppExpr
  width : AppExpr
  buf   : AppExpr
  len   : AppExpr
deriving DecidableEq, Repr

/-- A step of the application (44 R276): a command, a byte of caller memory read into variable `k` or written, DR of the
controller that emitted the event read into variable `k` or written, or its return. -/
inductive AppStep
  | command (c : AppCommand)
  | memRead (a : AppExpr) (k : Nat)
  | memWrite (a b : AppExpr)
  | readDR (k : Nat)
  | writeDR (v : AppExpr)
  | ret
deriving DecidableEq, Repr

/-- A rule of the application's program: where `guard` is not 0, the variables of `sets` are computed in turn, `step` is
made, and the program goes to node `next`. -/
structure AppRule where
  guard : AppExpr
  sets  : List (Nat × AppExpr)
  step  : AppStep
  next  : Nat
deriving DecidableEq, Repr

/-- The application's program: its nodes. It starts at node 0, and returns where no rule applies, so that the empty
program is the no-op of 44 R275. -/
abbrev AppProgram := List (List AppRule)

/-- An entry of the observed trace (00 R14). -/
inductive Event
  | regRead (i : Idx) (r : Reg) (v : Word)
  | regWrite (i : Idx) (r : Reg) (v : Word)
  | memRead (a : Word) (b : Byte)
  | memWrite (a : Word) (b : Byte)
  | callback (i : Idx) (code : EventCode)
  | result (i : Idx) (m : Mnemonic) (r : Result)
deriving DecidableEq, Repr

/-! ## Parameters of the run (00 R9) -/

inductive IrqOrder
  | evFirst
  | erFirst
deriving DecidableEq, Repr

/-- A run of valid buffer bytes. -/
structure Region where
  base : Word
  size : Nat
deriving DecidableEq, Repr

/-- The parameters of the run, each the same for its whole length. `cfg[i]`, `BASE(i)`, `NVIC_EN[i]` and `CTRL[i]` stand with
their controllers. -/
structure Params where
  /-- `N_INST`: the controllers that exist are those of index below it -/
  nInst              : Nat
  propagateBusErrors : Bool
  pollDeadline       : Option Nat
  irqOrder           : IrqOrder
  irqNesting         : Bool
  /-- `BUF_OK`, as the list of the valid regions -/
  bufOk              : List Region
  /-- `APP`, the same for every controller (44 R275) -/
  app                : AppProgram
deriving DecidableEq, Repr

/-! ## The state -/

/-- The whole state of the system. -/
structure State where
  /-- the engines, one per controller, in the order of their indices -/
  engines  : List Engine
  /-- caller memory, in the canonical form of `Memory.wf` -/
  mem      : List Host.Cell
  /-- the main context's position: empty is `idle` -/
  main     : List Frame
  /-- the handler context's position, innermost frame first: empty is `idle` -/
  handlers : List Frame
  /-- the commands the main context has still to issue -/
  program  : List CmdWord
  /-- what happens at the coming boundaries -/
  inputs   : List Input
  /-- the observed trace -/
  trace    : List Event
  params   : Params
  /-- the mark of a refused run (10 R47) -/
  refused  : Option Refusal
  /-- the fault list (10 R47) -/
  faults   : List Fault
deriving DecidableEq, Repr

/-- The outcome of a command or of a step of the system. -/
abbrev Out := Host.Outcome State Fault Refusal

/-! ## Reset -/

/-- The handle after reset (70 R340). -/
def Handle.launch (i : Idx) (cfg : Cfg) : Handle := ⟨i, cfg, 0, 0, 0, 0, 0, .ready, 0, false⟩

/-- The register block at launch (70 R342). No byte has been written to DR: `tdr` is 0, DESIGN CHOICE (log 4). -/
def Regs.launch (l : Launch) : Regs where
  cr1   := if l.ack then 0x0401 else 0x0001
  cr2   := l.freq.setWidth 16
  oar1  := 0x4000 ||| (l.cfg.ownAddress.setWidth 16 <<< 1)
  oar2  := 0
  dr    := l.dr
  tdr   := 0
  sr1   := 0
  sr2   := 0
  ccr   := (if l.cfg.speed = .fm then 0x8000 else 0) ||| (if l.cfg.duty = .duty16_9 then 0x4000 else 0) |||
    l.ccr.setWidth 16
  trise := l.trise.setWidth 16
  fltr  := l.fltr.setWidth 16

/-- An engine after reset and launch (70 R340, R342), in its wiring `w`, with the environment `ctrl`. -/
def Engine.launch (i : Idx) (l : Launch) (w : Wiring) (ctrl : Ctrl) : Engine :=
  ⟨Handle.launch i l.cfg, Regs.launch l, ⟨false, false, false, false⟩, false, false, [], w, ctrl⟩

/-- The launch values of the state after reset. DESIGN CHOICE (log 3, log 4): the spec leaves `cfg`, FREQ, DR, CCR,
TRISE and FLTR to the out-of-scope initialisation; CR1.ACK follows the policy (70 R342). -/
def Launch.default : Launch where
  cfg   := ⟨.sm, .duty2, .enable, Config.launchOwnAddress⟩
  ack   := true
  freq  := Config.launchFreq
  dr    := 0
  ccr   := 0
  trise := 2
  fltr  := 0

/-- The default parameters of the run (00 R9): three controllers, the no-op `APP`; `BUF_OK` accepts every address (log 6,
DESIGN CHOICE). -/
def Params.default : Params := ⟨Config.defaultNInst, false, none, .evFirst, false, [⟨0, 2 ^ 32⟩], []⟩

/-- The state after reset (70 R340) at the launch premise (70 R342): both contexts idle, nothing pending, nothing
traced, no program, no input. -/
def State.reset : State where
  engines  := Config.bases.zipIdx.map fun (b, i) => Engine.launch i Launch.default ⟨b, true⟩ .free
  mem      := []
  main     := []
  handlers := []
  program  := []
  inputs   := []
  trace    := []
  params   := Params.default
  refused  := none
  faults   := []

end Sys2Proof.Machine
end

