-- ==== Sys2Proof/Machine/Flags.lean ====
section
/-! DEFINITION. The register field masks (30 R131), the tests on sampled words, and the interrupt lines and pending
latches (60 R303, R304, R306). -/

namespace Sys2Proof.Machine

/-! ## Masks (30 R131) -/

def cr1PE : Half := 0x0001
def cr1START : Half := 0x0100
def cr1STOP : Half := 0x0200
def cr1ACK : Half := 0x0400
def cr2ITERREN : Half := 0x0100
def cr2ITEVTEN : Half := 0x0200
def cr2ITBUFEN : Half := 0x0400
def sr1SB : Half := 0x0001
def sr1ADDR : Half := 0x0002
def sr1BTF : Half := 0x0004
def sr1ADD10 : Half := 0x0008
def sr1STOPF : Half := 0x0010
def sr1RxNE : Half := 0x0040
def sr1TxE : Half := 0x0080
def sr1BERR : Half := 0x0100
def sr1ARLO : Half := 0x0200
def sr1AF : Half := 0x0400
def sr1OVR : Half := 0x0800
def sr1PECERR : Half := 0x1000
def sr1TIMEOUT : Half := 0x4000
def sr1SMBALERT : Half := 0x8000
def sr2MSL : Half := 0x0001
def sr2BUSY : Half := 0x0002
def sr2TRA : Half := 0x0004

/-- `ERRMASK`: the five error flags the engine handles (30 R131). -/
def errMask : Half := 0x4F00

/-- `RCW0ALL`: every SR1 bit cleared by writing 0 (30 R131). -/
def rcw0All : Half := 0xDF00

/-- The CR1 bits software can write: all but the reserved bits 2 and 14 (10 R36). -/
def cr1Writable : Half := 0xBFFB

/-- The CR2 bits software can write: all but the reserved bits 7:6 and 15:13 (10 R37). -/
def cr2Writable : Half := 0x1F3F

/-- The SR1 bits hardware owns: all but the reserved bits 5 and 13 (10 R40). -/
def sr1Hardware : Half := 0xDFDF

/-- The SR2 bits hardware owns: all but the reserved bit 3 (10 R41). -/
def sr2Hardware : Half := 0xFFF7

/-- CR1 fields that stay 0 for a whole run (10 R36, 70 R342): SMBUS, SMBTYPE, ENARP, ENPEC, ENGC, NOSTRETCH, POS, PEC,
ALERT, SWRST, and the reserved bits. -/
def cr1KeptZero : Half := 0xF8FE

/-! ## Bits of registers and of sampled words -/

/-- Some bit of `mask` is set in the register contents `r`. -/
def anyBit (r mask : Half) : Bool := r &&& mask != 0

/-- Some bit of `mask` is set in the sampled word `w`. -/
def sampled (w : Word) (mask : Half) : Bool := w &&& mask.setWidth 32 != 0

/-- `r` with the bits of `mask` cleared. -/
def clearMask (r mask : Half) : Half := r &&& ~~~mask

/-- `r` with the bits of `mask` set. -/
def setMask (r mask : Half) : Half := r ||| mask

/-- `r` with the bits of `mask` cleared if `b`. -/
def clearIf (b : Bool) (r mask : Half) : Half := if b then clearMask r mask else r

/-- `r` with the bits of `mask` taken from `v`. -/
def mergeMask (r v mask : Half) : Half := (r &&& ~~~mask) ||| (v &&& mask)

/-! ## Interrupt lines (60 R303, R304) and pending latches (60 R306) -/

/-- The event line (60 R303). -/
def Engine.evLine (e : Engine) : Bool :=
  anyBit e.regs.cr2 cr2ITEVTEN &&
    (anyBit e.regs.sr1 (sr1SB ||| sr1ADDR ||| sr1ADD10 ||| sr1STOPF ||| sr1BTF) ||
      (anyBit e.regs.cr2 cr2ITBUFEN && anyBit e.regs.sr1 (sr1TxE ||| sr1RxNE)))

/-- The error line (60 R304). -/
def Engine.erLine (e : Engine) : Bool :=
  anyBit e.regs.cr2 cr2ITERREN &&
    anyBit e.regs.sr1 (sr1BERR ||| sr1ARLO ||| sr1AF ||| sr1OVR ||| sr1PECERR ||| sr1TIMEOUT ||| sr1SMBALERT)

/-- A boundary's update of one engine's pending latches: set while the line is asserted and routed, never cleared
here (60 R306). -/
def Engine.latchPending (e : Engine) : Engine :=
  { e with
    pendEV := e.pendEV || (e.evLine && e.wiring.nvicEn)
    pendER := e.pendER || (e.erLine && e.wiring.nvicEn) }

/-! ## Numbers of the enumerations (30 R127 to R130) -/

def TransferState.code : TransferState → BitVec 2
  | .ready => 0
  | .busyTx => 1
  | .busyRx => 2

def Status.code : Status → Byte
  | .ok => 0
  | .error => 1
  | .busy => 2
  | .timeout => 3

def EventCode.code : EventCode → Byte
  | .txCmplt => 0
  | .rxCmplt => 1
  | .stop => 2
  | .errorBerr => 3
  | .errorArlo => 4
  | .errorAf => 5
  | .errorOvr => 6
  | .errorTimeout => 7
  | .dataReq => 8
  | .dataRcv => 9

def Speed.code : Speed → BitVec 1
  | .sm => 0
  | .fm => 1

def Duty.code : Duty → BitVec 1
  | .duty2 => 0
  | .duty16_9 => 1

def AckControl.code : AckControl → BitVec 1
  | .disable => 0
  | .enable => 1

/-- A register's offset in its controller's block (10 R35). -/
def Reg.offset : Reg → Word
  | .cr1 => 0x00
  | .cr2 => 0x04
  | .oar1 => 0x08
  | .oar2 => 0x0C
  | .dr => 0x10
  | .sr1 => 0x14
  | .sr2 => 0x18
  | .ccr => 0x1C
  | .trise => 0x20
  | .fltr => 0x24

/-- The address of a register (20 R73): its offset from the base address of its controller (20 R94). -/
def Engine.regAddress (e : Engine) (r : Reg) : Word := e.wiring.base + r.offset

end Sys2Proof.Machine
end

