-- ==== Sys2Proof/Machine/Ctrl.lean ====
section
/-! DEFINITION. The controller and bus, the engine's environment (20 R85 to R88): the steps of a FREE controller, and the
reactions of the reference controller REF with the way it follows the engine's accesses of DR. Details of REF that
R87's table leaves to the reader are in log 15. -/

namespace Sys2Proof.Machine

/-! ## FREE (20 R86) -/

/-- A step of a FREE controller: any hardware-owned bit takes any value. Software-owned bits, the reserved bits, the
latches and the handle keep theirs (20 R85). -/
def Engine.applyFree (c : HwChange) (e : Engine) : Engine :=
  { e with regs := { e.regs with
      sr1 := mergeMask e.regs.sr1 c.sr1 sr1Hardware
      sr2 := mergeMask e.regs.sr2 c.sr2 sr2Hardware
      dr  := c.dr
      cr1 := clearIf c.startDone (if c.stop then setMask e.regs.cr1 cr1STOP else clearMask e.regs.cr1 cr1STOP) cr1START } }

/-! ## REF (20 R87) -/

/-- The engine wrote `b` to DR, and that write cleared SB or did not: an address byte, or a data byte. -/
def Ctrl.onWriteDR (clearedSB : Bool) (b : Byte) : Ctrl → Ctrl
  | .free => .free
  | .ref p => if clearedSB then .ref { p with addr := some b } else .ref { p with txDr := some b }

/-- The byte held before its acknowledge bit, if any (20 R87, RF7). -/
def Ctrl.heldByte : Ctrl → Option Byte
  | .free => none
  | .ref p => p.held

/-- The held byte is released by a DR read and acknowledged by `ack`, with a START or STOP requested or not (20 R87,
RF7). -/
def Ctrl.release (ack requested : Bool) : Ctrl → Ctrl
  | .free => .free
  | .ref p => .ref { p with held := none, rxAck := ack, gap := requested }

/-- The environment of a controller initialised anew: the same kind, at rest (70 R344). -/
def Ctrl.atLaunch : Ctrl → Ctrl
  | .free => .free
  | .ref _ => .ref RefPhase.quiet

/-- The address of the running transfer was acknowledged and the flag ADDR is cleared. -/
def Engine.addressDone (e : Engine) (p : RefPhase) : Bool := p.acked && !anyBit e.regs.sr1 sr1ADDR

/-- A START or STOP is requested (20 R87, RF1, RF8). -/
def Engine.requested (e : Engine) : Bool := anyBit e.regs.cr1 (cr1START ||| cr1STOP)

/-- The controller stands between two bytes of a receive, ready for the START or STOP that was requested when the last
byte was acknowledged and still is (20 R87, RF1, RF8). -/
def Engine.betweenBytes (e : Engine) (p : RefPhase) : Bool := p.gap && e.requested

/-- A byte of a receive is being clocked in: the engine receives, the previous byte was acknowledged, none is held, and
the controller does not stand between bytes. -/
def Engine.receiving (e : Engine) (p : RefPhase) : Bool :=
  !anyBit e.regs.sr2 sr2TRA && e.addressDone p && p.rxAck && p.held.isNone && !e.betweenBytes p

/-- No byte is in flight on the bus: none in the shift register, no address byte out, none being received. -/
def Engine.noByteInFlight (e : Engine) (p : RefPhase) : Bool :=
  p.shift.isNone && p.addr.isNone && !e.receiving p

/-- A transmit may go on: the engine transmits and its address phase is over. -/
def Engine.transmitting (e : Engine) (p : RefPhase) : Bool := anyBit e.regs.sr2 sr2TRA && e.addressDone p

/-- The guard of a reaction (20 R87, second column). -/
def Engine.admits (e : Engine) (p : RefPhase) : Reaction → Bool
  | .start =>
    anyBit e.regs.cr1 cr1START &&
      (!anyBit e.regs.sr2 sr2BUSY || (anyBit e.regs.sr2 sr2MSL && e.noByteInFlight p))
  | .addrAck => p.addr.isSome
  | .addrNack => p.addr.isSome
  | .txReady => e.transmitting p && p.shift.isNone && !anyBit e.regs.sr1 sr1TxE && p.txDr.isNone
  | .txByte =>
    e.transmitting p &&
      (p.shift.isSome || p.txDr.isSome || (anyBit e.regs.sr1 sr1TxE && !anyBit e.regs.sr1 sr1BTF))
  | .txNack => e.transmitting p && p.shift.isSome
  | .rxByte _ => e.receiving p
  | .stop => anyBit e.regs.cr1 cr1STOP && e.noByteInFlight p
  | .arbLost => anyBit e.regs.sr2 sr2MSL
  | .error _ => true
  | .slaveAddr _ => !anyBit e.regs.sr2 sr2MSL
  | .slaveRx _ => !anyBit e.regs.sr2 sr2MSL
  | .slaveTx => !anyBit e.regs.sr2 sr2MSL
  | .slaveStop => !anyBit e.regs.sr2 sr2MSL

/-- The registers after some hardware bits of CR1, SR1 and SR2 are cleared and set. -/
def Regs.hw (r : Regs) (cr1Clear sr1Clear sr1Set sr2Clear sr2Set : Half) : Regs :=
  { r with
    cr1 := clearMask r.cr1 cr1Clear
    sr1 := setMask (clearMask r.sr1 sr1Clear) sr1Set
    sr2 := setMask (clearMask r.sr2 sr2Clear) sr2Set }

/-- The engine with new registers and a new reference phase. -/
def Engine.react (e : Engine) (r : Regs) (p : RefPhase) : Engine := { e with regs := r, ctrl := .ref p }

/-- The flag of an RF10 error. -/
def RefError.mask : RefError → Half
  | .berr => sr1BERR
  | .ovr => sr1OVR
  | .timeout => sr1TIMEOUT

/-- The TRA bit an address byte selects: set for a write address (20 R87, RF2). -/
def traOf (a : Byte) : Half := if a.getLsbD 0 then 0 else sr2TRA

/-- The effect of a reaction whose guard holds (20 R87, third column). DESIGN CHOICE (log 15): what a reaction leaves of the
controller's own phase where the table names registers only, so that a data byte answered by NACK (RF6) leaves the shift
register idle and a byte that waits in DR waiting. -/
def Engine.reaction (e : Engine) (p : RefPhase) : Reaction → Engine
  | .start =>
    e.react (e.regs.hw cr1START (sr1TxE ||| sr1BTF) sr1SB sr2TRA (sr2MSL ||| sr2BUSY)) RefPhase.quiet
  | .addrAck =>
    e.react (e.regs.hw 0 0 sr1ADDR sr2TRA (traOf (p.addr.getD 0)))
      { p with addr := none, acked := true, rxAck := true, gap := false }
  | .addrNack => e.react (e.regs.hw 0 0 sr1AF 0 0) { p with addr := none, acked := false }
  | .txReady => e.react (e.regs.hw 0 0 sr1TxE 0 0) p
  | .txByte =>
    match p.txDr with
    | some b => e.react (e.regs.hw 0 0 sr1TxE 0 0) { p with shift := some b, txDr := none }
    | none => e.react (e.regs.hw 0 0 sr1BTF 0 0) { p with shift := none }
  | .txNack => e.react (e.regs.hw 0 0 sr1AF 0 0) { p with shift := none }
  | .rxByte d =>
    if anyBit e.regs.sr1 sr1RxNE then e.react (e.regs.hw 0 0 sr1BTF 0 0) { p with held := some d }
    else
      e.react { e.regs.hw 0 0 sr1RxNE 0 0 with dr := d }
        { p with rxAck := anyBit e.regs.cr1 cr1ACK, gap := e.requested }
  | .stop =>
    e.react (e.regs.hw cr1STOP (sr1TxE ||| sr1BTF) 0 (sr2MSL ||| sr2BUSY ||| sr2TRA) 0)
      { RefPhase.quiet with held := p.held }
  | .arbLost => e.react (e.regs.hw 0 0 sr1ARLO (sr2MSL ||| sr2TRA) 0) RefPhase.quiet
  | .error k => e.react (e.regs.hw 0 0 k.mask 0 0) p
  | .slaveAddr tra => e.react (e.regs.hw 0 0 sr1ADDR sr2TRA (if tra then sr2TRA else 0)) p
  | .slaveRx d => e.react { e.regs.hw 0 0 sr1RxNE 0 0 with dr := d } p
  | .slaveTx => e.react (e.regs.hw 0 0 sr1TxE 0 0) p
  | .slaveStop => e.react (e.regs.hw 0 0 sr1STOPF 0 0) p

/-- A reaction input on a controller: taken if the controller is REF and the guard holds, nothing otherwise. -/
def Engine.applyRef (x : Reaction) (e : Engine) : Engine :=
  match e.ctrl with
  | .free => e
  | .ref p => if e.admits p x then e.reaction p x else e

/-- A FREE step as an input: taken if the controller is FREE, nothing otherwise. -/
def Engine.applyFreeInput (c : HwChange) (e : Engine) : Engine :=
  match e.ctrl with
  | .free => e.applyFree c
  | .ref _ => e

end Sys2Proof.Machine
end

