-- ==== Sys2Proof/Machine/Memory.lean ====
section
/-! DEFINITION. Caller memory (20 R70 to R72): bytes at 32-bit addresses, held as a list in one canonical form. -/

namespace Sys2Proof.Machine

/-- What an address no write has reached reads as. DESIGN CHOICE (log 5): the spec gives caller memory no contents
of its own. -/
def unlistedByte : Byte := 0

/-- The byte at an address. -/
def Memory.read : List Host.Cell → Nat → Byte
  | [], _ => unlistedByte
  | (a, b) :: rest, x => if a = x then b else Memory.read rest x

/-- Put a cell in front, unless it holds what an unlisted address reads as. -/
def Memory.cons (x : Nat) (v : Byte) (m : List Host.Cell) : List Host.Cell :=
  if v = unlistedByte then m else (x, v) :: m

/-- Store a byte, keeping the canonical form. -/
def Memory.write : List Host.Cell → Nat → Byte → List Host.Cell
  | [], x, v => Memory.cons x v []
  | (a, b) :: rest, x, v =>
    if x < a then Memory.cons x v ((a, b) :: rest)
    else if x = a then Memory.cons x v rest
    else (a, b) :: Memory.write rest x v

/-- Every address of `m` lies at `lo` or above. -/
def Memory.above (lo : Nat) : List Host.Cell → Bool
  | [] => true
  | (a, b) :: rest => decide (lo ≤ a) && decide (a < 2 ^ 32) && b != unlistedByte && Memory.above (a + 1) rest

/-- The canonical form: addresses strictly rising and inside the 32-bit space, no entry equal to what an unlisted
address reads as. -/
def Memory.wf (m : List Host.Cell) : Bool := Memory.above 0 m

end Sys2Proof.Machine
end

