-- ==== Sys2Proof/Machine/Operands.lean ====
section
/-! DEFINITION. Operands: the address byte and the memory-address bytes (30 R125, R126), buffer addresses (20 R71,
R72), and the entry checks that refuse an operand by name (30 R132, 41 R180, R183, 42 R210, R211). -/

namespace Sys2Proof.Machine

/-! ## Encodings the source fixes -/

/-- The direction bit of an address byte (30 R125). -/
def Dir.bit : Dir → Byte
  | .write => 0
  | .read => 1

/-- The address byte: the 7-bit address shifted left by one, the direction in bit 0; a[7] is discarded (30 R125). -/
def addrByte (a : Byte) (d : Dir) : Byte := ((a <<< 1) &&& 0xFE) ||| Dir.bit d

/-- The memory-address bytes MEM_READ sends: big-endian for width 2, the low byte alone for width 1 (30 R126). -/
def memAddrBytes (memAddr : Half) (width : Byte) : List Byte :=
  if width = 1 then [memAddr.extractLsb' 0 8] else [memAddr.extractLsb' 8 8, memAddr.extractLsb' 0 8]

/-! ## Buffer addresses -/

/-- An address lies in a region. -/
def Region.holds (r : Region) (a : Word) : Bool :=
  decide (r.base.toNat ≤ a.toNat) && decide (a.toNat < r.base.toNat + r.size)

/-- `BUF_OK(a)`: the caller has made the byte at `a` valid (00 R9, 20 R71). -/
def Params.bufferOk (p : Params) (a : Word) : Bool := p.bufOk.any (·.holds a)

/-- The source of a blocking transmit after one byte: the next buffer address modulo 2^32 (20 R72), or the rest of the
scratch. -/
def Src.tail : Src → Src
  | .mem p => .mem (p + 1)
  | .scratch bytes => .scratch bytes.tail

/-! ## Entry checks

Each answers the refusal it raises, or the value the command goes on with. The commands run them in the order of their
pseudocode, so the first that fails names the refusal (60 R308). -/

/-- The controller a command names, one of `nInst` (30 R124). -/
def checkIndex (nInst i : Nat) : Except Refusal Idx :=
  if i < nInst then .ok i else .error (.noSuchInstance i)

/-- A receive moves at least one byte (41 R180, R183, 42 R211). -/
def checkReceiveLength (len : Word) : Except Refusal Unit :=
  if len = 0 then .error .zeroLengthReceive else .ok ()

/-- A NULL buffer has length 0 (41 R180, 42 R210). -/
def checkBuffer (buf len : Word) : Except Refusal Unit :=
  if buf = 0 ∧ len ≠ 0 then .error .nullBuffer else .ok ()

/-- MEM_READ sends one or two memory-address bytes (41 R183). -/
def checkWidth (width : Byte) : Except Refusal Unit :=
  if width = 1 ∨ width = 2 then .ok () else .error (.badAddressWidth width)

end Sys2Proof.Machine
end

