-- ==== Sys2Proof/Machine/Ops.lean ====
section
/-! DEFINITION. The named operations every command is composed of: engines and handles, register accesses with their
side effects (20 R73 to R84), buffer accesses (20 R71), the contexts' positions (10 R33), handler entry and return
(60 R306 to R313), and the callback emission (44 R274). -/

namespace Sys2Proof.Machine

/-! ## Engines, handles, the trace -/

/-- What an index of no controller holds: a controller at launch, not wired, which no input, dispatch or command
reaches (log 18). -/
def Engine.absent : Engine := Engine.launch 0 Launch.default ⟨0, false⟩ .free

/-- The `i`-th engine of a list. -/
def engineAt : List Engine → Idx → Engine
  | [], _ => Engine.absent
  | e :: _, 0 => e
  | _ :: es, i + 1 => engineAt es i

/-- A list with `e` as its `i`-th engine. -/
def putEngine : List Engine → Idx → Engine → List Engine
  | [], 0, e => [e]
  | [], i + 1, e => Engine.absent :: putEngine [] i e
  | _ :: es, 0, e => e :: es
  | x :: es, i + 1, e => x :: putEngine es i e

/-- The engine of controller `i`. -/
def State.eng (s : State) (i : Idx) : Engine := engineAt s.engines i

/-- Replace the engine of controller `i`. -/
def State.setEng (s : State) (i : Idx) (e : Engine) : State := { s with engines := putEngine s.engines i e }

/-- Append to the observed trace (00 R14). -/
def State.emit (s : State) (x : Event) : State := { s with trace := s.trace ++ [x] }

/-- The handle of controller `i`. -/
def State.handle (s : State) (i : Idx) : Handle := (s.eng i).h

/-- Write a handle field of controller `i`. -/
def State.setHandle (s : State) (i : Idx) (h : Handle) : State := s.setEng i { s.eng i with h := h }

/-- The update of the pending latches at a boundary, for every controller (60 R306). -/
def State.latchAll (s : State) : State :=
  { s with engines := s.engines.map Engine.latchPending }

/-- The same state with other inputs to come. -/
def State.withInputs (s : State) (xs : List Input) : State := { s with inputs := xs }

/-- The same state with other commands to issue. -/
def State.withProgram (s : State) (ws : List CmdWord) : State := { s with program := ws }

/-! ## Register accesses (20 R73 to R84) -/

/-- The word a read of a register returns: its contents, of DR the byte received last, the reserved upper bits 0 (10 R35, R39). -/
def Engine.value (e : Engine) : Reg → Word
  | .cr1 => e.regs.cr1.setWidth 32
  | .cr2 => e.regs.cr2.setWidth 32
  | .oar1 => e.regs.oar1.setWidth 32
  | .oar2 => e.regs.oar2.setWidth 32
  | .dr => e.regs.dr.setWidth 32
  | .sr1 => e.regs.sr1.setWidth 32
  | .sr2 => e.regs.sr2.setWidth 32
  | .ccr => e.regs.ccr.setWidth 32
  | .trise => e.regs.trise.setWidth 32
  | .fltr => e.regs.fltr.setWidth 32

/-- An SR1 read sets the four latches from the flags it sees and clears no flag (20 R75). -/
def Engine.readSR1 (e : Engine) : Engine :=
  { e with lat := ⟨anyBit e.regs.sr1 sr1SB, anyBit e.regs.sr1 sr1ADDR, anyBit e.regs.sr1 sr1BTF,
      anyBit e.regs.sr1 sr1STOPF⟩ }

/-- An SR2 read clears ADDR if the latest SR1 read saw it (20 R76). -/
def Engine.readSR2 (e : Engine) : Engine :=
  { e with
    regs := { e.regs with sr1 := clearIf e.lat.addr e.regs.sr1 sr1ADDR }
    lat  := { e.lat with addr := false } }

/-- A DR read clears RxNE, and BTF if the latest SR1 read saw it (20 R78); a byte the reference controller holds then
comes in (20 R87, RF7). -/
def Engine.readDR (e : Engine) : Engine :=
  let sr1 := clearIf e.lat.btf (clearMask e.regs.sr1 sr1RxNE) sr1BTF
  let e' := { e with regs := { e.regs with sr1 := sr1 }, lat := { e.lat with btf := false } }
  match e.ctrl.heldByte with
  | none => e'
  | some d =>
    { e' with
      regs := { e'.regs with dr := d, sr1 := setMask (clearMask sr1 sr1BTF) sr1RxNE }
      ctrl := e.ctrl.release (anyBit e.regs.cr1 cr1ACK) e.requested }

/-- What reading a register does to the engine (20 R75, R76, R78, R82). -/
def Engine.afterRead (e : Engine) : Reg → Engine
  | .sr1 => e.readSR1
  | .sr2 => e.readSR2
  | .dr => e.readDR
  | .cr1 => e
  | .cr2 => e
  | .oar1 => e
  | .oar2 => e
  | .ccr => e
  | .trise => e
  | .fltr => e

/-- A DR write hands its low byte to the controller, clears TxE, and clears SB and BTF if the latest SR1 read saw them
(20 R77). The byte received last, which a read returns, stays (10 R39, log 22). -/
def Engine.writeDR (e : Engine) (v : Word) : Engine :=
  let b : Byte := v.setWidth 8
  { e with
    regs := { e.regs with
      tdr := b
      sr1 := clearMask (clearIf e.lat.btf (clearIf e.lat.sb e.regs.sr1 sr1SB) sr1BTF) sr1TxE }
    lat  := { e.lat with sb := false, btf := false }
    ctrl := e.ctrl.onWriteDR (e.lat.sb && anyBit e.regs.sr1 sr1SB) b }

/-- With PE = 0 every status flag and START, STOP and ACK are 0 (20 R84). -/
def Regs.disabledIfPE0 (r : Regs) : Regs :=
  if anyBit r.cr1 cr1PE then r
  else { r with cr1 := clearMask r.cr1 (cr1START ||| cr1STOP ||| cr1ACK), sr1 := 0, sr2 := 0 }

/-- A CR1 write sets every software-writable bit, and clears STOPF if the latest SR1 read saw it (20 R79). -/
def Engine.writeCR1 (e : Engine) (v : Word) : Engine :=
  { e with
    regs := Regs.disabledIfPE0 { e.regs with
      cr1 := mergeMask e.regs.cr1 (v.setWidth 16) cr1Writable
      sr1 := clearIf e.lat.stopf e.regs.sr1 sr1STOPF }
    lat  := { e.lat with stopf := false } }

/-- A CR2 write sets every software-writable bit (20 R81). -/
def Engine.writeCR2 (e : Engine) (v : Word) : Engine :=
  { e with regs := { e.regs with cr2 := mergeMask e.regs.cr2 (v.setWidth 16) cr2Writable } }

/-- An SR1 write clears each error flag written 0 and leaves every other bit (20 R80). -/
def Engine.writeSR1 (e : Engine) (v : Word) : Engine :=
  { e with regs := { e.regs with sr1 := e.regs.sr1 &&& (v.setWidth 16 ||| ~~~rcw0All) } }

/-- What writing a register does to the engine. SR2 ignores writes (20 R82). The engine writes CR1, CR2, DR and SR1
only; the registers of initialisation keep their reserved bits (10 R38, R42). -/
def Engine.afterWrite (e : Engine) (v : Word) : Reg → Engine
  | .cr1 => e.writeCR1 v
  | .cr2 => e.writeCR2 v
  | .dr => e.writeDR v
  | .sr1 => e.writeSR1 v
  | .sr2 => e
  | .oar1 => { e with regs := { e.regs with oar1 := mergeMask e.regs.oar1 (v.setWidth 16) 0xC3FF } }
  | .oar2 => { e with regs := { e.regs with oar2 := mergeMask e.regs.oar2 (v.setWidth 16) 0x00FF } }
  | .ccr => { e with regs := { e.regs with ccr := mergeMask e.regs.ccr (v.setWidth 16) 0xCFFF } }
  | .trise => { e with regs := { e.regs with trise := mergeMask e.regs.trise (v.setWidth 16) 0x003F } }
  | .fltr => { e with regs := { e.regs with fltr := mergeMask e.regs.fltr (v.setWidth 16) 0x001F } }

/-- `RegRead(R)` on controller `i`, its effect; the value read is `(s.eng i).value r` (00 R11, 20 R73). -/
def State.regRead (s : State) (i : Idx) (r : Reg) : State :=
  (s.setEng i ((s.eng i).afterRead r)).emit (.regRead i r ((s.eng i).value r))

/-- `RegWrite(R, v)` on controller `i` (00 R11, 20 R73). -/
def State.regWrite (s : State) (i : Idx) (r : Reg) (v : Word) : State :=
  (s.setEng i ((s.eng i).afterWrite v r)).emit (.regWrite i r v)

/-! ## Buffer accesses (20 R71) -/

/-- The byte of caller memory at `a`. -/
def State.byteAt (s : State) (a : Word) : Byte := Memory.read s.mem a.toNat

/-- `MemRead(a, 1)`, its effect on the trace; the value read is `s.byteAt a`. -/
def State.memRead (s : State) (a : Word) : State := s.emit (.memRead a (s.byteAt a))

/-- `MemWrite(a, 1, b)`. -/
def State.memWrite (s : State) (a : Word) (b : Byte) : State :=
  { s with mem := Memory.write s.mem a.toNat b }.emit (.memWrite a b)

/-! ## Marks (00 R12, 10 R47) -/

/-- `raise Refuse(r)` inside a run: the run is marked refused, what was done before stays. -/
def State.refuse (s : State) (r : Refusal) : State := { s with refused := some r }

/-- `raise Fault(e)`: the fault is recorded, what was done before stays. -/
def State.fail (s : State) (e : Fault) : State := { s with faults := s.faults ++ [e] }

/-- The run is marked refused or faulted, and no context goes on (00 R12, 60 R311). -/
def State.marked (s : State) : Bool := s.refused.isSome || !s.faults.isEmpty

/-! ## The contexts' positions (10 R33, R34) -/

/-- The frame of the running context: the handler context's if a handler runs, the main context's otherwise. -/
def State.top (s : State) : Option Frame :=
  match s.handlers with
  | f :: _ => some f
  | [] => s.main.head?

/-- Put the running context at another position. -/
def State.setTop (s : State) (f : Frame) : State :=
  match s.handlers with
  | _ :: fs => { s with handlers := f :: fs }
  | [] => { s with main := f :: s.main.tail }

/-- A call in the running context. -/
def State.push (s : State) (f : Frame) : State :=
  match s.handlers with
  | g :: fs => { s with handlers := f :: g :: fs }
  | [] => { s with main := f :: s.main }

/-- A frame on top of the handler context. -/
def State.enter (s : State) (f : Frame) : State := { s with handlers := f :: s.handlers }

/-- The end of the innermost call of the running context. -/
def State.pop (s : State) : State :=
  match s.handlers with
  | _ :: fs => { s with handlers := fs }
  | [] => { s with main := s.main.tail }

/-- How many calls are open in the two contexts. -/
def State.depth (s : State) : Nat := s.main.length + s.handlers.length

/-- The frame of a command that starts. -/
def Frame.start (m : Mnemonic) (i : Idx) (lines : List Line) (res : Result) : Frame :=
  ⟨.command m, i, lines, Locals.init, res⟩

/-- The frame of the application callback `APP(i, code)`, at the first node of its program (44 R274). -/
def Frame.callback (i : Idx) (code : EventCode) : Frame :=
  ⟨.app, i, [⟨.app, .straight⟩], { Locals.init with code := code }, .none⟩

/-- `return`: the frame ends. A command's result is observed (00 R14); a handler's return restores nothing, since
entry changed nothing (60 R312). -/
def State.leave (s : State) (f : Frame) : State :=
  match f.owner with
  | .command m => s.pop.emit (.result f.inst m f.result)
  | .ev => s.pop
  | .er => s.pop
  | .app => s.pop

/-! ## Interrupt dispatch, entry and return (60 R305 to R313) -/

/-- The two handlers. -/
inductive HandlerKind
  | ev
  | er
deriving DecidableEq, Repr

/-- The owner of a handler's frame. -/
def HandlerKind.owner : HandlerKind → Owner
  | .ev => .ev
  | .er => .er

/-- A pending latch (60 R306). -/
def Engine.pending (e : Engine) : HandlerKind → Bool
  | .ev => e.pendEV
  | .er => e.pendER

/-- The engine with a pending latch cleared (60 R310). -/
def Engine.clearPending (e : Engine) : HandlerKind → Engine
  | .ev => { e with pendEV := false }
  | .er => { e with pendER := false }

/-- The order in which the dispatch looks at one controller's latches (60 R308). -/
def IrqOrder.kinds : IrqOrder → List HandlerKind
  | .evFirst => [.ev, .er]
  | .erFirst => [.er, .ev]

/-- The order in which the dispatch looks at the latches of `nInst` controllers (60 R308). -/
def dispatchOrder (nInst : Nat) (o : IrqOrder) : List (HandlerKind × Idx) :=
  (List.range nInst).flatMap fun i => o.kinds.map fun k => (k, i)

/-- No error handler runs. -/
def State.noErHandler (s : State) : Bool := s.handlers.all fun f => decide (f.owner ≠ .er)

/-- Handler entry (60 R310), the one operation by which an interrupt is taken: the latch is cleared and the handler
context stands at the handler's first line. The main context's position, every handle, register and mask keep their
values. -/
def State.enterHandler (s : State) (k : HandlerKind) (i : Idx) (lines : List Line) : State :=
  (s.setEng i ((s.eng i).clearPending k)).enter ⟨k.owner, i, lines, Locals.init, .none⟩

/-! ## The callback emission (44 R274) -/

/-- The observable part of `CALLBACK(code)`: the event is appended to the controller's callback trace. -/
def State.emitCallback (s : State) (i : Idx) (code : EventCode) : State :=
  (s.setEng i { s.eng i with cbTrace := (s.eng i).cbTrace ++ [code] }).emit (.callback i code)

/-! ## Re-initialisation (70 R344) -/

/-- A boundary at which controller `i` may be initialised anew: no handler runs, no command of it is in progress, no
transfer is in flight (log 14). -/
def State.quietFor (s : State) (i : Idx) : Bool :=
  s.handlers.isEmpty && s.main.all (fun f => decide (f.inst ≠ i)) &&
    decide ((s.handle i).transferState = .ready)

/-- The reset of one controller to the launch premise with new launch values (70 R340, R342, R344). R340's table, which it
gives for a re-initialisation too, has rows for the two contexts and the marks; R344 calls it a reset of that instance.
DESIGN CHOICE (log 14): the reset is of the instance alone. The main context and its program stay where they stand, and
so do the marks, the trace and caller memory. -/
def State.reinit (s : State) (i : Idx) (l : Launch) : State :=
  s.setEng i (Engine.launch i l (s.eng i).wiring (s.eng i).ctrl.atLaunch)

end Sys2Proof.Machine
end

