-- ==== Sys2Proof/Machine/Sequence.lean ====
section
/-! DEFINITION. The command sequences: the pseudocode of 40 to 44 as lists of lines, each one micro-step (00 R13). A line
is an access and what the pseudocode does after it; the tests of the pseudocode are in `Next.go`. -/

namespace Sys2Proof.Machine

/-- A line after which the pseudocode goes straight on. -/
def Line.then (a : Act) : Line := ⟨a, .straight⟩

/-! ## Primitives (40) -/

/-- `SetBits(R, mask)`: a read and a write of every bit, two micro-steps (20 R74). -/
def setBits (r : RmwReg) (mask : Half) : List Line := [.then (.readW r), .then (.writeOr r mask)]

/-- `ClearBits(R, mask)` (20 R74). -/
def clearBits (r : RmwReg) (mask : Half) : List Line := [.then (.readW r), .then (.writeAndNot r mask)]

/-- GEN_START (40 R150). -/
def genStart : List Line := setBits .cr1 cr1START

/-- GEN_STOP (40 R151). -/
def genStop : List Line := setBits .cr1 cr1STOP

/-- `if sr == 0: GEN_STOP`. -/
def genStopUnless (sr : Bool) : List Line := if sr then [] else genStop

/-- SEND_ADDR (40 R152). -/
def sendAddr (a : Byte) (d : Dir) : List Line := [.then (.writeDR (addrByte a d))]

/-- CLEAR_ADDR (40 R153): the one-byte receive disables ACK before the two reads. -/
def clearAddr : List Line := [⟨.getState, .ackOffIfRx⟩, .then .readSR1, .then .readSR2]

/-- MANAGE_ACK (40 R154). -/
def manageAck (en : Bool) : List Line := if en then setBits .cr1 cr1ACK else clearBits .cr1 cr1ACK

/-- WAIT_FLAGS (40 R155): the poll, at its first iteration. -/
def waitFlags (m : Half) (exit : PollExit) : List Line := [⟨.readSR1, .poll m 0 exit⟩]

/-- `a <- h.cfg.ackControl; if a == ACK_ENABLE: MANAGE_ACK(en = 1)` (41 R182, R184, 42 R214). -/
def restoreAck : List Line := [⟨.getPolicy, .ackOnIfPolicy⟩]

/-! ## Blocking transfers (41) -/

/-- The state check of R180. -/
def entryCheck : List Line := [⟨.getState, .busyIfNotReady⟩]

/-- START, the address and its flag, common to R181 and R182: up to the poll of ADDR. -/
def addressPhase (addr : Byte) (d : Dir) (rx : Bool) : List Line :=
  genStart ++ waitFlags sr1SB (.abort rx) ++ sendAddr addr d ++ waitFlags sr1ADDR (.abort rx)

/-- The byte of a transmit source, written to DR. MEM_READ's scratch makes no memory access (41 R183). -/
def sendFrom (src : Src) (after : Next) : List Line :=
  match src with
  | .mem p => [.then (.memReadAt p), ⟨.writeDRLocal, after⟩]
  | .scratch bytes => [⟨.writeDR (bytes.headD 0), after⟩]

/-- The loop of R181 with `n` bytes to send, and its end. -/
def txLoop (src : Src) (n : Word) (sr : Bool) : List Line :=
  if n = 0 then waitFlags (sr1TxE ||| sr1BTF) (.abort false) ++ genStopUnless sr
  else waitFlags sr1TxE (.abort false) ++ sendFrom src (.txMore src.tail (n - 1) sr)

/-- MASTER_TX after its refusals (41 R181). -/
def masterTx (src : Src) (len : Word) (addr : Byte) (sr : Bool) : List Line :=
  entryCheck ++ addressPhase addr .write false ++ clearAddr ++ txLoop src len sr

/-- The loop of R182 with `k` bytes not yet read. -/
def rxLoop (p k : Word) (sr : Bool) : List Line :=
  if k = 0 then []
  else
    waitFlags sr1RxNE (.abort true) ++ (if k = 2 then manageAck false ++ genStopUnless sr else []) ++
      [.then .readDR, ⟨.memWriteAt p, .rxMore (p + 1) (k - 1) sr⟩]

/-- The two branches of R182 on the length. -/
def rxBytes (buf len : Word) (sr : Bool) : List Line :=
  if len = 1 then
    manageAck false ++ clearAddr ++ waitFlags sr1RxNE (.abort true) ++ genStopUnless sr ++
      [.then .readDR, .then (.memWriteAt buf)]
  else clearAddr ++ rxLoop buf len sr

/-- MASTER_RX after its refusals (41 R182). -/
def masterRx (buf len : Word) (addr : Byte) (sr : Bool) : List Line :=
  entryCheck ++ addressPhase addr .read true ++ rxBytes buf len sr ++ restoreAck

/-- MEM_READ after its refusals (41 R183): the transmit of the memory address with repeated start, then the receive. -/
def memRead (addr : Byte) (memAddr : Half) (width : Byte) (buf size : Word) : List Line :=
  masterTx (.scratch (memAddrBytes memAddr width)) (width.setWidth 32) addr true ++ masterRx buf size addr false

/-- The value written to SR1 to clear the flags of `e` and no other (41 R184, 44 R271). -/
def errClearValue (e : Word) : Word := rcw0All.setWidth 32 &&& ~~~e

/-- ABORT_BLOCKING(st, e, rx) (41 R184). -/
def abortBlocking (st : Status) (e : Word) (rx : Bool) : List Line :=
  (if st = .error then
    [.then (.writeSR1 (errClearValue e))] ++
      (if sampled e sr1AF && !sampled e (sr1ARLO ||| sr1BERR) then genStop else [])
   else []) ++
  (if rx then restoreAck else [])

/-! ## Asynchronous start and close (42) -/

/-- The three enables, in the source's order (42 R210). -/
def enableInterrupts : List Line :=
  setBits .cr2 cr2ITBUFEN ++ setBits .cr2 cr2ITEVTEN ++ setBits .cr2 cr2ITERREN

/-- MASTER_TX_IT after its refusals (42 R210). -/
def masterTxIt (buf len : Word) (addr : Byte) (sr : Bool) : List Line :=
  [⟨.getState, .rejectIfBusy⟩, .then (.setTxBuffer buf), .then (.setTxRemaining len), .then (.setTarget addr),
    .then (.setRepeatedStart sr), .then (.setState .busyTx)] ++ genStart ++ enableInterrupts

/-- MASTER_RX_IT after its refusals (42 R211). -/
def masterRxIt (buf len : Word) (addr : Byte) (sr : Bool) : List Line :=
  [⟨.getState, .rejectIfBusy⟩, .then (.setRxBuffer buf), .then (.setRxRemaining len), .then (.setTotal len),
    .then (.setTarget addr), .then (.setRepeatedStart sr), .then (.setState .busyRx)] ++ genStart ++ enableInterrupts

/-- `ClearBits(CR2, ITBUFEN); ClearBits(CR2, ITEVTEN)` (42 R213, R214). -/
def maskEvents : List Line := clearBits .cr2 cr2ITBUFEN ++ clearBits .cr2 cr2ITEVTEN

/-- CLOSE_TX (42 R213). -/
def closeTx : List Line :=
  maskEvents ++ [.then (.setTxBuffer 0), .then (.setTxRemaining 0), .then (.setState .ready)]

/-- CLOSE_RX (42 R214). -/
def closeRx : List Line :=
  maskEvents ++ [.then (.setRxBuffer 0), .then (.setRxRemaining 0), .then (.setState .ready), .then (.setTotal 0)] ++
    restoreAck

/-! ## Event handler (43) -/

/-- The sample each check begins with: CR2, then SR1 (43 R240). -/
def check (test : Next) : List Line := [.then .readCR2, ⟨.readSR1, test⟩]

/-- EV_IRQ: the six checks in their order (43 R240 to R246). -/
def evIrq : List Line :=
  check .sbEvent ++ check .addrEvent ++ check .btfEvent ++ check .stopfEvent ++ check .txeEvent ++ check .rxneEvent

/-- The master-receive byte step up to its first test (43 R247). -/
def rxneMaster : List Line := [.then .getTotal, ⟨.getRxRemaining, .rxneByte⟩]

/-- The rest of RXNE_MASTER for the sampled total and count (43 R247). -/
def rxneMasterByte (t n : Word) : List Line :=
  (if t = 1 then [.then .readDR, .then .getRxBuffer, .then .memWriteP, .then .decRxRemaining]
   else (if n = 2 then manageAck false else []) ++
    [.then .readDR, .then .getRxBuffer, .then .memWriteP, .then .incRxBuffer, .then .decRxRemaining]) ++
  [⟨.rereadRxRemaining, .rxneIfNoneLeft⟩]

/-! ## Error handler (44) -/

/-- One check of ER_IRQ: a fresh sample of SR1 (44 R270). -/
def errCheck (mask : Half) (code : EventCode) : List Line := [⟨.readSR1, .errEvent mask code⟩]

/-- ER_IRQ: the gate sampled once, then the five checks (44 R270). -/
def erIrq : List Line :=
  [.then .readCR2] ++ errCheck sr1BERR .errorBerr ++ errCheck sr1ARLO .errorArlo ++ errCheck sr1AF .errorAf ++
    errCheck sr1OVR .errorOvr ++ errCheck sr1TIMEOUT .errorTimeout

/-- The lines of a handler (60 R310: its first line is the handler context's entry position). -/
def handlerLines : HandlerKind → List Line
  | .ev => evIrq
  | .er => erIrq

/-! ## The tests of the pseudocode -/

/-- Go on with `more` before the lines that follow. -/
def Frame.insert (f : Frame) (more : List Line) : Frame := { f with lines := more ++ f.lines }

/-- `return res`: leave the lines that follow. -/
def Frame.finish (f : Frame) (res : Result) : Frame := { f with lines := [], result := res }

/-- A poll that ends otherwise than in OK (40 R155, 41 R184). -/
def Frame.pollFailed (f : Frame) (exit : PollExit) (st : Status) (e : Word) : Frame :=
  match exit with
  | .result => f.finish (.poll st e)
  | .abort rx => { f with lines := abortBlocking st e rx, result := .status st }

/-- The poll has reached its deadline after `k` reads (40 R155). -/
def Params.expired (p : Params) (k : Nat) : Bool :=
  match p.pollDeadline with
  | none => false
  | some d => decide (d ≤ k)

/-- The iteration of a poll after its SR1 read (40 R155): success first, then the error test, then the deadline. -/
def Frame.pollStep (f : Frame) (p : Params) (mask : Half) (k : Nat) (exit : PollExit) : Frame :=
  if f.loc.v &&& mask.setWidth 32 = mask.setWidth 32 then f
  else if p.propagateBusErrors && sampled f.loc.v errMask then
    f.pollFailed exit .error (f.loc.v &&& errMask.setWidth 32)
  else if p.expired (k + 1) then f.pollFailed exit .timeout 0
  else f.insert [⟨.readSR1, .poll mask (k + 1) exit⟩]

/-- How the pseudocode goes on after a micro-step, with the sampled locals in `f`; a fault where it raises one. -/
def Next.go (p : Params) (f : Frame) : Next → Except Fault Frame
  | .straight => .ok f
  | .poll mask k exit => .ok (f.pollStep p mask k exit)
  -- 40 R153
  | .ackOffIfRx => .ok (if f.loc.s = .busyRx then f.insert [⟨.getTotal, .ackOffIfOne⟩] else f)
  | .ackOffIfOne => .ok (if f.loc.t = 1 then f.insert (clearBits .cr1 cr1ACK) else f)
  -- 41 R180 to R182
  | .busyIfNotReady => .ok (if f.loc.s = .ready then f else f.finish (.status .busy))
  | .txMore src n sr => .ok (f.insert (txLoop src n sr))
  | .rxMore b k sr => .ok (f.insert (rxLoop b k sr))
  | .ackOnIfPolicy => .ok (if f.loc.pol = .enable then f.insert (manageAck true) else f)
  -- 42 R210, R211: the result is the state at entry
  | .rejectIfBusy => .ok (if f.loc.s = .ready then { f with result := .state .ready } else f.finish (.state f.loc.s))
  -- 43 R241
  | .sbEvent =>
    .ok (if sampled f.loc.c cr2ITEVTEN && sampled f.loc.v sr1SB then f.insert [⟨.getState, .sbByState⟩] else f)
  | .sbByState =>
    match f.loc.s with
    | .ready => .ok f
    | .busyTx => .ok (f.insert [.then .getTarget, .then (.sendTarget .write)])
    | .busyRx => .ok (f.insert [.then .getTarget, .then (.sendTarget .read)])
  -- 43 R242
  | .addrEvent => .ok (if sampled f.loc.c cr2ITEVTEN && sampled f.loc.v sr1ADDR then f.insert clearAddr else f)
  -- 43 R243
  | .btfEvent =>
    .ok (if sampled f.loc.c cr2ITEVTEN && sampled f.loc.v sr1BTF then f.insert [⟨.getState, .btfByState⟩] else f)
  | .btfByState =>
    .ok (if f.loc.s = .busyTx ∧ sampled f.loc.v sr1TxE = true then f.insert [⟨.getTxRemaining, .btfIfNoneLeft⟩] else f)
  | .btfIfNoneLeft => .ok (if f.loc.n = 0 then f.insert [⟨.getRepeatedStart, .btfFinish⟩] else f)
  | .btfFinish => .ok (f.insert (genStopUnless f.loc.r ++ closeTx ++ [.then (.callback .txCmplt)]))
  -- 43 R244
  | .stopfEvent =>
    .ok (if sampled f.loc.c cr2ITEVTEN && sampled f.loc.v sr1STOPF then
        f.insert (setBits .cr1 0 ++ [.then (.callback .stop)]) else f)
  -- 43 R245
  | .txeEvent =>
    .ok (if sampled f.loc.c cr2ITEVTEN && sampled f.loc.c cr2ITBUFEN && sampled f.loc.v sr1TxE then
        f.insert [⟨.readSR2, .txeByRole⟩] else f)
  | .txeByRole =>
    .ok (if sampled f.loc.u sr2MSL then f.insert [⟨.getState, .txeByState⟩]
      else if sampled f.loc.u sr2TRA then f.insert [.then (.callback .dataReq)] else f)
  | .txeByState => .ok (if f.loc.s = .busyTx then f.insert [⟨.getTxRemaining, .txeIfMore⟩] else f)
  | .txeIfMore =>
    .ok (if f.loc.n = 0 then f
      else f.insert [.then .getTxBuffer, .then .memReadP, .then .writeDRLocal, .then .decTxRemaining, .then .incTxBuffer])
  -- 43 R246
  | .rxneEvent =>
    .ok (if sampled f.loc.c cr2ITEVTEN && sampled f.loc.c cr2ITBUFEN && sampled f.loc.v sr1RxNE then
        f.insert [⟨.readSR2, .rxneByRole⟩] else f)
  | .rxneByRole =>
    .ok (if sampled f.loc.u sr2MSL then f.insert [⟨.getState, .rxneByState⟩]
      else if sampled f.loc.u sr2TRA then f else f.insert [.then (.callback .dataRcv)])
  | .rxneByState => .ok (if f.loc.s = .busyRx then f.insert rxneMaster else f)
  -- 43 R247
  | .rxneByte =>
    if f.loc.n = 0 then .error (.rxUnderflow f.inst) else .ok (f.insert (rxneMasterByte f.loc.t f.loc.n))
  | .rxneIfNoneLeft => .ok (if f.loc.m = 0 then f.insert [⟨.getRepeatedStart, .rxneFinish⟩] else f)
  | .rxneFinish => .ok (f.insert (genStopUnless f.loc.r ++ closeRx ++ [.then (.callback .rxCmplt)]))
  -- 44 R270, R271
  | .errEvent mask code =>
    .ok (if sampled f.loc.c cr2ITERREN && sampled f.loc.v mask then
        f.insert [.then (.writeSR1 (errClearValue (mask.setWidth 32))), .then (.callback code)] else f)

/-! ## The commands: their refusals, then the position at their first line

`nInst` is the parameter `N_INST` (00 R9). -/

/-- GEN_START (40 R150). -/
def genStartCmd (nInst i : Nat) : Except Refusal Frame := do
  return Frame.start .GEN_START (← checkIndex nInst i) genStart .none

/-- GEN_STOP (40 R151). -/
def genStopCmd (nInst i : Nat) : Except Refusal Frame := do
  return Frame.start .GEN_STOP (← checkIndex nInst i) genStop .none

/-- SEND_ADDR (40 R152). -/
def sendAddrCmd (nInst i : Nat) (a : Byte) (d : Dir) : Except Refusal Frame := do
  return Frame.start .SEND_ADDR (← checkIndex nInst i) (sendAddr a d) .none

/-- CLEAR_ADDR (40 R153). -/
def clearAddrCmd (nInst i : Nat) : Except Refusal Frame := do
  return Frame.start .CLEAR_ADDR (← checkIndex nInst i) clearAddr .none

/-- MANAGE_ACK (40 R154). -/
def manageAckCmd (nInst i : Nat) (en : Bool) : Except Refusal Frame := do
  return Frame.start .MANAGE_ACK (← checkIndex nInst i) (manageAck en) .none

/-- WAIT_FLAGS (40 R155). -/
def waitFlagsCmd (nInst i : Nat) (m : Half) : Except Refusal Frame := do
  return Frame.start .WAIT_FLAGS (← checkIndex nInst i) (waitFlags m .result) (.poll .ok 0)

/-- MASTER_TX (41 R180, R181). -/
def masterTxCmd (nInst i : Nat) (buf len : Word) (addr : Byte) (sr : Bool) : Except Refusal Frame := do
  let x ← checkIndex nInst i
  checkBuffer buf len
  return Frame.start .MASTER_TX x (masterTx (.mem buf) len addr sr) (.status .ok)

/-- MASTER_RX (41 R180, R182). -/
def masterRxCmd (nInst i : Nat) (buf len : Word) (addr : Byte) (sr : Bool) : Except Refusal Frame := do
  let x ← checkIndex nInst i
  checkReceiveLength len
  checkBuffer buf len
  return Frame.start .MASTER_RX x (masterRx buf len addr sr) (.status .ok)

/-- MEM_READ (41 R183). -/
def memReadCmd (nInst i : Nat) (addr : Byte) (memAddr : Half) (width : Byte) (buf size : Word) : Except Refusal Frame := do
  let x ← checkIndex nInst i
  checkWidth width
  checkReceiveLength size
  checkBuffer buf size
  return Frame.start .MEM_READ x (memRead addr memAddr width buf size) (.status .ok)

/-- MASTER_TX_IT (42 R210). -/
def masterTxItCmd (nInst i : Nat) (buf len : Word) (addr : Byte) (sr : Bool) : Except Refusal Frame := do
  let x ← checkIndex nInst i
  checkBuffer buf len
  return Frame.start .MASTER_TX_IT x (masterTxIt buf len addr sr) .none

/-- MASTER_RX_IT (42 R211). -/
def masterRxItCmd (nInst i : Nat) (buf len : Word) (addr : Byte) (sr : Bool) : Except Refusal Frame := do
  let x ← checkIndex nInst i
  checkReceiveLength len
  checkBuffer buf len
  return Frame.start .MASTER_RX_IT x (masterRxIt buf len addr sr) .none

/-- CLOSE_TX (42 R213). -/
def closeTxCmd (nInst i : Nat) : Except Refusal Frame := do
  return Frame.start .CLOSE_TX (← checkIndex nInst i) closeTx .none

/-- CLOSE_RX (42 R214). -/
def closeRxCmd (nInst i : Nat) : Except Refusal Frame := do
  return Frame.start .CLOSE_RX (← checkIndex nInst i) closeRx .none

/-- A handler command issued by software (30 R137): no controller first, then the refusal (log 12). -/
def handlerCmd (nInst i : Nat) : Except Refusal Frame := do
  let _ ← checkIndex nInst i
  .error .handlerFromSoftware

/-- The frame of a command that software issues in a system of `nInst` controllers, or its refusal (30 R132). -/
def softwareCmd (nInst : Nat) : Instr → Except Refusal Frame
  | .genStart i => genStartCmd nInst i
  | .genStop i => genStopCmd nInst i
  | .sendAddr i a d => sendAddrCmd nInst i a d
  | .clearAddr i => clearAddrCmd nInst i
  | .manageAck i en => manageAckCmd nInst i en
  | .waitFlags i m => waitFlagsCmd nInst i m
  | .masterTx i buf len addr sr => masterTxCmd nInst i buf len addr sr
  | .masterRx i buf len addr sr => masterRxCmd nInst i buf len addr sr
  | .memRead i addr memAddr width buf size => memReadCmd nInst i addr memAddr width buf size
  | .masterTxIt i buf len addr sr => masterTxItCmd nInst i buf len addr sr
  | .masterRxIt i buf len addr sr => masterRxItCmd nInst i buf len addr sr
  | .closeTx i => closeTxCmd nInst i
  | .closeRx i => closeRxCmd nInst i
  | .evIrq i => handlerCmd nInst i
  | .erIrq i => handlerCmd nInst i

end Sys2Proof.Machine
end

