-- ==== Sys2Proof/Machine/App.lean ====
section
/-! DEFINITION. The application callback's own steps (44 R275 to R277): what its program computes, the rule it takes, and
the step it makes. How the program stands for `APP` is in log 8. -/

namespace Sys2Proof.Machine

/-! ## What the program computes -/

/-- A handle field as the number of its encoding (30 R127, R130). -/
def Handle.field (h : Handle) : HandleField → Word
  | .txBuffer => h.txBuffer
  | .rxBuffer => h.rxBuffer
  | .txRemaining => h.txRemaining
  | .rxRemaining => h.rxRemaining
  | .rxExpectedTotal => h.rxExpectedTotal
  | .transferState => h.transferState.code.setWidth 32
  | .targetDeviceAddress => h.targetDeviceAddress.setWidth 32
  | .repeatedStartRequested => (BitVec.ofBool h.repeatedStartRequested).setWidth 32
  | .speed => h.cfg.speed.code.setWidth 32
  | .duty => h.cfg.duty.code.setWidth 32
  | .ackControl => h.cfg.ackControl.code.setWidth 32
  | .ownAddress => h.cfg.ownAddress.setWidth 32

/-- An operation on 32-bit words. -/
def AppOp.apply (o : AppOp) (a b : Word) : Word :=
  match o with
  | .add => a + b
  | .sub => a - b
  | .mul => a * b
  | .and => a &&& b
  | .or => a ||| b
  | .xor => a ^^^ b
  | .shiftLeft => a <<< b
  | .shiftRight => a >>> b
  | .eq => if a = b then 1 else 0
  | .lt => if a.toNat < b.toNat then 1 else 0

/-- A value, for the callback that stands at frame `f`. Looking at a handle is no micro-step of its own (log 8). -/
def AppExpr.eval (f : Frame) (s : State) : AppExpr → Word
  | .const v => v
  | .code => f.loc.code.code.setWidth 32
  | .inst => BitVec.ofNat 32 f.inst
  | .var k => f.loc.vars.getD k 0
  | .handle i g => (s.handle (i.eval f s).toNat).field g
  | .op o a b => o.apply (a.eval f s) (b.eval f s)

/-- A list with `v` at place `k`, filled up with 0. -/
def putVar : List Word → Nat → Word → List Word
  | [], 0, v => [v]
  | [], k + 1, v => 0 :: putVar [] k v
  | _ :: vs, 0, v => v :: vs
  | x :: vs, k + 1, v => x :: putVar vs k v

/-- The frame with variable `k` set. -/
def Frame.setVar (f : Frame) (k : Nat) (v : Word) : Frame :=
  { f with loc := { f.loc with vars := putVar f.loc.vars k v } }

/-- The frame after a rule's settings, each computed from what those before it left, at the rule's next node. -/
def Frame.afterRule (f : Frame) (s : State) (r : AppRule) : Frame :=
  let g := r.sets.foldl (fun g x => g.setVar x.1 (x.2.eval g s)) f
  { g with loc := { g.loc with node := r.next } }

/-- What the application does next: its step and the frame it leaves, or nothing where no rule of its node applies. -/
def appChoice (f : Frame) (s : State) : Option (AppStep × Frame) :=
  ((s.params.app.getD f.loc.node []).find? fun r => r.guard.eval f s != 0).map fun r => (r.step, f.afterRule s r)

/-- The command record a step issues (30 R120). DESIGN CHOICE (log 8): a value the application computes is cut to the low
bits its operand has in the record (30 R124 gives the widths, and not what becomes of a wider value). -/
def AppCommand.record (c : AppCommand) (f : Frame) (s : State) : CmdWord :=
  CmdFields.toRecord {
    op    := (c.op.eval f s).setWidth 8
    i     := (c.i.eval f s).setWidth 8
    addr  := (c.addr.eval f s).setWidth 8
    sr    := (c.sr.eval f s).setWidth 1
    m     := (c.m.eval f s).setWidth 16
    width := (c.width.eval f s).setWidth 8
    buf   := c.buf.eval f s
    len   := c.len.eval f s }

/-- The frame of the command a record stands for, or its refusal: an opcode of no row, or what the command's own rule
refuses (30 R123, R132, R137). -/
def issued (nInst : Nat) (w : CmdWord) : Except Refusal Frame :=
  match decode w with
  | .error (.unknownCommand op) => .error (.unknownCommand op)
  | .ok x => softwareCmd nInst x

/-! ## Its step -/

/-- The next step of the application callback, in its frame `f` (44 R276): a command, a buffer access, an access of
DR of the controller that emitted the event, or its return. A DR write puts one byte on the port, the reserved bits 0
(30 R134, 10 R39). A command that is refused marks the run, and the callback stays where it is (60 R311). -/
def appStep (f : Frame) (s : State) : State :=
  match appChoice f s with
  | none => s.setTop (f.finish .none)
  | some (.ret, g) => s.setTop (g.finish .none)
  | some (.command c, g) =>
    match issued s.params.nInst (c.record g s) with
    | .error e => s.refuse e
    | .ok h => (s.setTop g).push h
  | some (.memRead a k, g) =>
    let p := a.eval g s
    if s.params.bufferOk p then (s.memRead p).setTop (g.setVar k ((s.byteAt p).setWidth 32)) else s
  | some (.memWrite a b, g) =>
    let p := a.eval g s
    if s.params.bufferOk p then (s.memWrite p ((b.eval g s).setWidth 8)).setTop g else s
  | some (.readDR k, g) => (s.regRead f.inst .dr).setTop (g.setVar k ((s.eng f.inst).value .dr))
  | some (.writeDR v, g) => (s.regWrite f.inst .dr (((v.eval g s).setWidth 8 : Byte).setWidth 32)).setTop g

/-! ## Stuck contexts -/

/-- The byte of caller memory that a frame accesses next, if that is what it does next. -/
def Frame.bufferAddr (f : Frame) (s : State) : Option Word :=
  match f.lines with
  | [] => none
  | x :: _ =>
    match x.act with
    | .memReadAt a => some a
    | .memWriteAt a => some a
    | .memReadP => some f.loc.p
    | .memWriteP => some f.loc.p
    | .app =>
      match appChoice f s with
      | some (.memRead a _, g) => some (a.eval g s)
      | some (.memWrite a _, g) => some (a.eval g s)
      | _ => none
    | _ => none

/-- A frame that stands at a buffer access `BUF_OK` rejects: its context is `stuck` (20 R71). -/
def Frame.stuck (f : Frame) (s : State) : Bool :=
  match f.bufferAddr s with
  | some a => !s.params.bufferOk a
  | none => false

end Sys2Proof.Machine
end

