-- ==== Sys2Proof/Machine/Run.lean ====
section
/-! DEFINITION. Running the sequences: one micro-step of the running context, one boundary (20 R96), and the run of a
command until it returns. -/

namespace Sys2Proof.Machine

/-! ## One micro-step -/

/-- The register behind a read-modify-write (20 R74). -/
def RmwReg.reg : RmwReg → Reg
  | .cr1 => .cr1
  | .cr2 => .cr2

/-- The effect of a micro-step's access: the state and the locals after it, or no step at all, when a buffer access is
one `BUF_OK` rejects (20 R71). `.app` is performed by `appStep`. -/
def perform (i : Idx) (l : Locals) (s : State) : Act → Option (State × Locals)
  | .readW r => some (s.regRead i r.reg, { l with w := (s.eng i).value r.reg })
  | .writeOr r mask => some (s.regWrite i r.reg (l.w ||| mask.setWidth 32), l)
  | .writeAndNot r mask => some (s.regWrite i r.reg (l.w &&& ~~~mask.setWidth 32), l)
  | .readCR2 => some (s.regRead i .cr2, { l with c := (s.eng i).value .cr2 })
  | .readSR1 => some (s.regRead i .sr1, { l with v := (s.eng i).value .sr1 })
  | .readSR2 => some (s.regRead i .sr2, { l with u := (s.eng i).value .sr2 })
  | .readDR => some (s.regRead i .dr, { l with b := ((s.eng i).value .dr).setWidth 8 })
  | .writeDR b => some (s.regWrite i .dr (b.setWidth 32), l)
  | .writeDRLocal => some (s.regWrite i .dr (l.b.setWidth 32), l)
  | .sendTarget d => some (s.regWrite i .dr ((addrByte l.a d).setWidth 32), l)
  | .writeSR1 v => some (s.regWrite i .sr1 v, l)
  | .memReadAt a => if s.params.bufferOk a then some (s.memRead a, { l with b := s.byteAt a }) else none
  | .memWriteAt a => if s.params.bufferOk a then some (s.memWrite a l.b, l) else none
  | .memReadP => if s.params.bufferOk l.p then some (s.memRead l.p, { l with b := s.byteAt l.p }) else none
  | .memWriteP => if s.params.bufferOk l.p then some (s.memWrite l.p l.b, l) else none
  | .getState => some (s, { l with s := (s.handle i).transferState })
  | .getTotal => some (s, { l with t := (s.handle i).rxExpectedTotal })
  | .getTxRemaining => some (s, { l with n := (s.handle i).txRemaining })
  | .getRxRemaining => some (s, { l with n := (s.handle i).rxRemaining })
  | .rereadRxRemaining => some (s, { l with m := (s.handle i).rxRemaining })
  | .getTxBuffer => some (s, { l with p := (s.handle i).txBuffer })
  | .getRxBuffer => some (s, { l with p := (s.handle i).rxBuffer })
  | .getTarget => some (s, { l with a := (s.handle i).targetDeviceAddress })
  | .getRepeatedStart => some (s, { l with r := (s.handle i).repeatedStartRequested })
  | .getPolicy => some (s, { l with pol := (s.handle i).cfg.ackControl })
  | .setTxBuffer v => some (s.setHandle i { s.handle i with txBuffer := v }, l)
  | .setRxBuffer v => some (s.setHandle i { s.handle i with rxBuffer := v }, l)
  | .setTxRemaining v => some (s.setHandle i { s.handle i with txRemaining := v }, l)
  | .setRxRemaining v => some (s.setHandle i { s.handle i with rxRemaining := v }, l)
  | .setTotal v => some (s.setHandle i { s.handle i with rxExpectedTotal := v }, l)
  | .setTarget a => some (s.setHandle i { s.handle i with targetDeviceAddress := a }, l)
  | .setRepeatedStart sr => some (s.setHandle i { s.handle i with repeatedStartRequested := sr }, l)
  | .setState st => some (s.setHandle i { s.handle i with transferState := st }, l)
  | .decTxRemaining => some (s.setHandle i { s.handle i with txRemaining := l.n - 1 }, l)
  | .incTxBuffer => some (s.setHandle i { s.handle i with txBuffer := l.p + 1 }, l)
  | .decRxRemaining => some (s.setHandle i { s.handle i with rxRemaining := l.n - 1 }, l)
  | .incRxBuffer => some (s.setHandle i { s.handle i with rxBuffer := l.p + 1 }, l)
  | .callback code => some (s.emitCallback i code, l)
  | .app => none

/-- What a micro-step calls: a callback emission runs the application's procedure before the next line (44 R274). -/
def State.callAfter (s : State) (i : Idx) : Act → State
  | .callback code => s.push (Frame.callback i code)
  | _ => s

/-- A line of frame `f`, `rest` the lines after it: the access, then the way the pseudocode goes on. A context whose
access has no step stays where it is (20 R71, log 13), and so does one that raises a fault, with the access made and the
fault recorded (00 R12, 60 R311). -/
def lineStep (f : Frame) (x : Line) (rest : List Line) (s : State) : State :=
  match perform f.inst f.loc s x.act with
  | none => s
  | some (s', l) =>
    match x.next.go s.params { f with lines := rest, loc := l } with
    | .error e => s'.fail e
    | .ok f' => (s'.setTop f').callAfter f.inst x.act

/-- One micro-step of a context whose innermost frame is `f`. -/
def frameStep (f : Frame) (s : State) : State :=
  match f.lines with
  | [] => s.leave f
  | ⟨.app, _⟩ :: _ => appStep f s
  | x :: rest => lineStep f x rest s

/-- One micro-step of the running context; nothing if both contexts are idle. -/
def contextStep (s : State) : State :=
  match s.top with
  | none => s
  | some f => frameStep f s

/-! ## The dispatch (60 R307 to R310) -/

/-- A handler context that is stuck: it, and so every context, has no step (60 R311). -/
def State.handlerStuck (s : State) : Bool :=
  match s.handlers with
  | [] => false
  | f :: _ => f.stuck s

/-- A latch may be taken now: any when no handler runs; with nesting, an error latch while an event handler runs that is
not stuck (60 R307, R311, R313). -/
def State.mayEnter (s : State) (k : HandlerKind) : Bool :=
  s.handlers.isEmpty || (s.params.irqNesting && decide (k = .er) && s.noErHandler && !s.handlerStuck)

/-- The latch a dispatch step takes, if one is enabled: the first in the order (60 R307, R308). -/
def State.nextInterrupt (s : State) : Option (HandlerKind × Idx) :=
  (dispatchOrder s.params.nInst s.params.irqOrder).find? fun x => (s.eng x.2).pending x.1 && s.mayEnter x.1

/-- The dispatch step. With no latch it may take, nothing happens (log 7). -/
def State.dispatch (s : State) : State :=
  match s.nextInterrupt with
  | none => s
  | some (k, i) => s.enterHandler k i (handlerLines k)

/-! ## One boundary -/

/-- A controller's step, `f` what it does to its engine. -/
def State.controllerStep (s : State) (i : Idx) (f : Engine → Engine) : State := s.setEng i (f (s.eng i))

/-- The platform initialises controller `i` anew where 70 R344 lets it, and is refused elsewhere (log 14). -/
def State.reinitInput (s : State) (i : Idx) (l : Launch) : State :=
  if s.quietFor i then s.reinit i l else s.refuse (.reinitDuringTransfer i)

/-- What an input does (20 R85, R96, 60 R307, 70 R344). One on a controller that does not exist does nothing (log 7). -/
def applyInput (x : Input) (s : State) : State :=
  match x with
  | .run => contextStep s
  | .free i c => if i < s.params.nInst then s.controllerStep i (Engine.applyFreeInput c) else s
  | .ref i r => if i < s.params.nInst then s.controllerStep i (Engine.applyRef r) else s
  | .dispatch => s.dispatch
  | .reinit i l => if i < s.params.nInst then s.reinitInput i l else s

/-- One step of the system at a boundary: the next input, or, with none left, the running context's next micro-step;
then the latches' update (60 R306). -/
def tick (s : State) : State :=
  match s.inputs with
  | [] => (contextStep s).latchAll
  | x :: rest => (applyInput x (s.withInputs rest)).latchAll

/-! ## The run of a command -/

/-- Tick until no more than `d` calls are open or the run is marked, at most `n` times. A run cut off by `n` stands at a
position of its own and goes on at the next step (log 10). -/
def advance : Nat → Nat → State → State
  | 0, _, s => s
  | n + 1, d, s => if s.depth ≤ d ∨ s.marked = true then s else advance n d (tick s)

/-- How far one step runs: through every input, and 128 micro-steps beyond, which is more than any command that does
not wait, and any handler with the no-op application, performs (log 10). -/
def State.fuel (s : State) : Nat := s.inputs.length + 128

/-- Run until the calls above depth `d` have returned. -/
def State.runTo (s : State) (d : Nat) : State := advance s.fuel d s

/-- Issue a command in the running context and run it: refused, or run until it returns. -/
def issue (c : Except Refusal Frame) (s : State) : Out :=
  match c with
  | .error e => .refused e
  | .ok f => .next ((s.push f).runTo s.depth)

/-- The handler that stands at its first line, if the dispatch has just entered one (60 R310). -/
def State.entered (s : State) (k : HandlerKind) (i : Idx) : Bool :=
  s.handlers.head? == some ⟨k.owner, i, handlerLines k, Locals.init, .none⟩

/-- A handler command: run if the dispatch has entered that handler, refused when software issues it (30 R137). -/
def runHandler (k : HandlerKind) (i : Nat) (s : State) : Out :=
  match checkIndex s.params.nInst i with
  | .error e => .refused e
  | .ok x => if s.entered k x then .next (s.runTo (s.depth - 1)) else .refused .handlerFromSoftware

end Sys2Proof.Machine
end

