-- ==== Sys2Proof/Machine/Async.lean ====
section
/-! DEFINITION. The asynchronous starts and the closes (42): family 2 of the opcode map. -/

namespace Sys2Proof.Machine

/-- MASTER_TX_IT (42 R210). -/
def execMasterTxIt (i : Nat) (buf len : Word) (addr : Byte) (sr : Bool) (s : State) : Out :=
  issue (masterTxItCmd s.params.nInst i buf len addr sr) s

/-- MASTER_RX_IT (42 R211). -/
def execMasterRxIt (i : Nat) (buf len : Word) (addr : Byte) (sr : Bool) (s : State) : Out :=
  issue (masterRxItCmd s.params.nInst i buf len addr sr) s

/-- CLOSE_TX (42 R213). -/
def execCloseTx (i : Nat) (s : State) : Out := issue (closeTxCmd s.params.nInst i) s

/-- CLOSE_RX (42 R214). -/
def execCloseRx (i : Nat) (s : State) : Out := issue (closeRxCmd s.params.nInst i) s

end Sys2Proof.Machine
end

