-- ==== Sys2Proof/Machine/Blocking.lean ====
section
/-! DEFINITION. The blocking transfers (41): family 1 of the opcode map. -/

namespace Sys2Proof.Machine

/-- MASTER_TX (41 R181). -/
def execMasterTx (i : Nat) (buf len : Word) (addr : Byte) (sr : Bool) (s : State) : Out :=
  issue (masterTxCmd s.params.nInst i buf len addr sr) s

/-- MASTER_RX (41 R182). -/
def execMasterRx (i : Nat) (buf len : Word) (addr : Byte) (sr : Bool) (s : State) : Out :=
  issue (masterRxCmd s.params.nInst i buf len addr sr) s

/-- MEM_READ (41 R183). -/
def execMemRead (i : Nat) (addr : Byte) (memAddr : Half) (width : Byte) (buf size : Word) (s : State) : Out :=
  issue (memReadCmd s.params.nInst i addr memAddr width buf size) s

end Sys2Proof.Machine
end

