-- ==== Sys2Proof/Machine/Handlers.lean ====
section
/-! DEFINITION. The interrupt entry points (43, 44): family 3 of the opcode map. -/

namespace Sys2Proof.Machine

/-- EV_IRQ (43 R240), issued by the dispatch alone (30 R137). -/
def execEvIrq (i : Nat) (s : State) : Out := runHandler .ev i s

/-- ER_IRQ (44 R270), issued by the dispatch alone (30 R137). -/
def execErIrq (i : Nat) (s : State) : Out := runHandler .er i s

end Sys2Proof.Machine
end

