-- ==== Sys2Proof/Machine/Primitives.lean ====
section
/-! DEFINITION. The bus-condition primitives (40): family 0 of the opcode map. -/

namespace Sys2Proof.Machine

/-- GEN_START (40 R150). -/
def execGenStart (i : Nat) (s : State) : Out := issue (genStartCmd s.params.nInst i) s

/-- GEN_STOP (40 R151). -/
def execGenStop (i : Nat) (s : State) : Out := issue (genStopCmd s.params.nInst i) s

/-- SEND_ADDR (40 R152). -/
def execSendAddr (i : Nat) (a : Byte) (d : Dir) (s : State) : Out := issue (sendAddrCmd s.params.nInst i a d) s

/-- CLEAR_ADDR (40 R153). -/
def execClearAddr (i : Nat) (s : State) : Out := issue (clearAddrCmd s.params.nInst i) s

/-- MANAGE_ACK (40 R154). -/
def execManageAck (i : Nat) (en : Bool) (s : State) : Out := issue (manageAckCmd s.params.nInst i en) s

/-- WAIT_FLAGS (40 R155). -/
def execWaitFlags (i : Nat) (m : Half) (s : State) : Out := issue (waitFlagsCmd s.params.nInst i m) s

end Sys2Proof.Machine
end

