-- ==== Sys2Proof/Machine/Dispatch.lean ====
section
/-! DEFINITION. The meaning of every command: one arm per row of the opcode map (30 R122). -/

namespace Sys2Proof.Machine

def exec (i : Instr) (s : State) : Host.Outcome State Fault Refusal :=
  match i with
  | .genStart n => Sys2Proof.Machine.execGenStart n s
  | .genStop n => Sys2Proof.Machine.execGenStop n s
  | .sendAddr n a d => Sys2Proof.Machine.execSendAddr n a d s
  | .clearAddr n => Sys2Proof.Machine.execClearAddr n s
  | .manageAck n en => Sys2Proof.Machine.execManageAck n en s
  | .waitFlags n m => Sys2Proof.Machine.execWaitFlags n m s
  | .masterTx n buf len addr sr => Sys2Proof.Machine.execMasterTx n buf len addr sr s
  | .masterRx n buf len addr sr => Sys2Proof.Machine.execMasterRx n buf len addr sr s
  | .memRead n addr memAddr width buf size => Sys2Proof.Machine.execMemRead n addr memAddr width buf size s
  | .masterTxIt n buf len addr sr => Sys2Proof.Machine.execMasterTxIt n buf len addr sr s
  | .masterRxIt n buf len addr sr => Sys2Proof.Machine.execMasterRxIt n buf len addr sr s
  | .closeTx n => Sys2Proof.Machine.execCloseTx n s
  | .closeRx n => Sys2Proof.Machine.execCloseRx n s
  | .evIrq n => Sys2Proof.Machine.execEvIrq n s
  | .erIrq n => Sys2Proof.Machine.execErIrq n s

end Sys2Proof.Machine
end

