-- ==== Sys2Proof/Machine/Step.lean ====
section
/-! DEFINITION. The step of the whole system, and how a program is put before it. -/

namespace Sys2Proof.Machine

/-- Issue the next command of the program from the idle main context (10 R33, 70 R340); with none left the main context
stays idle. -/
def State.fetch (s : State) : Out :=
  match s.program with
  | [] => .next s
  | w :: rest =>
    match decode w with
    | .error (.unknownCommand op) => .refused (.unknownCommand op)
    | .ok x => exec x (s.withProgram rest)

/-- A step with both contexts idle: the next input, or the next command. -/
def idleStep (s : State) : Out :=
  match s.inputs with
  | [] => s.fetch
  | .run :: rest => (s.withInputs rest).fetch
  | _ :: _ => .next (tick s)

/-- A step while a context stands inside a command or a handler: a handler at its first line is the handler command the
dispatch issues (60 R310), any other position goes on until the contexts are idle. -/
def busyStep (s : State) : Out :=
  match s.handlers with
  | [] => .next (s.runTo 0)
  | f :: _ =>
    if s.entered .ev f.inst then exec (.evIrq f.inst) s
    else if s.entered .er f.inst then exec (.erIrq f.inst) s
    else .next (s.runTo 0)

/-- One step of the system. A run marked refused or faulted answers its mark (10 R47). -/
def step (s : State) : Host.Outcome State Fault Refusal :=
  match s.refused, s.faults with
  | some r, _ => .refused r
  | none, e :: _ => .fault e
  | none, [] => if s.depth = 0 then idleStep s else busyStep s

/-- The state after an outcome (00 R12, 10 R47): a command refused at its entry has no effect but the mark. A fault, or a
refusal inside a run, is in the state already, where it was raised; no mark is ever cleared (log 11). -/
def State.mark (s : State) (o : Out) : State :=
  match o with
  | .next t => t
  | .fault _ => s
  | .refused r => if s.refused = none then s.refuse r else s

/-- `n` steps, with the marks of 10 R47. -/
def runMarked : Nat → State → State
  | 0, s => s
  | n + 1, s => runMarked n (s.mark (step s))

/-- The same state with a command record of the opcode table placed so that the next step runs it (log 2). A family 0
to 2 record, or one that does not decode, becomes the next command of an idle main context, with the boundary before it
the main context's. An EV_IRQ or ER_IRQ record is issued by the dispatch alone (30 R137), so the handler context stands
at that handler's first line. -/
def State.withFetchWord (s : State) (nbits w : Nat) : State :=
  let idle : State := { s with main := [], handlers := [], refused := none, faults := [] }
  match decodeTableWord nbits w with
  | some (.evIrq i) => idle.enter ⟨.ev, i, handlerLines .ev, Locals.init, .none⟩
  | some (.erIrq i) => idle.enter ⟨.er, i, handlerLines .er, Locals.init, .none⟩
  | _ => { idle with program := recordOfTable nbits w :: s.program, inputs := .run :: s.inputs }

end Sys2Proof.Machine
end

