-- ==== Sys2Proof/Safety.lean ====
section
/-! DEFINITION. The terms the statements are made in: what a command's run leaves unchanged, what is said to hold of a
state, the invariants of the machine, and the inputs under which a controller answers every poll at once. -/

namespace Sys2Proof

/-- The commands of families 0 and 1. -/
def Instr.synchronous : Instr → Bool
  | .genStart _ => true
  | .genStop _ => true
  | .sendAddr _ _ _ => true
  | .clearAddr _ => true
  | .manageAck _ _ => true
  | .waitFlags _ _ => true
  | .masterTx _ _ _ _ _ => true
  | .masterRx _ _ _ _ _ => true
  | .memRead _ _ _ _ _ _ => true
  | .masterTxIt _ _ _ _ _ => false
  | .masterRxIt _ _ _ _ _ => false
  | .closeTx _ => false
  | .closeRx _ => false
  | .evIrq _ => false
  | .erIrq _ => false

/-- The caller-memory bytes a command may store to: the receive buffer of MASTER_RX and MEM_READ, none for the other
commands of families 0 and 1. -/
def Instr.mayStore (x : Instr) (a : Word) : Prop :=
  match x with
  | .masterRx _ buf len _ _ => ∃ k, k < len.toNat ∧ a = buf + BitVec.ofNat 32 k
  | .memRead _ _ _ _ buf size => ∃ k, k < size.toNat ∧ a = buf + BitVec.ofNat 32 k
  | .genStart _ => False
  | .genStop _ => False
  | .sendAddr _ _ _ => False
  | .clearAddr _ => False
  | .manageAck _ _ => False
  | .waitFlags _ _ => False
  | .masterTx _ _ _ _ _ => False
  | .masterTxIt _ _ _ _ _ => False
  | .masterRxIt _ _ _ _ _ => False
  | .closeTx _ => False
  | .closeRx _ => False
  | .evIrq _ => False
  | .erIrq _ => False

end Sys2Proof

namespace Sys2Proof.Machine

/-! ## Premises on a state -/

/-- Controller `i` exists: it is one of the `N_INST` controllers (00 R9, 10 R20), and its engine is in the state. -/
def State.Has (s : State) (i : Idx) : Prop := i < s.params.nInst ∧ i < s.engines.length

/-- Neither mark of 10 R47 is set. -/
def State.Unmarked (s : State) : Prop := s.refused = none ∧ s.faults = []

/-- No input is pending and the run is not marked: a command that starts now runs to its end with nothing in between. -/
def State.Quiet (s : State) : Prop := s.inputs = [] ∧ s.Unmarked

/-- Controller `i` is enabled: CR1.PE = 1, as at launch (70 R342). No command writes PE to 0 (20 R84). -/
def State.Enabled (s : State) (i : Idx) : Prop := (s.eng i).regs.cr1.getLsbD 0 = true

/-- Caller memory has its canonical form. -/
def State.MemoryCanonical (s : State) : Prop := Memory.wf s.mem = true

/-- Controller `i` is not initialised anew by a coming input. -/
def State.NoReinit (s : State) (i : Idx) : Prop := ∀ l, Input.reinit i l ∉ s.inputs

/-- The coming inputs are the running context's own steps and steps of the controllers, of any kind and in any order:
no handler is entered and no controller is initialised anew. -/
def State.ControllersOnly (s : State) : Prop :=
  ∀ x ∈ s.inputs, x = .run ∨ (∃ i c, x = .free i c) ∨ (∃ i r, x = .ref i r)

/-- The handler context has just been entered at the first line of a handler (60 R310), above the frames `below`. -/
def State.AtHandler (s : State) (k : HandlerKind) (i : Idx) (below : List Frame) : Prop :=
  s.handlers = ⟨k.owner, i, handlerLines k, Locals.init, .none⟩ :: below

/-! ## Terms of the rules on encoding and dispatch -/

/-- The reserved opcode bytes, as 30 R123 lists them. -/
def reservedOpcode (op : Byte) : Bool :=
  op == 0x00 || op == 0x03 || op == 0x07 || (0x0B ≤ op && op ≤ 0x0F) || (0x13 ≤ op && op ≤ 0x1F) ||
    (0x24 ≤ op && op ≤ 0x2F) || 0x32 ≤ op

/-- The place of a latch in the order of 60 R308. -/
def latchRank (o : IrqOrder) (k : HandlerKind) (i : Idx) : Nat :=
  2 * i + match o, k with
    | .evFirst, .ev => 0
    | .evFirst, .er => 1
    | .erFirst, .er => 0
    | .erFirst, .ev => 1

/-! ## Frames -/

/-- Every byte of caller memory reads as before. -/
def SameMemory (s t : State) : Prop := ∀ a : Word, t.byteAt a = s.byteAt a

/-- Every byte of caller memory but the one at `p` reads as before. -/
def SameMemoryBut (p : Word) (s t : State) : Prop := ∀ a : Word, a ≠ p → t.byteAt a = s.byteAt a

/-- From `s` to `t`, on controller `i`: its engine is now `e`, the trace has grown by `events`, and all else is as it was
but for the boundary's update of the other engines' pending latches (60 R306). -/
structure Effect (s t : State) (i : Idx) (e : Engine) (events : List Event) : Prop where
  engine  : t.eng i = e
  others  : ∀ j, j ≠ i → t.eng j = (s.eng j).latchPending
  trace   : t.trace = s.trace ++ events
  program : t.program = s.program
  inputs  : t.inputs = s.inputs
  params  : t.params = s.params
  refused : t.refused = s.refused
  faults  : t.faults = s.faults

/-- A command has returned: both contexts stand where they stood (10 R33). -/
def Returned (s t : State) : Prop := t.main = s.main ∧ t.handlers = s.handlers

/-- A handler has returned: the main context stands where it stood, the handler context where it stood before the entry
(60 R312). -/
def HandlerReturned (s t : State) (below : List Frame) : Prop := t.main = s.main ∧ t.handlers = below

/-- One register access: engine `i` is now `e`, one event is traced, and nothing else has changed. -/
structure Access (s t : State) (i : Idx) (e : Engine) (x : Event) : Prop where
  engine  : t.eng i = e
  others  : ∀ j, j ≠ i → t.eng j = s.eng j
  trace   : t.trace = s.trace ++ [x]
  memory  : SameMemory s t
  main    : t.main = s.main
  handlers : t.handlers = s.handlers
  program : t.program = s.program
  inputs  : t.inputs = s.inputs
  params  : t.params = s.params
  refused : t.refused = s.refused
  faults  : t.faults = s.faults

/-! ## Engines after an access, said bit by bit from the spec's rules -/

/-- The latches an SR1 read sets (20 R75). -/
def latchesOf (sr1 : Half) : Latches := ⟨sr1.getLsbD 0, sr1.getLsbD 1, sr1.getLsbD 2, sr1.getLsbD 4⟩

/-- Engine `e` after its SR1 is read (20 R75). -/
def Engine.sampledSR1 (e : Engine) : Engine := { e with lat := latchesOf e.regs.sr1 }

/-- Engine `e` with CR1 written with `v` while the controller stays enabled: STOPF is cleared if the latest SR1 read saw
it (20 R79). -/
def Engine.withCR1 (e : Engine) (v : Half) : Engine :=
  { e with
    regs := { e.regs with cr1 := v, sr1 := if e.lat.stopf then e.regs.sr1 &&& ~~~0x0010 else e.regs.sr1 }
    lat  := { e.lat with stopf := false } }

/-- Engine `e` with CR2 holding `v` (20 R81). -/
def Engine.withCR2 (e : Engine) (v : Half) : Engine := { e with regs := { e.regs with cr2 := v } }

/-- Engine `e` with ADDR cleared by the read sequence (20 R75, R76). -/
def Engine.withAddrCleared (e : Engine) : Engine :=
  { e with
    regs := { e.regs with sr1 := e.regs.sr1 &&& ~~~0x0002 }
    lat  := { latchesOf e.regs.sr1 with addr := false } }

/-- The two events of a read-modify-write of CR1 that reads `v` and writes `w`. -/
def rmwCR1 (i : Idx) (v w : Half) : List Event :=
  [.regRead i .cr1 (v.setWidth 32), .regWrite i .cr1 (w.setWidth 32)]

/-- The two events of a read-modify-write of CR2. -/
def rmwCR2 (i : Idx) (v w : Half) : List Event :=
  [.regRead i .cr2 (v.setWidth 32), .regWrite i .cr2 (w.setWidth 32)]

/-- A read of SR1 that returns `v`. -/
def rSR1 (i : Idx) (v : Half) : Event := .regRead i .sr1 (v.setWidth 32)

/-- A read of SR2 that returns `v`. -/
def rSR2 (i : Idx) (v : Half) : Event := .regRead i .sr2 (v.setWidth 32)

/-- A write of byte `b` to DR. -/
def wDR (i : Idx) (b : Byte) : Event := .regWrite i .dr (b.setWidth 32)

/-- A read of DR that returns byte `b`. -/
def rDR (i : Idx) (b : Byte) : Event := .regRead i .dr (b.setWidth 32)

/-- The sample an event check begins with: CR2 = `c`, then SR1 = `v` (43 R240). -/
def sample (i : Idx) (c v : Half) : List Event := [.regRead i .cr2 (c.setWidth 32), rSR1 i v]

/-- `n` checks that find nothing to do. -/
def idleChecks (i : Idx) (n : Nat) (c v : Half) : List Event := (List.replicate n (sample i c v)).flatten

/-! ## The error handler's five checks (44 R270) -/

/-- The five bits with their callback codes, in the order of 44 R270. -/
def errorChecks : List (Half × EventCode) :=
  [(0x0100, .errorBerr), (0x0200, .errorArlo), (0x0400, .errorAf), (0x0800, .errorOvr), (0x4000, .errorTimeout)]

/-- The codes whose bit is set in `sr1`, in the order of the checks. -/
def errorCodes (sr1 : Half) : List (Half × EventCode) → List EventCode
  | [] => []
  | (m, c) :: rest => (if sr1 &&& m ≠ 0 then [c] else []) ++ errorCodes sr1 rest

/-- The accesses of the checks with the gate open: a fresh read of SR1 each, and for a bit that is set, the one write
that clears it and the callback (44 R270, R271). -/
def errorEvents (i : Idx) (sr1 : Half) : List (Half × EventCode) → List Event
  | [] => []
  | (m, c) :: rest =>
    if sr1 &&& m ≠ 0 then
      [rSR1 i sr1, .regWrite i .sr1 ((0xDF00 &&& ~~~m : Half).setWidth 32), .callback i c] ++
        errorEvents i (sr1 &&& ~~~m) rest
    else rSR1 i sr1 :: errorEvents i sr1 rest

/-! ## A controller that answers every poll at once

The inputs that let a blocking transfer run from its start to its end under a FREE controller (20 R86), with each awaited
flag set just before the read that looks for it. They are one instance of the premise 70 R354 asks of a completion. -/

/-- A controller step that leaves SR1, SR2 and DR with these values, START performed, and no STOP request. -/
def hwStep (i : Idx) (sr1 sr2 : Half) (dr : Byte) : Input := .free i ⟨sr1, sr2, dr, true, false⟩

/-- Entry check, START, SB, address byte, ADDR: up to the poll that sees ADDR. -/
def addressSchedule (i : Idx) (sr2 : Half) : List Input :=
  [.run, .run, .run, hwStep i 0x0001 0x0003 0, .run, .run, hwStep i 0x0002 sr2 0, .run]

/-- A transmit of `len` bytes, each taking `perByte` micro-steps after its TxE. -/
def txSchedule (i : Idx) (perByte len : Nat) : List Input :=
  addressSchedule i 0x0007 ++ [.run, .run, .run] ++
    (List.replicate len (hwStep i 0x0080 0x0007 0 :: List.replicate perByte .run)).flatten ++
    [hwStep i 0x0084 0x0007 0, .run]

/-- A receive of more than one byte, from its first RxNE: the bytes still to come are `ds`. -/
def rxBytesSchedule (i : Idx) (sr : Bool) : List Byte → List Input
  | [] => []
  | d :: ds =>
    [hwStep i 0x0040 0x0003 d, .run] ++
      (if ds.length = 1 then [.run, .run] ++ (if sr then [] else [.run, .run]) else []) ++ [.run, .run] ++
      rxBytesSchedule i sr ds

/-- A receive of the bytes `ds`, up to the step that ends the bus transaction. -/
def rxSchedule (i : Idx) (sr : Bool) (ds : List Byte) : List Input :=
  addressSchedule i 0x0003 ++
    (match ds with
    | [d] =>
      [.run, .run, .run, .run, .run, hwStep i 0x0040 0x0003 d, .run] ++ (if sr then [] else [.run, .run]) ++
        [.run, .run]
    | _ => [.run, .run, .run] ++ rxBytesSchedule i sr ds) ++
    [hwStep i 0 (if sr then 0x0003 else 0) (ds.getLastD 0)]

/-- CR1 after the controller has performed START, and a requested STOP. -/
def cr1Done (v : Half) : Half := v &&& ~~~0x0300

/-- START and the address phase, from CR1 = `v` (41 R181, R182). -/
def addressEvents (i : Idx) (v : Half) (b : Byte) : List Event :=
  rmwCR1 i v (v ||| 0x0100) ++ [rSR1 i 0x0001, wDR i b, rSR1 i 0x0002]

/-- GEN_STOP from CR1 = `v`, unless a repeated start is asked for. -/
def stopEvents (i : Idx) (sr : Bool) (v : Half) : List Event := if sr then [] else rmwCR1 i v (v ||| 0x0200)

/-- The bytes of a transmit from caller memory, the `k`-th from address `p + k`. -/
def txByteEvents (i : Idx) (s : State) : Nat → Word → List Event
  | 0, _ => []
  | n + 1, p => [rSR1 i 0x0080, .memRead p (s.byteAt p), wDR i (s.byteAt p)] ++ txByteEvents i s n (p + 1)

/-- MASTER_TX from CR1 = `v` (41 R181). -/
def txEvents (i : Idx) (s : State) (v : Half) (buf len : Word) (addr : Byte) (sr : Bool) : List Event :=
  addressEvents i v (addrByte addr .write) ++ [rSR1 i 0x0002, rSR2 i 0x0007] ++ txByteEvents i s len.toNat buf ++
    [rSR1 i 0x0084] ++ stopEvents i sr (cr1Done v)

/-- The bytes of a receive of more than one byte, `v` the value of CR1 with no request pending (41 R182). -/
def rxByteEvents (i : Idx) (v : Half) (sr : Bool) : Word → List Byte → List Event
  | _, [] => []
  | p, d :: ds =>
    [rSR1 i 0x0040] ++
      (if ds.length = 1 then rmwCR1 i v (v &&& ~~~0x0400) ++ stopEvents i sr (v &&& ~~~0x0400) else []) ++
      [rDR i d, .memWrite p d] ++ rxByteEvents i v sr (p + 1) ds

/-- MASTER_RX of the bytes `ds` from CR1 = `v` (41 R182). -/
def rxEvents (i : Idx) (v : Half) (pol : AckControl) (buf : Word) (addr : Byte) (sr : Bool) (ds : List Byte) :
    List Event :=
  addressEvents i v (addrByte addr .read) ++
    (match ds with
    | [d] =>
      rmwCR1 i (cr1Done v) (cr1Done v &&& ~~~0x0400) ++ [rSR1 i 0x0002, rSR2 i 0x0003, rSR1 i 0x0040] ++
        stopEvents i sr (cr1Done v &&& ~~~0x0400) ++ [rDR i d, .memWrite buf d]
    | _ => [rSR1 i 0x0002, rSR2 i 0x0003] ++ rxByteEvents i (cr1Done v) sr buf ds) ++
    (if pol = .enable then rmwCR1 i (cr1Done v &&& ~~~0x0400) (cr1Done v ||| 0x0400) else [])

/-- The memory address bytes of MEM_READ on the wire: no memory access (41 R183). -/
def scratchEvents (i : Idx) (bytes : List Byte) : List Event :=
  (bytes.map fun b => [rSR1 i 0x0080, wDR i b]).flatten

/-- The premise of the schedules above: the run is not marked, and controller `i` exists, is a FREE one, enabled, idle,
and its reserved status bits read as 0 (10 R40, R41). -/
structure State.CanTransfer (s : State) (i : Idx) : Prop where
  unmarked : s.Unmarked
  has     : s.Has i
  enabled : s.Enabled i
  free    : (s.eng i).ctrl = .free
  ready   : (s.handle i).transferState = .ready
  sr1     : (s.eng i).regs.sr1 &&& 0x2020 = 0
  sr2     : (s.eng i).regs.sr2 &&& 0x0008 = 0

/-- The registers a receive from address `addr` leaves, from `r`, when the bus transaction has ended with the byte `d`. -/
def rxRegs (r : Regs) (pol : AckControl) (addr : Byte) (sr : Bool) (d : Byte) : Regs :=
  { r with
    cr1 := if pol = .enable then cr1Done r.cr1 ||| 0x0400 else cr1Done r.cr1 &&& ~~~0x0400
    sr1 := 0
    sr2 := if sr then 0x0003 else 0
    dr  := d
    tdr := addrByte addr .read }

/-- A blocking transfer has returned: its trace, its controller's registers, and everything it leaves alone. The
pending latches follow the lines during the transfer (60 R306). -/
structure Transferred (s t : State) (i : Idx) (r : Regs) (lat : Latches) (events : List Event) : Prop where
  regs     : (t.eng i).regs = r
  lat      : (t.eng i).lat = lat
  handle   : (t.eng i).h = (s.eng i).h
  cbTrace  : (t.eng i).cbTrace = (s.eng i).cbTrace
  wiring   : (t.eng i).wiring = (s.eng i).wiring
  ctrl     : (t.eng i).ctrl = (s.eng i).ctrl
  others   : ∀ j, j ≠ i → t.eng j = (s.eng j).latchPending
  trace    : t.trace = s.trace ++ events
  returned : Returned s t
  program  : t.program = s.program
  inputs   : t.inputs = []
  params   : t.params = s.params
  refused  : t.refused = s.refused
  faults   : t.faults = s.faults

/-- The wire sequence of a trace (00 R14): its register writes to CR1, DR and SR1. -/
def wire (tr : List Event) : List (Idx × Reg × Word) :=
  tr.filterMap fun
    | .regWrite i r v => if r = .cr1 ∨ r = .dr ∨ r = .sr1 then some (i, r, v) else none
    | .regRead _ _ _ => none
    | .memRead _ _ => none
    | .memWrite _ _ => none
    | .callback _ _ => none
    | .result _ _ _ => none

/-- The register accesses of a trace, reads and writes with their values, in their order. -/
def registerAccesses (tr : List Event) : List Event :=
  tr.filter fun
    | .regRead _ _ _ => true
    | .regWrite _ _ _ => true
    | .memRead _ _ => false
    | .memWrite _ _ => false
    | .callback _ _ => false
    | .result _ _ _ => false

/-- The controller whose register an event accesses, if it is a register access. -/
def Event.regInst : Event → Option Idx
  | .regRead i _ _ => some i
  | .regWrite i _ _ => some i
  | .memRead _ _ => none
  | .memWrite _ _ => none
  | .callback _ _ => none
  | .result _ _ _ => none

/-- What the controllers do among some inputs: all but the running context's own steps. -/
def controllerSteps (xs : List Input) : List Input := xs.filter fun x => decide (x ≠ .run)

/-! ## Premises of the handler statements -/

/-- The premise of the event statements: the handler has just been entered on controller `i`, nothing else moves, and
the application is the no-op of 44 R275. -/
structure State.EventEntry (s : State) (i : Idx) (below : List Frame) : Prop where
  has     : s.Has i
  entered : s.AtHandler .ev i below
  quiet   : s.Quiet
  noop    : s.params.app = []

/-- The premise of the master-receive statements: RxNE, and perhaps BTF, in BUSY_RX as master, both event enables set,
the buffer byte valid, and no byte held back by the controller. -/
structure State.ReceiveEntry (s : State) (i : Idx) (below : List Frame) : Prop extends s.EventEntry i below where
  enabled : s.Enabled i
  itevten : (s.eng i).regs.cr2.getLsbD 9 = true
  itbufen : (s.eng i).regs.cr2.getLsbD 10 = true
  flags   : (s.eng i).regs.sr1 &&& 0x00D3 = 0x0040
  master  : (s.eng i).regs.sr2.getLsbD 0 = true
  busy    : (s.handle i).transferState = .busyRx
  buffer  : s.params.bufferOk (s.handle i).rxBuffer = true
  noHeld  : (s.eng i).ctrl.heldByte = none
  memory  : s.MemoryCanonical

/-! ## The event handler's six checks, each as a whole (43 R240 to R247)

The rules of 43 once more, check by check over one engine, with no micro-steps, no frames and no positions: what each
check does to the engine and to caller memory, and the accesses it makes. A check answers nothing where it is stuck at a
rejected buffer access (20 R71) or raises its fault (43 R247). -/

/-- How far the handler has come: the engine, the accesses made, caller memory. -/
structure Served where
  engine : Engine
  events : List Event
  mem    : List Host.Cell

/-- The engine and the events after some accesses. -/
def Served.after (y : Served) (e : Engine) (xs : List Event) : Served := { y with engine := e, events := y.events ++ xs }

/-- Write handle fields. -/
def Served.handle (y : Served) (h : Handle) : Served := { y with engine := { y.engine with h := h } }

/-- The sample a check begins with (43 R240). -/
def Served.sampled (i : Idx) (y : Served) : Served :=
  y.after y.engine.sampledSR1 (sample i y.engine.regs.cr2 y.engine.regs.sr1)

/-- Read CR1 and write it back as `v`. -/
def Served.writeCR1 (i : Idx) (v : Half) (y : Served) : Served :=
  y.after (y.engine.withCR1 v) (rmwCR1 i y.engine.regs.cr1 v)

/-- Read CR2 and write it back as `v`. -/
def Served.writeCR2 (i : Idx) (v : Half) (y : Served) : Served :=
  y.after (y.engine.withCR2 v) (rmwCR2 i y.engine.regs.cr2 v)

/-- Write a byte to DR (20 R77). -/
def Served.writeDR (i : Idx) (b : Byte) (y : Served) : Served :=
  y.after (y.engine.afterWrite (b.setWidth 32) .dr) [wDR i b]

/-- Read SR2 (20 R76). -/
def Served.readSR2 (i : Idx) (y : Served) : Served := y.after (y.engine.afterRead .sr2) [rSR2 i y.engine.regs.sr2]

/-- Read DR (20 R78) and store its byte at `p`. -/
def Served.storeDR (i : Idx) (p : Word) (y : Served) : Served :=
  { y.after (y.engine.afterRead .dr) [rDR i y.engine.regs.dr, .memWrite p y.engine.regs.dr] with
    mem := Memory.write y.mem p.toNat y.engine.regs.dr }

/-- Emit a callback, with the no-op application (44 R274, R275). -/
def Served.emit (i : Idx) (c : EventCode) (y : Served) : Served :=
  y.after { y.engine with cbTrace := y.engine.cbTrace ++ [c] } [.callback i c]

/-- GEN_STOP unless a repeated start is asked for. -/
def Served.stopUnlessRepeated (i : Idx) (y : Served) : Served :=
  if y.engine.h.repeatedStartRequested then y else y.writeCR1 i (y.engine.regs.cr1 ||| 0x0200)

/-- ITBUFEN, then ITEVTEN cleared (42 R213, R214). -/
def Served.maskEvents (i : Idx) (y : Served) : Served :=
  let z := y.writeCR2 i (y.engine.regs.cr2 &&& ~~~0x0400)
  z.writeCR2 i (z.engine.regs.cr2 &&& ~~~0x0200)

/-- CLOSE_TX (42 R213). -/
def Served.closeTx (i : Idx) (y : Served) : Served :=
  let z := y.maskEvents i
  z.handle { z.engine.h with txBuffer := 0, txRemaining := 0, transferState := .ready }

/-- CLOSE_RX (42 R214). -/
def Served.closeRx (i : Idx) (y : Served) : Served :=
  let z := y.maskEvents i
  let u := z.handle { z.engine.h with rxBuffer := 0, rxRemaining := 0, transferState := .ready, rxExpectedTotal := 0 }
  if u.engine.h.cfg.ackControl = .enable then u.writeCR1 i (u.engine.regs.cr1 ||| 0x0400) else u

/-- The check of SB (43 R241). -/
def Served.checkSB (i : Idx) (x : Served) : Served :=
  let y := x.sampled i
  if y.engine.regs.cr2.getLsbD 9 = true ∧ y.engine.regs.sr1.getLsbD 0 = true then
    match y.engine.h.transferState with
    | .ready => y
    | .busyTx => y.writeDR i (addrByte y.engine.h.targetDeviceAddress .write)
    | .busyRx => y.writeDR i (addrByte y.engine.h.targetDeviceAddress .read)
  else y

/-- The check of ADDR (43 R242, 40 R153). -/
def Served.checkADDR (i : Idx) (x : Served) : Served :=
  let y := x.sampled i
  if y.engine.regs.cr2.getLsbD 9 = true ∧ y.engine.regs.sr1.getLsbD 1 = true then
    let z := if y.engine.h.transferState = .busyRx ∧ y.engine.h.rxExpectedTotal = 1 then
      y.writeCR1 i (y.engine.regs.cr1 &&& ~~~0x0400) else y
    z.after z.engine.withAddrCleared [rSR1 i z.engine.regs.sr1, rSR2 i z.engine.regs.sr2]
  else y

/-- The check of BTF (43 R243). -/
def Served.checkBTF (i : Idx) (x : Served) : Served :=
  let y := x.sampled i
  if y.engine.regs.cr2.getLsbD 9 = true ∧ y.engine.regs.sr1.getLsbD 2 = true ∧ y.engine.h.transferState = .busyTx ∧
      y.engine.regs.sr1.getLsbD 7 = true ∧ y.engine.h.txRemaining = 0 then
    ((y.stopUnlessRepeated i).closeTx i).emit i .txCmplt
  else y

/-- The check of STOPF (43 R244). -/
def Served.checkSTOPF (i : Idx) (x : Served) : Served :=
  let y := x.sampled i
  if y.engine.regs.cr2.getLsbD 9 = true ∧ y.engine.regs.sr1.getLsbD 4 = true then
    (y.writeCR1 i y.engine.regs.cr1).emit i .stop
  else y

/-- The next byte of a master transmit (43 R245). -/
def Served.sendNext (p : Params) (i : Idx) (y : Served) : Option Served :=
  let h := y.engine.h
  if h.transferState = .busyTx ∧ h.txRemaining ≠ 0 then
    if p.bufferOk h.txBuffer then
      let b := Memory.read y.mem h.txBuffer.toNat
      some (((y.after y.engine [.memRead h.txBuffer b]).writeDR i b).handle
        { h with txRemaining := h.txRemaining - 1, txBuffer := h.txBuffer + 1 })
    else none
  else some y

/-- The check of TxE (43 R245). -/
def Served.checkTXE (p : Params) (i : Idx) (x : Served) : Option Served :=
  let y := x.sampled i
  if y.engine.regs.cr2.getLsbD 9 = true ∧ y.engine.regs.cr2.getLsbD 10 = true ∧ y.engine.regs.sr1.getLsbD 7 = true then
    let z := y.readSR2 i
    if z.engine.regs.sr2.getLsbD 0 = true then z.sendNext p i
    else if z.engine.regs.sr2.getLsbD 2 = true then some (z.emit i .dataReq)
    else some z
  else some y

/-- RXNE_MASTER (43 R247). -/
def Served.receiveNext (p : Params) (i : Idx) (y : Served) : Option Served :=
  let h := y.engine.h
  if h.rxRemaining = 0 then none
  else if p.bufferOk h.rxBuffer then
    let z := if h.rxExpectedTotal ≠ 1 ∧ h.rxRemaining = 2 then y.writeCR1 i (y.engine.regs.cr1 &&& ~~~0x0400) else y
    let u := (z.storeDR i h.rxBuffer).handle
      { h with
        rxRemaining := h.rxRemaining - 1
        rxBuffer    := if h.rxExpectedTotal = 1 then h.rxBuffer else h.rxBuffer + 1 }
    some (if h.rxRemaining = 1 then ((u.stopUnlessRepeated i).closeRx i).emit i .rxCmplt else u)
  else none

/-- The check of RxNE (43 R246). -/
def Served.checkRXNE (p : Params) (i : Idx) (x : Served) : Option Served :=
  let y := x.sampled i
  if y.engine.regs.cr2.getLsbD 9 = true ∧ y.engine.regs.cr2.getLsbD 10 = true ∧ y.engine.regs.sr1.getLsbD 6 = true then
    let z := y.readSR2 i
    if z.engine.regs.sr2.getLsbD 0 = true then
      if z.engine.h.transferState = .busyRx then z.receiveNext p i else some z
    else if z.engine.regs.sr2.getLsbD 2 = true then some z
    else some (z.emit i .dataRcv)
  else some y

/-- EV_IRQ: the six checks in their order, each on what those before it left (43 R240). -/
def Served.sixChecks (p : Params) (i : Idx) (x : Served) : Option Served :=
  (((((x.checkSB i).checkADDR i).checkBTF i).checkSTOPF i).checkTXE p i).bind (·.checkRXNE p i)

/-! ## Stuck contexts -/

/-- What frame `f` does next is an access of the byte of caller memory at `a`: a buffer access of a command or a handler,
or one of the application (20 R71, 44 R276). -/
def Frame.Accesses (f : Frame) (s : State) (a : Word) : Prop :=
  ∃ (x : Line) (rest : List Line), f.lines = x :: rest ∧
    (x.act = .memReadAt a ∨ x.act = .memWriteAt a ∨ (f.loc.p = a ∧ (x.act = .memReadP ∨ x.act = .memWriteP)) ∨
      (x.act = .app ∧ ∃ (e : AppExpr) (g : Frame), e.eval g s = a ∧
        ((∃ k, appChoice f s = some (.memRead e k, g)) ∨ ∃ b, appChoice f s = some (.memWrite e b, g))))

/-! ## Invariants -/

/-- An asserted and routed line has its pending latch set (60 R306). -/
def State.LinesLatched (s : State) : Prop :=
  ∀ i, ((s.eng i).evLine = true → (s.eng i).wiring.nvicEn = true → (s.eng i).pendEV = true) ∧
    ((s.eng i).erLine = true → (s.eng i).wiring.nvicEn = true → (s.eng i).pendER = true)

/-- A frame of a handler, as against one of the callback or of a command. -/
def Owner.isHandler : Owner → Bool
  | .ev => true
  | .er => true
  | .command _ => false
  | .app => false

/-- The handlers that run, innermost first. -/
def State.running (s : State) : List Owner := (s.handlers.map (·.owner)).filter Owner.isHandler

/-- The handler context holds no handler, one handler, or, with nesting, an error handler on an event handler; and its
outermost frame is a handler's (60 R307, R313, R315). -/
def State.HandlersNested (s : State) : Prop :=
  (s.running = [] ∨ s.running = [.ev] ∨ s.running = [.er] ∨ (s.running = [.er, .ev] ∧ s.params.irqNesting = true)) ∧
    ∀ f, s.handlers.getLast? = some f → f.owner.isHandler = true

/-- CR1 as launch leaves it and every run keeps it: PE is 1 and the fields of 10 R36 kept 0 are 0 (70 R342). -/
def cr1Kept (v : Half) : Prop := v.getLsbD 0 = true ∧ v &&& cr1KeptZero = 0

/-- The masks the engine sets and clears in CR1: START, STOP, ACK, or none. -/
def cr1MaskOk (m : Half) : Bool := m &&& 0x0700 == m

/-- The lines of a frame write CR1 and CR2 only right after a read of the same register. `held` is the register the
line before has read, if it has read one. -/
def rmwOk (held : Option RmwReg) : List Line → Bool
  | [] => true
  | ⟨.readW r, nx⟩ :: rest => decide (nx = .straight) && rmwOk (some r) rest
  | ⟨.writeOr r m, _⟩ :: rest => decide (held = some r) && (decide (r = .cr2) || cr1MaskOk m) && rmwOk none rest
  | ⟨.writeAndNot r m, _⟩ :: rest => decide (held = some r) && (decide (r = .cr2) || cr1MaskOk m) && rmwOk none rest
  | ⟨_, _⟩ :: rest => rmwOk none rest

/-- A position from which every coming CR1 write writes back a kept CR1 value (20 R74, R84). -/
def Frame.WritesBack (f : Frame) : Prop :=
  ∃ held, rmwOk held f.lines = true ∧ (held = some .cr1 → cr1Kept (f.loc.w.setWidth 16))

/-- Every controller's CR1 is as launch left it but for START, STOP and ACK, and every position keeps it so. -/
def State.LaunchKept (s : State) : Prop :=
  (∀ i, cr1Kept (s.eng i).regs.cr1) ∧ (∀ f ∈ s.main, f.WritesBack) ∧ (∀ f ∈ s.handlers, f.WritesBack)

end Sys2Proof.Machine
end

