-- ==== Sys2Proof/Certificates/Slice0/Obligations.lean ====
section
/-! DEFINITION. The statements about the engine, one Prop each, listed in OBLIGATIONS.json. Masks are written as numbers
(30 R131), so that a statement does not lean on the model's own names for them. -/

open Sys2Proof Sys2Proof.Machine

/-! ## Encoding (30) -/

/-- Decoding the record of a well-formed command gives the command back, every operand at every value, whatever the number
of controllers that a record's index byte can name. The layout of the record is the model's (log 1). -/
def Obligations.DecodeInvertsEncode : Prop :=
  ∀ (nInst : Nat) (x : Instr), nInst ≤ 256 → WellFormed nInst x → decode (encode x) = .ok x

/-- 30 R123: a byte that matches a row decodes to that row's command; every other byte is reserved, and a command record
with it is refused by name at the step that would issue it; and no two rows match one byte. -/
def Obligations.OpcodeMapTotalAndUnambiguous : Prop :=
  (∀ w : CmdWord, reservedOpcode (w.extractLsb' 0 8) = false →
    ∃ x r, decode w = .ok x ∧ r ∈ opTable ∧ w.extractLsb' 0 8 &&& r.mask = r.value ∧ x.mnemonic = r.name) ∧
  (∀ w : CmdWord, reservedOpcode (w.extractLsb' 0 8) = true →
    decode w = .error (.unknownCommand (w.extractLsb' 0 8)) ∧
    ∀ (s : State) (rest : List CmdWord), s.Unmarked → s.main = [] → s.handlers = [] → s.program = w :: rest →
      (s.inputs = [] ∨ ∃ xs, s.inputs = .run :: xs) → step s = .refused (.unknownCommand (w.extractLsb' 0 8))) ∧
  ∀ op : Byte, ∀ r ∈ opTable, ∀ r' ∈ opTable, op &&& r.mask = r.value → op &&& r'.mask = r'.value → r = r'

/-- A record of each row, its opcode byte written out from 30 R122, decodes to the row's command. -/
def Obligations.WordsOfTheOpcodeMapDecode : Prop :=
  decode 0x00000000000000000000000000000201 = .ok (.genStart 2) ∧
  decode 0x00000000000000000000000000000002 = .ok (.genStop 0) ∧
  decode 0x00000000000000000000000000680104 = .ok (.sendAddr 1 0x68 .write) ∧
  decode 0x00000000000000000000000000680105 = .ok (.sendAddr 1 0x68 .read) ∧
  decode 0x00000000000000000000000000000006 = .ok (.clearAddr 0) ∧
  decode 0x00000000000000000000000000000008 = .ok (.manageAck 0 false) ∧
  decode 0x00000000000000000000000000000009 = .ok (.manageAck 0 true) ∧
  decode 0x0000000000000000000000840000000A = .ok (.waitFlags 0 0x0084) ∧
  decode 0x00000002200000000000000001680010 = .ok (.masterTx 0 0x20000000 2 0x68 true) ∧
  decode 0x00000003200000000000000000680011 = .ok (.masterRx 0 0x20000000 3 0x68 false) ∧
  decode 0x00000001200001000001007500680012 = .ok (.memRead 0 0x68 0x75 1 0x20000100 1) ∧
  decode 0x000000022000000000000000003C0020 = .ok (.masterTxIt 0 0x20000000 2 0x3C false) ∧
  decode 0x00000003200003000000000000680021 = .ok (.masterRxIt 0 0x20000300 3 0x68 false) ∧
  decode 0x00000000000000000000000000000022 = .ok (.closeTx 0) ∧
  decode 0x00000000000000000000000000000123 = .ok (.closeRx 1) ∧
  decode 0x00000000000000000000000000000230 = .ok (.evIrq 2) ∧
  decode 0x00000000000000000000000000000031 = .ok (.erIrq 0)

/-- 30 R125, R126: the address byte holds bits [6:0] of the operand in bits [7:1] and the direction in bit 0, with a[7]
discarded, and the rule's examples; the memory-address bytes of MEM_READ go most significant first. -/
def Obligations.AddressBytesOnTheWire : Prop :=
  ((∀ a : Byte, addrByte a .write = ((a <<< 1) &&& 0xFE) ||| 0 ∧ addrByte a .read = ((a <<< 1) &&& 0xFE) ||| 1) ∧
   (∀ a : Byte, (addrByte a .write).extractLsb' 1 7 = a.extractLsb' 0 7 ∧ (addrByte a .write).getLsbD 0 = false ∧
     (addrByte a .read).extractLsb' 1 7 = a.extractLsb' 0 7 ∧ (addrByte a .read).getLsbD 0 = true) ∧
   addrByte 0x68 .write = 0xD0 ∧ addrByte 0x68 .read = 0xD1 ∧ addrByte 0x7F .read = 0xFF ∧ addrByte 0xE8 .write = 0xD0) ∧
  (∀ m : Half, memAddrBytes m 1 = [m.setWidth 8] ∧ memAddrBytes m 2 = [(m >>> 8).setWidth 8, m.setWidth 8])

/-! ## Register accesses (20) -/

/-- 20 R75, R76: an SR1 read returns SR1, sets the four latches from it and clears no flag; an SR2 read returns SR2 and then,
if `lat.addr`, clears ADDR and the latch; so the read sequence SR1, SR2 clears an ADDR that its first read saw. -/
def Obligations.StatusReadsAndTheAddressClear : Prop :=
  (∀ (s : State) (i : Idx),
     Access s (s.regRead i .sr1) i
       { s.eng i with lat := ⟨(s.eng i).regs.sr1.getLsbD 0, (s.eng i).regs.sr1.getLsbD 1, (s.eng i).regs.sr1.getLsbD 2,
           (s.eng i).regs.sr1.getLsbD 4⟩ }
       (.regRead i .sr1 ((s.eng i).regs.sr1.setWidth 32))) ∧
  ((∀ (s : State) (i : Idx),
     Access s (s.regRead i .sr2) i
       (if (s.eng i).lat.addr then
         { s.eng i with
           regs := { (s.eng i).regs with sr1 := (s.eng i).regs.sr1 &&& ~~~0x0002 }
           lat  := { (s.eng i).lat with addr := false } }
       else s.eng i)
       (.regRead i .sr2 ((s.eng i).regs.sr2.setWidth 32))) ∧
   ∀ (s : State) (i : Idx), (((s.regRead i .sr1).regRead i .sr2).eng i).regs.sr1 = (s.eng i).regs.sr1 &&& ~~~0x0002)

/-- 20 R77, R78, 10 R39: a DR write hands the low byte to the controller, clears TxE, and clears SB and BTF if the latest SR1
read saw them; a DR read returns the byte received last, which no write changes, clears RxNE, and clears BTF if the latest
SR1 read saw it, under a controller that holds back no byte. That the byte written and the byte received are two is the
model's reading (log 22). A write may move the controller's own phase, which the engine cannot read. -/
def Obligations.DataRegisterAccessesClearFlags : Prop :=
  (∀ (s : State) (i : Idx) (v : Word), ∃ c : Ctrl, ((s.eng i).ctrl = .free → c = .free) ∧
     Access s (s.regWrite i .dr v) i
       { s.eng i with
         regs := { (s.eng i).regs with
           tdr := v.setWidth 8
           sr1 := (s.eng i).regs.sr1 &&& ~~~(0x0080 ||| (if (s.eng i).lat.sb then 0x0001 else 0) |||
             (if (s.eng i).lat.btf then 0x0004 else 0)) }
         lat  := { (s.eng i).lat with sb := false, btf := false }
         ctrl := c }
       (.regWrite i .dr v)) ∧
  (∀ (s : State) (i : Idx), (s.eng i).ctrl.heldByte = none →
     Access s (s.regRead i .dr) i
       { s.eng i with
         regs := { (s.eng i).regs with
           sr1 := (s.eng i).regs.sr1 &&& ~~~(0x0040 ||| (if (s.eng i).lat.btf then 0x0004 else 0)) }
         lat  := { (s.eng i).lat with btf := false } }
       (.regRead i .dr ((s.eng i).regs.dr.setWidth 32)))

/-- 20 R79, R84: a CR1 write gives every software-writable bit its value (all but the reserved bits 2 and 14) and clears
STOPF if the latest SR1 read saw it; written with PE = 0 it clears every status flag, START, STOP and ACK. -/
def Obligations.ControlOneWriteAndDisable : Prop :=
  ∀ (s : State) (i : Idx) (v : Word), ∃ r : Regs,
    Access s (s.regWrite i .cr1 v) i { s.eng i with regs := r, lat := { (s.eng i).lat with stopf := false } }
      (.regWrite i .cr1 v) ∧
    (∀ k, k < 16 → k ≠ 2 → k ≠ 14 → (v.getLsbD 0 = true ∨ (k ≠ 8 ∧ k ≠ 9 ∧ k ≠ 10)) →
      r.cr1.getLsbD k = v.getLsbD k) ∧
    r.cr1.getLsbD 2 = (s.eng i).regs.cr1.getLsbD 2 ∧ r.cr1.getLsbD 14 = (s.eng i).regs.cr1.getLsbD 14 ∧
    (v.getLsbD 0 = true → r.sr2 = (s.eng i).regs.sr2 ∧
      r.sr1 = if (s.eng i).lat.stopf then (s.eng i).regs.sr1 &&& ~~~0x0010 else (s.eng i).regs.sr1) ∧
    (v.getLsbD 0 = false → r.sr1 = 0 ∧ r.sr2 = 0 ∧ r.cr1.getLsbD 8 = false ∧ r.cr1.getLsbD 9 = false ∧
      r.cr1.getLsbD 10 = false) ∧
    r.cr2 = (s.eng i).regs.cr2 ∧ r.oar1 = (s.eng i).regs.oar1 ∧ r.oar2 = (s.eng i).regs.oar2 ∧
    r.dr = (s.eng i).regs.dr ∧ r.tdr = (s.eng i).regs.tdr ∧ r.ccr = (s.eng i).regs.ccr ∧ r.trise = (s.eng i).regs.trise ∧
    r.fltr = (s.eng i).regs.fltr

/-- 20 R80, R81, R82: an SR1 write clears the rc_w0 bits written 0 and leaves every other bit and the latches; a CR2 write
gives every software-writable bit its value and changes no flag; a write of SR2 is ignored; a read of CR1, CR2, OAR1, OAR2,
CCR, TRISE or FLTR has no side effect. -/
def Obligations.StatusWritesAndPlainAccesses : Prop :=
  (∀ (s : State) (i : Idx) (v : Word), ∃ sr1 : Half,
     Access s (s.regWrite i .sr1 v) i { s.eng i with regs := { (s.eng i).regs with sr1 := sr1 } } (.regWrite i .sr1 v) ∧
     ∀ k, k < 16 → sr1.getLsbD k =
       if k ∈ [8, 9, 10, 11, 12, 14, 15] ∧ v.getLsbD k = false then false else (s.eng i).regs.sr1.getLsbD k) ∧
  (∀ (s : State) (i : Idx) (v : Word),
     (∃ cr2 : Half,
       Access s (s.regWrite i .cr2 v) i { s.eng i with regs := { (s.eng i).regs with cr2 := cr2 } }
         (.regWrite i .cr2 v) ∧
       (∀ k, k ∈ [0, 1, 2, 3, 4, 5, 8, 9, 10, 11, 12] → cr2.getLsbD k = v.getLsbD k) ∧
       ∀ k, k ∈ [6, 7, 13, 14, 15] → cr2.getLsbD k = (s.eng i).regs.cr2.getLsbD k) ∧
     Access s (s.regWrite i .sr2 v) i (s.eng i) (.regWrite i .sr2 v) ∧
     ∀ r, r ∈ [Reg.cr1, .cr2, .oar1, .oar2, .ccr, .trise, .fltr] →
       Access s (s.regRead i r) i (s.eng i) (.regRead i r ((s.eng i).value r)))

/-! ## Lines, latches, dispatch, entry, return (60) -/

/-- 60 R303, R304: the two lines. -/
def Obligations.InterruptLinesAreLevels : Prop :=
  ∀ e : Engine,
    e.evLine = (e.regs.cr2.getLsbD 9 && (e.regs.sr1.getLsbD 0 || e.regs.sr1.getLsbD 1 || e.regs.sr1.getLsbD 3 ||
      e.regs.sr1.getLsbD 4 || e.regs.sr1.getLsbD 2 ||
      (e.regs.cr2.getLsbD 10 && (e.regs.sr1.getLsbD 7 || e.regs.sr1.getLsbD 6)))) ∧
    e.erLine = (e.regs.cr2.getLsbD 8 && (e.regs.sr1.getLsbD 8 || e.regs.sr1.getLsbD 9 || e.regs.sr1.getLsbD 10 ||
      e.regs.sr1.getLsbD 11 || e.regs.sr1.getLsbD 12 || e.regs.sr1.getLsbD 14 || e.regs.sr1.getLsbD 15))

/-- 60 R306, R310, with 70 R340 and R344: at every boundary an asserted, routed line sets its latch; a latch is cleared only
by the entry of its handler, or with the whole engine by a re-initialisation (log 14); nothing else sets one. -/
def Obligations.PendingLatchesFollowTheLines : Prop :=
  ∀ (s : State) (i : Idx) (k : HandlerKind),
    let t := tick s
    let line := match k with
      | .ev => (t.eng i).evLine
      | .er => (t.eng i).erLine
    (line = true → (t.eng i).wiring.nvicEn = true → (t.eng i).pending k = true) ∧
    ((t.eng i).pending k = true → (s.eng i).pending k = true ∨ (line = true ∧ (t.eng i).wiring.nvicEn = true)) ∧
    ((s.eng i).pending k = true → (t.eng i).pending k = false →
      (s.inputs.head? = some .dispatch ∧ s.nextInterrupt = some (k, i)) ∨ ∃ l, s.inputs.head? = some (.reinit i l))

/-- 60 R307, R308, R313: with no handler running, a dispatch takes the first set latch of the order, and is enabled exactly
if some latch is set. With nesting on, over a handler context that is not stuck (60 R311) and runs no error handler, it takes
the first set error latch, and is enabled exactly if some error latch is set. -/
def Obligations.DispatchTakesFirstSetLatch : Prop :=
  (∀ s : State, s.handlers = [] →
    (s.nextInterrupt = none ↔ ∀ k i, i < s.params.nInst → (s.eng i).pending k = false) ∧
    ∀ k i, s.nextInterrupt = some (k, i) ↔
      i < s.params.nInst ∧ (s.eng i).pending k = true ∧
        ∀ k' i', i' < s.params.nInst → (s.eng i').pending k' = true →
          latchRank s.params.irqOrder k i ≤ latchRank s.params.irqOrder k' i') ∧
  ∀ (s : State) (f : Frame) (below : List Frame), s.params.irqNesting = true → s.handlers = f :: below →
    (∀ g ∈ s.handlers, g.owner ≠ .er) → (∀ a, f.Accesses s a → s.params.bufferOk a = true) →
    (s.nextInterrupt = none ↔ ∀ i, i < s.params.nInst → (s.eng i).pendER = false) ∧
    ∀ k i, s.nextInterrupt = some (k, i) ↔
      k = .er ∧ i < s.params.nInst ∧ (s.eng i).pendER = true ∧
        ∀ i', i' < s.params.nInst → (s.eng i').pendER = true → i ≤ i'

/-- 60 R310, R312: handler entry clears the latch taken, puts the handler context at the handler's first line, and changes
nothing else: no handle, no register, no mask, not the main context; the boundary then updates the latches. A handler's
return leaves the handler context where it stood before the entry, and the main context, every register and every mask as
they are. -/
def Obligations.HandlerEntryAndReturn : Prop :=
  (∀ (s : State) (rest : List Input) (k : HandlerKind) (i : Idx),
     s.inputs = .dispatch :: rest → s.nextInterrupt = some (k, i) →
     let t := tick s
     t.AtHandler k i s.handlers ∧ t.main = s.main ∧
       t.eng i = ((s.eng i).clearPending k).latchPending ∧ (∀ j, j ≠ i → t.eng j = (s.eng j).latchPending) ∧
       SameMemory s t ∧ t.trace = s.trace ∧ t.program = s.program ∧ t.inputs = rest ∧
       t.params = s.params ∧ t.refused = s.refused ∧ t.faults = s.faults) ∧
  (∀ (s : State) (f : Frame) (below : List Frame),
     s.Quiet → s.handlers = f :: below → f.lines = [] → f.owner.isHandler = true →
     let t := tick s
     t.handlers = below ∧ t.main = s.main ∧ (∀ j, t.eng j = (s.eng j).latchPending) ∧
       SameMemory s t ∧ t.trace = s.trace ∧ t.program = s.program ∧ t.params = s.params)

/-- 60 R307, R311, R313, R314: while a handler or its callback runs, no boundary moves the main context; and a handler is
entered over a running one only with nesting on, only an error handler, never over an error handler, and never over one
that is stuck at a rejected buffer access. -/
def Obligations.HandlerRunExcludesMainAndNests : Prop :=
  (∀ s : State, s.handlers ≠ [] → (tick s).main = s.main ∧ (tick s).program = s.program) ∧
  (∀ (s : State) (k : HandlerKind) (i : Idx), s.handlers ≠ [] → s.nextInterrupt = some (k, i) →
     s.params.irqNesting = true ∧ k = .er ∧ (s.eng i).pendER = true ∧ (∀ f ∈ s.handlers, f.owner ≠ .er) ∧
     ∀ f below a, s.handlers = f :: below → f.Accesses s a → s.params.bufferOk a = true)

/-! ## The environment (20 R85), buffers (20 R71), re-initialisation (70 R344) -/

/-- 20 R85, and for REF as the model reads it (log 15): a controller's step changes only SR1, SR2, DR, the hardware clears
of START and STOP, the hardware set of STOP, and what the engine cannot read. That the reserved bits of SR1 and SR2 keep
their values is the model's reading (log 16). -/
def Obligations.ControllerStepsChangeOnlyHardwareState : Prop :=
  ∀ (s : State) (i : Idx) (x : Input) (rest : List Input),
    s.inputs = x :: rest → ((∃ c, x = .free i c) ∨ ∃ r, x = .ref i r) →
    ∃ (t : State) (cr1 sr1 sr2 : Half) (dr : Byte) (c : Ctrl),
      tick s = t ∧
      t.eng i = ({ s.eng i with
        regs := { (s.eng i).regs with cr1 := cr1, sr1 := sr1, sr2 := sr2, dr := dr }, ctrl := c } : Engine).latchPending ∧
      cr1 &&& ~~~0x0300 = (s.eng i).regs.cr1 &&& ~~~0x0300 ∧
      (cr1.getLsbD 8 = true → (s.eng i).regs.cr1.getLsbD 8 = true) ∧
      sr1 &&& 0x2020 = (s.eng i).regs.sr1 &&& 0x2020 ∧ sr2 &&& 0x0008 = (s.eng i).regs.sr2 &&& 0x0008 ∧
      (∀ j, j ≠ i → t.eng j = (s.eng j).latchPending) ∧ SameMemory s t ∧ Returned s t ∧ t.trace = s.trace ∧
      t.program = s.program ∧ t.inputs = rest ∧ t.params = s.params ∧ t.refused = s.refused ∧ t.faults = s.faults

/-- Reactions RF7, RF8 and RF1 of the reference controller (20 R87), as the model reads them (log 15): a byte that completes
while RxNE is 0 comes into DR, acknowledged by CR1.ACK of that step; one that completes while RxNE is 1 sets BTF and is held
until a DR read, which answers the older byte, brings the held one in, and acknowledges it by CR1.ACK of that read. Where a
START or STOP was requested when a byte was acknowledged and still is, the controller stands between bytes: no byte comes
in, and the STOP, or as master the repeated START, is performed although ACK is 1. -/
def Obligations.ReferenceReceiveByte : Prop :=
  (∀ (s : State) (i : Idx) (p : RefPhase) (d : Byte) (rest : List Input),
     i < s.params.nInst → (s.eng i).ctrl = .ref p → s.inputs = .ref i (.rxByte d) :: rest →
     (s.eng i).regs.sr2.getLsbD 2 = false → (s.eng i).regs.sr1.getLsbD 1 = false → p.acked = true → p.rxAck = true →
     p.held = none → (p.gap = false ∨ (s.eng i).regs.cr1 &&& 0x0300 = 0) →
     let t := tick s
     let ack := (s.eng i).regs.cr1.getLsbD 10
     let gap := (s.eng i).regs.cr1.getLsbD 8 || (s.eng i).regs.cr1.getLsbD 9
     ((s.eng i).regs.sr1.getLsbD 6 = false →
       (t.eng i).regs = { (s.eng i).regs with sr1 := (s.eng i).regs.sr1 ||| 0x0040, dr := d } ∧
       (t.eng i).ctrl = .ref { p with rxAck := ack, gap := gap }) ∧
     ((s.eng i).regs.sr1.getLsbD 6 = true →
       (t.eng i).regs = { (s.eng i).regs with sr1 := (s.eng i).regs.sr1 ||| 0x0004 } ∧
       (t.eng i).ctrl = .ref { p with held := some d } ∧
       ((t.regRead i .dr).eng i).regs =
         { (s.eng i).regs with sr1 := ((s.eng i).regs.sr1 ||| 0x0040) &&& ~~~0x0004, dr := d } ∧
       ((t.regRead i .dr).eng i).ctrl = .ref { p with held := none, rxAck := ack, gap := gap } ∧
       (t.eng i).value .dr = (s.eng i).regs.dr.setWidth 32)) ∧
  (∀ (s : State) (i : Idx) (p : RefPhase) (rest : List Input),
     i < s.params.nInst → (s.eng i).ctrl = .ref p → p.gap = true → (s.eng i).regs.cr1 &&& 0x0300 ≠ 0 →
     let t := tick s
     (∀ d, s.inputs = .ref i (.rxByte d) :: rest → t.eng i = (s.eng i).latchPending) ∧
     (s.inputs = .ref i .stop :: rest → (s.eng i).regs.cr1.getLsbD 9 = true → p.shift = none → p.addr = none →
       (t.eng i).regs = { (s.eng i).regs with
         cr1 := (s.eng i).regs.cr1 &&& ~~~0x0200, sr1 := (s.eng i).regs.sr1 &&& ~~~0x0084
         sr2 := (s.eng i).regs.sr2 &&& ~~~0x0007 }) ∧
     (s.inputs = .ref i .start :: rest → (s.eng i).regs.cr1.getLsbD 8 = true → (s.eng i).regs.sr2.getLsbD 0 = true →
       p.shift = none → p.addr = none →
       (t.eng i).regs = { (s.eng i).regs with
         cr1 := (s.eng i).regs.cr1 &&& ~~~0x0100, sr1 := ((s.eng i).regs.sr1 &&& ~~~0x0084) ||| 0x0001
         sr2 := ((s.eng i).regs.sr2 &&& ~~~0x0004) ||| 0x0003 }))

/-- 20 R71, 60 R311: a buffer access that `BUF_OK` rejects has no step, be it a command's, a handler's or the application's
(log 20): left to go on, by an input or with none left, the context that runs stays where it is and nothing else changes but
the latches; and whatever else happens at a boundary, a stuck main context and a stuck handler stay where they stand, and
under a stuck handler no other handler is entered and the main context does not move. -/
def Obligations.RejectedBufferAccessIsStuck : Prop :=
  ∀ (s : State) (f : Frame) (a : Word), s.top = some f → f.Accesses s a → s.params.bufferOk a = false →
    (s.inputs = [] → tick s = s.latchAll) ∧
    (∀ xs, s.inputs = .run :: xs → tick s = (s.withInputs xs).latchAll) ∧
    (tick s).main = s.main ∧ (tick s).params = s.params ∧
    (∀ below, s.handlers = f :: below →
      (tick s).handlers = s.handlers ∧ (tick s).program = s.program ∧ (tick s).trace = s.trace ∧ f.Accesses (tick s) a) ∧
    ((∀ x ∈ f.lines.head?, x.act ≠ .app) → f.Accesses (tick s) a)

/-- 70 R344: a re-initialisation at a boundary where no handler runs, no command of the controller is in progress and it
is READY resets that controller to 70 R340 and R342 with the new values, and touches no other. That the main context and
its program stand where they stood is the model's choice (log 14). -/
def Obligations.ReinitialisationResetsOneController : Prop :=
  ∀ (s : State) (i : Idx) (l : Launch) (rest : List Input),
    i < s.params.nInst → s.inputs = .reinit i l :: rest → s.handlers = [] → (∀ f ∈ s.main, f.inst ≠ i) →
    (s.handle i).transferState = .ready →
    let t := tick s
    (t.eng i).h = ⟨i, l.cfg, 0, 0, 0, 0, 0, .ready, 0, false⟩ ∧
      (t.eng i).lat = ⟨false, false, false, false⟩ ∧ (t.eng i).pendEV = false ∧ (t.eng i).pendER = false ∧
      (t.eng i).cbTrace = [] ∧ (t.eng i).regs.cr1 = (if l.ack then 0x0401 else 0x0001) ∧
      (t.eng i).regs.cr2 = l.freq.setWidth 16 ∧ (t.eng i).regs.sr1 = 0 ∧ (t.eng i).regs.sr2 = 0 ∧
      (t.eng i).regs.oar2 = 0 ∧ (t.eng i).regs.oar1.getLsbD 14 = true ∧
      (t.eng i).regs.oar1.extractLsb' 1 7 = l.cfg.ownAddress ∧ (t.eng i).regs.oar1.getLsbD 15 = false ∧
      (∀ j, j ≠ i → t.eng j = (s.eng j).latchPending) ∧ SameMemory s t ∧ Returned s t ∧ t.trace = s.trace ∧
      t.program = s.program

/-! ## The step of the system, its marks, its reset -/

/-- With both contexts idle and no mark set, a step whose next record decodes runs the command, moved past its record, be it
the only thing that can happen or what the next input chooses; with the handler context just entered, a step runs the
handler command of the dispatch (60 R310, 30 R137). That the program is a list of records (log 2), that an input chooses what
happens at a boundary (log 7), and that one step runs a command until it returns (log 10) are the model's choices. -/
def Obligations.StepRunsTheDecodedCommand : Prop :=
  (∀ (s : State) (w : CmdWord) (rest : List CmdWord) (x : Instr),
     s.Unmarked → s.main = [] → s.handlers = [] → s.program = w :: rest → decode w = .ok x →
     (s.inputs = [] → step s = exec x (s.withProgram rest)) ∧
     ∀ xs, s.inputs = .run :: xs → step s = exec x ((s.withInputs xs).withProgram rest)) ∧
  (∀ (s : State) (i : Idx) (below : List Frame), s.Unmarked →
     (s.AtHandler .ev i below → step s = exec (.evIrq i) s) ∧
     (s.AtHandler .er i below → step s = exec (.erIrq i) s))

/-- 10 R47: a run marked refused or faulted answers its mark at every step, and no number of steps clears or adds to
it. -/
def Obligations.MarksAreNeverCleared : Prop :=
  ∀ (s : State),
    (∀ r, s.refused = some r → step s = .refused r ∧ ∀ n, runMarked n s = s) ∧
    ∀ e es, s.refused = none → s.faults = e :: es → step s = .fault e ∧ ∀ n, runMarked n s = s

/-- 70 R340: the engine's state after reset, on every controller. -/
def Obligations.ResetGivesTheEngineState : Prop :=
  (∀ i : Idx, i < State.reset.params.nInst → State.reset.Has i ∧
     ((State.reset.eng i).h.txBuffer = 0 ∧ (State.reset.eng i).h.rxBuffer = 0 ∧
      (State.reset.eng i).h.txRemaining = 0 ∧ (State.reset.eng i).h.rxRemaining = 0 ∧
      (State.reset.eng i).h.rxExpectedTotal = 0 ∧ (State.reset.eng i).h.transferState = .ready ∧
      (State.reset.eng i).h.targetDeviceAddress = 0 ∧ (State.reset.eng i).h.repeatedStartRequested = false ∧
      (State.reset.eng i).h.inst = i) ∧
    (State.reset.eng i).lat = ⟨false, false, false, false⟩ ∧ (State.reset.eng i).pendEV = false ∧
    (State.reset.eng i).pendER = false ∧ (State.reset.eng i).cbTrace = []) ∧
  State.reset.refused = none ∧ State.reset.faults = [] ∧ State.reset.main = [] ∧ State.reset.handlers = []

/-- 70 R342 for the state after reset, where the launch values are the model's own (log 3, log 4): FREQ 16, the
acknowledge policy ENABLE with CR1.ACK following it, own address 0. -/
def Obligations.ResetMeetsTheLaunchPremise : Prop :=
  ∀ i : Idx, i < State.reset.params.nInst →
    (State.reset.eng i).regs.cr1 =
      (if (State.reset.eng i).h.cfg.ackControl = .enable then 0x0401 else 0x0001) ∧
    (State.reset.eng i).regs.cr2 = 0x0010 ∧ (State.reset.eng i).regs.oar1.getLsbD 14 = true ∧
    (State.reset.eng i).regs.oar1.getLsbD 15 = false ∧
    (State.reset.eng i).regs.oar1.extractLsb' 1 7 = (State.reset.eng i).h.cfg.ownAddress ∧
    (State.reset.eng i).regs.oar2 = 0 ∧ (State.reset.eng i).regs.sr1 = 0 ∧ (State.reset.eng i).regs.sr2 = 0 ∧
    (State.reset.eng i).wiring.nvicEn = true

/-! ## Refusals -/

/-- 30 R132, in the order of 41 R180, R183, 42 R210, R211: each refusal by name; a refused command has no effect, since
it answers no state. That a handler command of no controller is NoSuchInstance before it is HandlerFromSoftware is the
model's choice (log 12). -/
def Obligations.IllegalOperandsAreRefusedByName : Prop :=
  (∀ (x : Instr) (s : State), s.params.nInst ≤ x.index → exec x s = .refused (.noSuchInstance x.index)) ∧
  ∀ (i : Nat) (s : State), i < s.params.nInst →
    (∀ buf addr sr, exec (.masterRx i buf 0 addr sr) s = .refused .zeroLengthReceive ∧
      exec (.masterRxIt i buf 0 addr sr) s = .refused .zeroLengthReceive) ∧
    (∀ len addr sr, len ≠ 0 →
      exec (.masterTx i 0 len addr sr) s = .refused .nullBuffer ∧
      exec (.masterRx i 0 len addr sr) s = .refused .nullBuffer ∧
      exec (.masterTxIt i 0 len addr sr) s = .refused .nullBuffer ∧
      exec (.masterRxIt i 0 len addr sr) s = .refused .nullBuffer) ∧
    (∀ addr m width buf size, width ≠ 1 → width ≠ 2 →
      exec (.memRead i addr m width buf size) s = .refused (.badAddressWidth width)) ∧
    (∀ addr m width buf, width = 1 ∨ width = 2 → exec (.memRead i addr m width buf 0) s = .refused .zeroLengthReceive) ∧
    ∀ addr m width size, width = 1 ∨ width = 2 → size ≠ 0 →
      exec (.memRead i addr m width 0 size) s = .refused .nullBuffer

/-- 30 R137: a handler command is refused by name unless the dispatch has just entered that handler. From the callback it is
refused always: the boundary marks the run, both contexts stay where they stand (00 R12, 60 R311), and the next step answers
the refusal. -/
def Obligations.HandlersFromSoftwareAreRefused : Prop :=
  ∀ (s : State) (i : Idx), i < s.params.nInst →
    (s.entered .ev i = false → exec (.evIrq i) s = .refused .handlerFromSoftware) ∧
    (s.entered .er i = false → exec (.erIrq i) s = .refused .handlerFromSoftware) ∧
    ∀ (f g : Frame) (c : AppCommand), f.lines = [⟨.app, .straight⟩] → s.Quiet → s.top = some f →
      appChoice f s = some (.command c, g) →
      (decode (c.record g s) = .ok (.evIrq i) ∨ decode (c.record g s) = .ok (.erIrq i)) →
      (tick s).refused = some .handlerFromSoftware ∧ Returned s (tick s) ∧ (tick s).trace = s.trace ∧
        step (tick s) = .refused .handlerFromSoftware

/-! ## Primitives (40) -/

/-- 40 R150, R151: GEN_START and GEN_STOP complete; each reads CR1 and writes it back with START, or STOP, set, every other
bit as read. -/
def Obligations.GenStartAndGenStopSetTheirRequest : Prop :=
  (∀ (s : State) (i : Idx), s.Has i → s.Quiet → s.Enabled i → ∃ t, exec (.genStart i) s = .next t ∧
     let e := (s.eng i).latchPending
     Effect s t i (e.withCR1 (e.regs.cr1 ||| 0x0100))
       (rmwCR1 i e.regs.cr1 (e.regs.cr1 ||| 0x0100) ++ [.result i .GEN_START .none]) ∧
     SameMemory s t ∧ Returned s t) ∧
  (∀ (s : State) (i : Idx), s.Has i → s.Quiet → s.Enabled i → ∃ t, exec (.genStop i) s = .next t ∧
     let e := (s.eng i).latchPending
     Effect s t i (e.withCR1 (e.regs.cr1 ||| 0x0200))
       (rmwCR1 i e.regs.cr1 (e.regs.cr1 ||| 0x0200) ++ [.result i .GEN_STOP .none]) ∧
     SameMemory s t ∧ Returned s t)

/-- 40 R152: SEND_ADDR completes; it is one write of the address byte to DR, with the effects of 20 R77; the byte
received last stays (log 22). -/
def Obligations.SendAddrWritesAddressByte : Prop :=
  ∀ (s : State) (i : Idx) (a : Byte) (d : Dir), s.Has i → s.Quiet → ∃ (t : State) (c : Ctrl),
    exec (.sendAddr i a d) s = .next t ∧ ((s.eng i).ctrl = .free → c = .free) ∧
    let e := s.eng i
    let b : Byte := ((a <<< 1) &&& 0xFE) ||| (match d with
      | .write => 0
      | .read => 1)
    Effect s t i
      ({ e with
        regs := { e.regs with
          tdr := b
          sr1 := e.regs.sr1 &&& ~~~(0x0080 ||| (if e.lat.sb then 0x0001 else 0) ||| (if e.lat.btf then 0x0004 else 0)) }
        lat  := { e.lat with sb := false, btf := false }
        ctrl := c } : Engine).latchPending
      [wDR i b, .result i .SEND_ADDR .none] ∧
    SameMemory s t ∧ Returned s t

/-- 40 R153, 70 R345: CLEAR_ADDR completes; it reads SR1, then SR2, and leaves ADDR clear. In `BUSY_RX` with a total of 1
the CR1 write that disables ACK comes strictly before both reads; in every other state CR1 is not touched. -/
def Obligations.ClearAddrDisablesAckFirst : Prop :=
  ∀ (s : State) (i : Idx), s.Has i → s.Quiet → s.Enabled i → ∃ t, exec (.clearAddr i) s = .next t ∧
    (let e := (s.eng i).latchPending
     if e.h.transferState = .busyRx ∧ e.h.rxExpectedTotal = 1 then
      let e' := e.withCR1 (e.regs.cr1 &&& ~~~0x0400)
      Effect s t i e'.withAddrCleared
        (rmwCR1 i e.regs.cr1 (e.regs.cr1 &&& ~~~0x0400) ++
          [rSR1 i e'.regs.sr1, rSR2 i e'.regs.sr2, .result i .CLEAR_ADDR .none])
     else
      Effect s t i e.withAddrCleared [rSR1 i e.regs.sr1, rSR2 i e.regs.sr2, .result i .CLEAR_ADDR .none]) ∧
    SameMemory s t ∧ Returned s t

/-- 40 R154: MANAGE_ACK completes; it reads CR1 and writes it back with ACK set or cleared. -/
def Obligations.ManageAckWritesAck : Prop :=
  ∀ (s : State) (i : Idx) (en : Bool), s.Has i → s.Quiet → s.Enabled i → ∃ t, exec (.manageAck i en) s = .next t ∧
    let e := (s.eng i).latchPending
    let v := if en then e.regs.cr1 ||| 0x0400 else e.regs.cr1 &&& ~~~0x0400
    Effect s t i (e.withCR1 v) (rmwCR1 i e.regs.cr1 v ++ [.result i .MANAGE_ACK .none]) ∧
    SameMemory s t ∧ Returned s t

/-- 40 R155: WAIT_FLAGS completes with OK after one read that shows every bit of the mask, an error beside them or not;
with (ERROR, e) after one read that shows an error and not the mask, if errors are propagated; and with TIMEOUT at the
deadline's read otherwise (a deadline of at most 100 reads). Each read sets the latches; nothing else changes. -/
def Obligations.WaitFlagsReturnsItsPoll : Prop :=
  ∀ (s : State) (i : Idx) (m : Half), s.Has i → s.Quiet →
    let e := (s.eng i).latchPending
    let done (t : State) (n : Nat) (st : Status) (w : Word) : Prop :=
      exec (.waitFlags i m) s = .next t ∧
        Effect s t i e.sampledSR1 (List.replicate n (rSR1 i e.regs.sr1) ++ [.result i .WAIT_FLAGS (.poll st w)]) ∧
        SameMemory s t ∧ Returned s t
    let seen := e.regs.sr1 &&& m = m
    let err := s.params.propagateBusErrors = true ∧ e.regs.sr1 &&& 0x4F00 ≠ 0
    (seen → ∃ t, done t 1 .ok 0) ∧
    (¬ seen → err → ∃ t, done t 1 .error ((e.regs.sr1 &&& 0x4F00).setWidth 32)) ∧
    (∀ d, ¬ seen → ¬ err → s.params.pollDeadline = some d → d ≤ 100 → ∃ t, done t (max d 1) .timeout 0)

/-- 41 R186, 40 R155: with no deadline, a poll whose mask is not seen and that no error ends reads SR1 for ever: after
each step it stands in the poll again, having only read SR1. -/
def Obligations.PollWithoutAnswerHangs : Prop :=
  ∀ (s : State) (i : Idx) (m : Half) (k n : Nat) (exit : PollExit) (f : Frame) (below : List Frame),
    s.Quiet → s.handlers = [] → s.main = f :: below → f.inst = i →
    f.lines = ⟨.readSR1, .poll m k exit⟩ :: f.lines.tail →
    (s.eng i).regs.sr1 &&& m ≠ m →
    (s.params.propagateBusErrors = false ∨ (s.eng i).regs.sr1 &&& 0x4F00 = 0) → s.params.pollDeadline = none →
    ∃ (t : State) (v : Word), advance n below.length s = t ∧
      t.main = { f with
        lines := ⟨.readSR1, .poll m (k + n) exit⟩ :: f.lines.tail
        loc   := { f.loc with v := v } } :: below ∧
      t.handlers = [] ∧ t.trace = s.trace ++ List.replicate n (rSR1 i (s.eng i).regs.sr1) ∧
      (t.eng i).regs = (s.eng i).regs ∧ (∀ j, (t.eng j).h = (s.eng j).h) ∧ SameMemory s t ∧ t.Quiet

/-! ## Blocking transfers (41) -/

/-- 41 R180: in a state other than READY a blocking command makes one handle read and returns BUSY: no register access,
no memory access, nothing changed. -/
def Obligations.BlockingCommandReturnsBusy : Prop :=
  ∀ (s : State) (i : Idx), s.Has i → s.Quiet → (s.handle i).transferState ≠ .ready →
    (∀ buf len addr sr, (buf ≠ 0 ∨ len = 0) → ∃ t, exec (.masterTx i buf len addr sr) s = .next t ∧
      Effect s t i (s.eng i).latchPending [.result i .MASTER_TX (.status .busy)] ∧ SameMemory s t ∧ Returned s t) ∧
    (∀ buf len addr sr, buf ≠ 0 → len ≠ 0 → ∃ t, exec (.masterRx i buf len addr sr) s = .next t ∧
      Effect s t i (s.eng i).latchPending [.result i .MASTER_RX (.status .busy)] ∧ SameMemory s t ∧ Returned s t) ∧
    ∀ addr m width buf size, (width = 1 ∨ width = 2) → buf ≠ 0 → size ≠ 0 → ∃ t,
      exec (.memRead i addr m width buf size) s = .next t ∧
      Effect s t i (s.eng i).latchPending [.result i .MEM_READ (.status .busy)] ∧ SameMemory s t ∧ Returned s t

/-- 41 R181: MASTER_TX of any length completes, under a controller that answers every poll at once: START, the address
byte with direction 0, the address clear, the bytes `buf`, `buf` + 1, ..., the wait for TxE and BTF together, STOP
unless `sr`; result OK. It stores nothing. The byte written to DR and the byte received last are two (log 22). -/
def Obligations.MasterTxSendsEveryByte : Prop :=
  ∀ (s : State) (i : Idx) (buf len : Word) (addr : Byte) (sr : Bool),
    s.CanTransfer i → (buf ≠ 0 ∨ len = 0) → (∀ k, k < len.toNat → s.params.bufferOk (buf + BitVec.ofNat 32 k) = true) →
    s.inputs = txSchedule i 3 len.toNat →
    ∃ t, exec (.masterTx i buf len addr sr) s = .next t ∧
      Transferred s t i
        { (s.eng i).regs with
          cr1 := if sr then cr1Done (s.eng i).regs.cr1 else cr1Done (s.eng i).regs.cr1 ||| 0x0200
          sr1 := 0x0084, sr2 := 0x0007, dr := 0
          tdr := if len = 0 then addrByte addr .write else s.byteAt (buf + (len - 1)) }
        ⟨false, false, true, false⟩
        (txEvents i s (s.eng i).regs.cr1 buf len addr sr ++ [.result i .MASTER_TX (.status .ok)]) ∧
      SameMemory s t

/-- 41 R182, R189: MASTER_RX of any length L >= 1 completes, under a controller that answers every poll at once: START,
the address byte with direction 1; for L = 1 the ACK disable before the address clear; for L >= 2 the ACK disable and
STOP with exactly two bytes unread; exactly the bytes received are stored at `buf`, `buf` + 1, ...; ACK is re-enabled if
the policy is; result OK. The byte written to DR and the byte received last are two (log 22). -/
def Obligations.MasterRxStoresEveryByte : Prop :=
  ∀ (s : State) (i : Idx) (buf len : Word) (addr : Byte) (sr : Bool) (ds : List Byte),
    s.CanTransfer i → s.MemoryCanonical → buf ≠ 0 → len ≠ 0 → ds.length = len.toNat →
    (∀ k, k < len.toNat → s.params.bufferOk (buf + BitVec.ofNat 32 k) = true) →
    s.inputs = rxSchedule i sr ds →
    ∃ t, exec (.masterRx i buf len addr sr) s = .next t ∧
      Transferred s t i (rxRegs (s.eng i).regs (s.handle i).cfg.ackControl addr sr (ds.getLastD 0))
        ⟨false, false, false, false⟩
        (rxEvents i (s.eng i).regs.cr1 (s.handle i).cfg.ackControl buf addr sr ds ++
          [.result i .MASTER_RX (.status .ok)]) ∧
      (∀ k d, ds[k]? = some d → t.byteAt (buf + BitVec.ofNat 32 k) = d) ∧
      ∀ a : Word, (∀ k, k < ds.length → a ≠ buf + BitVec.ofNat 32 k) → t.byteAt a = s.byteAt a

/-- 41 R183: MEM_READ completes, under a controller that answers every poll at once: the one or two memory-address
bytes, most significant first, with no memory access and no STOP, then a repeated START and the receive of `size` bytes.
The byte written to DR and the byte received last are two (log 22). -/
def Obligations.MemReadComposesTransmitAndReceive : Prop :=
  ∀ (s : State) (i : Idx) (addr : Byte) (memAddr : Half) (width : Byte) (buf size : Word) (ds : List Byte),
    s.CanTransfer i → s.MemoryCanonical → (width = 1 ∨ width = 2) → buf ≠ 0 → size ≠ 0 → ds.length = size.toNat →
    (∀ k, k < size.toNat → s.params.bufferOk (buf + BitVec.ofNat 32 k) = true) →
    s.inputs = txSchedule i 2 width.toNat ++ rxSchedule i false ds →
    ∃ t, exec (.memRead i addr memAddr width buf size) s = .next t ∧
      Transferred s t i (rxRegs (s.eng i).regs (s.handle i).cfg.ackControl addr false (ds.getLastD 0))
        ⟨false, false, false, false⟩
        (addressEvents i (s.eng i).regs.cr1 (addrByte addr .write) ++ [rSR1 i 0x0002, rSR2 i 0x0007] ++
          scratchEvents i (if width = 1 then [memAddr.setWidth 8] else [(memAddr >>> 8).setWidth 8, memAddr.setWidth 8]) ++
          [rSR1 i 0x0084] ++
          rxEvents i (cr1Done (s.eng i).regs.cr1) (s.handle i).cfg.ackControl buf addr false ds ++
          [.result i .MEM_READ (.status .ok)]) ∧
      (∀ k d, ds[k]? = some d → t.byteAt (buf + BitVec.ofNat 32 k) = d) ∧
      ∀ a : Word, (∀ k, k < ds.length → a ≠ buf + BitVec.ofNat 32 k) → t.byteAt a = s.byteAt a

/-- 41 R188: whatever the controllers do while MEM_READ of a 1-byte memory address runs to OK, the explicit transmit with
repeated start, its byte read from caller memory at `p`, followed by the receive, run to OK under the same controllers'
steps in the same order, with the same register accesses, the same wire sequence and the same caller memory; and MEM_READ
does run to OK, as do the two, under a controller that answers every poll at once. -/
def Obligations.MemReadWireEqualsExplicitPair : Prop :=
  (∀ (s t : State) (i : Idx) (addr : Byte) (memAddr : Half) (p buf size : Word),
     s.ControllersOnly → p ≠ 0 → s.params.bufferOk p = true → s.byteAt p = memAddr.setWidth 8 →
     exec (.memRead i addr memAddr 1 buf size) s = .next t → t.depth = s.depth →
     t.trace.getLast? = some (.result i .MEM_READ (.status .ok)) →
     ∃ (ys zs : List Input) (u v : State),
       controllerSteps s.inputs = controllerSteps ys ++ controllerSteps zs ++ controllerSteps t.inputs ∧
       exec (.masterTx i p 1 addr true) (s.withInputs ys) = .next u ∧ u.depth = s.depth ∧ u.inputs = [] ∧
       u.trace.getLast? = some (.result i .MASTER_TX (.status .ok)) ∧
       exec (.masterRx i buf size addr false) (u.withInputs zs) = .next v ∧ v.depth = s.depth ∧ v.inputs = [] ∧
       v.trace.getLast? = some (.result i .MASTER_RX (.status .ok)) ∧
       registerAccesses t.trace = registerAccesses v.trace ∧ wire t.trace = wire v.trace ∧ SameMemory t v) ∧
  ∀ (s : State) (i : Idx) (addr : Byte) (memAddr : Half) (p buf size : Word) (ds : List Byte),
    s.CanTransfer i → s.MemoryCanonical → p ≠ 0 → s.params.bufferOk p = true → s.byteAt p = memAddr.setWidth 8 →
    buf ≠ 0 → size ≠ 0 → ds.length = size.toNat →
    (∀ k, k < size.toNat → s.params.bufferOk (buf + BitVec.ofNat 32 k) = true) →
    ∃ t u v,
      exec (.memRead i addr memAddr 1 buf size) (s.withInputs (txSchedule i 2 1 ++ rxSchedule i false ds)) =
        .next t ∧ t.depth = s.depth ∧ t.trace.getLast? = some (.result i .MEM_READ (.status .ok)) ∧
      exec (.masterTx i p 1 addr true) (s.withInputs (txSchedule i 3 1)) = .next u ∧ u.depth = s.depth ∧
      u.trace.getLast? = some (.result i .MASTER_TX (.status .ok)) ∧
      exec (.masterRx i buf size addr false) (u.withInputs (rxSchedule i false ds)) = .next v ∧ v.depth = s.depth ∧
      v.trace.getLast? = some (.result i .MASTER_RX (.status .ok)) ∧
      registerAccesses t.trace = registerAccesses v.trace ∧ wire t.trace = wire v.trace ∧ SameMemory t v

/-- 41 R184. With bus errors propagated, a transmit or receive whose first poll shows errors and not SB clears exactly the
error flags seen, requests STOP for an AF that is alone of ARLO and BERR, re-enables ACK after a receive if the policy is
ENABLE, and returns ERROR. A first poll that reaches its deadline (of at most 100 reads) with no error to propagate requests
no STOP, re-enables ACK in the same way, and returns TIMEOUT. And so does the poll at which any command stands, at whatever
read of it, in either context: the command ends with that exit. -/
def Obligations.AbortExitAfterBusError : Prop :=
  (∀ (s : State) (i : Idx) (buf len : Word) (addr : Byte) (sr rx : Bool),
     s.Has i → s.Quiet → s.Enabled i → (s.handle i).transferState = .ready → buf ≠ 0 → len ≠ 0 →
     (s.eng i).lat.stopf = false → (s.eng i).regs.sr1.getLsbD 0 = false →
     let v := (s.eng i).regs.cr1
     let x := (s.eng i).regs.sr1
     let v1 := v ||| 0x0100
     let stop := x.getLsbD 10 = true ∧ x &&& 0x0300 = 0
     let v2 := if stop then v1 ||| 0x0200 else v1
     let ack := rx = true ∧ (s.handle i).cfg.ackControl = .enable
     let c := if rx then Instr.masterRx i buf len addr sr else Instr.masterTx i buf len addr sr
     let m := if rx then Mnemonic.MASTER_RX else Mnemonic.MASTER_TX
     (s.params.propagateBusErrors = true → x &&& 0x4F00 ≠ 0 →
       ∃ t, exec c s = .next t ∧
         t.trace = s.trace ++ rmwCR1 i v v1 ++
           [rSR1 i x, .regWrite i .sr1 ((0xDF00 &&& ~~~(x &&& 0x4F00) : Half).setWidth 32)] ++
           (if stop then rmwCR1 i v1 v2 else []) ++ (if ack then rmwCR1 i v2 (v2 ||| 0x0400) else []) ++
           [.result i m (.status .error)] ∧
         (t.eng i).regs.sr1 &&& 0x4F00 = 0 ∧ (t.eng i).regs.sr1 &&& 0xB0EF = x &&& 0xB0EF ∧
         (t.eng i).regs.cr1 = (if ack then v2 ||| 0x0400 else v2) ∧ (t.eng i).h = (s.eng i).h ∧
         SameMemory s t ∧ Returned s t) ∧
     (∀ d, (s.params.propagateBusErrors = false ∨ x &&& 0x4F00 = 0) → s.params.pollDeadline = some d → d ≤ 100 →
       ∃ t, exec c s = .next t ∧
         t.trace = s.trace ++ rmwCR1 i v v1 ++ List.replicate (max d 1) (rSR1 i x) ++
           (if ack then rmwCR1 i v1 (v1 ||| 0x0400) else []) ++ [.result i m (.status .timeout)] ∧
         (t.eng i).regs.sr1 &&& 0xFFEF = x &&& 0xFFEF ∧
         (t.eng i).regs.cr1 = (if ack then v1 ||| 0x0400 else v1) ∧ (t.eng i).h = (s.eng i).h ∧
         SameMemory s t ∧ Returned s t)) ∧
  (∀ (s : State) (f : Frame) (k : Nat) (m : Half) (rx : Bool) (rest : List Line) (mn : Mnemonic),
     s.Quiet → s.Enabled f.inst → s.top = some f → f.owner = .command mn →
     f.lines = ⟨.readSR1, .poll m k (.abort rx)⟩ :: rest →
     let i := f.inst
     let v := (s.eng i).regs.cr1
     let x := (s.eng i).regs.sr1
     let stop := x.getLsbD 10 = true ∧ x &&& 0x0300 = 0
     let v2 := if stop then v ||| 0x0200 else v
     let ack := rx = true ∧ (s.handle i).cfg.ackControl = .enable
     let t := s.runTo (s.depth - 1)
     x &&& m ≠ m →
     (s.params.propagateBusErrors = true → x &&& 0x4F00 ≠ 0 →
       t.trace = s.trace ++ [rSR1 i x, .regWrite i .sr1 ((0xDF00 &&& ~~~(x &&& 0x4F00) : Half).setWidth 32)] ++
         (if stop then rmwCR1 i v v2 else []) ++ (if ack then rmwCR1 i v2 (v2 ||| 0x0400) else []) ++
         [.result i mn (.status .error)] ∧
       (t.eng i).regs.sr1 &&& 0x4F00 = 0 ∧ (t.eng i).regs.sr1 &&& 0xB0EF = x &&& 0xB0EF ∧
       (t.eng i).regs.cr1 = (if ack then v2 ||| 0x0400 else v2) ∧ (t.eng i).h = (s.eng i).h ∧
       SameMemory s t ∧ Returned s.pop t) ∧
     (∀ d, (s.params.propagateBusErrors = false ∨ x &&& 0x4F00 = 0) → s.params.pollDeadline = some d → d ≤ k + 1 →
       t.trace = s.trace ++ [rSR1 i x] ++ (if ack then rmwCR1 i v (v ||| 0x0400) else []) ++
         [.result i mn (.status .timeout)] ∧
       (t.eng i).regs.sr1 &&& 0xFFEF = x &&& 0xFFEF ∧
       (t.eng i).regs.cr1 = (if ack then v ||| 0x0400 else v) ∧ (t.eng i).h = (s.eng i).h ∧
       SameMemory s t ∧ Returned s.pop t))

/-- 41 R187, 42 R215, 20 R71: under any controller and however far it has run, a primitive or a blocking command writes no
handle field of any controller, no other controller's software-owned register, and no byte of caller memory but those of
its receive buffer; and every register access it makes is one of its own controller. -/
def Obligations.SynchronousCommandFrame : Prop :=
  ∀ (x : Instr) (s t : State), x.synchronous = true → s.ControllersOnly → s.MemoryCanonical → exec x s = .next t →
    (∀ j, (t.eng j).h = (s.eng j).h) ∧ (∀ j, (t.eng j).cbTrace = (s.eng j).cbTrace) ∧
    (∀ j, (t.eng j).regs.cr2 = (s.eng j).regs.cr2) ∧
    (∀ j, (t.eng j).regs.oar1 = (s.eng j).regs.oar1 ∧ (t.eng j).regs.oar2 = (s.eng j).regs.oar2 ∧
      (t.eng j).regs.ccr = (s.eng j).regs.ccr ∧ (t.eng j).regs.trise = (s.eng j).regs.trise ∧
      (t.eng j).regs.fltr = (s.eng j).regs.fltr ∧ (t.eng j).wiring = (s.eng j).wiring) ∧
    (∀ j, j ≠ x.index → (t.eng j).lat = (s.eng j).lat ∧ (t.eng j).regs.tdr = (s.eng j).regs.tdr ∧
      (t.eng j).regs.cr1 &&& ~~~0x0300 = (s.eng j).regs.cr1 &&& ~~~0x0300 ∧
      ((t.eng j).regs.cr1.getLsbD 8 = true → (s.eng j).regs.cr1.getLsbD 8 = true)) ∧
    (∃ tr, t.trace = s.trace ++ tr ∧ ∀ e ∈ tr, ∀ j, e.regInst = some j → j = x.index) ∧
    (∀ a : Word, ¬ x.mayStore a → t.byteAt a = s.byteAt a) ∧ t.program = s.program

/-- 41 R185: with the default parameters, under any controller, a blocking command that has returned has returned OK, or
BUSY from the entry check. -/
def Obligations.LegacyBlockingResult : Prop :=
  ∀ (x : Instr) (s t : State), x.synchronous = true → (x.mnemonic = .MASTER_TX ∨ x.mnemonic = .MASTER_RX ∨
      x.mnemonic = .MEM_READ) → s.ControllersOnly → s.params.propagateBusErrors = false → s.params.pollDeadline = none →
    exec x s = .next t → t.depth = s.depth →
    (∃ tr, t.trace = s.trace ++ tr ++ [.result x.index x.mnemonic (.status .ok)]) ∨
      ((s.handle x.index).transferState ≠ .ready ∧
        t.trace = s.trace ++ [.result x.index x.mnemonic (.status .busy)])

/-- 20 R74, 70 R348: a request the controller clears between the read and the write of a read-modify-write is requested
again: GEN_STOP, with START pending at its read and performed before its write, writes START back. -/
def Obligations.StaleRequestIsWrittenBack : Prop :=
  ∀ (s : State) (i : Idx) (c : HwChange), s.Has i → s.Unmarked → s.Enabled i → (s.eng i).ctrl = .free →
    c.startDone = true → c.stop = false → (s.eng i).regs.cr1.getLsbD 8 = true → s.inputs = [.run, .free i c, .run] →
    ∃ t, exec (.genStop i) s = .next t ∧
      (t.eng i).regs.cr1 = (s.eng i).regs.cr1 ||| 0x0200 ∧ (t.eng i).regs.cr1.getLsbD 8 = true ∧ Returned s t

/-! ## Asynchronous start and close (42) -/

/-- 42 R210, R211: an accepted MASTER_TX_IT or MASTER_RX_IT completes: the handle fields of its direction, then GEN_START,
then the three enables in their order; the result is READY. The handle writes are not traced (log 19): in the run of the
command's own frame, boundary by boundary, they are made one by one in the rule's order, `transferState` last, all before
GEN_START's first access. -/
def Obligations.AsynchronousStartArmsTheTransfer : Prop :=
  (∀ (s : State) (i : Idx) (buf len : Word) (addr : Byte) (sr : Bool),
     s.Has i → s.Quiet → s.Enabled i → (buf ≠ 0 ∨ len = 0) → (s.handle i).transferState = .ready →
     ∃ t, exec (.masterTxIt i buf len addr sr) s = .next t ∧
       (let e := (s.eng i).latchPending
        let v := e.regs.cr1
        let c := e.regs.cr2
        Effect s t i
         (Engine.latchPending { (e.withCR1 (v ||| 0x0100)).withCR2 (c ||| 0x0700) with
           h := { e.h with
             txBuffer := buf, txRemaining := len, targetDeviceAddress := addr, repeatedStartRequested := sr
             transferState := .busyTx } })
         (rmwCR1 i v (v ||| 0x0100) ++ rmwCR2 i c (c ||| 0x0400) ++ rmwCR2 i (c ||| 0x0400) (c ||| 0x0600) ++
           rmwCR2 i (c ||| 0x0600) (c ||| 0x0700) ++ [.result i .MASTER_TX_IT (.state .ready)])) ∧
       SameMemory s t ∧ Returned s t ∧
       ∃ f : Frame, masterTxItCmd s.params.nInst i buf len addr sr = .ok f ∧
         t = advance 128 s.depth (s.push f) ∧ ∀ n, n ≤ 7 →
         (let u := advance n s.depth (s.push f)
          let h := s.handle i
          u.handle i = { h with
            txBuffer := if 2 ≤ n then buf else h.txBuffer
            txRemaining := if 3 ≤ n then len else h.txRemaining
            targetDeviceAddress := if 4 ≤ n then addr else h.targetDeviceAddress
            repeatedStartRequested := if 5 ≤ n then sr else h.repeatedStartRequested
            transferState := if 6 ≤ n then .busyTx else .ready } ∧
          (u.eng i).regs = (s.eng i).regs ∧
          u.trace = s.trace ++ if n = 7 then [.regRead i .cr1 ((s.eng i).regs.cr1.setWidth 32)] else [])) ∧
  (∀ (s : State) (i : Idx) (buf len : Word) (addr : Byte) (sr : Bool),
     s.Has i → s.Quiet → s.Enabled i → buf ≠ 0 → len ≠ 0 → (s.handle i).transferState = .ready →
     ∃ t, exec (.masterRxIt i buf len addr sr) s = .next t ∧
       (let e := (s.eng i).latchPending
        let v := e.regs.cr1
        let c := e.regs.cr2
        Effect s t i
         (Engine.latchPending { (e.withCR1 (v ||| 0x0100)).withCR2 (c ||| 0x0700) with
           h := { e.h with
             rxBuffer := buf, rxRemaining := len, rxExpectedTotal := len, targetDeviceAddress := addr
             repeatedStartRequested := sr, transferState := .busyRx } })
         (rmwCR1 i v (v ||| 0x0100) ++ rmwCR2 i c (c ||| 0x0400) ++ rmwCR2 i (c ||| 0x0400) (c ||| 0x0600) ++
           rmwCR2 i (c ||| 0x0600) (c ||| 0x0700) ++ [.result i .MASTER_RX_IT (.state .ready)])) ∧
       SameMemory s t ∧ Returned s t ∧
       ∃ f : Frame, masterRxItCmd s.params.nInst i buf len addr sr = .ok f ∧
         t = advance 128 s.depth (s.push f) ∧ ∀ n, n ≤ 8 →
         (let u := advance n s.depth (s.push f)
          let h := s.handle i
          u.handle i = { h with
            rxBuffer := if 2 ≤ n then buf else h.rxBuffer
            rxRemaining := if 3 ≤ n then len else h.rxRemaining
            rxExpectedTotal := if 4 ≤ n then len else h.rxExpectedTotal
            targetDeviceAddress := if 5 ≤ n then addr else h.targetDeviceAddress
            repeatedStartRequested := if 6 ≤ n then sr else h.repeatedStartRequested
            transferState := if 7 ≤ n then .busyRx else .ready } ∧
          (u.eng i).regs = (s.eng i).regs ∧
          u.trace = s.trace ++ if n = 8 then [.regRead i .cr1 ((s.eng i).regs.cr1.setWidth 32)] else []))

/-- 42 R212: a start while BUSY performs one handle read and returns the state unchanged: no handle write, no register
access, no memory access. A malformed start is refused even while BUSY. -/
def Obligations.StartWhileBusyIsRejected : Prop :=
  ∀ (s : State) (i : Idx) (buf len : Word) (addr : Byte) (sr : Bool),
    s.Has i → s.Quiet → (s.handle i).transferState ≠ .ready →
    ((buf ≠ 0 ∨ len = 0) → ∃ t, exec (.masterTxIt i buf len addr sr) s = .next t ∧
      Effect s t i (s.eng i).latchPending [.result i .MASTER_TX_IT (.state (s.handle i).transferState)] ∧
      SameMemory s t ∧ Returned s t) ∧
    (buf ≠ 0 → len ≠ 0 → ∃ t, exec (.masterRxIt i buf len addr sr) s = .next t ∧
      Effect s t i (s.eng i).latchPending [.result i .MASTER_RX_IT (.state (s.handle i).transferState)] ∧
      SameMemory s t ∧ Returned s t) ∧
    (len = 0 → exec (.masterRxIt i buf len addr sr) s = .refused .zeroLengthReceive) ∧
    (buf = 0 → len ≠ 0 → exec (.masterTxIt i buf len addr sr) s = .refused .nullBuffer ∧
      exec (.masterRxIt i buf len addr sr) s = .refused .nullBuffer)

/-- 42 R213, R214: CLOSE_TX and CLOSE_RX complete from any state: ITBUFEN, then ITEVTEN cleared, the direction's fields null,
READY; CLOSE_RX also resets the expected total and sets CR1.ACK if and only if the policy is ENABLE. ITERREN, the target
address and the repeated-start flag are left. -/
def Obligations.ClosesReleaseTheHandle : Prop :=
  (∀ (s : State) (i : Idx), s.Has i → s.Quiet → ∃ t, exec (.closeTx i) s = .next t ∧
     (let e := (s.eng i).latchPending
      let c := e.regs.cr2
      Effect s t i
       { e.withCR2 (c &&& ~~~0x0600) with h := { e.h with txBuffer := 0, txRemaining := 0, transferState := .ready } }
       (rmwCR2 i c (c &&& ~~~0x0400) ++ rmwCR2 i (c &&& ~~~0x0400) (c &&& ~~~0x0600) ++
         [.result i .CLOSE_TX .none])) ∧
     SameMemory s t ∧ Returned s t) ∧
  (∀ (s : State) (i : Idx), s.Has i → s.Quiet → s.Enabled i → ∃ t, exec (.closeRx i) s = .next t ∧
     (let e := (s.eng i).latchPending
      let c := e.regs.cr2
      let e' := { e.withCR2 (c &&& ~~~0x0600) with
       h := { e.h with rxBuffer := 0, rxRemaining := 0, transferState := .ready, rxExpectedTotal := 0 } }
      let on := e.h.cfg.ackControl = .enable
      Effect s t i (if on then e'.withCR1 (e.regs.cr1 ||| 0x0400) else e')
       (rmwCR2 i c (c &&& ~~~0x0400) ++ rmwCR2 i (c &&& ~~~0x0400) (c &&& ~~~0x0600) ++
         (if on then rmwCR1 i e.regs.cr1 (e.regs.cr1 ||| 0x0400) else []) ++ [.result i .CLOSE_RX .none])) ∧
     SameMemory s t ∧ Returned s t)

/-! ## The event handler (43)

Each statement below takes one kind of event at the entry. `c` and `x` are CR2 and SR1 at the entry. -/

/-- 43 R240. An entry that finds no condition of a check completes, with the twelve reads and nothing else but the latches
of the last SR1 read. A flag with nothing to do is left alone: BTF with bytes left, without TxE, or outside `BUSY_TX`; as
master, TxE outside `BUSY_TX` or with no byte left, and RxNE outside `BUSY_RX`. And whatever flags are set, in whatever
state, the entry is its six checks in their order, each a whole, each on what those before it left (`Served.sixChecks`). -/
def Obligations.EventHandlerRunsItsSixChecks : Prop :=
  (∀ (s : State) (i : Idx) (below : List Frame), s.EventEntry i below →
    let e := (s.eng i).latchPending
    (e.regs.cr2.getLsbD 9 = false ∨
      (e.regs.sr1 &&& 0x0017 = 0 ∧ (e.regs.cr2.getLsbD 10 = false ∨ e.regs.sr1 &&& 0x00C0 = 0))) →
    ∃ t, exec (.evIrq i) s = .next t ∧
      Effect s t i e.sampledSR1 (idleChecks i 6 e.regs.cr2 e.regs.sr1) ∧ SameMemory s t ∧ HandlerReturned s t below) ∧
  (∀ (s : State) (i : Idx) (below : List Frame), s.EventEntry i below →
    let e := (s.eng i).latchPending
    let c := e.regs.cr2
    let x := e.regs.sr1
    c.getLsbD 9 = true → x &&& 0x0013 = 0 →
    (x.getLsbD 2 = true → e.h.transferState ≠ .busyTx ∨ x.getLsbD 7 = false ∨ e.h.txRemaining ≠ 0) →
    (c.getLsbD 10 = true → x.getLsbD 7 = true → e.regs.sr2.getLsbD 0 = true ∧
      (e.h.transferState ≠ .busyTx ∨ e.h.txRemaining = 0)) →
    (c.getLsbD 10 = true → x.getLsbD 6 = true → e.regs.sr2.getLsbD 0 = true ∧ e.h.transferState ≠ .busyRx) →
    ∃ t, exec (.evIrq i) s = .next t ∧
      Effect s t i e.sampledSR1
        (idleChecks i 5 c x ++ (if c.getLsbD 10 && x.getLsbD 7 then [rSR2 i e.regs.sr2] else []) ++ sample i c x ++
          if c.getLsbD 10 && x.getLsbD 6 then [rSR2 i e.regs.sr2] else []) ∧
      SameMemory s t ∧ HandlerReturned s t below) ∧
  ∀ (s : State) (i : Idx) (below : List Frame) (y : Served), s.EventEntry i below → s.Enabled i →
    Served.sixChecks s.params i ⟨(s.eng i).latchPending, [], s.mem⟩ = some y →
    ∃ t, exec (.evIrq i) s = .next t ∧ Effect s t i y.engine y.events ∧ t.mem = y.mem ∧ HandlerReturned s t below

/-- 43 R241: with SB the handler sends the address byte of the BUSY state's direction, and in READY writes nothing. The
byte written to DR and the byte received last are two (log 22). -/
def Obligations.EventHandlerSendsAddress : Prop :=
  ∀ (s : State) (i : Idx) (below : List Frame), s.EventEntry i below →
    let e := (s.eng i).latchPending
    let c := e.regs.cr2
    let x := e.regs.sr1
    c.getLsbD 9 = true → x &&& 0x00D7 = 0x0001 →
    ∃ (t : State) (k : Ctrl), exec (.evIrq i) s = .next t ∧ (e.ctrl = .free → k = .free) ∧
      (match e.h.transferState with
       | .ready => Effect s t i e.sampledSR1 (idleChecks i 6 c x)
       | st =>
        let b := addrByte e.h.targetDeviceAddress (if st = .busyTx then .write else .read)
        Effect s t i
          { e with
            regs := { e.regs with tdr := b, sr1 := x &&& ~~~0x0001 }
            lat  := ⟨false, false, false, false⟩
            ctrl := k }
          (sample i c x ++ [wDR i b] ++ idleChecks i 5 c (x &&& ~~~0x0001))) ∧
      SameMemory s t ∧ HandlerReturned s t below

/-- 43 R242, R249: with ADDR the handler clears it by CLEAR_ADDR, and for a receive of one byte the CR1 write that clears
ACK comes before the SR2 read that clears ADDR. -/
def Obligations.EventHandlerClearsAddress : Prop :=
  ∀ (s : State) (i : Idx) (below : List Frame), s.EventEntry i below → s.Enabled i →
    let e := (s.eng i).latchPending
    let c := e.regs.cr2
    let x := e.regs.sr1
    let one := e.h.transferState = .busyRx ∧ e.h.rxExpectedTotal = 1
    let v := e.regs.cr1
    c.getLsbD 9 = true → x &&& 0x00D7 = 0x0002 →
    ∃ t, exec (.evIrq i) s = .next t ∧
      Effect s t i
        { e with
          regs := { e.regs with cr1 := if one then v &&& ~~~0x0400 else v, sr1 := x &&& ~~~0x0002 }
          lat  := ⟨false, false, false, false⟩ }
        (sample i c x ++ sample i c x ++ (if one then rmwCR1 i v (v &&& ~~~0x0400) else []) ++
          [rSR1 i x, rSR2 i e.regs.sr2] ++ idleChecks i 4 c (x &&& ~~~0x0002)) ∧
      SameMemory s t ∧ HandlerReturned s t below

/-- 43 R243: with BTF and TxE in BUSY_TX and no byte left, the handler requests STOP unless a repeated start is asked for,
closes, and emits EV_TX_CMPLT; the later checks of the entry then find the events masked. -/
def Obligations.EventHandlerEndsTransmit : Prop :=
  ∀ (s : State) (i : Idx) (below : List Frame), s.EventEntry i below → s.Enabled i →
    let e := (s.eng i).latchPending
    let c := e.regs.cr2
    let x := e.regs.sr1
    let v := e.regs.cr1
    let sr := e.h.repeatedStartRequested
    let v' := if sr then v else v ||| 0x0200
    c.getLsbD 9 = true → x &&& 0x00D7 = 0x0084 → e.h.transferState = .busyTx → e.h.txRemaining = 0 →
    ∃ t, exec (.evIrq i) s = .next t ∧
      Effect s t i
        { e with
          h := { e.h with txBuffer := 0, txRemaining := 0, transferState := .ready }
          regs := { e.regs with cr1 := v', cr2 := c &&& ~~~0x0600 }
          lat  := ⟨false, false, true, false⟩
          cbTrace := e.cbTrace ++ [.txCmplt] }
        (idleChecks i 3 c x ++ (if sr then [] else rmwCR1 i v v') ++ rmwCR2 i c (c &&& ~~~0x0400) ++
          rmwCR2 i (c &&& ~~~0x0400) (c &&& ~~~0x0600) ++ [.callback i .txCmplt] ++
          idleChecks i 3 (c &&& ~~~0x0600) x) ∧
      SameMemory s t ∧ HandlerReturned s t below

/-- 43 R244: with STOPF the handler writes CR1 back after the SR1 read that saw it, which clears STOPF, and emits
EV_STOP. -/
def Obligations.EventHandlerAcknowledgesStop : Prop :=
  ∀ (s : State) (i : Idx) (below : List Frame), s.EventEntry i below → s.Enabled i →
    let e := (s.eng i).latchPending
    let c := e.regs.cr2
    let x := e.regs.sr1
    let v := e.regs.cr1
    c.getLsbD 9 = true → x &&& 0x00D7 = 0x0010 →
    ∃ t, exec (.evIrq i) s = .next t ∧
      Effect s t i
        { e with
          regs := { e.regs with sr1 := x &&& ~~~0x0010 }
          lat  := ⟨false, false, false, false⟩
          cbTrace := e.cbTrace ++ [.stop] }
        (idleChecks i 4 c x ++ rmwCR1 i v v ++ [.callback i .stop] ++ idleChecks i 2 c (x &&& ~~~0x0010)) ∧
      SameMemory s t ∧ HandlerReturned s t below

/-- 43 R245, as master: with TxE in BUSY_TX and bytes left, with BTF or without, the handler moves the byte at
`txBuffer` to DR, counts it and advances the pointer; that write clears TxE, and BTF where the check's read saw it. The
byte written to DR and the byte received last are two (log 22). -/
def Obligations.EventHandlerSendsNextByte : Prop :=
  ∀ (s : State) (i : Idx) (below : List Frame), s.EventEntry i below →
    let e := (s.eng i).latchPending
    let c := e.regs.cr2
    let x := e.regs.sr1
    let p := e.h.txBuffer
    let b := s.byteAt p
    c.getLsbD 9 = true → c.getLsbD 10 = true → x &&& 0x00D3 = 0x0080 → e.regs.sr2.getLsbD 0 = true →
    e.h.transferState = .busyTx → e.h.txRemaining ≠ 0 → s.params.bufferOk p = true →
    ∃ (t : State) (k : Ctrl), exec (.evIrq i) s = .next t ∧ (e.ctrl = .free → k = .free) ∧
      Effect s t i
        { e with
          h := { e.h with txRemaining := e.h.txRemaining - 1, txBuffer := p + 1 }
          regs := { e.regs with tdr := b, sr1 := x &&& ~~~0x0084 }
          lat  := ⟨false, false, false, false⟩
          ctrl := k }
        (idleChecks i 5 c x ++ [rSR2 i e.regs.sr2, .memRead p b, wDR i b] ++ sample i c (x &&& ~~~0x0084)) ∧
      SameMemory s t ∧ HandlerReturned s t below

/-- 43 R245, R246: as a slave the handler moves no byte: a TxE with TRA emits EV_DATA_REQ, a RxNE without TRA emits
EV_DATA_RCV, and the other combinations do nothing. -/
def Obligations.EventHandlerSlaveCallbacks : Prop :=
  ∀ (s : State) (i : Idx) (below : List Frame), s.EventEntry i below →
    let e := (s.eng i).latchPending
    let c := e.regs.cr2
    let x := e.regs.sr1
    let tra := e.regs.sr2.getLsbD 2
    c.getLsbD 9 = true → c.getLsbD 10 = true → e.regs.sr2.getLsbD 0 = false →
    (x &&& 0x00D7 = 0x0080 → ∃ t, exec (.evIrq i) s = .next t ∧
      Effect s t i
        { e with lat := ⟨false, false, false, false⟩, cbTrace := e.cbTrace ++ if tra then [.dataReq] else [] }
        (idleChecks i 5 c x ++ [rSR2 i e.regs.sr2] ++ (if tra then [.callback i .dataReq] else []) ++ sample i c x) ∧
      SameMemory s t ∧ HandlerReturned s t below) ∧
    (x &&& 0x00D7 = 0x0040 → ∃ t, exec (.evIrq i) s = .next t ∧
      Effect s t i
        { e with lat := ⟨false, false, false, false⟩, cbTrace := e.cbTrace ++ if tra then [] else [.dataRcv] }
        (idleChecks i 6 c x ++ [rSR2 i e.regs.sr2] ++ (if tra then [] else [.callback i .dataRcv])) ∧
      SameMemory s t ∧ HandlerReturned s t below)

/-- 43 R247: a RxNE with more than one byte left reads the byte into the buffer and counts it; the pointer advances unless
the original length was 1; ACK is disabled before the read exactly when two bytes are left (70 R346). -/
def Obligations.EventHandlerReceivesByte : Prop :=
  ∀ (s : State) (i : Idx) (below : List Frame), s.ReceiveEntry i below →
    let e := (s.eng i).latchPending
    let c := e.regs.cr2
    let x := e.regs.sr1
    let v := e.regs.cr1
    let n := e.h.rxRemaining
    let p := e.h.rxBuffer
    let one := e.h.rxExpectedTotal = 1
    let nack := ¬ one ∧ n = 2
    n ≠ 0 → n ≠ 1 →
    ∃ t, exec (.evIrq i) s = .next t ∧
      Effect s t i
        { e with
          h := { e.h with rxRemaining := n - 1, rxBuffer := if one then p else p + 1 }
          regs := { e.regs with cr1 := if nack then v &&& ~~~0x0400 else v, sr1 := x &&& ~~~0x0044 }
          lat  := ⟨false, false, false, false⟩ }
        (idleChecks i 6 c x ++ [rSR2 i e.regs.sr2] ++ (if nack then rmwCR1 i v (v &&& ~~~0x0400) else []) ++
          [rDR i e.regs.dr, .memWrite p e.regs.dr]) ∧
      t.byteAt p = e.regs.dr ∧ SameMemoryBut p s t ∧ HandlerReturned s t below

/-- 43 R247: the RxNE of the last byte stores it, then requests STOP unless a repeated start is asked for, closes, and
emits EV_RX_CMPLT. -/
def Obligations.EventHandlerEndsReceive : Prop :=
  ∀ (s : State) (i : Idx) (below : List Frame), s.ReceiveEntry i below →
    let e := (s.eng i).latchPending
    let c := e.regs.cr2
    let x := e.regs.sr1
    let v := e.regs.cr1
    let p := e.h.rxBuffer
    let sr := e.h.repeatedStartRequested
    let on := e.h.cfg.ackControl = .enable
    let v1 := if sr then v else v ||| 0x0200
    let v2 := if on then v1 ||| 0x0400 else v1
    e.h.rxRemaining = 1 →
    ∃ t, exec (.evIrq i) s = .next t ∧
      Effect s t i
        { e with
          h := { e.h with rxBuffer := 0, rxRemaining := 0, rxExpectedTotal := 0, transferState := .ready }
          regs := { e.regs with cr1 := v2, cr2 := c &&& ~~~0x0600, sr1 := x &&& ~~~0x0044 }
          lat  := ⟨false, false, false, false⟩
          cbTrace := e.cbTrace ++ [.rxCmplt] }
        (idleChecks i 6 c x ++ [rSR2 i e.regs.sr2, rDR i e.regs.dr, .memWrite p e.regs.dr] ++
          (if sr then [] else rmwCR1 i v v1) ++ rmwCR2 i c (c &&& ~~~0x0400) ++
          rmwCR2 i (c &&& ~~~0x0400) (c &&& ~~~0x0600) ++ (if on then rmwCR1 i v1 v2 else []) ++
          [.callback i .rxCmplt]) ∧
      t.byteAt p = e.regs.dr ∧ SameMemoryBut p s t ∧ HandlerReturned s t below

/-- 43 R247, 60 R302: RXNE_MASTER entered with no byte left is the fault RxUnderflow. What the entry read before it stays in
the trace (00 R14), no handle field and no byte of memory has changed, the handler stays where it raised (60 R311), and the
next step answers the fault. -/
def Obligations.ReceiveUnderflowFaults : Prop :=
  ∀ (s : State) (i : Idx) (below : List Frame), s.ReceiveEntry i below → (s.handle i).rxRemaining = 0 →
    let e := (s.eng i).latchPending
    ∃ (t : State) (f : Frame), exec (.evIrq i) s = .next t ∧ t.faults = [.rxUnderflow i] ∧
      step t = .fault (.rxUnderflow i) ∧
      t.trace = s.trace ++ idleChecks i 6 e.regs.cr2 e.regs.sr1 ++ [rSR2 i e.regs.sr2] ∧ t.eng i = e.sampledSR1 ∧
      SameMemory s t ∧ t.main = s.main ∧ t.handlers = f :: below ∧ f.owner = .ev ∧ f.inst = i

/-! ## The error handler (44) -/

/-- 44 R270, R271, R273, R278: ER_IRQ completes. With ITERREN it reads SR1 afresh for each of the five bits in their order,
clears each set one by one write that clears no other flag, and emits its code once; with ITERREN = 0 it makes its six
reads and nothing else. No handle field, no CR1 bit and no byte of memory changes. -/
def Obligations.ErrorHandlerClearsAndReports : Prop :=
  ∀ (s : State) (i : Idx) (below : List Frame), s.Has i → s.AtHandler .er i below → s.Quiet →
    s.params.app = [] →
    let e := (s.eng i).latchPending
    let c := e.regs.cr2
    let x := e.regs.sr1
    let r : Event := .regRead i .cr2 (c.setWidth 32)
    ∃ t, exec (.erIrq i) s = .next t ∧
      (if c.getLsbD 8 = true then
        Effect s t i
          { e with
            regs := { e.regs with sr1 := x &&& ~~~0x4F00 }
            lat  := latchesOf x
            cbTrace := e.cbTrace ++ errorCodes x errorChecks }
          (r :: errorEvents i x errorChecks)
       else Effect s t i e.sampledSR1 (r :: List.replicate 5 (rSR1 i x))) ∧
      SameMemory s t ∧ HandlerReturned s t below

/-! ## The callback (44 R274, R276) -/

/-- 44 R274 to R277, 60 R311. A callback emission appends its code to the controller's trace, then the application starts,
in the context of the handler that emitted, which stays where it is until the callback returns. Each of the application's
steps is what its program chooses (log 8): a command, run above the callback; one that is refused marks the run, and the
callback stays where it is; a byte of caller memory read or written; DR of the controller that emitted read or written; or
the return, which is all that the no-op does. -/
def Obligations.CallbackRunsTheApplication : Prop :=
  (∀ (s : State) (i : Idx) (o : Owner) (c : EventCode) (rest : List Line) (l : Locals) (res : Result)
     (below : List Frame), s.Quiet → s.handlers = ⟨o, i, ⟨.callback c, .straight⟩ :: rest, l, res⟩ :: below →
     let t := tick s
     (t.eng i).cbTrace = (s.eng i).cbTrace ++ [c] ∧ t.trace = s.trace ++ [.callback i c] ∧
       (∃ f, t.handlers = f :: ⟨o, i, rest, l, res⟩ :: below ∧ f.owner = .app ∧ f.inst = i ∧ f.loc.code = c ∧
         f.loc.node = 0 ∧ f.loc.vars = [] ∧ f.lines = [⟨.app, .straight⟩]) ∧
       t.main = s.main ∧ SameMemory s t ∧ ∀ j, (t.eng j).h = (s.eng j).h ∧ (t.eng j).regs = (s.eng j).regs) ∧
  (∀ (s : State) (f : Frame) (below : List Frame), s.Quiet → s.handlers = f :: below → f.lines = [⟨.app, .straight⟩] →
     let t := tick s
     t.main = s.main ∧
     (s.params.app = [] → appChoice f s = none) ∧
     ((appChoice f s = none ∨ ∃ g, appChoice f s = some (.ret, g)) →
       t.trace = s.trace ∧ SameMemory s t ∧ (∀ j, t.eng j = (s.eng j).latchPending) ∧
         ∃ g, t.handlers = g :: below ∧ g.lines = [] ∧ g.owner = f.owner) ∧
     (∀ c g, appChoice f s = some (.command c, g) →
       t.trace = s.trace ∧ SameMemory s t ∧ (∀ j, t.eng j = (s.eng j).latchPending) ∧
       (∀ x h, decode (c.record g s) = .ok x → softwareCmd s.params.nInst x = .ok h → t.handlers = h :: g :: below) ∧
       (∀ x r, decode (c.record g s) = .ok x → softwareCmd s.params.nInst x = .error r →
         t.handlers = s.handlers ∧ t.refused = some r ∧ step t = .refused r) ∧
       ∀ op, decode (c.record g s) = .error (.unknownCommand op) →
         t.handlers = s.handlers ∧ t.refused = some (.unknownCommand op) ∧ step t = .refused (.unknownCommand op)) ∧
     (∀ a k g, appChoice f s = some (.memRead a k, g) → s.params.bufferOk (a.eval g s) = true →
       let b := s.byteAt (a.eval g s)
       t.trace = s.trace ++ [.memRead (a.eval g s) b] ∧ SameMemory s t ∧ (∀ j, t.eng j = (s.eng j).latchPending) ∧
         ∃ h, t.handlers = h :: below ∧ h.loc.node = g.loc.node ∧ h.loc.vars[k]? = some (b.setWidth 32)) ∧
     (∀ a v g, appChoice f s = some (.memWrite a v, g) → s.params.bufferOk (a.eval g s) = true → s.MemoryCanonical →
       t.trace = s.trace ++ [.memWrite (a.eval g s) ((v.eval g s).setWidth 8)] ∧
         t.byteAt (a.eval g s) = (v.eval g s).setWidth 8 ∧ SameMemoryBut (a.eval g s) s t ∧
         (∀ j, t.eng j = (s.eng j).latchPending) ∧ t.handlers = g :: below) ∧
     (∀ k g, appChoice f s = some (.readDR k, g) →
       t.trace = s.trace ++ [rDR f.inst (s.eng f.inst).regs.dr] ∧ SameMemory s t ∧
         t.eng f.inst = ((s.eng f.inst).afterRead .dr).latchPending ∧
         (∀ j, j ≠ f.inst → t.eng j = (s.eng j).latchPending) ∧
         ∃ h, t.handlers = h :: below ∧ h.loc.node = g.loc.node ∧
           h.loc.vars[k]? = some ((s.eng f.inst).regs.dr.setWidth 32)) ∧
     ∀ v g, appChoice f s = some (.writeDR v, g) →
       let b : Byte := (v.eval g s).setWidth 8
       t.trace = s.trace ++ [wDR f.inst b] ∧ SameMemory s t ∧
         t.eng f.inst = ((s.eng f.inst).afterWrite (b.setWidth 32) .dr).latchPending ∧
         (∀ j, j ≠ f.inst → t.eng j = (s.eng j).latchPending) ∧ t.handlers = g :: below) ∧
  ∀ (s : State) (f : Frame) (below : List Frame), s.Quiet → s.handlers = f :: below → f.lines = [] → f.owner = .app →
    let t := tick s
    t.handlers = below ∧ t.main = s.main ∧ t.trace = s.trace ∧ SameMemory s t ∧
      ∀ j, t.eng j = (s.eng j).latchPending

/-! ## Invariants, kept by every step from every state -/

/-- Every step keeps the canonical form of caller memory. -/
def Obligations.StepKeepsMemoryCanonical : Prop :=
  ∀ s t : State, s.MemoryCanonical → step s = .next t → t.MemoryCanonical

/-- 60 R306 along a run: every step keeps it true that an asserted, routed line has its latch set. -/
def Obligations.StepKeepsLinesLatched : Prop :=
  ∀ s t : State, s.LinesLatched → step s = .next t → t.LinesLatched

/-- 60 R307, R313: every step keeps the handler context at no handler, one, or, with nesting, an error handler on an event
handler. -/
def Obligations.StepKeepsHandlersNested : Prop :=
  ∀ s t : State, s.HandlersNested → step s = .next t → t.HandlersNested

/-- 20 R84, 70 R342: no step of any agent takes PE away or sets a field of CR1 that launch left 0, because every CR1
write of the engine writes back what it read. -/
def Obligations.StepKeepsTheLaunchedControlRegister : Prop :=
  ∀ s t : State, s.LaunchKept → step s = .next t → t.LaunchKept

/-- The state after reset meets the four invariants. -/
def Obligations.ResetMeetsTheInvariants : Prop :=
  State.reset.MemoryCanonical ∧ State.reset.LinesLatched ∧ State.reset.HandlersNested ∧ State.reset.LaunchKept

/-- 10 R22, R49: no step writes a parameter of the run, the base address and routing of a controller among them; none writes
the configuration or the binding of a controller that no coming input initialises anew (70 R344). -/
def Obligations.StepKeepsConfiguration : Prop :=
  ∀ s t : State, step s = .next t →
    t.params = s.params ∧ (∀ i, (t.eng i).wiring = (s.eng i).wiring) ∧
    ∀ i, s.NoReinit i → (t.eng i).h.cfg = (s.eng i).h.cfg ∧ (t.eng i).h.inst = (s.eng i).h.inst

/-- 10 R32, 00 R14: a step only appends to the callback trace of a controller that no coming input initialises anew, and
every step only appends to the observed trace. -/
def Obligations.TracesOnlyGrow : Prop :=
  ∀ s t : State, step s = .next t → (∃ tr, t.trace = s.trace ++ tr) ∧
    ∀ i, s.NoReinit i → ∃ cs, (t.eng i).cbTrace = (s.eng i).cbTrace ++ cs
end

