-- ==== Sys2Proof/Laws/State.lean ====
section
/-! SUPPORT. One lemma per field per update of State, and the algebra of the calls (`push`, `setTop`, `pop`) with the
updates of engines, memory and trace, so that no later proof unfolds a record update. -/

namespace Sys2Proof.Machine

variable (s : State) (i j : Idx) (e : Engine) (x : Event) (f g : Frame) (h : Handle)

/-! ## setEng -/

/-- The engine put at a place is the one found there. -/
theorem engineAt_putEngine_same (l : List Engine) : ∀ i, engineAt (putEngine l i e) i = e := by
  induction l with
  | nil => intro i; induction i with
    | zero => rfl
    | succ i ih => exact ih
  | cons x l ih => intro i; cases i with
    | zero => rfl
    | succ i => exact ih i

/-- The engines at the other places are left. -/
theorem engineAt_putEngine_ne (l : List Engine) : ∀ i j, i ≠ j → engineAt (putEngine l i e) j = engineAt l j := by
  induction l with
  | nil => intro i; induction i with
    | zero => intro j h; cases j with
      | zero => exact absurd rfl h
      | succ j => rfl
    | succ i ih => intro j h; cases j with
      | zero => rfl
      | succ j => exact ih j (fun hij => h (congrArg _ hij))
  | cons x l ih => intro i j h; cases i with
    | zero => cases j with
      | zero => exact absurd rfl h
      | succ j => rfl
    | succ i => cases j with
      | zero => rfl
      | succ j => exact ih i j (fun hij => h (congrArg _ hij))

/-- Putting back the engine of a controller that exists changes nothing. -/
theorem putEngine_engineAt (l : List Engine) : ∀ i, i < l.length → putEngine l i (engineAt l i) = l := by
  induction l with
  | nil => intro i h; exact absurd h (Nat.not_lt_zero _)
  | cons x l ih => intro i h; cases i with
    | zero => rfl
    | succ i => exact congrArg (x :: ·) (ih i (Nat.lt_of_succ_lt_succ h))

/-- The last engine put at a place stays. -/
theorem putEngine_putEngine (l : List Engine) (e' : Engine) :
    ∀ i, putEngine (putEngine l i e) i e' = putEngine l i e' := by
  induction l with
  | nil => intro i; induction i with
    | zero => rfl
    | succ i ih => exact congrArg (_ :: ·) ih
  | cons x l ih => intro i; cases i with
    | zero => rfl
    | succ i => exact congrArg (x :: ·) (ih i)

/-- A change of every engine changes the one found at a place, and the one put there. -/
theorem engineAt_map (g : Engine → Engine) (hg : g Engine.absent = Engine.absent) (l : List Engine) :
    ∀ i, engineAt (l.map g) i = g (engineAt l i) := by
  induction l with
  | nil => intro i; exact hg.symm
  | cons x l ih => intro i; cases i with
    | zero => rfl
    | succ i => exact ih i

theorem map_putEngine (g : Engine → Engine) (hg : g Engine.absent = Engine.absent) (l : List Engine) :
    ∀ i, (putEngine l i e).map g = putEngine (l.map g) i (g e) := by
  induction l with
  | nil => intro i; induction i with
    | zero => rfl
    | succ i ih => exact congrArg₂ (· :: ·) hg ih
  | cons x l ih => intro i; cases i with
    | zero => rfl
    | succ i => exact congrArg (g x :: ·) (ih i)

/-- No line of a controller that does not exist is asserted. -/
theorem absent_latchPending : Engine.absent.latchPending = Engine.absent := by decide

@[simp] theorem eng_setEng_same : (s.setEng i e).eng i = e := engineAt_putEngine_same e _ i

theorem eng_setEng_ne (hij : i ≠ j) : (s.setEng i e).eng j = s.eng j := engineAt_putEngine_ne e _ i j hij

theorem eng_setEng : (s.setEng i e).eng j = if i = j then e else s.eng j := by
  split
  · next h => subst h; simp
  · next h => exact eng_setEng_ne s i j e h

@[simp] theorem setEng_mem : (s.setEng i e).mem = s.mem := rfl
@[simp] theorem setEng_main : (s.setEng i e).main = s.main := rfl
@[simp] theorem setEng_handlers : (s.setEng i e).handlers = s.handlers := rfl
@[simp] theorem setEng_program : (s.setEng i e).program = s.program := rfl
@[simp] theorem setEng_inputs : (s.setEng i e).inputs = s.inputs := (rfl)
@[simp] theorem setEng_trace : (s.setEng i e).trace = s.trace := rfl
@[simp] theorem setEng_params : (s.setEng i e).params = s.params := (rfl)
@[simp] theorem setEng_refused : (s.setEng i e).refused = s.refused := rfl
@[simp] theorem setEng_faults : (s.setEng i e).faults = s.faults := rfl

/-! ## emit -/

@[simp] theorem emit_eng : (s.emit x).eng j = s.eng j := rfl
@[simp] theorem emit_mem : (s.emit x).mem = s.mem := rfl
@[simp] theorem emit_main : (s.emit x).main = s.main := rfl
@[simp] theorem emit_handlers : (s.emit x).handlers = s.handlers := rfl
@[simp] theorem emit_program : (s.emit x).program = s.program := rfl
@[simp] theorem emit_inputs : (s.emit x).inputs = s.inputs := (rfl)
@[simp] theorem emit_trace : (s.emit x).trace = s.trace ++ [x] := rfl
@[simp] theorem emit_params : (s.emit x).params = s.params := (rfl)
@[simp] theorem emit_refused : (s.emit x).refused = s.refused := rfl
@[simp] theorem emit_faults : (s.emit x).faults = s.faults := rfl

/-! ## latchAll -/

@[simp] theorem latchAll_eng : s.latchAll.eng j = (s.eng j).latchPending :=
  engineAt_map _ absent_latchPending _ j

@[simp] theorem latchAll_mem : s.latchAll.mem = s.mem := rfl
@[simp] theorem latchAll_main : s.latchAll.main = s.main := rfl
@[simp] theorem latchAll_handlers : s.latchAll.handlers = s.handlers := rfl
@[simp] theorem latchAll_program : s.latchAll.program = s.program := rfl
@[simp] theorem latchAll_inputs : s.latchAll.inputs = s.inputs := (rfl)
@[simp] theorem latchAll_trace : s.latchAll.trace = s.trace := rfl
@[simp] theorem latchAll_params : s.latchAll.params = s.params := (rfl)
@[simp] theorem latchAll_refused : s.latchAll.refused = s.refused := rfl
@[simp] theorem latchAll_faults : s.latchAll.faults = s.faults := rfl

@[simp] theorem latchPending_h : e.latchPending.h = e.h := rfl
@[simp] theorem latchPending_regs : e.latchPending.regs = e.regs := rfl
@[simp] theorem latchPending_lat : e.latchPending.lat = e.lat := rfl
@[simp] theorem latchPending_cbTrace : e.latchPending.cbTrace = e.cbTrace := rfl
@[simp] theorem latchPending_wiring : e.latchPending.wiring = e.wiring := rfl
@[simp] theorem latchPending_ctrl : e.latchPending.ctrl = e.ctrl := rfl
@[simp] theorem latchPending_value (r : Reg) : e.latchPending.value r = e.value r := by cases r <;> rfl
@[simp] theorem latchPending_evLine : e.latchPending.evLine = e.evLine := rfl
@[simp] theorem latchPending_erLine : e.latchPending.erLine = e.erLine := rfl

/-- Latching twice without a change between is latching once. -/
@[simp] theorem latchPending_twice : e.latchPending.latchPending = e.latchPending := by
  cases e; simp [Engine.latchPending, Engine.evLine, Engine.erLine]

@[simp] theorem latchAll_twice : s.latchAll.latchAll = s.latchAll := by
  simp [State.latchAll, Function.comp_def]

/-! ## Marks -/

@[simp] theorem refuse_eng (r : Refusal) : (s.refuse r).eng j = s.eng j := rfl
@[simp] theorem refuse_mem (r : Refusal) : (s.refuse r).mem = s.mem := (rfl)
@[simp] theorem refuse_main (r : Refusal) : (s.refuse r).main = s.main := (rfl)
@[simp] theorem refuse_handlers (r : Refusal) : (s.refuse r).handlers = s.handlers := (rfl)
@[simp] theorem refuse_program (r : Refusal) : (s.refuse r).program = s.program := (rfl)
@[simp] theorem refuse_inputs (r : Refusal) : (s.refuse r).inputs = s.inputs := (rfl)
@[simp] theorem refuse_trace (r : Refusal) : (s.refuse r).trace = s.trace := (rfl)
@[simp] theorem refuse_params (r : Refusal) : (s.refuse r).params = s.params := (rfl)
@[simp] theorem refuse_depth (r : Refusal) : (s.refuse r).depth = s.depth := (rfl)
@[simp] theorem refuse_byteAt (r : Refusal) (a : Word) : (s.refuse r).byteAt a = s.byteAt a := (rfl)
@[simp] theorem refuse_latchAll (r : Refusal) : (s.refuse r).latchAll = s.latchAll.refuse r := (rfl)
@[simp] theorem fail_eng (x : Fault) : (s.fail x).eng j = s.eng j := rfl
@[simp] theorem fail_mem (x : Fault) : (s.fail x).mem = s.mem := (rfl)
@[simp] theorem fail_main (x : Fault) : (s.fail x).main = s.main := (rfl)
@[simp] theorem fail_handlers (x : Fault) : (s.fail x).handlers = s.handlers := (rfl)
@[simp] theorem fail_program (x : Fault) : (s.fail x).program = s.program := (rfl)
@[simp] theorem fail_inputs (x : Fault) : (s.fail x).inputs = s.inputs := (rfl)
@[simp] theorem fail_trace (x : Fault) : (s.fail x).trace = s.trace := (rfl)
@[simp] theorem fail_params (x : Fault) : (s.fail x).params = s.params := (rfl)
@[simp] theorem fail_depth (x : Fault) : (s.fail x).depth = s.depth := (rfl)
@[simp] theorem fail_byteAt (x : Fault) (a : Word) : (s.fail x).byteAt a = s.byteAt a := (rfl)
@[simp] theorem fail_latchAll (x : Fault) : (s.fail x).latchAll = s.latchAll.fail x := (rfl)
@[simp] theorem refuse_refused (r : Refusal) : (s.refuse r).refused = some r := rfl
@[simp] theorem refuse_faults (r : Refusal) : (s.refuse r).faults = s.faults := (rfl)
@[simp] theorem fail_refused (x : Fault) : (s.fail x).refused = s.refused := (rfl)
@[simp] theorem fail_faults (x : Fault) : (s.fail x).faults = s.faults ++ [x] := rfl
@[simp] theorem refuse_marked (r : Refusal) : (s.refuse r).marked = true := rfl
@[simp] theorem fail_marked (x : Fault) : (s.fail x).marked = true := by simp [State.marked]

/-- A state without marks. -/
theorem marked_false_iff : s.marked = false ↔ s.Unmarked := by
  simp [State.marked, State.Unmarked]

/-! ## Derived updates -/

@[simp] theorem handle_eq : s.handle i = (s.eng i).h := rfl

@[simp] theorem regRead_mem (r : Reg) : (s.regRead i r).mem = s.mem := rfl
@[simp] theorem regRead_inputs (r : Reg) : (s.regRead i r).inputs = s.inputs := (rfl)
@[simp] theorem regRead_params (r : Reg) : (s.regRead i r).params = s.params := (rfl)
@[simp] theorem regRead_main (r : Reg) : (s.regRead i r).main = s.main := rfl
@[simp] theorem regRead_handlers (r : Reg) : (s.regRead i r).handlers = s.handlers := rfl
@[simp] theorem regRead_program (r : Reg) : (s.regRead i r).program = s.program := rfl
@[simp] theorem regRead_refused (r : Reg) : (s.regRead i r).refused = s.refused := rfl
@[simp] theorem regRead_faults (r : Reg) : (s.regRead i r).faults = s.faults := rfl
@[simp] theorem regRead_trace (r : Reg) :
    (s.regRead i r).trace = s.trace ++ [.regRead i r ((s.eng i).value r)] := rfl
@[simp] theorem regRead_eng_same (r : Reg) : (s.regRead i r).eng i = (s.eng i).afterRead r := by simp [State.regRead]
theorem regRead_eng_ne (r : Reg) (hij : i ≠ j) : (s.regRead i r).eng j = s.eng j := by
  simp [State.regRead, eng_setEng_ne s i j _ hij]

@[simp] theorem regWrite_mem (r : Reg) (v : Word) : (s.regWrite i r v).mem = s.mem := rfl
@[simp] theorem regWrite_inputs (r : Reg) (v : Word) : (s.regWrite i r v).inputs = s.inputs := (rfl)
@[simp] theorem regWrite_params (r : Reg) (v : Word) : (s.regWrite i r v).params = s.params := (rfl)
@[simp] theorem regWrite_main (r : Reg) (v : Word) : (s.regWrite i r v).main = s.main := rfl
@[simp] theorem regWrite_handlers (r : Reg) (v : Word) : (s.regWrite i r v).handlers = s.handlers := rfl
@[simp] theorem regWrite_program (r : Reg) (v : Word) : (s.regWrite i r v).program = s.program := rfl
@[simp] theorem regWrite_refused (r : Reg) (v : Word) : (s.regWrite i r v).refused = s.refused := rfl
@[simp] theorem regWrite_faults (r : Reg) (v : Word) : (s.regWrite i r v).faults = s.faults := rfl
@[simp] theorem regWrite_trace (r : Reg) (v : Word) :
    (s.regWrite i r v).trace = s.trace ++ [.regWrite i r v] := rfl
@[simp] theorem regWrite_eng_same (r : Reg) (v : Word) :
    (s.regWrite i r v).eng i = (s.eng i).afterWrite v r := by simp [State.regWrite]
theorem regWrite_eng_ne (r : Reg) (v : Word) (hij : i ≠ j) : (s.regWrite i r v).eng j = s.eng j := by
  simp [State.regWrite, eng_setEng_ne s i j _ hij]

@[simp] theorem memRead_eng (a : Word) : (s.memRead a).eng j = s.eng j := rfl
@[simp] theorem memRead_mem (a : Word) : (s.memRead a).mem = s.mem := rfl
@[simp] theorem memRead_inputs (a : Word) : (s.memRead a).inputs = s.inputs := (rfl)
@[simp] theorem memRead_params (a : Word) : (s.memRead a).params = s.params := (rfl)
@[simp] theorem memRead_trace (a : Word) : (s.memRead a).trace = s.trace ++ [.memRead a (s.byteAt a)] := rfl

@[simp] theorem memWrite_eng (a : Word) (b : Byte) : (s.memWrite a b).eng j = s.eng j := rfl
@[simp] theorem memWrite_mem (a : Word) (b : Byte) : (s.memWrite a b).mem = Memory.write s.mem a.toNat b := rfl
@[simp] theorem memWrite_inputs (a : Word) (b : Byte) : (s.memWrite a b).inputs = s.inputs := (rfl)
@[simp] theorem memWrite_params (a : Word) (b : Byte) : (s.memWrite a b).params = s.params := (rfl)
@[simp] theorem memWrite_trace (a : Word) (b : Byte) : (s.memWrite a b).trace = s.trace ++ [.memWrite a b] := rfl

@[simp] theorem setHandle_eng_same : (s.setHandle i h).eng i = { s.eng i with h := h } := by simp [State.setHandle]
theorem setHandle_eng_ne (hij : i ≠ j) : (s.setHandle i h).eng j = s.eng j := by
  simp [State.setHandle, eng_setEng_ne s i j _ hij]
@[simp] theorem setHandle_mem : (s.setHandle i h).mem = s.mem := rfl
@[simp] theorem setHandle_inputs : (s.setHandle i h).inputs = s.inputs := (rfl)
@[simp] theorem setHandle_params : (s.setHandle i h).params = s.params := (rfl)
@[simp] theorem setHandle_trace : (s.setHandle i h).trace = s.trace := rfl

@[simp] theorem emitCallback_eng_same (c : EventCode) :
    (s.emitCallback i c).eng i = { s.eng i with cbTrace := (s.eng i).cbTrace ++ [c] } := by simp [State.emitCallback]
theorem emitCallback_eng_ne (c : EventCode) (hij : i ≠ j) : (s.emitCallback i c).eng j = s.eng j := by
  simp [State.emitCallback, eng_setEng_ne s i j _ hij]
@[simp] theorem emitCallback_mem (c : EventCode) : (s.emitCallback i c).mem = s.mem := rfl
@[simp] theorem emitCallback_inputs (c : EventCode) : (s.emitCallback i c).inputs = s.inputs := (rfl)
@[simp] theorem emitCallback_params (c : EventCode) : (s.emitCallback i c).params = s.params := (rfl)
@[simp] theorem emitCallback_trace (c : EventCode) : (s.emitCallback i c).trace = s.trace ++ [.callback i c] := rfl

@[simp] theorem memRead_main (a : Word) : (s.memRead a).main = s.main := (rfl)
@[simp] theorem memRead_handlers (a : Word) : (s.memRead a).handlers = s.handlers := (rfl)
@[simp] theorem memRead_program (a : Word) : (s.memRead a).program = s.program := (rfl)
@[simp] theorem memRead_refused (a : Word) : (s.memRead a).refused = s.refused := (rfl)
@[simp] theorem memRead_faults (a : Word) : (s.memRead a).faults = s.faults := (rfl)
@[simp] theorem memWrite_main (a : Word) (b : Byte) : (s.memWrite a b).main = s.main := (rfl)
@[simp] theorem memWrite_handlers (a : Word) (b : Byte) : (s.memWrite a b).handlers = s.handlers := (rfl)
@[simp] theorem memWrite_program (a : Word) (b : Byte) : (s.memWrite a b).program = s.program := (rfl)
@[simp] theorem memWrite_refused (a : Word) (b : Byte) : (s.memWrite a b).refused = s.refused := (rfl)
@[simp] theorem memWrite_faults (a : Word) (b : Byte) : (s.memWrite a b).faults = s.faults := (rfl)
@[simp] theorem setHandle_main : (s.setHandle i h).main = s.main := (rfl)
@[simp] theorem setHandle_handlers : (s.setHandle i h).handlers = s.handlers := (rfl)
@[simp] theorem setHandle_program : (s.setHandle i h).program = s.program := (rfl)
@[simp] theorem setHandle_refused : (s.setHandle i h).refused = s.refused := (rfl)
@[simp] theorem setHandle_faults : (s.setHandle i h).faults = s.faults := (rfl)
@[simp] theorem emitCallback_main (c : EventCode) : (s.emitCallback i c).main = s.main := (rfl)
@[simp] theorem emitCallback_handlers (c : EventCode) : (s.emitCallback i c).handlers = s.handlers := (rfl)
@[simp] theorem emitCallback_program (c : EventCode) : (s.emitCallback i c).program = s.program := (rfl)
@[simp] theorem emitCallback_refused (c : EventCode) : (s.emitCallback i c).refused = s.refused := (rfl)
@[simp] theorem emitCallback_faults (c : EventCode) : (s.emitCallback i c).faults = s.faults := (rfl)

@[simp] theorem setEng_byteAt  (a : Word) : (s.setEng i e).byteAt a = s.byteAt a := (rfl)
@[simp] theorem emit_byteAt  (a : Word) : (s.emit x).byteAt a = s.byteAt a := (rfl)
@[simp] theorem latchAll_byteAt  (a : Word) : (s.latchAll).byteAt a = s.byteAt a := (rfl)
@[simp] theorem regRead_byteAt (r : Reg) (a : Word) : (s.regRead i r).byteAt a = s.byteAt a := (rfl)
@[simp] theorem regWrite_byteAt (r : Reg) (v : Word) (a : Word) : (s.regWrite i r v).byteAt a = s.byteAt a := (rfl)
@[simp] theorem setHandle_byteAt  (a : Word) : (s.setHandle i h).byteAt a = s.byteAt a := (rfl)
@[simp] theorem emitCallback_byteAt (c : EventCode) (a : Word) : (s.emitCallback i c).byteAt a = s.byteAt a := (rfl)
@[simp] theorem memRead_byteAt (b : Word) (a : Word) : (s.memRead b).byteAt a = s.byteAt a := (rfl)

/-! ## Calls: `push` commutes with everything below it -/

theorem push_eq : s.push f = { s with
    handlers := if s.handlers = [] then [] else f :: s.handlers
    main := if s.handlers = [] then f :: s.main else s.main } := by
  cases s with
  | mk en m ma ha pr inp tr pa re fa => cases ha <;> simp [State.push]

@[simp] theorem push_eng : (s.push f).eng j = s.eng j := by rw [push_eq]; rfl
@[simp] theorem push_mem : (s.push f).mem = s.mem := by rw [push_eq]
@[simp] theorem push_inputs : (s.push f).inputs = s.inputs := by rw [push_eq]
@[simp] theorem push_program : (s.push f).program = s.program := by rw [push_eq]
@[simp] theorem push_trace : (s.push f).trace = s.trace := by rw [push_eq]
@[simp] theorem push_params : (s.push f).params = s.params := by rw [push_eq]
@[simp] theorem push_refused : (s.push f).refused = s.refused := by rw [push_eq]
@[simp] theorem push_faults : (s.push f).faults = s.faults := by rw [push_eq]
@[simp] theorem push_byteAt (a : Word) : (s.push f).byteAt a = s.byteAt a := by simp [State.byteAt]

@[simp] theorem push_top : (s.push f).top = some f := by
  cases s with
  | mk en m ma ha pr inp tr pa re fa => cases ha <;> rfl

@[simp] theorem push_setTop : (s.push f).setTop g = s.push g := by
  cases s with
  | mk en m ma ha pr inp tr pa re fa => cases ha <;> rfl

@[simp] theorem push_pop : (s.push f).pop = s := by
  cases s with
  | mk en m ma ha pr inp tr pa re fa => cases ha <;> rfl

@[simp] theorem push_depth : (s.push f).depth = s.depth + 1 := by
  cases s with
  | mk en m ma ha pr inp tr pa re fa => (cases ha <;> simp [State.push, State.depth]); omega

@[simp] theorem push_setEng : (s.push f).setEng i e = (s.setEng i e).push f := by
  cases s with
  | mk en m ma ha pr inp tr pa re fa => cases ha <;> rfl

@[simp] theorem push_emit : (s.push f).emit x = (s.emit x).push f := by
  cases s with
  | mk en m ma ha pr inp tr pa re fa => cases ha <;> rfl

@[simp] theorem push_latchAll : (s.push f).latchAll = s.latchAll.push f := by
  cases s with
  | mk en m ma ha pr inp tr pa re fa => cases ha <;> rfl

@[simp] theorem push_regRead (r : Reg) : (s.push f).regRead i r = (s.regRead i r).push f := by
  simp [State.regRead]
@[simp] theorem push_regWrite (r : Reg) (v : Word) : (s.push f).regWrite i r v = (s.regWrite i r v).push f := by
  simp [State.regWrite]
@[simp] theorem push_setHandle : (s.push f).setHandle i h = (s.setHandle i h).push f := by
  simp [State.setHandle]
@[simp] theorem push_emitCallback (c : EventCode) : (s.push f).emitCallback i c = (s.emitCallback i c).push f := by
  simp [State.emitCallback]
@[simp] theorem push_memRead (a : Word) : (s.push f).memRead a = (s.memRead a).push f := by
  simp [State.memRead]
@[simp] theorem push_memWrite (a : Word) (b : Byte) : (s.push f).memWrite a b = (s.memWrite a b).push f := by
  cases s with
  | mk en m ma ha pr inp tr pa re fa => cases ha <;> rfl

@[simp] theorem push_withInputs (xs : List Input) : (s.push f).withInputs xs = (s.withInputs xs).push f := by
  cases s with
  | mk en m ma ha pr inp tr pa re fa => cases ha <;> rfl

/-! ## Frames of the handler context: `enter` commutes with everything below it -/

@[simp] theorem enter_eng : (s.enter f).eng j = s.eng j := rfl
@[simp] theorem enter_mem : (s.enter f).mem = s.mem := rfl
@[simp] theorem enter_main : (s.enter f).main = s.main := rfl
@[simp] theorem enter_handlers : (s.enter f).handlers = f :: s.handlers := rfl
@[simp] theorem enter_inputs : (s.enter f).inputs = s.inputs := (rfl)
@[simp] theorem enter_program : (s.enter f).program = s.program := rfl
@[simp] theorem enter_trace : (s.enter f).trace = s.trace := rfl
@[simp] theorem enter_params : (s.enter f).params = s.params := (rfl)
@[simp] theorem enter_refused : (s.enter f).refused = s.refused := rfl
@[simp] theorem enter_faults : (s.enter f).faults = s.faults := rfl
@[simp] theorem enter_byteAt (a : Word) : (s.enter f).byteAt a = s.byteAt a := rfl
@[simp] theorem enter_top : (s.enter f).top = some f := rfl
@[simp] theorem enter_setTop : (s.enter f).setTop g = s.enter g := rfl
@[simp] theorem enter_pop : (s.enter f).pop = s := rfl
@[simp] theorem enter_push : (s.enter f).push g = (s.enter f).enter g := rfl
@[simp] theorem enter_depth : (s.enter f).depth = s.depth + 1 := by
  simp [State.enter, State.depth]; omega
@[simp] theorem enter_setEng : (s.enter f).setEng i e = (s.setEng i e).enter f := rfl
@[simp] theorem enter_emit : (s.enter f).emit x = (s.emit x).enter f := rfl
@[simp] theorem enter_latchAll : (s.enter f).latchAll = s.latchAll.enter f := rfl
@[simp] theorem enter_regRead (r : Reg) : (s.enter f).regRead i r = (s.regRead i r).enter f := rfl
@[simp] theorem enter_regWrite (r : Reg) (v : Word) : (s.enter f).regWrite i r v = (s.regWrite i r v).enter f := rfl
@[simp] theorem enter_setHandle : (s.enter f).setHandle i h = (s.setHandle i h).enter f := rfl
@[simp] theorem enter_emitCallback (c : EventCode) : (s.enter f).emitCallback i c = (s.emitCallback i c).enter f := rfl
@[simp] theorem enter_memRead (a : Word) : (s.enter f).memRead a = (s.memRead a).enter f := rfl
@[simp] theorem enter_memWrite (a : Word) (b : Byte) : (s.enter f).memWrite a b = (s.memWrite a b).enter f := rfl

/-! ## Inputs, application steps and commands to come -/

@[simp] theorem withInputs_withInputs (xs ys : List Input) : (s.withInputs xs).withInputs ys = s.withInputs ys := rfl
@[simp] theorem withInputs_eng (xs : List Input) : (s.withInputs xs).eng j = s.eng j := rfl
@[simp] theorem withInputs_mem (xs : List Input) : (s.withInputs xs).mem = s.mem := (rfl)
@[simp] theorem withInputs_main (xs : List Input) : (s.withInputs xs).main = s.main := (rfl)
@[simp] theorem withInputs_handlers (xs : List Input) : (s.withInputs xs).handlers = s.handlers := (rfl)
@[simp] theorem withInputs_program (xs : List Input) : (s.withInputs xs).program = s.program := (rfl)
@[simp] theorem withInputs_inputs (xs : List Input) : (s.withInputs xs).inputs = xs := (rfl)
@[simp] theorem withInputs_trace (xs : List Input) : (s.withInputs xs).trace = s.trace := (rfl)
@[simp] theorem withInputs_params (xs : List Input) : (s.withInputs xs).params = s.params := (rfl)
@[simp] theorem withInputs_refused (xs : List Input) : (s.withInputs xs).refused = s.refused := (rfl)
@[simp] theorem withInputs_faults (xs : List Input) : (s.withInputs xs).faults = s.faults := (rfl)
@[simp] theorem withInputs_depth (xs : List Input) : (s.withInputs xs).depth = s.depth := (rfl)
@[simp] theorem withInputs_byteAt (xs : List Input) (a : Word) : (s.withInputs xs).byteAt a = s.byteAt a := (rfl)


@[simp] theorem withProgram_eng (ws : List CmdWord) : (s.withProgram ws).eng j = s.eng j := rfl
@[simp] theorem withProgram_mem (ws : List CmdWord) : (s.withProgram ws).mem = s.mem := (rfl)
@[simp] theorem withProgram_main (ws : List CmdWord) : (s.withProgram ws).main = s.main := (rfl)
@[simp] theorem withProgram_handlers (ws : List CmdWord) : (s.withProgram ws).handlers = s.handlers := (rfl)
@[simp] theorem withProgram_program (ws : List CmdWord) : (s.withProgram ws).program = ws := (rfl)
@[simp] theorem withProgram_inputs (ws : List CmdWord) : (s.withProgram ws).inputs = s.inputs := (rfl)
@[simp] theorem withProgram_trace (ws : List CmdWord) : (s.withProgram ws).trace = s.trace := (rfl)
@[simp] theorem withProgram_params (ws : List CmdWord) : (s.withProgram ws).params = s.params := (rfl)
@[simp] theorem withProgram_refused (ws : List CmdWord) : (s.withProgram ws).refused = s.refused := (rfl)
@[simp] theorem withProgram_faults (ws : List CmdWord) : (s.withProgram ws).faults = s.faults := (rfl)
@[simp] theorem withProgram_depth (ws : List CmdWord) : (s.withProgram ws).depth = s.depth := (rfl)
@[simp] theorem withProgram_byteAt (ws : List CmdWord) (a : Word) : (s.withProgram ws).byteAt a = s.byteAt a := (rfl)

/-- Updates below commute with `withInputs`, which goes innermost. -/
@[simp] theorem withInputs_twice (xs ys : List Input) : (s.withInputs xs).withInputs ys = s.withInputs ys := rfl
@[simp] theorem setEng_withInputs (xs : List Input) : (s.setEng i e).withInputs xs = (s.withInputs xs).setEng i e := rfl
@[simp] theorem emit_withInputs (xs : List Input) : (s.emit x).withInputs xs = (s.withInputs xs).emit x := rfl
@[simp] theorem latchAll_withInputs (xs : List Input) : s.latchAll.withInputs xs = (s.withInputs xs).latchAll := rfl
@[simp] theorem regRead_withInputs (xs : List Input) (r : Reg) :
    (s.regRead i r).withInputs xs = (s.withInputs xs).regRead i r := rfl
@[simp] theorem regWrite_withInputs (xs : List Input) (r : Reg) (v : Word) :
    (s.regWrite i r v).withInputs xs = (s.withInputs xs).regWrite i r v := rfl
@[simp] theorem setHandle_withInputs (xs : List Input) :
    (s.setHandle i h).withInputs xs = (s.withInputs xs).setHandle i h := rfl
@[simp] theorem emitCallback_withInputs (xs : List Input) (c : EventCode) :
    (s.emitCallback i c).withInputs xs = (s.withInputs xs).emitCallback i c := rfl
@[simp] theorem memRead_withInputs (xs : List Input) (a : Word) :
    (s.memRead a).withInputs xs = (s.withInputs xs).memRead a := rfl
@[simp] theorem memWrite_withInputs (xs : List Input) (a : Word) (b : Byte) :
    (s.memWrite a b).withInputs xs = (s.withInputs xs).memWrite a b := rfl
@[simp] theorem enter_withInputs (xs : List Input) : (s.enter f).withInputs xs = (s.withInputs xs).enter f := rfl

/-! ## The number of open calls -/

@[simp] theorem setEng_depth : (s.setEng i e).depth = s.depth := (rfl)
@[simp] theorem emit_depth : (s.emit x).depth = s.depth := (rfl)
@[simp] theorem latchAll_depth : s.latchAll.depth = s.depth := (rfl)
@[simp] theorem regRead_depth (r : Reg) : (s.regRead i r).depth = s.depth := (rfl)
@[simp] theorem regWrite_depth (r : Reg) (v : Word) : (s.regWrite i r v).depth = s.depth := (rfl)
@[simp] theorem memRead_depth (a : Word) : (s.memRead a).depth = s.depth := (rfl)
@[simp] theorem memWrite_depth (a : Word) (b : Byte) : (s.memWrite a b).depth = s.depth := (rfl)
@[simp] theorem setHandle_depth : (s.setHandle i h).depth = s.depth := (rfl)
@[simp] theorem emitCallback_depth (c : EventCode) : (s.emitCallback i c).depth = s.depth := (rfl)

end Sys2Proof.Machine
end

