-- ==== Sys2Proof/Laws/Engine.lean ====
section
/-! SUPPORT. What the moves of a context's position leave alone (`setTop`, `pop`, `leave`, a callback's call, a handler's
entry), and what each access does to one engine's fields. -/

namespace Sys2Proof.Machine

variable (s : State) (i j : Idx) (f : Frame) (a : Act) (k : HandlerKind) (e : Engine) (r : Reg) (v : Word)

/-! ## Positions -/

@[simp] theorem setTop_eng : (s.setTop f).eng j = s.eng j := by unfold State.setTop; split <;> rfl
@[simp] theorem setTop_mem : (s.setTop f).mem = s.mem := by unfold State.setTop; split <;> rfl
@[simp] theorem setTop_inputs : (s.setTop f).inputs = s.inputs := by unfold State.setTop; split <;> rfl
@[simp] theorem setTop_program : (s.setTop f).program = s.program := by unfold State.setTop; split <;> rfl
@[simp] theorem setTop_params : (s.setTop f).params = s.params := by unfold State.setTop; split <;> rfl
@[simp] theorem setTop_refused : (s.setTop f).refused = s.refused := by unfold State.setTop; split <;> rfl
@[simp] theorem setTop_faults : (s.setTop f).faults = s.faults := by unfold State.setTop; split <;> rfl
@[simp] theorem setTop_trace : (s.setTop f).trace = s.trace := by unfold State.setTop; split <;> rfl

@[simp] theorem pop_eng : s.pop.eng j = s.eng j := by unfold State.pop; split <;> rfl
@[simp] theorem pop_mem : s.pop.mem = s.mem := by unfold State.pop; split <;> rfl
@[simp] theorem pop_inputs : s.pop.inputs = s.inputs := by unfold State.pop; split <;> rfl
@[simp] theorem pop_program : s.pop.program = s.program := by unfold State.pop; split <;> rfl
@[simp] theorem pop_params : s.pop.params = s.params := by unfold State.pop; split <;> rfl
@[simp] theorem pop_refused : s.pop.refused = s.refused := by unfold State.pop; split <;> rfl
@[simp] theorem pop_faults : s.pop.faults = s.faults := by unfold State.pop; split <;> rfl
@[simp] theorem pop_trace : s.pop.trace = s.trace := by unfold State.pop; split <;> rfl

@[simp] theorem leave_eng : (s.leave f).eng j = s.eng j := by unfold State.leave; split <;> simp
@[simp] theorem leave_mem : (s.leave f).mem = s.mem := by unfold State.leave; split <;> simp
@[simp] theorem leave_inputs : (s.leave f).inputs = s.inputs := by unfold State.leave; split <;> simp
@[simp] theorem leave_program : (s.leave f).program = s.program := by unfold State.leave; split <;> simp
@[simp] theorem leave_params : (s.leave f).params = s.params := by unfold State.leave; split <;> simp
@[simp] theorem leave_refused : (s.leave f).refused = s.refused := by unfold State.leave; split <;> simp
@[simp] theorem leave_faults : (s.leave f).faults = s.faults := by unfold State.leave; split <;> simp

@[simp] theorem callAfter_eng : (s.callAfter i a).eng j = s.eng j := by unfold State.callAfter; split <;> simp
@[simp] theorem callAfter_mem : (s.callAfter i a).mem = s.mem := by unfold State.callAfter; split <;> simp
@[simp] theorem callAfter_inputs : (s.callAfter i a).inputs = s.inputs := by unfold State.callAfter; split <;> simp
@[simp] theorem callAfter_program : (s.callAfter i a).program = s.program := by unfold State.callAfter; split <;> simp
@[simp] theorem callAfter_params : (s.callAfter i a).params = s.params := by unfold State.callAfter; split <;> simp
@[simp] theorem callAfter_refused : (s.callAfter i a).refused = s.refused := by unfold State.callAfter; split <;> simp
@[simp] theorem callAfter_faults : (s.callAfter i a).faults = s.faults := by unfold State.callAfter; split <;> simp
@[simp] theorem callAfter_trace : (s.callAfter i a).trace = s.trace := by unfold State.callAfter; split <;> simp

/-- A return records a command's result and nothing else. -/
theorem leave_trace : (s.leave f).trace = s.trace ++
    match f.owner with
    | .command m => [.result f.inst m f.result]
    | .ev => []
    | .er => []
    | .app => [] := by
  unfold State.leave
  cases f.owner <;> simp

theorem leave_eq_pop : (s.leave f).main = s.pop.main ∧ (s.leave f).handlers = s.pop.handlers := by
  unfold State.leave; split <;> exact ⟨rfl, rfl⟩

/-- A dispatch step that takes a latch, and one that finds none. -/
theorem dispatch_some {s : State} {k : HandlerKind} {i : Idx} (h : s.nextInterrupt = some (k, i)) :
    s.dispatch = (s.setEng i ((s.eng i).clearPending k)).enter ⟨k.owner, i, handlerLines k, Locals.init, .none⟩ := by
  simp [State.dispatch, h, State.enterHandler]

theorem dispatch_none {s : State} (h : s.nextInterrupt = none) : s.dispatch = s := by simp [State.dispatch, h]

/-- A dispatch step finds a latch to take, or none. -/
theorem nextInterrupt_cases : s.nextInterrupt = none ∨ ∃ k i, s.nextInterrupt = some (k, i) := by
  cases s.nextInterrupt with
  | none => exact .inl rfl
  | some p => exact .inr ⟨p.1, p.2, rfl⟩

/-- What a dispatch may take is a latch that is set and that may be entered now. -/
theorem nextInterrupt_pending {s : State} {k : HandlerKind} {i : Idx} (h : s.nextInterrupt = some (k, i)) :
    (s.eng i).pending k = true ∧ s.mayEnter k = true := by
  simpa using List.find?_some h

/-! ## One engine -/

/-- What a register read leaves of an engine. -/
theorem afterRead_keeps : (e.afterRead r).h = e.h ∧ (e.afterRead r).cbTrace = e.cbTrace ∧
    (e.afterRead r).wiring = e.wiring ∧ (e.afterRead r).pendEV = e.pendEV ∧ (e.afterRead r).pendER = e.pendER ∧
    (e.afterRead r).regs.cr1 = e.regs.cr1 ∧ (e.afterRead r).regs.cr2 = e.regs.cr2 := by
  cases r <;> first
    | exact ⟨rfl, rfl, rfl, rfl, rfl, rfl, rfl⟩
    | (unfold Engine.afterRead Engine.readDR; refine ⟨?_, ?_, ?_, ?_, ?_, ?_, ?_⟩ <;> simp only <;> split <;> rfl)

/-- What a register write leaves of an engine. -/
theorem afterWrite_keeps : (e.afterWrite v r).h = e.h ∧ (e.afterWrite v r).cbTrace = e.cbTrace ∧
    (e.afterWrite v r).wiring = e.wiring ∧ (e.afterWrite v r).pendEV = e.pendEV ∧
    (e.afterWrite v r).pendER = e.pendER := by
  cases r <;> exact ⟨rfl, rfl, rfl, rfl, rfl⟩

/-- Only a CR1 write writes CR1. -/
theorem afterWrite_cr1 (h : r ≠ .cr1) : (e.afterWrite v r).regs.cr1 = e.regs.cr1 := by
  cases r <;> first | exact absurd rfl h | rfl

/-- Only a CR2 write writes CR2. -/
theorem afterWrite_cr2 (h : r ≠ .cr2) : (e.afterWrite v r).regs.cr2 = e.regs.cr2 := by
  cases r <;> first | exact absurd rfl h | rfl | (simp only [Engine.afterWrite, Engine.writeCR1, Regs.disabledIfPE0]; split <;> rfl)

/-- What a step of a FREE controller leaves of its engine (20 R85). -/
theorem applyFreeInput_keeps (c : HwChange) : (e.applyFreeInput c).h = e.h ∧ (e.applyFreeInput c).cbTrace = e.cbTrace ∧
    (e.applyFreeInput c).wiring = e.wiring ∧ (e.applyFreeInput c).pendEV = e.pendEV ∧
    (e.applyFreeInput c).pendER = e.pendER ∧ (e.applyFreeInput c).lat = e.lat ∧
    (e.applyFreeInput c).regs.cr2 = e.regs.cr2 := by
  unfold Engine.applyFreeInput; split <;> exact ⟨rfl, rfl, rfl, rfl, rfl, rfl, rfl⟩

/-- What a reaction of the reference controller leaves of its engine (20 R85). -/
theorem applyRef_keeps (x : Reaction) : (e.applyRef x).h = e.h ∧ (e.applyRef x).cbTrace = e.cbTrace ∧
    (e.applyRef x).wiring = e.wiring ∧ (e.applyRef x).pendEV = e.pendEV ∧ (e.applyRef x).pendER = e.pendER ∧
    (e.applyRef x).lat = e.lat ∧ (e.applyRef x).regs.cr2 = e.regs.cr2 := by
  unfold Engine.applyRef
  split
  · exact ⟨rfl, rfl, rfl, rfl, rfl, rfl, rfl⟩
  · split
    · cases x <;> first
      | exact ⟨rfl, rfl, rfl, rfl, rfl, rfl, rfl⟩
      | (unfold Engine.reaction; refine ⟨?_, ?_, ?_, ?_, ?_, ?_, ?_⟩ <;> simp only <;> split <;> rfl)
    · exact ⟨rfl, rfl, rfl, rfl, rfl, rfl, rfl⟩

/-! ## What one micro-step can do -/

/-- Everything a micro-step can do: nothing, one register access, one buffer access of a valid byte, one write of a
handle field that is not configuration, or a callback's record. -/
theorem perform_cases {l l' : Locals} {s' : State} (h : perform i l s a = some (s', l')) :
    s' = s ∨ (∃ r, s' = s.regRead i r) ∨ (∃ r v, s' = s.regWrite i r v ∧ (r = .dr ∨ r = .sr1)) ∨
      (∃ (q : RmwReg) (m : Half), (a = .writeOr q m ∧ s' = s.regWrite i q.reg (l.w ||| m.setWidth 32)) ∨
        (a = .writeAndNot q m ∧ s' = s.regWrite i q.reg (l.w &&& ~~~m.setWidth 32))) ∨
      (∃ p, s' = s.memRead p ∧ s.params.bufferOk p = true) ∨
      (∃ p b, s' = s.memWrite p b ∧ s.params.bufferOk p = true) ∨
      (∃ g : Handle, s' = s.setHandle i g ∧ g.cfg = (s.eng i).h.cfg ∧ g.inst = (s.eng i).h.inst) ∨
      ∃ c, a = .callback c ∧ s' = s.emitCallback i c := by
  cases a <;> simp only [perform, Option.some.injEq, Prod.mk.injEq, reduceCtorEq] at h
  case writeOr q m => exact .inr (.inr (.inr (.inl ⟨q, m, .inl ⟨rfl, h.1.symm⟩⟩)))
  case writeAndNot q m => exact .inr (.inr (.inr (.inl ⟨q, m, .inr ⟨rfl, h.1.symm⟩⟩)))
  case callback c => exact .inr (.inr (.inr (.inr (.inr (.inr (.inr ⟨c, rfl, h.1.symm⟩))))))
  case readW | readCR2 | readSR1 | readSR2 | readDR => exact .inr (.inl ⟨_, h.1.symm⟩)
  case writeDR | writeDRLocal | sendTarget | writeSR1 => exact .inr (.inr (.inl ⟨_, _, h.1.symm, by simp⟩))
  case memReadAt | memReadP =>
    split at h
    · next hb =>
      simp only [Option.some.injEq, Prod.mk.injEq] at h
      exact .inr (.inr (.inr (.inr (.inl ⟨_, h.1.symm, hb⟩))))
    · cases h
  case memWriteAt | memWriteP =>
    split at h
    · next hb =>
      simp only [Option.some.injEq, Prod.mk.injEq] at h
      exact .inr (.inr (.inr (.inr (.inr (.inl ⟨_, _, h.1.symm, hb⟩)))))
    · cases h
  case getState | getTotal | getTxRemaining | getRxRemaining | rereadRxRemaining | getTxBuffer | getRxBuffer |
      getTarget | getRepeatedStart | getPolicy => exact .inl h.1.symm
  all_goals exact .inr (.inr (.inr (.inr (.inr (.inr (.inl ⟨_, h.1.symm, rfl, rfl⟩))))))

/-- A register read leaves these fields of every engine. -/
theorem regRead_keeps : ((s.regRead i r).eng j).h = (s.eng j).h ∧ ((s.regRead i r).eng j).cbTrace = (s.eng j).cbTrace ∧
    ((s.regRead i r).eng j).wiring = (s.eng j).wiring ∧ ((s.regRead i r).eng j).pendEV = (s.eng j).pendEV ∧
    ((s.regRead i r).eng j).pendER = (s.eng j).pendER ∧ ((s.regRead i r).eng j).regs.cr1 = (s.eng j).regs.cr1 ∧
    ((s.regRead i r).eng j).regs.cr2 = (s.eng j).regs.cr2 := by
  by_cases hij : i = j
  · subst hij; rw [regRead_eng_same]; exact afterRead_keeps _ _
  · rw [regRead_eng_ne s i j r hij]; exact ⟨rfl, rfl, rfl, rfl, rfl, rfl, rfl⟩

/-- A register write leaves these fields of every engine. -/
theorem regWrite_keeps : ((s.regWrite i r v).eng j).h = (s.eng j).h ∧
    ((s.regWrite i r v).eng j).cbTrace = (s.eng j).cbTrace ∧ ((s.regWrite i r v).eng j).wiring = (s.eng j).wiring ∧
    ((s.regWrite i r v).eng j).pendEV = (s.eng j).pendEV ∧ ((s.regWrite i r v).eng j).pendER = (s.eng j).pendER := by
  by_cases hij : i = j
  · subst hij; rw [regWrite_eng_same]; exact afterWrite_keeps _ _ _
  · rw [regWrite_eng_ne s i j r v hij]; exact ⟨rfl, rfl, rfl, rfl, rfl⟩

/-- A handle write leaves these fields of every engine. -/
theorem setHandle_keeps (g : Handle) : ((s.setHandle i g).eng j).cbTrace = (s.eng j).cbTrace ∧
    ((s.setHandle i g).eng j).wiring = (s.eng j).wiring ∧ ((s.setHandle i g).eng j).pendEV = (s.eng j).pendEV ∧
    ((s.setHandle i g).eng j).pendER = (s.eng j).pendER ∧ ((s.setHandle i g).eng j).regs = (s.eng j).regs ∧
    ((s.setHandle i g).eng j).lat = (s.eng j).lat ∧ ((s.setHandle i g).eng j).ctrl = (s.eng j).ctrl := by
  by_cases hij : i = j
  · subst hij; simp only [State.setHandle, eng_setEng_same, and_self]
  · simp only [State.setHandle, eng_setEng_ne s i j _ hij, and_self]

/-- A callback's record leaves these fields of every engine. -/
theorem emitCallback_keeps (c : EventCode) : ((s.emitCallback i c).eng j).h = (s.eng j).h ∧
    ((s.emitCallback i c).eng j).wiring = (s.eng j).wiring ∧ ((s.emitCallback i c).eng j).pendEV = (s.eng j).pendEV ∧
    ((s.emitCallback i c).eng j).pendER = (s.eng j).pendER ∧ ((s.emitCallback i c).eng j).regs = (s.eng j).regs := by
  by_cases hij : i = j
  · subst hij; simp only [State.emitCallback, emit_eng, eng_setEng_same, and_self]
  · simp only [State.emitCallback, emit_eng, eng_setEng_ne s i j _ hij, and_self]

/-- A rule's settings change the locals of the callback's frame and nothing else of it. -/
theorem afterRule_frame (rule : AppRule) : (f.afterRule s rule).owner = f.owner ∧ (f.afterRule s rule).inst = f.inst ∧
    (f.afterRule s rule).lines = f.lines ∧ (f.afterRule s rule).result = f.result := by
  have key : ∀ (xs : List (Nat × AppExpr)) (g : Frame),
      let h := xs.foldl (fun g x => g.setVar x.1 (x.2.eval g s)) g
      h.owner = g.owner ∧ h.inst = g.inst ∧ h.lines = g.lines ∧ h.result = g.result := by
    intro xs
    induction xs with
    | nil => intro g; exact ⟨rfl, rfl, rfl, rfl⟩
    | cons x xs ih => intro g; exact ih _
  exact key rule.sets f

/-- What the application chooses leaves its frame's owner, controller and lines. -/
theorem appChoice_frame {s : State} {f g : Frame} {x : AppStep} (h : appChoice f s = some (x, g)) :
    g.owner = f.owner ∧ g.inst = f.inst ∧ g.lines = f.lines := by
  simp only [appChoice, Option.map_eq_some_iff, Prod.mk.injEq] at h
  obtain ⟨rule, -, -, rfl⟩ := h
  obtain ⟨h1, h2, h3, -⟩ := afterRule_frame s f rule
  exact ⟨h1, h2, h3⟩

/-- Everything the application's step can do: nothing where it is stuck, the mark of a refused command, or one move of
44 R276 with the callback's frame moved on, still the callback's and on its controller. -/
theorem appStep_cases : appStep f s = s ∨ (∃ e, appStep f s = s.refuse e) ∨
    ∃ g : Frame, (g.owner = f.owner ∧ g.inst = f.inst ∧ (g.lines = f.lines ∨ g.lines = [])) ∧
      (appStep f s = s.setTop g ∨
        (∃ w h, issued s.params.nInst w = .ok h ∧ appStep f s = (s.setTop g).push h) ∨
        (∃ p, s.params.bufferOk p = true ∧ appStep f s = (s.memRead p).setTop g) ∨
        (∃ p b, s.params.bufferOk p = true ∧ appStep f s = (s.memWrite p b).setTop g) ∨
        appStep f s = (s.regRead f.inst .dr).setTop g ∨ ∃ w, appStep f s = (s.regWrite f.inst .dr w).setTop g) := by
  cases hc : appChoice f s with
  | none => exact .inr (.inr ⟨f.finish .none, ⟨rfl, rfl, .inr rfl⟩, .inl (by simp only [appStep, hc])⟩)
  | some xg =>
    obtain ⟨x, g⟩ := xg
    obtain ⟨h1, h2, h3⟩ := appChoice_frame hc
    cases x with
    | ret => exact .inr (.inr ⟨g.finish .none, ⟨h1, h2, .inr rfl⟩, .inl (by simp only [appStep, hc])⟩)
    | command c =>
      cases hi : issued s.params.nInst (c.record g s) with
      | error e => exact .inr (.inl ⟨e, by simp only [appStep, hc, hi]⟩)
      | ok h => exact .inr (.inr ⟨g, ⟨h1, h2, .inl h3⟩, .inr (.inl ⟨_, h, hi, by simp only [appStep, hc, hi]⟩)⟩)
    | memRead a k =>
      cases hb : s.params.bufferOk (a.eval g s) with
      | false => exact .inl (by simp [appStep, hc, hb])
      | true =>
        exact .inr (.inr ⟨g.setVar k _, ⟨h1, h2, .inl h3⟩,
          .inr (.inr (.inl ⟨_, hb, by simp only [appStep, hc, hb, if_true]; rfl⟩))⟩)
    | memWrite a b =>
      cases hb : s.params.bufferOk (a.eval g s) with
      | false => exact .inl (by simp [appStep, hc, hb])
      | true =>
        exact .inr (.inr ⟨g, ⟨h1, h2, .inl h3⟩,
          .inr (.inr (.inr (.inl ⟨_, _, hb, by simp only [appStep, hc, hb, if_true]; rfl⟩)))⟩)
    | readDR k =>
      exact .inr (.inr ⟨g.setVar k _, ⟨h1, h2, .inl h3⟩,
        .inr (.inr (.inr (.inr (.inl (by simp only [appStep, hc]; rfl)))))⟩)
    | writeDR v =>
      exact .inr (.inr ⟨g, ⟨h1, h2, .inl h3⟩, .inr (.inr (.inr (.inr (.inr ⟨_, by simp only [appStep, hc]; rfl⟩))))⟩)

/-! ## What the application's choice looks at -/

/-- The application's values are computed from the handles. -/
theorem eval_congr {s t : State} (h : ∀ j, t.handle j = s.handle j) (x : AppExpr) : x.eval f t = x.eval f s := by
  induction x with
  | handle n g ih => simp only [AppExpr.eval, ih, h]
  | op o a b iha ihb => simp only [AppExpr.eval, iha, ihb]
  | _ => rfl

/-- So are a rule's settings. -/
theorem afterRule_congr {s t : State} (h : ∀ j, t.handle j = s.handle j) (rule : AppRule) :
    f.afterRule t rule = f.afterRule s rule := by
  simp only [Frame.afterRule, eval_congr _ h]

/-- The application's choice depends on its program and the handles. -/
theorem appChoice_congr {s t : State} (hp : t.params.app = s.params.app) (h : ∀ j, t.handle j = s.handle j) :
    appChoice f t = appChoice f s := by
  simp only [appChoice, hp, eval_congr _ h, afterRule_congr _ h]

/-- So do the byte a frame accesses next, and whether the frame is stuck. -/
theorem bufferAddr_congr {s t : State} (hp : t.params.app = s.params.app) (h : ∀ j, t.handle j = s.handle j) :
    f.bufferAddr t = f.bufferAddr s := by
  have hc : appChoice f t = appChoice f s := appChoice_congr f hp h
  have he : ∀ (g : Frame) (x : AppExpr), x.eval g t = x.eval g s := fun g x => eval_congr g h x
  unfold Frame.bufferAddr
  rw [hc]
  generalize appChoice f s = c
  cases f.lines with
  | nil => rfl
  | cons x xs =>
    obtain ⟨a, nx⟩ := x
    cases a <;> try rfl
    obtain - | ⟨y, g⟩ := c
    · rfl
    · cases y <;> first | rfl | exact congrArg some (he g _)

theorem stuck_congr {s t : State} (hp : t.params = s.params) (h : ∀ j, t.handle j = s.handle j) :
    f.stuck t = f.stuck s := by
  unfold Frame.stuck
  rw [bufferAddr_congr f (congrArg Params.app hp) h, hp]

/-- The dispatch does not look at the inputs to come. -/
@[simp] theorem withInputs_nextInterrupt (xs : List Input) : (s.withInputs xs).nextInterrupt = s.nextInterrupt := by
  have h : (s.withInputs xs).handlerStuck = s.handlerStuck := by
    unfold State.handlerStuck
    rw [withInputs_handlers]
    cases s.handlers with
    | nil => rfl
    | cons f fs => exact stuck_congr f rfl fun _ => rfl
  simp only [State.nextInterrupt, State.mayEnter, State.noErHandler, h, withInputs_params, withInputs_eng,
    withInputs_handlers]

/-- A frame at a buffer access that `BUF_OK` rejects does not move (20 R71). -/
theorem frameStep_stuck {s : State} {f : Frame} (h : f.stuck s = true) : frameStep f s = s := by
  unfold Frame.stuck at h
  split at h
  · next p hp =>
    have hb : s.params.bufferOk p = false := by simpa using h
    unfold Frame.bufferAddr at hp
    split at hp
    · cases hp
    · next x rest hl =>
      unfold frameStep
      rw [hl]
      obtain ⟨a, nx⟩ := x
      cases a <;> simp only [reduceCtorEq] at hp
      case app =>
        split at hp <;> cases hp
        all_goals
          next hc => simp only [appStep, hc, hb, Bool.false_eq_true, if_false]
      all_goals
        cases hp
        simp only [lineStep, perform, hb, Bool.false_eq_true, if_false]
  · cases h

end Sys2Proof.Machine
end

