-- ==== Sys2Proof/Laws/Flags.lean ====
section
/-! SUPPORT. Tests and masks of register contents, one bit at a time: each named mask of one bit (30 R131) is that bit,
a sampled word shows the register's bits, and two register values with the same sixteen bits are equal. -/

namespace Sys2Proof.Machine

/-- A mask of one bit tests that bit. -/
theorem anyBit_twoPow (v : Half) (k : Nat) (hk : k < 16) : anyBit v (BitVec.twoPow 16 k) = v.getLsbD k := by
  rw [anyBit, BitVec.and_twoPow]
  cases v.getLsbD k <;> simp
  intro h
  have := congrArg (fun x => x.getLsbD k) h
  simp [hk] at this

@[simp] theorem anyBit_PE (v : Half) : anyBit v cr1PE = v.getLsbD 0 := anyBit_twoPow v 0 (by decide)
@[simp] theorem anyBit_START (v : Half) : anyBit v cr1START = v.getLsbD 8 := anyBit_twoPow v 8 (by decide)
@[simp] theorem anyBit_STOP (v : Half) : anyBit v cr1STOP = v.getLsbD 9 := anyBit_twoPow v 9 (by decide)
@[simp] theorem anyBit_ACK (v : Half) : anyBit v cr1ACK = v.getLsbD 10 := anyBit_twoPow v 10 (by decide)
@[simp] theorem anyBit_ITERREN (v : Half) : anyBit v cr2ITERREN = v.getLsbD 8 := anyBit_twoPow v 8 (by decide)
@[simp] theorem anyBit_ITEVTEN (v : Half) : anyBit v cr2ITEVTEN = v.getLsbD 9 := anyBit_twoPow v 9 (by decide)
@[simp] theorem anyBit_ITBUFEN (v : Half) : anyBit v cr2ITBUFEN = v.getLsbD 10 := anyBit_twoPow v 10 (by decide)
@[simp] theorem anyBit_SB (v : Half) : anyBit v sr1SB = v.getLsbD 0 := anyBit_twoPow v 0 (by decide)
@[simp] theorem anyBit_ADDR (v : Half) : anyBit v sr1ADDR = v.getLsbD 1 := anyBit_twoPow v 1 (by decide)
@[simp] theorem anyBit_BTF (v : Half) : anyBit v sr1BTF = v.getLsbD 2 := anyBit_twoPow v 2 (by decide)
@[simp] theorem anyBit_ADD10 (v : Half) : anyBit v sr1ADD10 = v.getLsbD 3 := anyBit_twoPow v 3 (by decide)
@[simp] theorem anyBit_STOPF (v : Half) : anyBit v sr1STOPF = v.getLsbD 4 := anyBit_twoPow v 4 (by decide)
@[simp] theorem anyBit_RxNE (v : Half) : anyBit v sr1RxNE = v.getLsbD 6 := anyBit_twoPow v 6 (by decide)
@[simp] theorem anyBit_TxE (v : Half) : anyBit v sr1TxE = v.getLsbD 7 := anyBit_twoPow v 7 (by decide)
@[simp] theorem anyBit_BERR (v : Half) : anyBit v sr1BERR = v.getLsbD 8 := anyBit_twoPow v 8 (by decide)
@[simp] theorem anyBit_ARLO (v : Half) : anyBit v sr1ARLO = v.getLsbD 9 := anyBit_twoPow v 9 (by decide)
@[simp] theorem anyBit_AF (v : Half) : anyBit v sr1AF = v.getLsbD 10 := anyBit_twoPow v 10 (by decide)
@[simp] theorem anyBit_OVR (v : Half) : anyBit v sr1OVR = v.getLsbD 11 := anyBit_twoPow v 11 (by decide)
@[simp] theorem anyBit_PECERR (v : Half) : anyBit v sr1PECERR = v.getLsbD 12 := anyBit_twoPow v 12 (by decide)
@[simp] theorem anyBit_TIMEOUT (v : Half) : anyBit v sr1TIMEOUT = v.getLsbD 14 := anyBit_twoPow v 14 (by decide)
@[simp] theorem anyBit_SMBALERT (v : Half) : anyBit v sr1SMBALERT = v.getLsbD 15 := anyBit_twoPow v 15 (by decide)
@[simp] theorem anyBit_MSL (v : Half) : anyBit v sr2MSL = v.getLsbD 0 := anyBit_twoPow v 0 (by decide)
@[simp] theorem anyBit_BUSY (v : Half) : anyBit v sr2BUSY = v.getLsbD 1 := anyBit_twoPow v 1 (by decide)
@[simp] theorem anyBit_TRA (v : Half) : anyBit v sr2TRA = v.getLsbD 2 := anyBit_twoPow v 2 (by decide)

/-- A mask of several bits tests each. -/
theorem anyBit_or (v a b : Half) : anyBit v (a ||| b) = (anyBit v a || anyBit v b) := by
  have h : ∀ x y : Half, x ||| y = 0 ↔ x = 0 ∧ y = 0 := fun x y => BitVec.or_eq_zero_iff
  rw [Bool.eq_iff_iff, Bool.or_eq_true]
  simp only [anyBit, BitVec.and_or_distrib_left, bne_iff_ne, ne_eq]
  rw [h, not_and_or]

/-- A word sampled from a register tests as the register does. -/
@[simp] theorem sampled_setWidth (v m : Half) : sampled (v.setWidth 32) m = anyBit v m := by
  have h : ∀ x : Half, (x.setWidth 32 : Word) = 0 ↔ x = 0 := by
    intro x
    constructor
    · intro hx
      have := congrArg (BitVec.setWidth 16) hx
      simpa using this
    · rintro rfl; rfl
  rw [Bool.eq_iff_iff]
  simp only [sampled, anyBit, bne_iff_ne, ne_eq, ← BitVec.setWidth_and, h]

/-- Register values with the same bits are equal. -/
theorem Half.ext_bits {x y : Half} (h : ∀ k, k < 16 → x.getLsbD k = y.getLsbD k) : x = y :=
  BitVec.eq_of_getLsbD_eq h

/-- The mask that keeps every bit. -/
@[simp] theorem clearIf_true (r m : Half) : clearIf true r m = clearMask r m := rfl
@[simp] theorem clearIf_false (r m : Half) : clearIf false r m = r := rfl

end Sys2Proof.Machine
end

