-- ==== Sys2Proof/Laws/Access.lean ====
section
/-! SUPPORT. The engine after each access, in the terms of the statements: a sampled status register, a CR1 or CR2 that
is written back with bits set or cleared, an address flag cleared by its read sequence. -/

namespace Sys2Proof.Machine

variable {e : Engine} {m : Half}

theorem mergeMask_or (v w : Half) (hm : m &&& ~~~w = 0) : mergeMask v (v ||| m) w = v ||| m := by
  apply Half.ext_bits
  intro k hk
  have hz := congrArg (fun x => x.getLsbD k) hm
  simp only [mergeMask, BitVec.getLsbD_or, BitVec.getLsbD_and, BitVec.getLsbD_not, hk] at hz ⊢
  cases h1 : w.getLsbD k <;> simp_all

theorem mergeMask_andNot (v w : Half) (hm : m &&& ~~~w = 0) : mergeMask v (v &&& ~~~m) w = v &&& ~~~m := by
  apply Half.ext_bits
  intro k hk
  have hz := congrArg (fun x => x.getLsbD k) hm
  simp only [mergeMask, BitVec.getLsbD_or, BitVec.getLsbD_and, BitVec.getLsbD_not, hk] at hz ⊢
  cases h1 : w.getLsbD k <;> simp_all

/-- The word a read-modify-write writes, as register contents. -/
theorem half_or (v : Half) : ((v.setWidth 32 ||| m.setWidth 32 : Word)).setWidth 16 = v ||| m := by
  apply Half.ext_bits; intro k hk; simp [hk]

theorem half_andNot (v : Half) : ((v.setWidth 32 &&& ~~~m.setWidth 32 : Word)).setWidth 16 = v &&& ~~~m := by
  apply Half.ext_bits; intro k hk; simp [hk]

theorem word_or (v : Half) : (v.setWidth 32 ||| m.setWidth 32 : Word) = (v ||| m).setWidth 32 := by
  apply BitVec.eq_of_getLsbD_eq; intro k hk; simp [hk]

theorem word_andNot (v : Half) : (v.setWidth 32 &&& ~~~m.setWidth 32 : Word) = (v &&& ~~~m).setWidth 32 := by
  apply BitVec.eq_of_getLsbD_eq; intro k hk
  have : k < 16 ∨ v.getLsbD k = false := by
    by_cases h : k < 16
    · exact .inl h
    · exact .inr (BitVec.getLsbD_of_ge _ _ (by omega))
  rcases this with h | h
  · simp [hk, h]
  · simp only [BitVec.getLsbD_and, BitVec.getLsbD_setWidth, h, Bool.and_false, Bool.false_and]

/-- An enabled controller stays so: its status registers are not cleared (20 R84). -/
theorem disabledIfPE0_enabled {r : Regs} (h : r.cr1.getLsbD 0 = true) : r.disabledIfPE0 = r := by
  simp only [Regs.disabledIfPE0, anyBit_PE, h, if_true]

/-- A CR1 write back, from an enabled controller. -/
theorem writeCR1_eq {w : Word} {v : Half} (hw : mergeMask e.regs.cr1 (w.setWidth 16) cr1Writable = v)
    (hv : v.getLsbD 0 = true) : e.afterWrite w .cr1 = e.withCR1 v := by
  simp only [Engine.afterWrite, Engine.writeCR1, hw]
  rw [disabledIfPE0_enabled hv]
  simp only [Engine.withCR1, clearIf, clearMask]
  rfl

/-- CR1 written back with bits set (20 R74, R79). -/
theorem afterWrite_cr1_or {v : Half} (hv : e.regs.cr1 = v) (he : v.getLsbD 0 = true) (hm : m &&& ~~~cr1Writable = 0) :
    e.afterWrite (v.setWidth 32 ||| m.setWidth 32) .cr1 = e.withCR1 (v ||| m) := by
  subst hv
  apply writeCR1_eq
  · rw [half_or, mergeMask_or _ _ hm]
  · simp [he]

/-- CR1 written back with bits cleared. -/
theorem afterWrite_cr1_andNot {v : Half} (hv : e.regs.cr1 = v) (he : v.getLsbD 0 = true)
    (hm : m &&& ~~~cr1Writable = 0) (h0 : m.getLsbD 0 = false) :
    e.afterWrite (v.setWidth 32 &&& ~~~m.setWidth 32) .cr1 = e.withCR1 (v &&& ~~~m) := by
  subst hv
  apply writeCR1_eq
  · rw [half_andNot, mergeMask_andNot _ _ hm]
  · rw [BitVec.getLsbD_and, BitVec.getLsbD_not, h0, he]; rfl

/-- CR2 written back with bits set (20 R74, R81). -/
theorem afterWrite_cr2_or {v : Half} (hv : e.regs.cr2 = v) (hm : m &&& ~~~cr2Writable = 0) :
    e.afterWrite (v.setWidth 32 ||| m.setWidth 32) .cr2 = e.withCR2 (v ||| m) := by
  subst hv
  simp only [Engine.afterWrite, Engine.writeCR2]
  rw [half_or, mergeMask_or _ _ hm]; rfl

/-- CR2 written back with bits cleared. -/
theorem afterWrite_cr2_andNot {v : Half} (hv : e.regs.cr2 = v) (hm : m &&& ~~~cr2Writable = 0) :
    e.afterWrite (v.setWidth 32 &&& ~~~m.setWidth 32) .cr2 = e.withCR2 (v &&& ~~~m) := by
  subst hv
  simp only [Engine.afterWrite, Engine.writeCR2]
  rw [half_andNot, mergeMask_andNot _ _ hm]; rfl

/-! The masks the commands use. -/

theorem afterWrite_START {v : Half} (hv : e.regs.cr1 = v) (he : v.getLsbD 0 = true) :
    e.afterWrite (v.setWidth 32 ||| cr1START.setWidth 32) .cr1 = e.withCR1 (v ||| 0x0100) :=
  afterWrite_cr1_or hv he (by decide)

theorem afterWrite_STOP {v : Half} (hv : e.regs.cr1 = v) (he : v.getLsbD 0 = true) :
    e.afterWrite (v.setWidth 32 ||| cr1STOP.setWidth 32) .cr1 = e.withCR1 (v ||| 0x0200) :=
  afterWrite_cr1_or hv he (by decide)

theorem afterWrite_ACK {v : Half} (hv : e.regs.cr1 = v) (he : v.getLsbD 0 = true) :
    e.afterWrite (v.setWidth 32 ||| cr1ACK.setWidth 32) .cr1 = e.withCR1 (v ||| 0x0400) :=
  afterWrite_cr1_or hv he (by decide)

theorem afterWrite_noACK {v : Half} (hv : e.regs.cr1 = v) (he : v.getLsbD 0 = true) :
    e.afterWrite (v.setWidth 32 &&& ~~~cr1ACK.setWidth 32) .cr1 = e.withCR1 (v &&& ~~~0x0400) :=
  afterWrite_cr1_andNot hv he (by decide) (by decide)

/-- CR1 written back as it was read (43 R244). -/
theorem afterWrite_same {v : Half} (hv : e.regs.cr1 = v) (he : v.getLsbD 0 = true) :
    e.afterWrite (v.setWidth 32 ||| (0 : Half).setWidth 32) .cr1 = e.withCR1 v := by
  rw [afterWrite_cr1_or hv he (by decide)]; simp

theorem afterWrite_ITBUFEN {v : Half} (hv : e.regs.cr2 = v) :
    e.afterWrite (v.setWidth 32 ||| cr2ITBUFEN.setWidth 32) .cr2 = e.withCR2 (v ||| 0x0400) :=
  afterWrite_cr2_or hv (by decide)

theorem afterWrite_ITEVTEN {v : Half} (hv : e.regs.cr2 = v) :
    e.afterWrite (v.setWidth 32 ||| cr2ITEVTEN.setWidth 32) .cr2 = e.withCR2 (v ||| 0x0200) :=
  afterWrite_cr2_or hv (by decide)

theorem afterWrite_ITERREN {v : Half} (hv : e.regs.cr2 = v) :
    e.afterWrite (v.setWidth 32 ||| cr2ITERREN.setWidth 32) .cr2 = e.withCR2 (v ||| 0x0100) :=
  afterWrite_cr2_or hv (by decide)

theorem afterWrite_noITBUFEN {v : Half} (hv : e.regs.cr2 = v) :
    e.afterWrite (v.setWidth 32 &&& ~~~cr2ITBUFEN.setWidth 32) .cr2 = e.withCR2 (v &&& ~~~0x0400) :=
  afterWrite_cr2_andNot hv (by decide)

theorem afterWrite_noITEVTEN {v : Half} (hv : e.regs.cr2 = v) :
    e.afterWrite (v.setWidth 32 &&& ~~~cr2ITEVTEN.setWidth 32) .cr2 = e.withCR2 (v &&& ~~~0x0200) :=
  afterWrite_cr2_andNot hv (by decide)

/-- A read of SR1 (20 R75). -/
theorem afterRead_sr1 : e.afterRead .sr1 = e.sampledSR1 := by
  simp [Engine.afterRead, Engine.readSR1, Engine.sampledSR1, latchesOf]

/-- The read sequence SR1, SR2 (20 R76). -/
theorem afterRead_sr1_sr2 : (e.sampledSR1).afterRead .sr2 = e.withAddrCleared := by
  simp only [Engine.afterRead, Engine.readSR2, Engine.sampledSR1, Engine.withAddrCleared, latchesOf]
  cases h : e.regs.sr1.getLsbD 1
  · have : e.regs.sr1 &&& ~~~0x0002 = e.regs.sr1 := by
      apply Half.ext_bits
      intro k hk
      rw [BitVec.getLsbD_and]
      by_cases hk1 : k = 1
      · subst hk1; rw [h]; rfl
      · have h2 : ∀ k < 16, k ≠ 1 → (~~~0x0002 : Half).getLsbD k = true := by decide
        rw [h2 k hk hk1, Bool.and_true]
    simp only [clearIf_false, this]
  · rfl

/-- A write of a byte to DR (20 R77). -/
theorem afterWrite_dr (b : Byte) : e.afterWrite (b.setWidth 32) .dr =
    { e with
      regs := { e.regs with
        tdr := b
        sr1 := e.regs.sr1 &&&
          ~~~(0x0080 ||| (if e.lat.sb then 0x0001 else 0) ||| (if e.lat.btf then 0x0004 else 0)) }
      lat  := { e.lat with sb := false, btf := false }
      ctrl := e.ctrl.onWriteDR (e.lat.sb && e.regs.sr1.getLsbD 0) b } := by
  have h : clearMask (clearIf e.lat.btf (clearIf e.lat.sb e.regs.sr1 sr1SB) sr1BTF) sr1TxE = e.regs.sr1 &&&
      ~~~(0x0080 ||| (if e.lat.sb then 0x0001 else 0) ||| (if e.lat.btf then 0x0004 else 0)) := by
    cases e.lat.sb <;> cases e.lat.btf <;> simp only [clearIf, clearMask, sr1SB, sr1BTF, sr1TxE] <;>
      simp [BitVec.and_assoc]
  simp only [Engine.afterWrite, Engine.writeDR, anyBit_SB, h]
  simp

/-- A read of DR under a controller that holds back no byte (20 R78). -/
theorem afterRead_dr (hc : e.ctrl.heldByte = none) : e.afterRead .dr =
    { e with
      regs := { e.regs with sr1 := e.regs.sr1 &&& ~~~(0x0040 ||| (if e.lat.btf then 0x0004 else 0)) }
      lat  := { e.lat with btf := false } } := by
  have h : clearIf e.lat.btf (clearMask e.regs.sr1 sr1RxNE) sr1BTF =
      e.regs.sr1 &&& ~~~(0x0040 ||| (if e.lat.btf then 0x0004 else 0)) := by
    cases e.lat.btf <;> simp only [clearIf, clearMask, sr1RxNE, sr1BTF] <;> simp [BitVec.and_assoc]
  simp only [Engine.afterRead, Engine.readDR, hc, h]

/-! ## Latches that are up to date (60 R306) -/

/-- The engine's pending latches follow its lines. -/
def Engine.Latched (e : Engine) : Prop :=
  (e.evLine = true → e.wiring.nvicEn = true → e.pendEV = true) ∧ (e.erLine = true → e.wiring.nvicEn = true → e.pendER = true)

theorem Engine.latched_latchPending (e : Engine) : e.latchPending.Latched := by
  constructor <;> (simp [Engine.latchPending, Engine.evLine, Engine.erLine]; intros; simp_all)

/-- Up to date latches are left by an update. -/
theorem Engine.Latched.latchPending (h : e.Latched) : e.latchPending = e := by
  obtain ⟨h1, h2⟩ := h
  have ha : (e.pendEV || (e.evLine && e.wiring.nvicEn)) = e.pendEV := by
    cases he : e.evLine <;> cases hn : e.wiring.nvicEn <;> simp_all
  have hb : (e.pendER || (e.erLine && e.wiring.nvicEn)) = e.pendER := by
    cases he : e.erLine <;> cases hn : e.wiring.nvicEn <;> simp_all
  simp only [Engine.latchPending, ha, hb]

/-- Latches stay up to date when flags and enables are only cleared. -/
theorem Engine.Latched.mono {e' : Engine} (h : e.Latched) (hn : e'.wiring = e.wiring) (hp : e'.pendEV = e.pendEV)
    (hp' : e'.pendER = e.pendER) (h1 : ∀ k, e'.regs.sr1.getLsbD k = true → e.regs.sr1.getLsbD k = true)
    (h2 : ∀ k, e'.regs.cr2.getLsbD k = true → e.regs.cr2.getLsbD k = true) : e'.Latched := by
  have hany : ∀ (x y m : Half), (∀ k, x.getLsbD k = true → y.getLsbD k = true) → anyBit x m = true →
      anyBit y m = true := by
    intro x y m hxy hx
    simp only [anyBit, bne_iff_ne, ne_eq] at hx ⊢
    intro hy
    apply hx
    apply Half.ext_bits
    intro k hk
    have := congrArg (fun z => z.getLsbD k) hy
    simp only [BitVec.getLsbD_and] at this ⊢
    cases hxk : x.getLsbD k
    · simp
    · rw [hxy k hxk] at this; exact this
  constructor
  · intro hl hv
    rw [hp]
    refine h.1 ?_ (hn ▸ hv)
    simp only [Engine.evLine, Bool.and_eq_true, Bool.or_eq_true] at hl ⊢
    refine ⟨hany _ _ _ h2 hl.1, ?_⟩
    rcases hl.2 with hl | hl
    · exact .inl (hany _ _ _ h1 hl)
    · exact .inr ⟨hany _ _ _ h2 hl.1, hany _ _ _ h1 hl.2⟩
  · intro hl hv
    rw [hp']
    refine h.2 ?_ (hn ▸ hv)
    simp only [Engine.erLine, Bool.and_eq_true] at hl ⊢
    exact ⟨hany _ _ _ h2 hl.1, hany _ _ _ h1 hl.2⟩

theorem getLsbD_of_andNot {v : Half} {k : Nat} (h : (v &&& ~~~m).getLsbD k = true) : v.getLsbD k = true := by
  rw [BitVec.getLsbD_and, Bool.and_eq_true] at h; exact h.1

theorem Engine.Latched.withCR1 (h : e.Latched) (v : Half) : (e.withCR1 v).Latched := by
  refine h.mono rfl rfl rfl ?_ (fun _ h => h)
  intro k hk
  simp only [Engine.withCR1] at hk
  split at hk
  · exact getLsbD_of_andNot hk
  · exact hk

theorem Engine.Latched.sampledSR1 (h : e.Latched) : e.sampledSR1.Latched := h.mono rfl rfl rfl (fun _ h => h) (fun _ h => h)

theorem Engine.Latched.withAddrCleared (h : e.Latched) : e.withAddrCleared.Latched :=
  h.mono rfl rfl rfl (fun _ hk => getLsbD_of_andNot hk) (fun _ h => h)

theorem Engine.Latched.withCR2_and (h : e.Latched) {v : Half} (hv : e.regs.cr2 = v) : (e.withCR2 (v &&& m)).Latched := by
  subst hv
  refine h.mono rfl rfl rfl (fun _ h => h) ?_
  intro k hk
  simp only [Engine.withCR2, BitVec.getLsbD_and, Bool.and_eq_true] at hk
  exact hk.1

end Sys2Proof.Machine
end

