-- ==== Sys2Proof/Laws/Memory.lean ====
section
/-! SUPPORT. The laws of caller memory: what a write changes, what it leaves, and that every memory operation keeps the
canonical form. -/

namespace Sys2Proof.Machine

theorem Memory.read_cons (x : Nat) (v : Byte) (m : List Host.Cell) (y : Nat)
    (hm : Memory.read m x = unlistedByte) :
    Memory.read (Memory.cons x v m) y = if x = y then v else Memory.read m y := by
  unfold Memory.cons
  split
  · next h => split <;> simp_all
  · simp [Memory.read]

theorem Memory.read_below {m : List Host.Cell} : ∀ {lo x : Nat}, Memory.above lo m = true → x < lo →
    Memory.read m x = unlistedByte := by
  induction m with
  | nil => intros; rfl
  | cons c m ih =>
    intro lo x h hx
    obtain ⟨a, b⟩ := c
    simp only [Memory.above, Bool.and_eq_true, decide_eq_true_eq] at h
    have hne : a ≠ x := by omega
    simp only [Memory.read, hne, if_false]
    exact ih h.2 (by omega)

/-- A read after a write: the byte written at its address, the byte of before everywhere else. -/
theorem Memory.read_write {m : List Host.Cell} (x : Nat) (v : Byte) (y : Nat) :
    ∀ {lo : Nat}, Memory.above lo m = true →
      Memory.read (Memory.write m x v) y = if x = y then v else Memory.read m y := by
  induction m with
  | nil => intro lo _; exact Memory.read_cons x v [] y rfl
  | cons c m ih =>
    intro lo h
    obtain ⟨a, b⟩ := c
    have h' := h
    simp only [Memory.above, Bool.and_eq_true, decide_eq_true_eq] at h
    unfold Memory.write
    split
    · next hxa =>
      apply Memory.read_cons
      simp only [Memory.read, show a ≠ x by omega, if_false]
      exact Memory.read_below h.2 (by omega)
    · next hxa =>
      split
      · next hEq =>
        subst hEq
        rw [Memory.read_cons x v m y (Memory.read_below h.2 (by omega))]
        simp only [Memory.read]
        split <;> rfl
      · next hne =>
        simp only [Memory.read]
        by_cases hay : a = y
        · subst hay; simp [show x ≠ a by omega]
        · simp only [hay, if_false]
          exact ih h.2

theorem Memory.above_mono {m : List Host.Cell} {lo lo' : Nat} (h : Memory.above lo m = true) (hl : lo' ≤ lo) :
    Memory.above lo' m = true := by
  cases m with
  | nil => rfl
  | cons c m =>
    simp only [Memory.above, Bool.and_eq_true, decide_eq_true_eq] at h ⊢
    exact ⟨⟨⟨by omega, h.1.1.2⟩, h.1.2⟩, h.2⟩

theorem Memory.above_cons {m : List Host.Cell} {lo x : Nat} (v : Byte) (h : Memory.above (x + 1) m = true)
    (hl : lo ≤ x) (hx : x < 2 ^ 32) : Memory.above lo (Memory.cons x v m) = true := by
  unfold Memory.cons
  split
  · exact Memory.above_mono h (by omega)
  · next hv => simp [Memory.above, h, hl, hv]; omega

theorem Memory.above_write {m : List Host.Cell} (x : Nat) (v : Byte) (hx : x < 2 ^ 32) :
    ∀ {lo : Nat}, lo ≤ x → Memory.above lo m = true → Memory.above lo (Memory.write m x v) = true := by
  induction m with
  | nil => intro lo hl _; exact Memory.above_cons v rfl hl hx
  | cons c m ih =>
    intro lo hl h
    obtain ⟨a, b⟩ := c
    have h' := h
    simp only [Memory.above, Bool.and_eq_true, decide_eq_true_eq] at h
    unfold Memory.write
    split
    · next hxa =>
      apply Memory.above_cons v _ hl hx
      simp only [Memory.above, Bool.and_eq_true, decide_eq_true_eq]
      exact ⟨⟨⟨by omega, h.1.1.2⟩, h.1.2⟩, h.2⟩
    · next hxa =>
      split
      · next hEq => subst hEq; exact Memory.above_cons v h.2 hl hx
      · next hne =>
        simp only [Memory.above, Bool.and_eq_true, decide_eq_true_eq]
        exact ⟨⟨⟨h.1.1.1, h.1.1.2⟩, h.1.2⟩, ih (by omega) h.2⟩

/-- A write keeps the canonical form. -/
theorem Memory.wf_write {m : List Host.Cell} (x : Nat) (v : Byte) (hx : x < 2 ^ 32) (h : Memory.wf m = true) :
    Memory.wf (Memory.write m x v) = true := Memory.above_write x v hx (Nat.zero_le x) h

/-- The memory after reset has the canonical form. -/
theorem Memory.wf_reset : Memory.wf State.reset.mem = true := rfl

/-- A buffer write keeps the canonical form. -/
theorem State.memWrite_wf (s : State) (a : Word) (b : Byte) (h : Memory.wf s.mem = true) :
    Memory.wf (s.memWrite a b).mem = true := Memory.wf_write a.toNat b a.isLt h

/-- A buffer write changes the byte at its address and no other. -/
theorem State.byteAt_memWrite (s : State) (a x : Word) (b : Byte) (h : Memory.wf s.mem = true) :
    (s.memWrite a b).byteAt x = if a = x then b else s.byteAt x := by
  have := Memory.read_write (m := s.mem) a.toNat b x.toNat h
  simp only [State.byteAt, State.memWrite, State.emit, this, BitVec.toNat_inj]

end Sys2Proof.Machine
end

