-- ==== Sys2Proof/Laws/Run.lean ====
section
/-! SUPPORT. What the shared operations of a run do, said once: a micro-step, a boundary, one line of a frame, a return,
the run of a command. A running state is written `X.push f` for a command's frame `f` over the state `X` below it, and
`X.enter f` for a frame of the handler context. -/

namespace Sys2Proof.Machine

variable {X : State} {o : Owner} {i : Idx} {a : Act} {nx : Next} {rest : List Line} {l : Locals} {res : Result}
  {n d : Nat}

/-! ## One micro-step -/

/-- A micro-step does not see its own frame, nor the calls below it. -/
theorem perform_push (i : Idx) (l : Locals) (X : State) (f : Frame) (a : Act) :
    perform i l (X.push f) a = (perform i l X a).map fun r => (r.1.push f, r.2) := by
  cases a <;> simp only [perform, Option.map_some, Option.map_none, push_regRead, push_regWrite, push_setHandle,
      push_emitCallback, push_eng, handle_eq, push_params, push_byteAt, push_memRead, push_memWrite] <;>
    split <;> simp

/-- As `perform_push`, for a frame of the handler context. -/
theorem perform_enter (i : Idx) (l : Locals) (X : State) (f : Frame) (a : Act) :
    perform i l (X.enter f) a = (perform i l X a).map fun r => (r.1.enter f, r.2) := by
  cases a <;> simp only [perform, Option.map_some, Option.map_none, enter_regRead, enter_regWrite, enter_setHandle,
      enter_emitCallback, enter_eng, handle_eq, enter_params, enter_byteAt, enter_memRead, enter_memWrite] <;>
    split <;> simp_all

/-- What every micro-step leaves alone. -/
structure PerformKeeps (s t : State) : Prop where
  main     : t.main = s.main
  handlers : t.handlers = s.handlers
  program  : t.program = s.program
  inputs   : t.inputs = s.inputs
  params   : t.params = s.params
  refused  : t.refused = s.refused
  faults   : t.faults = s.faults

/-- A micro-step changes engines, caller memory and the trace, and nothing else. -/
theorem perform_keeps {l' : Locals} {X' : State} (h : perform i l X a = some (X', l')) : PerformKeeps X X' := by
  cases a <;> simp only [perform, Option.some.injEq, Prod.mk.injEq, reduceCtorEq] at h <;>
    first
    | (obtain ⟨rfl, -⟩ := h; exact ⟨rfl, rfl, rfl, rfl, rfl, rfl, rfl⟩)
    | (split at h <;> simp at h; obtain ⟨rfl, -⟩ := h; exact ⟨rfl, rfl, rfl, rfl, rfl, rfl, rfl⟩)

/-- A micro-step changes one engine at most, its own controller's. -/
theorem perform_eng_ne {l' : Locals} {X' : State} {j : Idx} (h : perform i l X a = some (X', l')) (hij : i ≠ j) :
    X'.eng j = X.eng j := by
  cases a <;> simp only [perform, Option.some.injEq, Prod.mk.injEq, reduceCtorEq] at h <;>
    first
    | (obtain ⟨rfl, -⟩ := h
       simp only [regRead_eng_ne X i j _ hij, regWrite_eng_ne X i j _ _ hij, setHandle_eng_ne X i j _ hij,
         emitCallback_eng_ne X i j _ hij])
    | (split at h <;> simp at h; obtain ⟨rfl, -⟩ := h; simp)

/-- A line's continuation keeps what the frame runs and its controller. -/
theorem go_owner {p : Params} {f f' : Frame} (h : nx.go p f = .ok f') : f'.owner = f.owner ∧ f'.inst = f.inst := by
  cases nx <;> simp only [Next.go, Frame.insert, Frame.finish, Frame.pollStep, Frame.pollFailed] at h <;>
    (repeat' split at h) <;> simp_all <;> (obtain rfl := h) <;> simp

/-! ## One boundary -/

/-- A boundary with no input left is a micro-step of the running context. -/
theorem tick_quiet {s : State} (h : s.inputs = []) : tick s = (contextStep s).latchAll := by
  simp [tick, h]

/-- A boundary whose input lets the running context go on. -/
theorem tick_run {s : State} {xs : List Input} (h : s.inputs = .run :: xs) :
    tick s = (contextStep (s.withInputs xs)).latchAll := by
  simp [tick, h, applyInput]

/-- A boundary whose input moves a controller that exists. -/
theorem tick_free {s : State} {xs : List Input} {c : HwChange} (hi : i < s.params.nInst)
    (h : s.inputs = .free i c :: xs) :
    tick s = ((s.withInputs xs).setEng i ((s.eng i).applyFreeInput c)).latchAll := by
  simp [tick, h, applyInput, hi, State.controllerStep]

/-! ## The run of a command -/

/-- A line of a frame that is neither the application's step nor a callback emission. -/
theorem contextStep_push (ha : a ≠ .app) (hc : ∀ c, a ≠ .callback c) :
    contextStep (X.push ⟨o, i, ⟨a, nx⟩ :: rest, l, res⟩) =
      match perform i l X a with
      | none => X.push ⟨o, i, ⟨a, nx⟩ :: rest, l, res⟩
      | some (X', l') =>
        match nx.go X.params ⟨o, i, rest, l', res⟩ with
        | .error e => (X'.push ⟨o, i, ⟨a, nx⟩ :: rest, l, res⟩).fail e
        | .ok f' => X'.push f' := by
  have hl : frameStep ⟨o, i, ⟨a, nx⟩ :: rest, l, res⟩ (X.push ⟨o, i, ⟨a, nx⟩ :: rest, l, res⟩) =
      lineStep ⟨o, i, ⟨a, nx⟩ :: rest, l, res⟩ ⟨a, nx⟩ rest (X.push ⟨o, i, ⟨a, nx⟩ :: rest, l, res⟩) := by
    cases a <;> simp_all [frameStep]
  have hca : ∀ t : State, t.callAfter i a = t := by
    intro t; cases a <;> simp_all [State.callAfter]
  simp only [contextStep, push_top, hl, lineStep, perform_push]
  cases hp : perform i l X a with
  | none => simp
  | some r =>
    obtain ⟨X', l'⟩ := r
    simp only [Option.map_some, push_params, push_setTop]
    cases hg : nx.go X.params ⟨o, i, rest, l', res⟩ with
    | error e => simp
    | ok f' => simp [hca]

/-- As `contextStep_push`, for a frame of the handler context. -/
theorem contextStep_enter (ha : a ≠ .app) (hc : ∀ c, a ≠ .callback c) :
    contextStep (X.enter ⟨o, i, ⟨a, nx⟩ :: rest, l, res⟩) =
      match perform i l X a with
      | none => X.enter ⟨o, i, ⟨a, nx⟩ :: rest, l, res⟩
      | some (X', l') =>
        match nx.go X.params ⟨o, i, rest, l', res⟩ with
        | .error e => (X'.enter ⟨o, i, ⟨a, nx⟩ :: rest, l, res⟩).fail e
        | .ok f' => X'.enter f' := by
  have hl : frameStep ⟨o, i, ⟨a, nx⟩ :: rest, l, res⟩ (X.enter ⟨o, i, ⟨a, nx⟩ :: rest, l, res⟩) =
      lineStep ⟨o, i, ⟨a, nx⟩ :: rest, l, res⟩ ⟨a, nx⟩ rest (X.enter ⟨o, i, ⟨a, nx⟩ :: rest, l, res⟩) := by
    cases a <;> simp_all [frameStep]
  have hca : ∀ t : State, t.callAfter i a = t := by
    intro t; cases a <;> simp_all [State.callAfter]
  simp only [contextStep, enter_top, hl, lineStep, perform_enter]
  cases hp : perform i l X a with
  | none => simp
  | some r =>
    obtain ⟨X', l'⟩ := r
    simp only [Option.map_some, enter_params, enter_setTop]
    cases hg : nx.go X.params ⟨o, i, rest, l', res⟩ with
    | error e => simp
    | ok f' => simp [hca]

/-- A boundary of a run, while more calls are open than it waits for and the run is not marked. -/
theorem advance_tick {s : State} (hn : 0 < n) (hd : d < s.depth) (hm : s.Unmarked) :
    advance n d s = advance (n - 1) d (tick s) := by
  obtain ⟨n, rfl⟩ : ∃ k, n = k + 1 := ⟨n - 1, by omega⟩
  have hd' : ¬ (s.depth ≤ d ∨ s.marked = true) := by
    rw [(marked_false_iff s).mpr hm]
    simp
    omega
  rw [advance, if_neg hd']
  rfl

/-- A marked run does not go on (60 R311). -/
theorem advance_marked {s : State} (hm : s.marked = true) : advance n d s = s := by
  cases n <;> simp [advance, hm]

/-- A run ends where no more calls are open than it waits for. -/
theorem advance_done {s : State} (hd : s.depth ≤ d) : advance n d s = s := by
  cases n <;> simp [advance, hd]

/-- The run of a command goes through one line, with no input pending. -/
theorem advance_quiet (hn : 0 < n) (hd : X.depth = d) (hq : X.Quiet) (ha : a ≠ .app) (hc : ∀ c, a ≠ .callback c) :
    advance n d (X.push ⟨o, i, ⟨a, nx⟩ :: rest, l, res⟩) =
      match perform i l X a with
      | none => advance (n - 1) d (X.latchAll.push ⟨o, i, ⟨a, nx⟩ :: rest, l, res⟩)
      | some (X', l') =>
        match nx.go X.params ⟨o, i, rest, l', res⟩ with
        | .error e => (X'.latchAll.push ⟨o, i, ⟨a, nx⟩ :: rest, l, res⟩).fail e
        | .ok f' => advance (n - 1) d (X'.latchAll.push f') := by
  rw [advance_tick hn (by simp; omega) (by simpa [State.Unmarked] using hq.2), tick_quiet (by simpa using hq.1),
    contextStep_push ha hc]
  cases hp : perform i l X a with
  | none => simp
  | some r =>
    obtain ⟨X', l'⟩ := r
    cases hg : nx.go X.params ⟨o, i, rest, l', res⟩ <;> simp [hg, advance_marked]

/-- The run of a command goes through one line, when the next input lets it. -/
theorem advance_run {xs : List Input} (hn : 0 < n) (hd : X.depth = d) (hi : X.inputs = .run :: xs) (hm : X.Unmarked)
    (ha : a ≠ .app) (hc : ∀ c, a ≠ .callback c) :
    advance n d (X.push ⟨o, i, ⟨a, nx⟩ :: rest, l, res⟩) =
      match perform i l (X.withInputs xs) a with
      | none => advance (n - 1) d ((X.withInputs xs).latchAll.push ⟨o, i, ⟨a, nx⟩ :: rest, l, res⟩)
      | some (X', l') =>
        match nx.go X.params ⟨o, i, rest, l', res⟩ with
        | .error e => (X'.latchAll.push ⟨o, i, ⟨a, nx⟩ :: rest, l, res⟩).fail e
        | .ok f' => advance (n - 1) d (X'.latchAll.push f') := by
  rw [advance_tick hn (by simp; omega) (by simpa [State.Unmarked] using hm), tick_run (xs := xs) (by simpa using hi),
    push_withInputs, contextStep_push ha hc]
  cases hp : perform i l (X.withInputs xs) a with
  | none => simp
  | some r =>
    obtain ⟨X', l'⟩ := r
    simp only [withInputs_params]
    cases hg : nx.go X.params ⟨o, i, rest, l', res⟩ <;> simp [advance_marked]

/-- The controller moves while a command runs. -/
theorem advance_free {f : Frame} {xs : List Input} {j : Idx} {c : HwChange} (hn : 0 < n) (hd : X.depth = d)
    (hj : j < X.params.nInst) (hi : X.inputs = .free j c :: xs) (hm : X.Unmarked) :
    advance n d (X.push f) =
      advance (n - 1) d (((X.withInputs xs).setEng j ((X.eng j).applyFreeInput c)).latchAll.push f) := by
  rw [advance_tick hn (by simp; omega) (by simpa [State.Unmarked] using hm),
    tick_free (i := j) (c := c) (xs := xs) (by simpa using hj) (by simpa using hi)]
  simp

/-- The run of a command ends when it returns, with its result in the trace (00 R14). -/
theorem advance_return {m : Mnemonic} (hn : 0 < n) (hd : X.depth = d) (hq : X.Quiet) :
    advance n d (X.push ⟨.command m, i, [], l, res⟩) = (X.emit (.result i m res)).latchAll := by
  rw [advance_tick hn (by simp; omega) (by simpa [State.Unmarked] using hq.2), tick_quiet (by simpa using hq.1)]
  simp [contextStep, frameStep, State.leave, advance_done, hd]

/-! ## The run of a handler -/

/-- A handler's run goes through one line, with no input pending. -/
theorem advance_quiet_enter (hn : 0 < n) (hd : X.depth = d) (hq : X.Quiet) (ha : a ≠ .app)
    (hc : ∀ c, a ≠ .callback c) :
    advance n d (X.enter ⟨o, i, ⟨a, nx⟩ :: rest, l, res⟩) =
      match perform i l X a with
      | none => advance (n - 1) d (X.latchAll.enter ⟨o, i, ⟨a, nx⟩ :: rest, l, res⟩)
      | some (X', l') =>
        match nx.go X.params ⟨o, i, rest, l', res⟩ with
        | .error e => (X'.latchAll.enter ⟨o, i, ⟨a, nx⟩ :: rest, l, res⟩).fail e
        | .ok f' => advance (n - 1) d (X'.latchAll.enter f') := by
  rw [advance_tick hn (by simp; omega) (by simpa [State.Unmarked] using hq.2), tick_quiet (by simpa using hq.1),
    contextStep_enter ha hc]
  cases hp : perform i l X a with
  | none => simp
  | some r =>
    obtain ⟨X', l'⟩ := r
    cases hg : nx.go X.params ⟨o, i, rest, l', res⟩ <;> simp [hg, advance_marked]

/-- A callback emission in a handler, with the no-op application (44 R274, R275): the event is recorded and the handler
goes on. -/
theorem advance_callback_enter {c : EventCode} (hn : 2 < n) (hd : X.depth = d) (hq : X.Quiet)
    (happ : X.params.app = []) :
    advance n d (X.enter ⟨o, i, ⟨.callback c, .straight⟩ :: rest, l, res⟩) =
      advance (n - 3) d ((X.emitCallback i c).latchAll.latchAll.latchAll.enter ⟨o, i, rest, l, res⟩) := by
  have h1 : tick (X.enter ⟨o, i, ⟨.callback c, .straight⟩ :: rest, l, res⟩) =
      ((X.emitCallback i c).latchAll.enter ⟨o, i, rest, l, res⟩).enter (Frame.callback i c) := by
    rw [tick_quiet (by simpa using hq.1)]
    simp [contextStep, frameStep, lineStep, perform, Next.go, State.callAfter]
  have h2 : ∀ (Y : State) (g : Frame), Y.inputs = [] → Y.params.app = [] →
      tick ((Y.enter g).enter (Frame.callback i c)) = (Y.latchAll.enter g).enter ((Frame.callback i c).finish .none) := by
    intro Y g hY hYa
    rw [tick_quiet (by simpa using hY)]
    simp [contextStep, frameStep, Frame.callback, appStep, appChoice, hYa]
  have h3 : ∀ (Y : State) (g : Frame), Y.inputs = [] →
      tick ((Y.enter g).enter ((Frame.callback i c).finish .none)) = Y.latchAll.enter g := by
    intro Y g hY
    rw [tick_quiet (by simpa using hY)]
    simp [contextStep, frameStep, Frame.finish, Frame.callback, State.leave]
  obtain ⟨hi, hm⟩ := hq
  rw [advance_tick (by omega) (by simp; omega) (by simpa [State.Unmarked] using hm), h1,
    advance_tick (by omega) (by simp; omega) (by simpa [State.Unmarked] using hm),
    h2 _ _ (by simpa using hi) (by simpa using happ),
    advance_tick (by omega) (by simp; omega) (by simpa [State.Unmarked] using hm), h3 _ _ (by simpa using hi)]
  congr 1

/-- A handler's run ends when it returns (60 R312). -/
theorem advance_return_enter (k : HandlerKind) (hn : 0 < n) (hd : X.depth = d) (hq : X.Quiet) :
    advance n d (X.enter ⟨k.owner, i, [], l, res⟩) = X.latchAll := by
  rw [advance_tick hn (by simp; omega) (by simpa [State.Unmarked] using hq.2), tick_quiet (by simpa using hq.1)]
  cases k <;> simp [contextStep, frameStep, State.leave, advance_done, hd, HandlerKind.owner]

/-! ## Issuing -/

/-- A command whose entry checks pass runs from its first line. -/
theorem issue_ok (f : Frame) (s : State) : issue (.ok f) s = .next (advance s.fuel s.depth (s.push f)) := by
  simp [issue, State.runTo, State.fuel]

/-- A command whose entry checks fail is refused and has no effect. -/
theorem issue_error (e : Refusal) (s : State) : issue (.error e) s = .refused e := rfl

theorem fuel_quiet {s : State} (h : s.inputs = []) : s.fuel = 128 := by simp [State.fuel, h]

/-- A controller that exists. -/
theorem checkIndex_has {s : State} (h : s.Has i) : checkIndex s.params.nInst i = .ok i := by
  simp [checkIndex, h.1]

/-- A controller that does not. -/
theorem checkIndex_ge {k m : Nat} (h : k ≤ m) : checkIndex k m = .error (.noSuchInstance m) := by
  have : ¬ m < k := by omega
  simp [checkIndex, this]

theorem checkReceiveLength_ok {len : Word} (h : len ≠ 0) : checkReceiveLength len = .ok () := by
  simp only [checkReceiveLength, h, if_false]

@[simp] theorem checkReceiveLength_zero : checkReceiveLength 0#32 = .error .zeroLengthReceive := rfl

theorem checkBuffer_ok {buf len : Word} (h : buf ≠ 0 ∨ len = 0) : checkBuffer buf len = .ok () := by
  have : ¬ (buf = 0 ∧ len ≠ 0) := by tauto
  simp only [checkBuffer, this, if_false]

theorem checkBuffer_null {len : Word} (h : len ≠ 0) : checkBuffer 0#32 len = .error .nullBuffer := by
  unfold checkBuffer
  exact if_pos ⟨rfl, h⟩

theorem checkWidth_ok {width : Byte} (h : width = 1 ∨ width = 2) : checkWidth width = .ok () := by
  simp only [checkWidth, h, if_true]

theorem checkWidth_bad {width : Byte} (h₁ : width ≠ 1) (h₂ : width ≠ 2) :
    checkWidth width = .error (.badAddressWidth width) := by
  simp only [checkWidth, h₁, h₂, or_self, if_false]

/-- The handler context stands at a handler's first line. -/
theorem entered_iff {s : State} {k : HandlerKind} :
    s.entered k i = true ↔ s.handlers.head? = some ⟨k.owner, i, handlerLines k, Locals.init, .none⟩ := by
  simp [State.entered]

/-- An entered handler runs from its first line until it returns. -/
theorem runHandler_entered {k : HandlerKind} (hh : X.Has i) :
    runHandler k i (X.enter ⟨k.owner, i, handlerLines k, Locals.init, .none⟩) =
      .next (advance (X.enter ⟨k.owner, i, handlerLines k, Locals.init, .none⟩).fuel X.depth
        (X.enter ⟨k.owner, i, handlerLines k, Locals.init, .none⟩)) := by
  have hc : checkIndex X.params.nInst i = .ok i := checkIndex_has hh
  simp [runHandler, hc, State.entered, State.runTo]

/-! ## What every boundary, and so every step, keeps -/

/-- A property kept by each way the running context can move is kept by its micro-step. -/
theorem contextStep_keeps {P : State → Prop} {s : State} (hs : P s)
    (hleave : ∀ f, s.top = some f → f.lines = [] → P (s.leave f))
    (happ : ∀ f nx rest, s.top = some f → f.lines = ⟨.app, nx⟩ :: rest → P (appStep f s))
    (hline : ∀ f x rest s' l f', s.top = some f → f.lines = x :: rest → perform f.inst f.loc s x.act = some (s', l) →
      x.next.go s.params { f with lines := rest, loc := l } = .ok f' → P ((s'.setTop f').callAfter f.inst x.act))
    (hfail : ∀ f x rest s' l e, s.top = some f → f.lines = x :: rest → perform f.inst f.loc s x.act = some (s', l) →
      x.next.go s.params { f with lines := rest, loc := l } = .error e → P (s'.fail e)) :
    P (contextStep s) := by
  unfold contextStep
  split
  · exact hs
  · next f hf =>
    unfold frameStep
    split
    · next hl => exact hleave f hf hl
    · next nx rest hl => exact happ f nx rest hf hl
    · next x rest hne hl =>
      unfold lineStep
      split
      · exact hs
      · next s' l hp =>
        split
        · next e hg => exact hfail f x rest s' l e hf hl hp hg
        · next f' hg => exact hline f x rest s' l f' hf hl hp hg

/-- A property kept by each kind of input and by the latches' update is kept at a boundary. -/
theorem tick_keeps {P : State → Prop} {s : State} (hlatch : ∀ u, P u → P u.latchAll)
    (hinput : ∀ x xs, s.inputs = x :: xs → P (s.withInputs xs))
    (hcontext : ∀ xs, (s.inputs = .run :: xs ∨ (s.inputs = [] ∧ xs = [])) → P (contextStep (s.withInputs xs)))
    (hfree : ∀ i c xs, s.inputs = .free i c :: xs →
      P ((s.withInputs xs).setEng i ((s.eng i).applyFreeInput c)))
    (href : ∀ i r xs, s.inputs = .ref i r :: xs → P ((s.withInputs xs).setEng i ((s.eng i).applyRef r)))
    (hdispatch : ∀ xs, s.inputs = .dispatch :: xs → P (s.withInputs xs).dispatch)
    (hreinit : ∀ i l xs, s.inputs = .reinit i l :: xs → P ((s.withInputs xs).reinitInput i l)) : P (tick s) := by
  unfold tick
  split
  · next hi =>
    have : s.withInputs [] = s := by cases s; simp_all [State.withInputs]
    exact hlatch _ (this ▸ hcontext [] (.inr ⟨hi, rfl⟩))
  · next x xs hi =>
    refine hlatch _ ?_
    cases x <;> simp only [applyInput]
    · exact hcontext xs (.inl hi)
    · split
      · exact hfree _ _ xs hi
      · exact hinput _ xs hi
    · split
      · exact href _ _ xs hi
      · exact hinput _ xs hi
    · exact hdispatch xs hi
    · split
      · exact hreinit _ _ xs hi
      · exact hinput _ xs hi

/-- A property kept at every boundary is kept by a run. -/
theorem advance_keeps {P : State → Prop} (htick : ∀ s, P s → P (tick s)) :
    ∀ {n d : Nat} {s : State}, P s → P (advance n d s) := by
  intro n
  induction n with
  | zero => intro d s hs; exact hs
  | succ n ih =>
    intro d s hs
    rw [advance]
    split
    · exact hs
    · exact ih (htick s hs)

/-- What a command's meaning is: its frame, pushed and run, or its refusal; a handler's run for the two of family 3. -/
theorem exec_software {x : Instr} {s t : State} (h : exec x s = .next t) :
    (∃ f, softwareCmd s.params.nInst x = .ok f ∧ t = advance s.fuel s.depth (s.push f)) ∨
    (∃ k i, s.entered k i = true ∧ x = (match k with | .ev => .evIrq i | .er => .erIrq i) ∧
      t = advance s.fuel (s.depth - 1) s) := by
  have hi : ∀ c : Except Refusal Frame, issue c s = .next t →
      ∃ f, c = .ok f ∧ t = advance s.fuel s.depth (s.push f) := by
    intro c hc
    cases c with
    | error e => simp [issue] at hc
    | ok f =>
      rw [issue_ok] at hc
      cases hc
      exact ⟨f, rfl, rfl⟩
  have hr : ∀ k n, runHandler k n s = .next t → s.entered k n = true ∧ t = advance s.fuel (s.depth - 1) s := by
    intro k n hc
    simp only [runHandler, checkIndex] at hc
    split at hc
    · cases hc
    · next x hx =>
      split at hx
      · cases hx
        split at hc
        · next he => cases hc; exact ⟨he, rfl⟩
        · cases hc
      · cases hx
  cases x <;> first
    | exact .inl (hi _ h)
    | (obtain ⟨he, ha⟩ := hr .ev _ h; exact .inr ⟨.ev, _, he, rfl, ha⟩)
    | (obtain ⟨he, ha⟩ := hr .er _ h; exact .inr ⟨.er, _, he, rfl, ha⟩)

/-- A property kept at every boundary, and by what a step does before its run, is kept by every step. -/
theorem step_keeps {P : State → Prop} {s t : State} (htick : ∀ s, P s → P (tick s))
    (hinputs : ∀ s x xs, P s → s.inputs = x :: xs → P (s.withInputs xs))
    (hprogram : ∀ s w ws, P s → s.program = w :: ws → P (s.withProgram ws))
    (hpush : ∀ s x f, P s → softwareCmd s.params.nInst x = .ok f → P (s.push f))
    (hs : P s) (h : step s = .next t) : P t := by
  have hexec : ∀ x s, P s → exec x s = .next t → P t := by
    intro x s hs h
    obtain ⟨f, hf, rfl⟩ | ⟨k, i, -, -, rfl⟩ := exec_software h
    · exact advance_keeps htick (hpush s x f hs hf)
    · exact advance_keeps htick hs
  have hfetch : ∀ s, P s → s.fetch = .next t → P t := by
    intro s hs h
    unfold State.fetch at h
    split at h
    · cases h; exact hs
    · next w ws hp =>
      split at h
      · cases h
      · next x hx => exact hexec x _ (hprogram s w ws hs hp) h
  unfold step at h
  split at h
  · cases h
  · cases h
  · split at h
    · unfold idleStep at h
      split at h
      · exact hfetch s hs h
      · next xs hi => exact hfetch _ (hinputs s _ xs hs hi) h
      · cases h; exact htick s hs
    · unfold busyStep at h
      split at h
      · cases h; exact advance_keeps htick hs
      · split at h
        · exact hexec _ s hs h
        · split at h
          · exact hexec _ s hs h
          · cases h; exact advance_keeps htick hs

/-! ## Sequencing of entry checks -/

@[simp] theorem except_bind_ok {ε α β : Type} (x : α) (f : α → Except ε β) : (Except.ok x >>= f) = f x := rfl

@[simp] theorem except_bind_error {ε α β : Type} (e : ε) (f : α → Except ε β) :
    ((Except.error e : Except ε α) >>= f) = .error e := rfl

@[simp] theorem except_pure {ε α : Type} (x : α) : (pure x : Except ε α) = .ok x := rfl

end Sys2Proof.Machine
end

