-- ==== Sys2Proof/Laws/Put.lean ====
section
/-! SUPPORT. A command's run on one controller, in normal form: `s.put i e tr m` is `s` with controller `i`'s engine now
`e`, its trace grown by `tr`, and caller memory `m`. Every micro-step of a command on controller `i` takes one such state
to another, and what a command has done is read off the last. -/

namespace Sys2Proof.Machine

/-- `s` with engine `i` now `e`, the trace grown by `tr`, and caller memory `m`. -/
def State.put (s : State) (i : Idx) (e : Engine) (tr : List Event) (m : List Host.Cell) : State :=
  { s with engines := putEngine s.engines i e, trace := s.trace ++ tr, mem := m }

variable (s : State) (i j : Idx) (e e' : Engine) (tr : List Event) (m : List Host.Cell)

/-- Nothing done yet. -/
theorem put_self {s : State} {i : Idx} (h : s.Has i) : s.put i (s.eng i) [] s.mem = s := by
  simp [State.put, State.eng, putEngine_engineAt _ _ h.2]

@[simp] theorem put_eng_same : (s.put i e tr m).eng i = e := engineAt_putEngine_same e _ i

theorem put_eng_ne (h : j ≠ i) : (s.put i e tr m).eng j = s.eng j := engineAt_putEngine_ne e _ i j h.symm

@[simp] theorem put_mem : (s.put i e tr m).mem = m := rfl
@[simp] theorem put_main : (s.put i e tr m).main = s.main := rfl
@[simp] theorem put_handlers : (s.put i e tr m).handlers = s.handlers := rfl
@[simp] theorem put_program : (s.put i e tr m).program = s.program := (rfl)
@[simp] theorem put_inputs : (s.put i e tr m).inputs = s.inputs := (rfl)
@[simp] theorem put_trace : (s.put i e tr m).trace = s.trace ++ tr := rfl
@[simp] theorem put_params : (s.put i e tr m).params = s.params := (rfl)
@[simp] theorem put_refused : (s.put i e tr m).refused = s.refused := rfl
@[simp] theorem put_faults : (s.put i e tr m).faults = s.faults := rfl
@[simp] theorem put_depth : (s.put i e tr m).depth = s.depth := (rfl)
@[simp] theorem put_byteAt (a : Word) : (s.put i e tr m).byteAt a = Memory.read m a.toNat := rfl

@[simp] theorem put_setEng : (s.put i e tr m).setEng i e' = s.put i e' tr m := by
  simp [State.put, State.setEng, putEngine_putEngine]

@[simp] theorem put_emit (x : Event) : (s.put i e tr m).emit x = s.put i e (tr ++ [x]) m := by
  simp [State.put, State.emit]

@[simp] theorem put_regRead (r : Reg) :
    (s.put i e tr m).regRead i r = s.put i (e.afterRead r) (tr ++ [.regRead i r (e.value r)]) m := by
  simp [State.regRead]

@[simp] theorem put_regWrite (r : Reg) (v : Word) :
    (s.put i e tr m).regWrite i r v = s.put i (e.afterWrite v r) (tr ++ [.regWrite i r v]) m := by
  simp [State.regWrite]

/-- An engine with another handle. -/
def Engine.withHandle (e : Engine) (g : Handle) : Engine := { e with h := g }

/-- An engine that has emitted one more callback. -/
def Engine.withCallback (e : Engine) (c : EventCode) : Engine := { e with cbTrace := e.cbTrace ++ [c] }

@[simp] theorem put_setHandle (g : Handle) : (s.put i e tr m).setHandle i g = s.put i (e.withHandle g) tr m := by
  simp [State.setHandle, Engine.withHandle]

@[simp] theorem put_emitCallback (c : EventCode) :
    (s.put i e tr m).emitCallback i c = s.put i (e.withCallback c) (tr ++ [.callback i c]) m := by
  simp [State.emitCallback, Engine.withCallback]

@[simp] theorem put_memRead (a : Word) :
    (s.put i e tr m).memRead a = s.put i e (tr ++ [.memRead a (Memory.read m a.toNat)]) m := by
  simp [State.memRead]

@[simp] theorem put_memWrite (a : Word) (b : Byte) :
    (s.put i e tr m).memWrite a b = s.put i e (tr ++ [.memWrite a b]) (Memory.write m a.toNat b) := by
  simp [State.memWrite, State.put, State.emit]

@[simp] theorem put_latchAll : (s.put i e tr m).latchAll = s.latchAll.put i e.latchPending tr m := by
  simp [State.latchAll, State.put, map_putEngine _ _ absent_latchPending]

@[simp] theorem put_withInputs (xs : List Input) :
    (s.put i e tr m).withInputs xs = (s.withInputs xs).put i e tr m := rfl

@[simp] theorem put_enter_eq (f : Frame) : (s.enter f).put i e tr m = (s.put i e tr m).enter f := rfl

/-- What a state in normal form shares with its base. -/
@[simp] theorem put_quiet : (s.put i e tr m).Quiet ↔ s.Quiet := Iff.rfl
@[simp] theorem put_unmarked : (s.put i e tr m).Unmarked ↔ s.Unmarked := Iff.rfl
@[simp] theorem latchAll_quiet : s.latchAll.Quiet ↔ s.Quiet := Iff.rfl
@[simp] theorem latchAll_unmarked : s.latchAll.Unmarked ↔ s.Unmarked := Iff.rfl

/-- A command starts with nothing done. -/
theorem issue_put {s : State} {i : Idx} {f : Frame} (h : s.Has i) :
    issue (.ok f) s = .next (advance s.fuel s.depth ((s.put i (s.eng i) [] s.mem).push f)) := by
  rw [issue_ok, put_self h]

/-- A handler starts with nothing done. -/
theorem runHandler_put {s : State} {i : Idx} {k : HandlerKind} (h : s.Has i) :
    runHandler k i (s.enter ⟨k.owner, i, handlerLines k, Locals.init, .none⟩) =
      .next (advance s.fuel s.depth
        ((s.put i (s.eng i) [] s.mem).enter ⟨k.owner, i, handlerLines k, Locals.init, .none⟩)) := by
  rw [runHandler_entered h, put_self h]; rfl

/-- What a run in normal form has done. -/
theorem effect_put : Effect s (s.latchAll.put i e tr m) i e tr where
  engine := put_eng_same ..
  others j hj := by rw [put_eng_ne _ _ _ _ _ _ hj, latchAll_eng]
  trace := rfl
  program := rfl
  inputs := rfl
  params := rfl
  refused := rfl
  faults := rfl

theorem sameMemory_put : SameMemory s (s.latchAll.put i e tr s.mem) := fun _ => rfl

theorem returned_put : Returned s (s.latchAll.put i e tr m) := ⟨rfl, rfl⟩

/-! ## The fields of an engine after each change -/

variable (v : Half) (g : Handle) (c : EventCode)

@[simp] theorem withHandle_h : (e.withHandle g).h = g := rfl
@[simp] theorem withHandle_regs : (e.withHandle g).regs = e.regs := (rfl)
@[simp] theorem withHandle_lat : (e.withHandle g).lat = e.lat := (rfl)
@[simp] theorem withHandle_ctrl : (e.withHandle g).ctrl = e.ctrl := (rfl)
@[simp] theorem withHandle_value (r : Reg) : (e.withHandle g).value r = e.value r := by cases r <;> rfl
@[simp] theorem withHandle_withHandle (g' : Handle) : (e.withHandle g).withHandle g' = e.withHandle g' := (rfl)
@[simp] theorem withCallback_h : (e.withCallback c).h = e.h := (rfl)
@[simp] theorem withCallback_regs : (e.withCallback c).regs = e.regs := (rfl)
@[simp] theorem withCallback_lat : (e.withCallback c).lat = e.lat := (rfl)
@[simp] theorem withCallback_ctrl : (e.withCallback c).ctrl = e.ctrl := (rfl)
@[simp] theorem withCallback_value (r : Reg) : (e.withCallback c).value r = e.value r := by cases r <;> rfl
@[simp] theorem sampledSR1_h : e.sampledSR1.h = e.h := (rfl)
@[simp] theorem sampledSR1_regs : e.sampledSR1.regs = e.regs := (rfl)
@[simp] theorem sampledSR1_ctrl : e.sampledSR1.ctrl = e.ctrl := (rfl)
@[simp] theorem sampledSR1_value (r : Reg) : e.sampledSR1.value r = e.value r := by cases r <;> rfl
@[simp] theorem sampledSR1_sampledSR1 : e.sampledSR1.sampledSR1 = e.sampledSR1 := (rfl)
@[simp] theorem withCR2_h : (e.withCR2 v).h = e.h := (rfl)
@[simp] theorem withCR2_cr1 : (e.withCR2 v).regs.cr1 = e.regs.cr1 := (rfl)
@[simp] theorem withCR2_cr2 : (e.withCR2 v).regs.cr2 = v := (rfl)
@[simp] theorem withCR2_sr1 : (e.withCR2 v).regs.sr1 = e.regs.sr1 := (rfl)
@[simp] theorem withCR2_sr2 : (e.withCR2 v).regs.sr2 = e.regs.sr2 := (rfl)
@[simp] theorem withCR2_lat : (e.withCR2 v).lat = e.lat := (rfl)
@[simp] theorem withCR2_ctrl : (e.withCR2 v).ctrl = e.ctrl := (rfl)
@[simp] theorem withCR2_withCR2 (w : Half) : (e.withCR2 v).withCR2 w = e.withCR2 w := (rfl)
@[simp] theorem withCR1_h : (e.withCR1 v).h = e.h := (rfl)
@[simp] theorem withCR1_cr1 : (e.withCR1 v).regs.cr1 = v := (rfl)
@[simp] theorem withCR1_cr2 : (e.withCR1 v).regs.cr2 = e.regs.cr2 := (rfl)
@[simp] theorem withCR1_sr2 : (e.withCR1 v).regs.sr2 = e.regs.sr2 := (rfl)
@[simp] theorem withCR1_ctrl : (e.withCR1 v).ctrl = e.ctrl := (rfl)

/-! ## What a latch update does not see -/

@[simp] theorem withHandle_latchPending : (e.withHandle g).latchPending = e.latchPending.withHandle g := (rfl)
@[simp] theorem withCallback_latchPending : (e.withCallback c).latchPending = e.latchPending.withCallback c := (rfl)
@[simp] theorem sampledSR1_latchPending : e.sampledSR1.latchPending = e.latchPending.sampledSR1 := (rfl)

/-! The handle and the callback trace are written on top of the registers, whichever came first. -/

@[simp] theorem withHandle_withCR1 : (e.withHandle g).withCR1 v = (e.withCR1 v).withHandle g := (rfl)
@[simp] theorem withHandle_withCR2 : (e.withHandle g).withCR2 v = (e.withCR2 v).withHandle g := (rfl)
@[simp] theorem withHandle_sampledSR1 : (e.withHandle g).sampledSR1 = e.sampledSR1.withHandle g := (rfl)
@[simp] theorem withCallback_withCR1 : (e.withCallback c).withCR1 v = (e.withCR1 v).withCallback c := (rfl)
@[simp] theorem withCallback_withCR2 : (e.withCallback c).withCR2 v = (e.withCR2 v).withCallback c := (rfl)
@[simp] theorem withCallback_sampledSR1 : (e.withCallback c).sampledSR1 = e.sampledSR1.withCallback c := (rfl)
@[simp] theorem withCallback_withHandle : (e.withCallback c).withHandle g = (e.withHandle g).withCallback c := (rfl)

end Sys2Proof.Machine
end

