-- ==== Sys2Proof/Laws/Check.lean ====
section
/-! SUPPORT. The event handler check by check (43 R240 to R246): its entry, a check that acts on nothing, what each check's
test says in bits of its sample, and its return. -/

namespace Sys2Proof.Machine

variable {X : State} {i : Idx} {e : Engine} {tr : List Event} {m : List Host.Cell} {rest : List Line} {l : Locals}

/-- A state at a handler's first line, as the entry of that handler over what runs below it. -/
theorem State.AtHandler.eq_enter {s : State} {k : HandlerKind} {below : List Frame} (h : s.AtHandler k i below) :
    s = ({ s with handlers := below } : State).enter ⟨k.owner, i, handlerLines k, Locals.init, .none⟩ := by
  obtain ⟨_, _, _, hs, _, _, _, _, _, _⟩ := s
  simp only [State.AtHandler] at h
  subst h
  rfl

/-- The effect of a handler, seen from the state at its first line. -/
theorem effect_enter {f : Frame} : Effect (X.enter f) (X.latchAll.put i e tr m) i e tr := by
  obtain ⟨h₁, h₂, h₃, h₄, h₅, h₆, h₇, h₈⟩ := effect_put (s := X) (i := i) (e := e) (tr := tr) (m := m)
  exact ⟨h₁, h₂, h₃, h₄, h₅, h₆, h₇, h₈⟩

/-- A line with no test. -/
theorem go_straight (p : Params) (f : Frame) : Next.straight.go p f = .ok f := rfl

/-- A check: its sample, then its test on the sample. -/
theorem advance_check {n d : Nat} {nx : Next} (hn : 2 < n) (hd : X.depth = d) (hq : X.Quiet)
    (hX : X.latchAll = X) (hL : e.Latched) :
    advance n d ((X.put i e tr m).enter ⟨.ev, i, ⟨.readCR2, .straight⟩ :: ⟨.readSR1, nx⟩ :: rest, l, .none⟩) =
      match nx.go X.params
        ⟨.ev, i, rest, { l with c := e.regs.cr2.setWidth 32, v := e.regs.sr1.setWidth 32 }, .none⟩ with
      | .error x => ((X.put i e.sampledSR1 (tr ++ sample i e.regs.cr2 e.regs.sr1) m).enter
          ⟨.ev, i, ⟨.readSR1, nx⟩ :: rest, { l with c := e.regs.cr2.setWidth 32 }, .none⟩).fail x
      | .ok f' =>
        advance (n - 2) d
          ((X.put i e.sampledSR1 (tr ++ sample i e.regs.cr2 e.regs.sr1) m).enter f') := by
  have hc : e.value .cr2 = e.regs.cr2.setWidth 32 := rfl
  have hv : e.value .sr1 = e.regs.sr1.setWidth 32 := rfl
  have hr : e.afterRead .cr2 = e := rfl
  rw [advance_quiet_enter (by omega) (by simpa using hd) (by simpa using hq) (by simp) (by simp)]
  simp only [perform, put_params, go_straight, put_eng_same, hc, put_regRead, hr, put_latchAll, hL.latchPending, hX]
  rw [advance_quiet_enter (by omega) (by simpa using hd) (by simpa using hq) (by simp) (by simp)]
  simp only [perform, put_eng_same, hv, put_regRead, afterRead_sr1, put_latchAll, sampledSR1_latchPending,
    hL.latchPending, hX, put_params, List.append_assoc, List.cons_append, List.nil_append, sample, rSR1]
  rfl

/-- A check whose test goes straight on. -/
theorem advance_check_idle {n : Nat} {nx : Next} (hq : X.Quiet) (hL : e.Latched) (hn : 2 < n)
    (h : ∀ f : Frame, f.loc.c = e.regs.cr2.setWidth 32 → f.loc.v = e.regs.sr1.setWidth 32 →
      nx.go X.params f = .ok f) :
    advance n X.depth
        ((X.latchAll.put i e tr m).enter ⟨.ev, i, ⟨.readCR2, .straight⟩ :: ⟨.readSR1, nx⟩ :: rest, l, .none⟩) =
      advance (n - 2) X.depth
        ((X.latchAll.put i e.sampledSR1 (tr ++ sample i e.regs.cr2 e.regs.sr1) m).enter
          ⟨.ev, i, rest, { l with c := e.regs.cr2.setWidth 32, v := e.regs.sr1.setWidth 32 }, .none⟩) := by
  rw [advance_check hn (by simp) (by simpa using hq) (by simp) hL]
  have := h ⟨.ev, i, rest, { l with c := e.regs.cr2.setWidth 32, v := e.regs.sr1.setWidth 32 }, .none⟩ rfl rfl
  simp only [latchAll_params, this]

/-! ## The tests of the checks, in bits of the sample -/

section Tests

variable {p : Params} {f : Frame} {c x : Half} (hc : f.loc.c = c.setWidth 32) (hv : f.loc.v = x.setWidth 32)

include hc hv

theorem go_sbEvent : Next.sbEvent.go p f =
    .ok (if c.getLsbD 9 && x.getLsbD 0 then f.insert [⟨.getState, .sbByState⟩] else f) := by
  simp only [Next.go, hc, hv, sampled_setWidth, anyBit_ITEVTEN, anyBit_SB]

theorem go_addrEvent : Next.addrEvent.go p f =
    .ok (if c.getLsbD 9 && x.getLsbD 1 then f.insert clearAddr else f) := by
  simp only [Next.go, hc, hv, sampled_setWidth, anyBit_ITEVTEN, anyBit_ADDR]

theorem go_btfEvent : Next.btfEvent.go p f =
    .ok (if c.getLsbD 9 && x.getLsbD 2 then f.insert [⟨.getState, .btfByState⟩] else f) := by
  simp only [Next.go, hc, hv, sampled_setWidth, anyBit_ITEVTEN, anyBit_BTF]

theorem go_stopfEvent : Next.stopfEvent.go p f =
    .ok (if c.getLsbD 9 && x.getLsbD 4 then f.insert (setBits .cr1 0 ++ [.then (.callback .stop)]) else f) := by
  simp only [Next.go, hc, hv, sampled_setWidth, anyBit_ITEVTEN, anyBit_STOPF]

theorem go_txeEvent : Next.txeEvent.go p f =
    .ok (if c.getLsbD 9 && c.getLsbD 10 && x.getLsbD 7 then f.insert [⟨.readSR2, .txeByRole⟩] else f) := by
  simp only [Next.go, hc, hv, sampled_setWidth, anyBit_ITEVTEN, anyBit_ITBUFEN, anyBit_TxE]

theorem go_rxneEvent : Next.rxneEvent.go p f =
    .ok (if c.getLsbD 9 && c.getLsbD 10 && x.getLsbD 6 then f.insert [⟨.readSR2, .rxneByRole⟩] else f) := by
  simp only [Next.go, hc, hv, sampled_setWidth, anyBit_ITEVTEN, anyBit_ITBUFEN, anyBit_RxNE]

end Tests

/-! ## Entry and return -/

/-- EV_IRQ from its first line: the sample of its first check, then that check's test. -/
theorem exec_evIrq_entered (hh : X.Has i) (hq : X.Quiet) (he : (X.eng i).latchPending = e) {f' : Frame}
    (hg : Next.sbEvent.go X.params
        ⟨.ev, i, check .addrEvent ++ check .btfEvent ++ check .stopfEvent ++ check .txeEvent ++ check .rxneEvent,
          { Locals.init with c := e.regs.cr2.setWidth 32, v := e.regs.sr1.setWidth 32 }, .none⟩ = .ok f') :
    exec (.evIrq i) (X.enter ⟨.ev, i, handlerLines .ev, Locals.init, .none⟩) =
      .next (advance 126 X.depth
        ((X.latchAll.put i e.sampledSR1 (sample i e.regs.cr2 e.regs.sr1) X.mem).enter f')) := by
  have hL : e.Latched := he ▸ Engine.latched_latchPending _
  have hr : (X.eng i).regs = e.regs := by rw [← he]; rfl
  have hc : (X.eng i).value .cr2 = e.regs.cr2.setWidth 32 := by rw [← hr]; rfl
  have hv : e.value .sr1 = e.regs.sr1.setWidth 32 := rfl
  have hre : (X.eng i).afterRead .cr2 = X.eng i := rfl
  have hrun := runHandler_put (s := X) (i := i) (k := .ev) hh
  simp only [HandlerKind.owner] at hrun
  simp only [exec, execEvIrq]
  rw [hrun, fuel_quiet hq.1]
  simp only [handlerLines, evIrq, check, List.cons_append, List.nil_append, Line.then]
  rw [advance_quiet_enter (by omega) (by simp) (by simpa using hq) (by simp) (by simp)]
  simp only [perform, put_params, go_straight, put_eng_same, hc, put_regRead, hre, put_latchAll, he]
  rw [advance_quiet_enter (by omega) (by simp) (by simpa using hq) (by simp) (by simp)]
  simp only [check, List.cons_append, List.nil_append, Line.then] at hg
  simp [perform, hv, afterRead_sr1, hL.latchPending, sample, rSR1, hg]

/-! ## Checks that act on nothing -/

theorem idle_addr {n : Nat} (hq : X.Quiet) (hL : e.Latched)
    (h : (e.regs.cr2.getLsbD 9 && e.regs.sr1.getLsbD 1) = false) (hn : 2 < n) :
    ∃ l', advance n X.depth ((X.latchAll.put i e tr m).enter ⟨.ev, i, check .addrEvent ++ rest, l, .none⟩) =
      advance (n - 2) X.depth
        ((X.latchAll.put i e.sampledSR1 (tr ++ sample i e.regs.cr2 e.regs.sr1) m).enter ⟨.ev, i, rest, l', .none⟩) :=
  ⟨_, advance_check_idle hq hL hn fun f hc hv => by rw [go_addrEvent hc hv, h]; rfl⟩

theorem idle_btf {n : Nat} (hq : X.Quiet) (hL : e.Latched)
    (h : (e.regs.cr2.getLsbD 9 && e.regs.sr1.getLsbD 2) = false) (hn : 2 < n) :
    ∃ l', advance n X.depth ((X.latchAll.put i e tr m).enter ⟨.ev, i, check .btfEvent ++ rest, l, .none⟩) =
      advance (n - 2) X.depth
        ((X.latchAll.put i e.sampledSR1 (tr ++ sample i e.regs.cr2 e.regs.sr1) m).enter ⟨.ev, i, rest, l', .none⟩) :=
  ⟨_, advance_check_idle hq hL hn fun f hc hv => by rw [go_btfEvent hc hv, h]; rfl⟩

theorem idle_stopf {n : Nat} (hq : X.Quiet) (hL : e.Latched)
    (h : (e.regs.cr2.getLsbD 9 && e.regs.sr1.getLsbD 4) = false) (hn : 2 < n) :
    ∃ l', advance n X.depth ((X.latchAll.put i e tr m).enter ⟨.ev, i, check .stopfEvent ++ rest, l, .none⟩) =
      advance (n - 2) X.depth
        ((X.latchAll.put i e.sampledSR1 (tr ++ sample i e.regs.cr2 e.regs.sr1) m).enter ⟨.ev, i, rest, l', .none⟩) :=
  ⟨_, advance_check_idle hq hL hn fun f hc hv => by rw [go_stopfEvent hc hv, h]; rfl⟩

theorem idle_txe {n : Nat} (hq : X.Quiet) (hL : e.Latched)
    (h : (e.regs.cr2.getLsbD 9 && e.regs.cr2.getLsbD 10 && e.regs.sr1.getLsbD 7) = false) (hn : 2 < n) :
    ∃ l', advance n X.depth ((X.latchAll.put i e tr m).enter ⟨.ev, i, check .txeEvent ++ rest, l, .none⟩) =
      advance (n - 2) X.depth
        ((X.latchAll.put i e.sampledSR1 (tr ++ sample i e.regs.cr2 e.regs.sr1) m).enter ⟨.ev, i, rest, l', .none⟩) :=
  ⟨_, advance_check_idle hq hL hn fun f hc hv => by rw [go_txeEvent hc hv, h]; rfl⟩

theorem idle_rxne {n : Nat} (hq : X.Quiet) (hL : e.Latched)
    (h : (e.regs.cr2.getLsbD 9 && e.regs.cr2.getLsbD 10 && e.regs.sr1.getLsbD 6) = false) (hn : 2 < n) :
    ∃ l', advance n X.depth ((X.latchAll.put i e tr m).enter ⟨.ev, i, check .rxneEvent ++ rest, l, .none⟩) =
      advance (n - 2) X.depth
        ((X.latchAll.put i e.sampledSR1 (tr ++ sample i e.regs.cr2 e.regs.sr1) m).enter ⟨.ev, i, rest, l', .none⟩) :=
  ⟨_, advance_check_idle hq hL hn fun f hc hv => by rw [go_rxneEvent hc hv, h]; rfl⟩

/-- The return of EV_IRQ. -/
theorem advance_evIrq_return {n : Nat} (hq : X.Quiet) (hn : 0 < n) (hL : e.Latched) :
    advance n X.depth ((X.latchAll.put i e tr m).enter ⟨.ev, i, [], l, .none⟩) = X.latchAll.put i e tr m := by
  have h := advance_return_enter (X := X.latchAll.put i e tr m) (i := i) (l := l) (res := .none) (n := n)
    (d := X.depth) .ev hn (by simp) (by simpa using hq)
  simp only [HandlerKind.owner] at h
  rw [h]
  simp [hL.latchPending]

/-- The last check and the return, on an engine whose latches already stand at its SR1. -/
theorem idle_from_rxne {n : Nat} (hq : X.Quiet) (hL : e.Latched) (hs : e.sampledSR1 = e)
    (h6 : (e.regs.cr2.getLsbD 9 && e.regs.cr2.getLsbD 10 && e.regs.sr1.getLsbD 6) = false) (hn : 2 < n) :
    advance n X.depth ((X.latchAll.put i e tr m).enter ⟨.ev, i, check .rxneEvent, l, .none⟩) =
      X.latchAll.put i e (tr ++ idleChecks i 1 e.regs.cr2 e.regs.sr1) m := by
  obtain ⟨l', h⟩ := idle_rxne (i := i) (tr := tr) (m := m) (l := l) (rest := []) hq hL h6 hn
  rw [List.append_nil] at h
  rw [h, hs, advance_evIrq_return hq (by omega) hL]
  simp [idleChecks]

/-- The last 2 checks. -/
theorem idle_from_txe {n : Nat} (hq : X.Quiet) (hL : e.Latched) (hs : e.sampledSR1 = e)
    (h7 : (e.regs.cr2.getLsbD 9 && e.regs.cr2.getLsbD 10 && e.regs.sr1.getLsbD 7) = false)
    (h6 : (e.regs.cr2.getLsbD 9 && e.regs.cr2.getLsbD 10 && e.regs.sr1.getLsbD 6) = false) (hn : 4 < n) :
    advance n X.depth ((X.latchAll.put i e tr m).enter
        ⟨.ev, i, check .txeEvent ++ check .rxneEvent, l, .none⟩) =
      X.latchAll.put i e (tr ++ idleChecks i 2 e.regs.cr2 e.regs.sr1) m := by
  obtain ⟨l', h⟩ := idle_txe (i := i) (tr := tr) (m := m) (l := l) (rest := check .rxneEvent) hq hL h7
    (show 2 < n by omega)
  rw [h, hs, idle_from_rxne hq hL hs h6 (by omega)]
  simp [idleChecks, List.append_assoc, List.replicate]

/-- The last 3 checks. -/
theorem idle_from_stopf {n : Nat} (hq : X.Quiet) (hL : e.Latched) (hs : e.sampledSR1 = e)
    (h4 : (e.regs.cr2.getLsbD 9 && e.regs.sr1.getLsbD 4) = false)
    (h7 : (e.regs.cr2.getLsbD 9 && e.regs.cr2.getLsbD 10 && e.regs.sr1.getLsbD 7) = false)
    (h6 : (e.regs.cr2.getLsbD 9 && e.regs.cr2.getLsbD 10 && e.regs.sr1.getLsbD 6) = false) (hn : 6 < n) :
    advance n X.depth ((X.latchAll.put i e tr m).enter
        ⟨.ev, i, check .stopfEvent ++ (check .txeEvent ++ check .rxneEvent), l, .none⟩) =
      X.latchAll.put i e (tr ++ idleChecks i 3 e.regs.cr2 e.regs.sr1) m := by
  obtain ⟨l', h⟩ := idle_stopf (i := i) (tr := tr) (m := m) (l := l) (rest := check .txeEvent ++ check .rxneEvent) hq hL h4
    (show 2 < n by omega)
  rw [h, hs, idle_from_txe hq hL hs h7 h6 (by omega)]
  simp [idleChecks, List.append_assoc, List.replicate]

/-- The last 4 checks. -/
theorem idle_from_btf {n : Nat} (hq : X.Quiet) (hL : e.Latched) (hs : e.sampledSR1 = e)
    (h2 : (e.regs.cr2.getLsbD 9 && e.regs.sr1.getLsbD 2) = false)
    (h4 : (e.regs.cr2.getLsbD 9 && e.regs.sr1.getLsbD 4) = false)
    (h7 : (e.regs.cr2.getLsbD 9 && e.regs.cr2.getLsbD 10 && e.regs.sr1.getLsbD 7) = false)
    (h6 : (e.regs.cr2.getLsbD 9 && e.regs.cr2.getLsbD 10 && e.regs.sr1.getLsbD 6) = false) (hn : 8 < n) :
    advance n X.depth ((X.latchAll.put i e tr m).enter
        ⟨.ev, i, check .btfEvent ++ (check .stopfEvent ++ (check .txeEvent ++ check .rxneEvent)), l, .none⟩) =
      X.latchAll.put i e (tr ++ idleChecks i 4 e.regs.cr2 e.regs.sr1) m := by
  obtain ⟨l', h⟩ := idle_btf (i := i) (tr := tr) (m := m) (l := l)
    (rest := check .stopfEvent ++ (check .txeEvent ++ check .rxneEvent)) hq hL h2 (show 2 < n by omega)
  rw [h, hs, idle_from_stopf hq hL hs h4 h7 h6 (by omega)]
  simp [idleChecks, List.append_assoc, List.replicate]

/-- The last 5 checks. -/
theorem idle_from_addr {n : Nat} (hq : X.Quiet) (hL : e.Latched) (hs : e.sampledSR1 = e)
    (h1 : (e.regs.cr2.getLsbD 9 && e.regs.sr1.getLsbD 1) = false)
    (h2 : (e.regs.cr2.getLsbD 9 && e.regs.sr1.getLsbD 2) = false)
    (h4 : (e.regs.cr2.getLsbD 9 && e.regs.sr1.getLsbD 4) = false)
    (h7 : (e.regs.cr2.getLsbD 9 && e.regs.cr2.getLsbD 10 && e.regs.sr1.getLsbD 7) = false)
    (h6 : (e.regs.cr2.getLsbD 9 && e.regs.cr2.getLsbD 10 && e.regs.sr1.getLsbD 6) = false) (hn : 10 < n) :
    advance n X.depth ((X.latchAll.put i e tr m).enter
        ⟨.ev, i, check .addrEvent ++ (check .btfEvent ++ (check .stopfEvent ++ (check .txeEvent ++ check .rxneEvent))), l, .none⟩) =
      X.latchAll.put i e (tr ++ idleChecks i 5 e.regs.cr2 e.regs.sr1) m := by
  obtain ⟨l', h⟩ := idle_addr (i := i) (tr := tr) (m := m) (l := l)
    (rest := check .btfEvent ++ (check .stopfEvent ++ (check .txeEvent ++ check .rxneEvent))) hq hL h1
    (show 2 < n by omega)
  rw [h, hs, idle_from_btf hq hL hs h2 h4 h7 h6 (by omega)]
  simp [idleChecks, List.append_assoc, List.replicate]

/-- An event statement from the run of its checks: `hrun` runs EV_IRQ from its first test to its return, over any state
`X` below the handler that agrees with `s`. -/
theorem evIrq_effect {s : State} {below : List Frame} (h : s.EventEntry i below) {e' : Engine}
    (he : (s.eng i).latchPending = e)
    (hrun : ∀ X : State, X.Quiet → X.params.app = [] → X.params = s.params → X.mem = s.mem → e.Latched →
      (X.eng i).latchPending = e →
      ∃ f', Next.sbEvent.go X.params
          ⟨.ev, i, check .addrEvent ++ check .btfEvent ++ check .stopfEvent ++ check .txeEvent ++ check .rxneEvent,
            { Locals.init with c := e.regs.cr2.setWidth 32, v := e.regs.sr1.setWidth 32 }, .none⟩ = .ok f' ∧
        advance 126 X.depth
            ((X.latchAll.put i e.sampledSR1 (sample i e.regs.cr2 e.regs.sr1) X.mem).enter f') =
          X.latchAll.put i e' tr m) :
    ∃ t, exec (.evIrq i) s = .next t ∧ Effect s t i e' tr ∧ t.mem = m ∧ HandlerReturned s t below := by
  obtain ⟨hh, hat, hq, happ⟩ := h
  have hs := hat.eq_enter
  generalize hX : ({ s with handlers := below } : State) = X at hs
  have hqX : X.Quiet := by rw [← hX]; exact hq
  have hhX : X.Has i := by rw [← hX]; exact hh
  have heX : (X.eng i).latchPending = e := by rw [← he, ← hX]; rfl
  refine ⟨X.latchAll.put i e' tr m, ?_, ?_, rfl, ?_⟩
  · obtain ⟨f', hg, ha⟩ := hrun X hqX (by rw [← hX]; exact happ) (by rw [← hX]) (by rw [← hX])
      (heX ▸ Engine.latched_latchPending _) heX
    rw [hs, HandlerKind.owner, exec_evIrq_entered hhX hqX heX hg, ha]
  · rw [hs]; exact effect_enter
  · rw [← hX]; exact ⟨rfl, rfl⟩

end Sys2Proof.Machine
end

