-- ==== Sys2Proof/Laws/Blocks.lean ====
section
/-! SUPPORT. The building blocks of the handlers, run in the handler context with no input pending: one lemma for each block
of the pseudocode that several checks share (20 R74, 42 R213, R214, 40 R153, 44 R274). -/

namespace Sys2Proof.Machine

variable {X : State} {i : Idx} {o : Owner} {e : Engine} {tr : List Event} {m : List Host.Cell} {rest : List Line}
  {l : Locals} {res : Result} {n : Nat}

/-- `SetBits(CR1, mask)` on an enabled controller. -/
theorem block_setCR1 {mask : Half} (hq : X.Quiet) (hL : e.Latched) (he : e.regs.cr1.getLsbD 0 = true)
    (hm : mask &&& ~~~cr1Writable = 0) (hn : 2 < n) :
    advance n X.depth ((X.latchAll.put i e tr m).enter ⟨o, i, setBits .cr1 mask ++ rest, l, res⟩) =
      advance (n - 2) X.depth
        ((X.latchAll.put i (e.withCR1 (e.regs.cr1 ||| mask))
          (tr ++ rmwCR1 i e.regs.cr1 (e.regs.cr1 ||| mask)) m).enter
          ⟨o, i, rest, { l with w := e.regs.cr1.setWidth 32 }, res⟩) := by
  have hv : e.value .cr1 = e.regs.cr1.setWidth 32 := rfl
  have hr : e.afterRead .cr1 = e := rfl
  have hw : e.afterWrite ((e.regs.cr1 ||| mask).setWidth 32) .cr1 = e.withCR1 (e.regs.cr1 ||| mask) := by
    rw [← word_or]
    exact afterWrite_cr1_or rfl he hm
  simp only [setBits, Line.then, List.cons_append, List.nil_append]
  rw [advance_quiet_enter (by omega) (by simp) (by simpa using hq) (by simp) (by simp)]
  simp only [perform, RmwReg.reg, put_params, go_straight, put_eng_same, hv, hr, put_regRead, put_latchAll,
    hL.latchPending, latchAll_twice]
  rw [advance_quiet_enter (by omega) (by simp) (by simpa using hq) (by simp) (by simp)]
  simp only [perform, RmwReg.reg, put_params, go_straight, put_regWrite, put_latchAll, latchAll_twice,
    word_or, hw, (hL.withCR1 _).latchPending, rmwCR1, List.append_assoc, List.cons_append,
    List.nil_append]
  rfl

/-- `ClearBits(CR1, mask)` on an enabled controller. -/
theorem block_clearCR1 {mask : Half} (hq : X.Quiet) (hL : e.Latched) (he : e.regs.cr1.getLsbD 0 = true)
    (hm : mask &&& ~~~cr1Writable = 0) (h0 : mask.getLsbD 0 = false) (hn : 2 < n) :
    advance n X.depth ((X.latchAll.put i e tr m).enter ⟨o, i, clearBits .cr1 mask ++ rest, l, res⟩) =
      advance (n - 2) X.depth
        ((X.latchAll.put i (e.withCR1 (e.regs.cr1 &&& ~~~mask))
          (tr ++ rmwCR1 i e.regs.cr1 (e.regs.cr1 &&& ~~~mask)) m).enter
          ⟨o, i, rest, { l with w := e.regs.cr1.setWidth 32 }, res⟩) := by
  have hv : e.value .cr1 = e.regs.cr1.setWidth 32 := rfl
  have hr : e.afterRead .cr1 = e := rfl
  have hw : e.afterWrite ((e.regs.cr1 &&& ~~~mask).setWidth 32) .cr1 = e.withCR1 (e.regs.cr1 &&& ~~~mask) := by
    rw [← word_andNot]
    exact afterWrite_cr1_andNot rfl he hm h0
  simp only [clearBits, Line.then, List.cons_append, List.nil_append]
  rw [advance_quiet_enter (by omega) (by simp) (by simpa using hq) (by simp) (by simp)]
  simp only [perform, RmwReg.reg, put_params, go_straight, put_eng_same, hv, hr, put_regRead, put_latchAll,
    hL.latchPending, latchAll_twice]
  rw [advance_quiet_enter (by omega) (by simp) (by simpa using hq) (by simp) (by simp)]
  simp only [perform, RmwReg.reg, put_params, go_straight, put_regWrite, put_latchAll, latchAll_twice,
    word_andNot, hw, (hL.withCR1 _).latchPending, rmwCR1, List.append_assoc,
    List.cons_append, List.nil_append]
  rfl

/-- `ClearBits(CR2, mask)`. -/
theorem block_clearCR2 {mask : Half} (hq : X.Quiet) (hL : e.Latched) (hm : mask &&& ~~~cr2Writable = 0)
    (hn : 2 < n) :
    advance n X.depth ((X.latchAll.put i e tr m).enter ⟨o, i, clearBits .cr2 mask ++ rest, l, res⟩) =
      advance (n - 2) X.depth
        ((X.latchAll.put i (e.withCR2 (e.regs.cr2 &&& ~~~mask))
          (tr ++ rmwCR2 i e.regs.cr2 (e.regs.cr2 &&& ~~~mask)) m).enter
          ⟨o, i, rest, { l with w := e.regs.cr2.setWidth 32 }, res⟩) := by
  have hv : e.value .cr2 = e.regs.cr2.setWidth 32 := rfl
  have hr : e.afterRead .cr2 = e := rfl
  have hw : e.afterWrite ((e.regs.cr2 &&& ~~~mask).setWidth 32) .cr2 = e.withCR2 (e.regs.cr2 &&& ~~~mask) := by
    rw [← word_andNot]
    exact afterWrite_cr2_andNot rfl hm
  simp only [clearBits, Line.then, List.cons_append, List.nil_append]
  rw [advance_quiet_enter (by omega) (by simp) (by simpa using hq) (by simp) (by simp)]
  simp only [perform, RmwReg.reg, put_params, go_straight, put_eng_same, hv, hr, put_regRead, put_latchAll,
    hL.latchPending, latchAll_twice]
  rw [advance_quiet_enter (by omega) (by simp) (by simpa using hq) (by simp) (by simp)]
  simp only [perform, RmwReg.reg, put_params, go_straight, put_regWrite, put_latchAll, latchAll_twice,
    word_andNot, hw, (hL.withCR2_and rfl).latchPending, rmwCR2, List.append_assoc,
    List.cons_append, List.nil_append]
  rfl

/-- `if sr == 0: GEN_STOP`. -/
theorem block_genStopUnless {sr : Bool} (hq : X.Quiet) (hL : e.Latched) (he : e.regs.cr1.getLsbD 0 = true)
    (hn : 2 < n) :
    ∃ (n' : Nat) (l' : Locals), n - 2 ≤ n' ∧
      advance n X.depth ((X.latchAll.put i e tr m).enter ⟨o, i, genStopUnless sr ++ rest, l, res⟩) =
        advance n' X.depth
          ((X.latchAll.put i (if sr then e else e.withCR1 (e.regs.cr1 ||| 0x0200))
            (tr ++ if sr then [] else rmwCR1 i e.regs.cr1 (e.regs.cr1 ||| 0x0200)) m).enter ⟨o, i, rest, l', res⟩) := by
  cases sr with
  | true => exact ⟨n, l, by omega, by simp [genStopUnless]⟩
  | false =>
    refine ⟨n - 2, { l with w := e.regs.cr1.setWidth 32 }, Nat.le_refl _, ?_⟩
    simp only [genStopUnless, genStop, Bool.false_eq_true, if_false]
    exact block_setCR1 hq hL he (by decide) hn

/-- The handle writes of a close leave the controller's lines and latches. -/
theorem Engine.Latched.withHandle (h : e.Latched) (g : Handle) : (e.withHandle g).Latched :=
  h.mono rfl rfl rfl (fun _ h => h) (fun _ h => h)

/-- A callback leaves the controller's lines and latches. -/
theorem Engine.Latched.withCallback (h : e.Latched) (c : EventCode) : (e.withCallback c).Latched :=
  h.mono rfl rfl rfl (fun _ h => h) (fun _ h => h)

/-- A handle write. -/
theorem block_handle {a : Act} {g : Handle} (hq : X.Quiet) (hL : e.Latched) (ha : a ≠ .app)
    (hc : ∀ c, a ≠ .callback c) (hn : 1 < n)
    (hp : perform i l (X.latchAll.put i e tr m) a = some ((X.latchAll.put i e tr m).setHandle i g, l)) :
    advance n X.depth ((X.latchAll.put i e tr m).enter ⟨o, i, .then a :: rest, l, res⟩) =
      advance (n - 1) X.depth ((X.latchAll.put i (e.withHandle g) tr m).enter ⟨o, i, rest, l, res⟩) := by
  rw [Line.then, advance_quiet_enter (by omega) (by simp) (by simpa using hq) ha hc, hp]
  simp only [put_params, go_straight, put_setHandle, put_latchAll, latchAll_twice, (hL.withHandle _).latchPending]

/-- A callback emission, with the no-op application. -/
theorem block_callback {c : EventCode} (hq : X.Quiet) (happ : X.params.app = []) (hL : e.Latched) (hn : 3 < n) :
    advance n X.depth ((X.latchAll.put i e tr m).enter ⟨o, i, .then (.callback c) :: rest, l, res⟩) =
      advance (n - 3) X.depth
        ((X.latchAll.put i (e.withCallback c) (tr ++ [.callback i c]) m).enter ⟨o, i, rest, l, res⟩) := by
  rw [Line.then, advance_callback_enter (by omega) (by simp) (by simpa using hq) (by simpa using happ)]
  simp only [put_emitCallback, put_latchAll, latchAll_twice, (hL.withCallback _).latchPending]

/-- The two masks of a close. -/
theorem block_maskEvents (hq : X.Quiet) (hL : e.Latched) (hn : 4 < n) :
    ∃ l' : Locals, advance n X.depth ((X.latchAll.put i e tr m).enter ⟨o, i, maskEvents ++ rest, l, res⟩) =
      advance (n - 4) X.depth
        ((X.latchAll.put i (e.withCR2 (e.regs.cr2 &&& ~~~0x0600))
          (tr ++ rmwCR2 i e.regs.cr2 (e.regs.cr2 &&& ~~~0x0400) ++
            rmwCR2 i (e.regs.cr2 &&& ~~~0x0400) (e.regs.cr2 &&& ~~~0x0600)) m).enter ⟨o, i, rest, l', res⟩) := by
  refine ⟨{ l with w := (e.regs.cr2 &&& ~~~0x0400).setWidth 32 }, ?_⟩
  have hz : e.regs.cr2 &&& ~~~cr2ITBUFEN &&& ~~~cr2ITEVTEN = e.regs.cr2 &&& ~~~0x0600 := by
    rw [BitVec.and_assoc]; congr 1
  rw [maskEvents, List.append_assoc, block_clearCR2 hq hL (by decide) (by omega),
    block_clearCR2 hq (hL.withCR2_and rfl) (by decide) (by omega)]
  simp only [withCR2_cr2, withCR2_withCR2, hz, List.append_assoc]
  rfl

/-- CLOSE_TX (42 R213). -/
theorem block_closeTx (hq : X.Quiet) (hL : e.Latched) (hn : 7 < n) :
    ∃ l' : Locals, advance n X.depth ((X.latchAll.put i e tr m).enter ⟨o, i, closeTx ++ rest, l, res⟩) =
      advance (n - 7) X.depth
        ((X.latchAll.put i
          ((e.withCR2 (e.regs.cr2 &&& ~~~0x0600)).withHandle
            { e.h with txBuffer := 0, txRemaining := 0, transferState := .ready })
          (tr ++ rmwCR2 i e.regs.cr2 (e.regs.cr2 &&& ~~~0x0400) ++
            rmwCR2 i (e.regs.cr2 &&& ~~~0x0400) (e.regs.cr2 &&& ~~~0x0600)) m).enter ⟨o, i, rest, l', res⟩) := by
  have hL' : (e.withCR2 (e.regs.cr2 &&& ~~~0x0600)).Latched := hL.withCR2_and rfl
  obtain ⟨l', h⟩ := block_maskEvents (o := o) (i := i) (e := e) (tr := tr) (m := m) (l := l) (res := res)
    (rest := [.then (.setTxBuffer 0), .then (.setTxRemaining 0), .then (.setState .ready)] ++ rest) hq hL
    (show 4 < n by omega)
  refine ⟨l', ?_⟩
  rw [closeTx, List.append_assoc, h]
  simp only [List.cons_append, List.nil_append]
  rw [block_handle hq hL' (by simp) (by simp) (by omega) rfl,
    block_handle hq (hL'.withHandle _) (by simp) (by simp) (by omega) rfl,
    block_handle hq ((hL'.withHandle _).withHandle _) (by simp) (by simp) (by omega) rfl]
  simp only [handle_eq, put_eng_same, withHandle_withHandle, withHandle_h, withCR2_h]
  rfl

/-- `a <- h.cfg.ackControl; if a == ACK_ENABLE: SetBits(CR1, ACK)`. -/
theorem block_restoreAck (hq : X.Quiet) (hL : e.Latched) (he : e.regs.cr1.getLsbD 0 = true) (hn : 3 < n) :
    ∃ (n' : Nat) (l' : Locals), n - 3 ≤ n' ∧
      advance n X.depth ((X.latchAll.put i e tr m).enter ⟨o, i, restoreAck ++ rest, l, res⟩) =
        advance n' X.depth
          ((X.latchAll.put i (if e.h.cfg.ackControl = .enable then e.withCR1 (e.regs.cr1 ||| 0x0400) else e)
            (tr ++ if e.h.cfg.ackControl = .enable then rmwCR1 i e.regs.cr1 (e.regs.cr1 ||| 0x0400) else []) m).enter
            ⟨o, i, rest, l', res⟩) := by
  have hstep : advance n X.depth ((X.latchAll.put i e tr m).enter ⟨o, i, restoreAck ++ rest, l, res⟩) =
      advance (n - 1) X.depth ((X.latchAll.put i e tr m).enter
        ⟨o, i, (if e.h.cfg.ackControl = .enable then setBits .cr1 cr1ACK else []) ++ rest,
          { l with pol := e.h.cfg.ackControl }, res⟩) := by
    simp only [restoreAck, List.cons_append, List.nil_append]
    rw [advance_quiet_enter (by omega) (by simp) (by simpa using hq) (by simp) (by simp)]
    simp only [perform, Next.go, handle_eq, put_eng_same, put_latchAll, latchAll_twice, hL.latchPending, manageAck]
    split <;> simp [Frame.insert]
  rw [hstep]
  by_cases h : e.h.cfg.ackControl = .enable
  · simp only [h, if_true]
    exact ⟨_, _, by omega, block_setCR1 hq hL he (by decide) (by omega)⟩
  · simp only [h, if_false, List.append_nil, List.nil_append]
    exact ⟨n - 1, _, by omega, rfl⟩

/-- CLOSE_RX (42 R214). -/
theorem block_closeRx (hq : X.Quiet) (hL : e.Latched) (he : e.regs.cr1.getLsbD 0 = true) (hn : 11 < n) :
    ∃ (n' : Nat) (l' : Locals), n - 11 ≤ n' ∧
      (let e' := (e.withCR2 (e.regs.cr2 &&& ~~~0x0600)).withHandle
        { e.h with rxBuffer := 0, rxRemaining := 0, transferState := .ready, rxExpectedTotal := 0 }
       advance n X.depth ((X.latchAll.put i e tr m).enter ⟨o, i, closeRx ++ rest, l, res⟩) =
        advance n' X.depth
          ((X.latchAll.put i (if e.h.cfg.ackControl = .enable then e'.withCR1 (e.regs.cr1 ||| 0x0400) else e')
            (tr ++ rmwCR2 i e.regs.cr2 (e.regs.cr2 &&& ~~~0x0400) ++
              rmwCR2 i (e.regs.cr2 &&& ~~~0x0400) (e.regs.cr2 &&& ~~~0x0600) ++
              if e.h.cfg.ackControl = .enable then rmwCR1 i e.regs.cr1 (e.regs.cr1 ||| 0x0400) else []) m).enter
            ⟨o, i, rest, l', res⟩)) := by
  have hL' : (e.withCR2 (e.regs.cr2 &&& ~~~0x0600)).Latched := hL.withCR2_and rfl
  obtain ⟨l₁, h₁⟩ := block_maskEvents (o := o) (i := i) (e := e) (tr := tr) (m := m) (l := l) (res := res)
    (rest := [.then (.setRxBuffer 0), .then (.setRxRemaining 0), .then (.setState .ready), .then (.setTotal 0)] ++
      (restoreAck ++ rest)) hq hL (show 4 < n by omega)
  obtain ⟨n', l', hn', h₂⟩ := block_restoreAck (X := X) (o := o) (i := i) (m := m) (l := l₁) (res := res) (rest := rest)
    (e := (e.withCR2 (e.regs.cr2 &&& ~~~0x0600)).withHandle
      { e.h with rxBuffer := 0, rxRemaining := 0, transferState := .ready, rxExpectedTotal := 0 })
    (tr := tr ++ rmwCR2 i e.regs.cr2 (e.regs.cr2 &&& ~~~0x0400) ++
      rmwCR2 i (e.regs.cr2 &&& ~~~0x0400) (e.regs.cr2 &&& ~~~0x0600))
    hq (hL'.withHandle _) he (show 3 < n - 8 by omega)
  refine ⟨n', l', by omega, ?_⟩
  rw [closeRx, List.append_assoc, List.append_assoc, h₁]
  simp only [List.cons_append, List.nil_append]
  rw [block_handle hq hL' (by simp) (by simp) (by omega) rfl,
    block_handle hq (hL'.withHandle _) (by simp) (by simp) (by omega) rfl,
    block_handle hq ((hL'.withHandle _).withHandle _) (by simp) (by simp) (by omega) rfl,
    block_handle hq (((hL'.withHandle _).withHandle _).withHandle _) (by simp) (by simp) (by omega) rfl]
  simp only [handle_eq, put_eng_same, withHandle_withHandle, withHandle_h, withCR2_h]
  refine Eq.trans ?_ h₂
  rfl

end Sys2Proof.Machine
end

