-- ==== Sys2Proof/Laws/Step.lean ====
section
/-! SUPPORT. The moves the system is made of, each once: a property that each of them keeps is kept at every boundary and
by every step. -/

namespace Sys2Proof.Machine

/-- A property that every move but a re-initialisation keeps. -/
structure Kept (P : State → Prop) : Prop where
  setTop       : ∀ s f, P s → P (s.setTop f)
  push         : ∀ s f, P s → P (s.push f)
  enter        : ∀ s f, P s → P (s.enter f)
  leave        : ∀ s f, P s → P (s.leave f)
  withInputs   : ∀ s x xs, s.inputs = x :: xs → P s → P (s.withInputs xs)
  withProgram  : ∀ s x xs, s.program = x :: xs → P s → P (s.withProgram xs)
  latchAll     : ∀ s, P s → P s.latchAll
  regRead      : ∀ s i r, P s → P (s.regRead i r)
  regWrite     : ∀ s i r v, P s → P (s.regWrite i r v)
  memRead      : ∀ s a, P s → P (s.memRead a)
  memWrite     : ∀ s a b, P s → P (s.memWrite a b)
  setHandle    : ∀ s i (g : Handle), g.cfg = (s.eng i).h.cfg → g.inst = (s.eng i).h.inst → P s → P (s.setHandle i g)
  emitCallback : ∀ s i c, P s → P (s.emitCallback i c)
  clearPending : ∀ s i k, P s → P (s.setEng i ((s.eng i).clearPending k))
  free         : ∀ s i c, P s → P (s.setEng i ((s.eng i).applyFreeInput c))
  ref          : ∀ s i x, P s → P (s.setEng i ((s.eng i).applyRef x))
  refuse       : ∀ s r, P s → P (s.refuse r)
  fail         : ∀ s e, P s → P (s.fail e)

variable {P : State → Prop} {s t : State}

/-- A micro-step's access keeps it. -/
theorem Kept.perform (hk : Kept P) (hs : P s) {i : Idx} {l l' : Locals} {a : Act} {s' : State}
    (hp : perform i l s a = some (s', l')) : P s' := by
  obtain rfl | ⟨r, rfl⟩ | ⟨r, v, rfl, -⟩ | ⟨q, m, ⟨-, rfl⟩ | ⟨-, rfl⟩⟩ | ⟨p, rfl, -⟩ | ⟨p, b, rfl, -⟩ |
    ⟨g, rfl, hg, hg'⟩ | ⟨c, -, rfl⟩ := perform_cases _ _ _ hp
  · exact hs
  · exact hk.regRead _ _ _ hs
  · exact hk.regWrite _ _ _ _ hs
  · exact hk.regWrite _ _ _ _ hs
  · exact hk.regWrite _ _ _ _ hs
  · exact hk.memRead _ _ hs
  · exact hk.memWrite _ _ _ hs
  · exact hk.setHandle _ _ _ hg hg' hs
  · exact hk.emitCallback _ _ _ hs

/-- The running context's micro-step keeps it. -/
theorem Kept.contextStep (hk : Kept P) (hs : P s) : P (contextStep s) := by
  refine contextStep_keeps hs (fun f _ _ => hk.leave s f hs) ?_ ?_ ?_
  · intro f nx rest _ _
    obtain h | ⟨e, h⟩ | ⟨g, -, h | ⟨w, g', -, h⟩ | ⟨p, -, h⟩ | ⟨p, b, -, h⟩ | h | ⟨w, h⟩⟩ := appStep_cases s f <;> rw [h]
    · exact hs
    · exact hk.refuse _ _ hs
    · exact hk.setTop _ _ hs
    · exact hk.push _ _ (hk.setTop _ _ hs)
    · exact hk.setTop _ _ (hk.memRead _ _ hs)
    · exact hk.setTop _ _ (hk.memWrite _ _ _ hs)
    · exact hk.setTop _ _ (hk.regRead _ _ _ hs)
    · exact hk.setTop _ _ (hk.regWrite _ _ _ _ hs)
  · intro f x rest s' l f' _ _ hp _
    have ht := hk.setTop s' f' (hk.perform hs hp)
    unfold State.callAfter
    split
    · exact hk.push _ _ ht
    · exact ht
  · intro f x rest s' l e _ _ hp _
    exact hk.fail _ _ (hk.perform hs hp)

/-- Every boundary keeps it. -/
theorem Kept.tick (hk : Kept P)
    (hr : ∀ i l xs, s.inputs = .reinit i l :: xs → s.quietFor i = true → P ((s.withInputs xs).reinit i l))
    (hs : P s) : P (tick s) := by
  refine tick_keeps (fun u hu => hk.latchAll u hu) (fun x xs hi => hk.withInputs s x xs hi hs) ?_ ?_ ?_ ?_ ?_
  · rintro xs (hi | ⟨hi, rfl⟩)
    · exact hk.contextStep (hk.withInputs s _ xs hi hs)
    · have : s.withInputs [] = s := by cases s; simp_all [State.withInputs]
      rw [this]
      exact hk.contextStep hs
  · intro i c xs hi
    exact hk.free _ i c (hk.withInputs s _ xs hi hs)
  · intro i x xs hi
    exact hk.ref _ i x (hk.withInputs s _ xs hi hs)
  · intro xs hi
    have hu := hk.withInputs s _ xs hi hs
    obtain hn | ⟨k, i, hn⟩ := nextInterrupt_cases (s.withInputs xs)
    · rw [dispatch_none hn]; exact hu
    · rw [dispatch_some hn]; exact hk.enter _ _ (hk.clearPending _ _ _ hu)
  · intro i l xs hi
    unfold State.reinitInput
    split
    · next hq => exact hr i l xs hi hq
    · exact hk.refuse _ _ (hk.withInputs s _ xs hi hs)

/-- Every step keeps it. -/
theorem Kept.step (hk : Kept P)
    (hr : ∀ s, P s → ∀ i l xs, s.inputs = .reinit i l :: xs → s.quietFor i = true → P ((s.withInputs xs).reinit i l))
    (hs : P s) (h : step s = .next t) : P t :=
  step_keeps (fun u hu => hk.tick (hr u hu) hu) (fun u x xs hu hi => hk.withInputs u x xs hi hu)
    (fun u w ws hu hp => hk.withProgram u w ws hp hu) (fun u _ f hu _ => hk.push u f hu) hs h

/-- Two properties kept are kept together. -/
theorem Kept.and {P' : State → Prop} (h : Kept P) (h' : Kept P') : Kept fun s => P s ∧ P' s where
  setTop s f hs := ⟨h.setTop s f hs.1, h'.setTop s f hs.2⟩
  push s f hs := ⟨h.push s f hs.1, h'.push s f hs.2⟩
  enter s f hs := ⟨h.enter s f hs.1, h'.enter s f hs.2⟩
  leave s f hs := ⟨h.leave s f hs.1, h'.leave s f hs.2⟩
  withInputs s x xs hx hs := ⟨h.withInputs s x xs hx hs.1, h'.withInputs s x xs hx hs.2⟩
  withProgram s x xs hx hs := ⟨h.withProgram s x xs hx hs.1, h'.withProgram s x xs hx hs.2⟩
  latchAll s hs := ⟨h.latchAll s hs.1, h'.latchAll s hs.2⟩
  regRead s i r hs := ⟨h.regRead s i r hs.1, h'.regRead s i r hs.2⟩
  regWrite s i r v hs := ⟨h.regWrite s i r v hs.1, h'.regWrite s i r v hs.2⟩
  memRead s a hs := ⟨h.memRead s a hs.1, h'.memRead s a hs.2⟩
  memWrite s a b hs := ⟨h.memWrite s a b hs.1, h'.memWrite s a b hs.2⟩
  setHandle s i g hc hi hs := ⟨h.setHandle s i g hc hi hs.1, h'.setHandle s i g hc hi hs.2⟩
  emitCallback s i c hs := ⟨h.emitCallback s i c hs.1, h'.emitCallback s i c hs.2⟩
  clearPending s i k hs := ⟨h.clearPending s i k hs.1, h'.clearPending s i k hs.2⟩
  free s i c hs := ⟨h.free s i c hs.1, h'.free s i c hs.2⟩
  ref s i x hs := ⟨h.ref s i x hs.1, h'.ref s i x hs.2⟩
  refuse s r hs := ⟨h.refuse s r hs.1, h'.refuse s r hs.2⟩
  fail s e hs := ⟨h.fail s e hs.1, h'.fail s e hs.2⟩

/-- A property of each engine is kept if every access and every controller's step of that engine keeps it. -/
theorem Kept.ofEngine {Q : Idx → Engine → Prop} (latch : ∀ i e, Q i e → Q i e.latchPending)
    (read : ∀ i e r, Q i e → Q i (e.afterRead r)) (write : ∀ i e r v, Q i e → Q i (e.afterWrite v r))
    (handle : ∀ i e (g : Handle), g.cfg = e.h.cfg → g.inst = e.h.inst → Q i e → Q i { e with h := g })
    (callback : ∀ i e c, Q i e → Q i { e with cbTrace := e.cbTrace ++ [c] })
    (clear : ∀ i e k, Q i e → Q i (e.clearPending k)) (free : ∀ i e c, Q i e → Q i (e.applyFreeInput c))
    (ref : ∀ i e x, Q i e → Q i (e.applyRef x)) : Kept fun s => ∀ i, Q i (s.eng i) := by
  have set : ∀ (s : State) i e, (∀ j, Q j (s.eng j)) → Q i e → ∀ j, Q j ((s.setEng i e).eng j) := by
    intro s i e hs he j
    rw [eng_setEng]
    split
    · next h => subst h; exact he
    · exact hs j
  exact {
    setTop := fun s f hs j => by rw [setTop_eng]; exact hs j
    push := fun s f hs j => by rw [push_eng]; exact hs j
    enter := fun s f hs j => hs j
    leave := fun s f hs j => by rw [leave_eng]; exact hs j
    withInputs := fun s x xs _ hs j => hs j
    withProgram := fun s x xs _ hs j => hs j
    latchAll := fun s hs j => by rw [latchAll_eng]; exact latch j _ (hs j)
    regRead := fun s i r hs => set s i _ hs (read i _ r (hs i))
    regWrite := fun s i r v hs => set s i _ hs (write i _ r v (hs i))
    memRead := fun s a hs j => hs j
    memWrite := fun s a b hs j => hs j
    setHandle := fun s i g hc hi hs => set s i _ hs (handle i _ g hc hi (hs i))
    emitCallback := fun s i c hs => set s i _ hs (callback i _ c (hs i))
    clearPending := fun s i k hs => set s i _ hs (clear i _ k (hs i))
    free := fun s i c hs => set s i _ hs (free i _ c (hs i))
    ref := fun s i x hs => set s i _ hs (ref i _ x (hs i))
    refuse := fun s r hs j => hs j
    fail := fun s e hs j => hs j }

/-- No move writes a parameter of the run. -/
theorem Kept.params (p : Params) : Kept fun s => s.params = p := by
  constructor <;> intro s <;> intros <;> simp_all [State.setHandle, State.emitCallback]

/-- The inputs only get fewer. -/
theorem Kept.inputs {Q : Input → Prop} : Kept fun s => ∀ x ∈ s.inputs, Q x := by
  constructor <;> intro s
  case withInputs => intro x xs hx hs y hy; exact hs y (by rw [hx]; exact List.mem_cons_of_mem _ hy)
  all_goals (intros; simp_all [State.setHandle, State.emitCallback])

/-! ## Buffer accesses -/

/-- What a frame does next is an access at `a` exactly if `bufferAddr` gives `a`. -/
theorem accesses_iff_bufferAddr {f : Frame} {s : State} {a : Word} : f.Accesses s a ↔ f.bufferAddr s = some a := by
  obtain ⟨o, i, lines, l, res⟩ := f
  cases lines with
  | nil => simp [Frame.Accesses, Frame.bufferAddr]
  | cons x rest =>
    obtain ⟨act, nx⟩ := x
    cases act
    case app =>
      simp only [Frame.Accesses, Frame.bufferAddr]
      constructor
      · rintro ⟨x, r, he, h⟩
        cases he
        simp only [reduceCtorEq, false_or, or_false, and_false, true_and] at h
        obtain ⟨e, g, h1, ⟨k, hc⟩ | ⟨b, hc⟩⟩ := h <;> rw [hc] <;> simp only [h1]
      · intro h
        refine ⟨_, _, rfl, .inr (.inr (.inr ⟨rfl, ?_⟩))⟩
        split at h <;> rename_i hc <;> simp only [Option.some.injEq, reduceCtorEq] at h
        · exact ⟨_, _, h, .inl ⟨_, hc⟩⟩
        · exact ⟨_, _, h, .inr ⟨_, hc⟩⟩
    all_goals simp [Frame.Accesses, Frame.bufferAddr, eq_comm]

/-- A frame is stuck exactly if what it does next is an access that `BUF_OK` rejects (20 R71). -/
theorem stuck_iff {f : Frame} {s : State} : f.stuck s = true ↔ ∃ a, f.Accesses s a ∧ s.params.bufferOk a = false := by
  simp only [accesses_iff_bufferAddr, Frame.stuck]
  cases f.bufferAddr s <;> simp

end Sys2Proof.Machine
end

