-- ==== Sys2Proof/Laws/Pair.lean ====
section
/-! SUPPORT. Two runs of the same lines under the same controllers' steps. A blocking transfer run twice, from states and
frames that differ in nothing its lines look at, makes the same accesses and ends in the same way; and MEM_READ of a 1-byte
memory address runs as the transmit of that byte from caller memory and then the receive (41 R188). -/

namespace Sys2Proof.Machine

variable {X Y X0 : State} {i : Idx} {d n : Nat} {l m : Locals} {res : Result}

/-! ## States alike -/

/-- Two unmarked states that agree on the engines, caller memory, the parameters, and the register accesses so far. -/
structure Alike (X Y : State) : Prop where
  engines  : Y.engines = X.engines
  mem      : Y.mem = X.mem
  params   : Y.params = X.params
  accesses : registerAccesses Y.trace = registerAccesses X.trace
  wireSame : wire Y.trace = wire X.trace
  left     : X.Unmarked
  right    : Y.Unmarked

theorem Alike.eng (h : Alike X Y) (j : Idx) : Y.eng j = X.eng j := by simp only [State.eng, h.engines]

theorem Alike.byteAt (h : Alike X Y) (a : Word) : Y.byteAt a = X.byteAt a := by simp only [State.byteAt, h.mem]

theorem Alike.latchAll (h : Alike X Y) : Alike X.latchAll Y.latchAll :=
  ⟨by simp only [State.latchAll, h.engines], h.mem, h.params, h.accesses, h.wireSame, h.left, h.right⟩

/-- The right state may make a boundary of its own once it is latched. -/
theorem Alike.latchRight (h : Alike X Y) (hL : Y.latchAll.engines = Y.engines) : Alike X Y.latchAll :=
  ⟨hL.trans h.engines, h.mem, h.params, h.accesses, h.wireSame, h.left, h.right⟩

theorem Alike.withInputs (h : Alike X Y) (xs ys : List Input) : Alike (X.withInputs xs) (Y.withInputs ys) :=
  ⟨h.engines, h.mem, h.params, h.accesses, h.wireSame, h.left, h.right⟩

theorem Alike.setEng (h : Alike X Y) (i : Idx) (e : Engine) : Alike (X.setEng i e) (Y.setEng i e) :=
  ⟨by simp only [State.setEng, h.engines], h.mem, h.params, h.accesses, h.wireSame, h.left, h.right⟩

theorem registerAccesses_append (xs ys : List Event) :
    registerAccesses (xs ++ ys) = registerAccesses xs ++ registerAccesses ys := List.filter_append ..

theorem wire_append (xs ys : List Event) : wire (xs ++ ys) = wire xs ++ wire ys := List.filterMap_append ..

theorem controllerSteps_cons (y : Input) (ys : List Input) :
    controllerSteps (y :: ys) = controllerSteps [y] ++ controllerSteps ys := by
  simp only [controllerSteps, List.filter_cons, List.filter_nil]
  split <;> rfl

theorem Alike.emit (h : Alike X Y) (e : Event) : Alike (X.emit e) (Y.emit e) :=
  ⟨h.engines, h.mem, h.params, by simp only [emit_trace, registerAccesses_append, h.accesses],
    by simp only [emit_trace, wire_append, h.wireSame], h.left, h.right⟩

/-- An event that is no register access, on either side. -/
theorem Alike.emitRight (h : Alike X Y) (e : Event) (h1 : registerAccesses [e] = []) (h2 : wire [e] = []) :
    Alike X (Y.emit e) :=
  ⟨h.engines, h.mem, h.params, by simp only [emit_trace, registerAccesses_append, h.accesses, h1, List.append_nil],
    by simp only [emit_trace, wire_append, h.wireSame, h2, List.append_nil], h.left, h.right⟩

theorem Alike.emitLeft (h : Alike X Y) (e : Event) (h1 : registerAccesses [e] = []) (h2 : wire [e] = []) :
    Alike (X.emit e) Y :=
  ⟨h.engines, h.mem, h.params, by simp only [emit_trace, registerAccesses_append, h.accesses, h1, List.append_nil],
    by simp only [emit_trace, wire_append, h.wireSame, h2, List.append_nil], h.left, h.right⟩

theorem Alike.regRead (h : Alike X Y) (i : Idx) (r : Reg) : Alike (X.regRead i r) (Y.regRead i r) := by
  simp only [State.regRead, h.eng]
  exact (h.setEng _ _).emit _

theorem Alike.regWrite (h : Alike X Y) (i : Idx) (r : Reg) (v : Word) :
    Alike (X.regWrite i r v) (Y.regWrite i r v) := by
  simp only [State.regWrite, h.eng]
  exact (h.setEng _ _).emit _

theorem Alike.memRead (h : Alike X Y) (a : Word) : Alike (X.memRead a) (Y.memRead a) := by
  simp only [State.memRead, h.byteAt]
  exact h.emit _

theorem Alike.memWrite (h : Alike X Y) (a : Word) (b : Byte) : Alike (X.memWrite a b) (Y.memWrite a b) := by
  have h' : Alike ({ X with mem := Memory.write X.mem a.toNat b } : State)
      ({ Y with mem := Memory.write Y.mem a.toNat b } : State) :=
    ⟨h.engines, by simp only [h.mem], h.params, h.accesses, h.wireSame, h.left, h.right⟩
  exact h'.emit _

theorem Alike.controllerStep (h : Alike X Y) (i : Idx) (f : Engine → Engine) :
    Alike (X.controllerStep i f) (Y.controllerStep i f) := by
  simp only [State.controllerStep, h.eng]
  exact h.setEng _ _

/-! ## The lines of a blocking transfer -/

/-- A line of a blocking transfer. `hw` and `hb` say that the line before has just read the local `w`, or `b`; `hw'` and
`hb'` that this one has. No line looks at a local that neither it nor the line before has read. -/
inductive BlockingLine : Bool → Bool → Line → Bool → Bool → Prop
  | readW {hw hb r} : BlockingLine hw hb ⟨.readW r, .straight⟩ true false
  | writeOr {hb r m} : BlockingLine true hb ⟨.writeOr r m, .straight⟩ false false
  | writeAndNot {hb r m} : BlockingLine true hb ⟨.writeAndNot r m, .straight⟩ false false
  | readDR {hw hb} : BlockingLine hw hb ⟨.readDR, .straight⟩ false true
  | memReadAt {hw hb a} : BlockingLine hw hb ⟨.memReadAt a, .straight⟩ false true
  | memWriteAt {hw a} : BlockingLine hw true ⟨.memWriteAt a, .straight⟩ false false
  | memWriteRx {hw a b k sr} : BlockingLine hw true ⟨.memWriteAt a, .rxMore b k sr⟩ false false
  | writeDRLocal {hw src k sr} : BlockingLine hw true ⟨.writeDRLocal, .txMore src k sr⟩ false false
  | writeDR {hw hb b} : BlockingLine hw hb ⟨.writeDR b, .straight⟩ false false
  | writeDRTx {hw hb b src k sr} : BlockingLine hw hb ⟨.writeDR b, .txMore src k sr⟩ false false
  | readSR1 {hw hb} : BlockingLine hw hb ⟨.readSR1, .straight⟩ false false
  | poll {hw hb m k rx} : BlockingLine hw hb ⟨.readSR1, .poll m k (.abort rx)⟩ false false
  | readSR2 {hw hb} : BlockingLine hw hb ⟨.readSR2, .straight⟩ false false
  | ackOffIfRx {hw hb} : BlockingLine hw hb ⟨.getState, .ackOffIfRx⟩ false false
  | busy {hw hb} : BlockingLine hw hb ⟨.getState, .busyIfNotReady⟩ false false
  | total {hw hb} : BlockingLine hw hb ⟨.getTotal, .ackOffIfOne⟩ false false
  | policy {hw hb} : BlockingLine hw hb ⟨.getPolicy, .ackOnIfPolicy⟩ false false
  | writeSR1 {hw hb v} : BlockingLine hw hb ⟨.writeSR1 v, .straight⟩ false false

/-- Lines of a blocking transfer, after a line that has read `w` or `b` as `hw` and `hb` say. -/
inductive BlockingLines : Bool → Bool → List Line → Prop
  | nil {hw hb} : BlockingLines hw hb []
  | cons {hw hb : Bool} {x : Line} {hw' hb' : Bool} {rest : List Line} :
      BlockingLine hw hb x hw' hb' → BlockingLines hw' hb' rest → BlockingLines hw hb (x :: rest)

variable {hw hb hw' hb' : Bool} {x : Line} {rest : List Line}

theorem BlockingLines.mono {ls : List Line} (h : BlockingLines false false ls) : BlockingLines hw hb ls := by
  cases h with
  | nil => exact .nil
  | cons h1 h2 => exact .cons (by cases h1 <;> constructor) h2

theorem BlockingLines.append {ls ms : List Line} (h : BlockingLines hw hb ls) (hm : BlockingLines false false ms) :
    BlockingLines hw hb (ls ++ ms) := by
  induction h with
  | nil => exact hm.mono
  | cons h1 _ ih => exact .cons h1 ih

theorem blocking_setBits (r : RmwReg) (k : Half) : BlockingLines hw hb (setBits r k) := .cons .readW (.cons .writeOr .nil)

theorem blocking_clearBits (r : RmwReg) (k : Half) : BlockingLines hw hb (clearBits r k) :=
  .cons .readW (.cons .writeAndNot .nil)

theorem blocking_manageAck (en : Bool) : BlockingLines hw hb (manageAck en) := by
  cases en
  · exact blocking_clearBits _ _
  · exact blocking_setBits _ _

theorem blocking_genStopUnless (sr : Bool) : BlockingLines hw hb (genStopUnless sr) := by
  cases sr
  · exact blocking_setBits _ _
  · exact .nil

theorem blocking_waitFlags (k : Half) (rx : Bool) : BlockingLines hw hb (waitFlags k (.abort rx)) := .cons .poll .nil

theorem blocking_clearAddr : BlockingLines hw hb clearAddr := .cons .ackOffIfRx (.cons .readSR1 (.cons .readSR2 .nil))

theorem blocking_restoreAck : BlockingLines hw hb restoreAck := .cons .policy .nil

theorem blocking_entry (addr : Byte) (dir : Dir) (rx : Bool) :
    BlockingLines hw hb (entryCheck ++ addressPhase addr dir rx) :=
  .cons .busy (.cons .readW (.cons .writeOr (.cons .poll (.cons .writeDR (.cons .poll .nil)))))

theorem blocking_txLoop (src : Src) (k : Word) (sr : Bool) : BlockingLines false false (txLoop src k sr) := by
  unfold txLoop
  split
  · exact (blocking_waitFlags _ _).append (blocking_genStopUnless sr)
  · cases src with
    | mem p => exact .cons .poll (.cons .memReadAt (.cons .writeDRLocal .nil))
    | scratch bytes => exact .cons .poll (.cons .writeDRTx .nil)

theorem blocking_rxLoop (p k : Word) (sr : Bool) : BlockingLines false false (rxLoop p k sr) := by
  unfold rxLoop
  split
  · exact .nil
  · refine BlockingLines.append ((blocking_waitFlags _ _).append ?_) (.cons .readDR (.cons .memWriteRx .nil))
    split
    · exact (blocking_manageAck false).append (blocking_genStopUnless sr)
    · exact .nil

theorem blocking_abort (st : Status) (e : Word) (rx : Bool) : BlockingLines false false (abortBlocking st e rx) := by
  unfold abortBlocking
  refine BlockingLines.append ?_ ?_
  · split
    · refine .cons .writeSR1 ?_
      split
      · exact blocking_setBits _ _
      · exact .nil
    · exact .nil
  · cases rx
    · exact .nil
    · exact blocking_restoreAck

theorem blocking_masterTx (src : Src) (len : Word) (addr : Byte) (sr : Bool) :
    BlockingLines false false (masterTx src len addr sr) :=
  BlockingLines.append ((blocking_entry _ _ _).append blocking_clearAddr) (blocking_txLoop _ _ _)

theorem blocking_masterRx (buf len : Word) (addr : Byte) (sr : Bool) :
    BlockingLines false false (masterRx buf len addr sr) := by
  refine BlockingLines.append ((blocking_entry _ _ _).append ?_) blocking_restoreAck
  unfold rxBytes
  split
  · exact ((((blocking_manageAck false).append blocking_clearAddr).append (blocking_waitFlags _ _)).append
      (blocking_genStopUnless _)).append (.cons .readDR (.cons .memWriteAt .nil))
  · exact blocking_clearAddr.append (blocking_rxLoop _ _ _)

/-- How a blocking transfer goes on after a line: with more lines before those that follow, or to its end with other
lines and a status. -/
def blockingOutcome (p : Params) (l : Locals) : Next → List Line ⊕ (List Line × Status)
  | .poll mask k (.abort rx) =>
    if l.v &&& mask.setWidth 32 = mask.setWidth 32 then .inl []
    else if p.propagateBusErrors && sampled l.v errMask then
      .inr (abortBlocking .error (l.v &&& errMask.setWidth 32) rx, .error)
    else if p.expired (k + 1) then .inr (abortBlocking .timeout 0 rx, .timeout)
    else .inl [⟨.readSR1, .poll mask (k + 1) (.abort rx)⟩]
  | .ackOffIfRx => .inl (if l.s = .busyRx then [⟨.getTotal, .ackOffIfOne⟩] else [])
  | .ackOffIfOne => .inl (if l.t = 1 then clearBits .cr1 cr1ACK else [])
  | .busyIfNotReady => if l.s = .ready then .inl [] else .inr ([], .busy)
  | .txMore src n sr => .inl (txLoop src n sr)
  | .rxMore b k sr => .inl (rxLoop b k sr)
  | .ackOnIfPolicy => .inl (if l.pol = .enable then manageAck true else [])
  | .straight => .inl []
  -- no line of a blocking transfer
  | .poll _ _ .result => .inl []
  | .rejectIfBusy => .inl []
  | .sbEvent => .inl []
  | .sbByState => .inl []
  | .addrEvent => .inl []
  | .btfEvent => .inl []
  | .btfByState => .inl []
  | .btfIfNoneLeft => .inl []
  | .btfFinish => .inl []
  | .stopfEvent => .inl []
  | .txeEvent => .inl []
  | .txeByRole => .inl []
  | .txeByState => .inl []
  | .txeIfMore => .inl []
  | .rxneEvent => .inl []
  | .rxneByRole => .inl []
  | .rxneByState => .inl []
  | .rxneByte => .inl []
  | .rxneIfNoneLeft => .inl []
  | .rxneFinish => .inl []
  | .errEvent _ _ => .inl []

/-- The frame after an outcome. -/
def Frame.afterOutcome (f : Frame) : List Line ⊕ (List Line × Status) → Frame
  | .inl more => f.insert more
  | .inr (ls, st) => { f with lines := ls, result := .status st }

/-- A blocking line goes on by its outcome. -/
theorem go_blockingOutcome (h : BlockingLine hw hb x hw' hb') (p : Params) (f : Frame) :
    x.next.go p f = .ok (f.afterOutcome (blockingOutcome p f.loc x.next)) := by
  cases h <;> simp only [Next.go, blockingOutcome, Frame.afterOutcome, Frame.pollStep, Frame.pollFailed]
  case poll =>
    split
    · simp only [Frame.insert, List.nil_append]
    · split
      · rfl
      · split <;> rfl
  case busy => split <;> rfl
  case ackOffIfRx | total | policy => split <;> simp only [Frame.insert, List.nil_append]
  all_goals simp only [Frame.insert, List.nil_append]

/-- The lines an outcome adds are blocking lines again, and one that ends the transfer has a status other than OK. -/
theorem blockingOutcome_lines (h : BlockingLine hw hb x hw' hb') (p : Params) (l : Locals) :
    (∃ more, blockingOutcome p l x.next = .inl more ∧
      ∀ rest, BlockingLines hw' hb' rest → BlockingLines hw' hb' (more ++ rest)) ∨
    ∃ ls st, blockingOutcome p l x.next = .inr (ls, st) ∧ BlockingLines false false ls ∧ st ≠ .ok := by
  cases h <;> simp only [blockingOutcome] <;> try exact .inl ⟨_, rfl, fun _ h => h⟩
  case poll =>
    split
    · exact .inl ⟨_, rfl, fun _ h => h⟩
    · split
      · exact .inr ⟨_, _, rfl, blocking_abort _ _ _, by decide⟩
      · split
        · exact .inr ⟨_, _, rfl, blocking_abort _ _ _, by decide⟩
        · exact .inl ⟨_, rfl, fun _ h => .cons .poll h⟩
  case busy =>
    split
    · exact .inl ⟨_, rfl, fun _ h => h⟩
    · exact .inr ⟨_, _, rfl, .nil, by decide⟩
  case memWriteRx => exact .inl ⟨_, rfl, fun _ h => (blocking_rxLoop _ _ _).append h⟩
  case writeDRLocal | writeDRTx => exact .inl ⟨_, rfl, fun _ h => (blocking_txLoop _ _ _).append h⟩
  case ackOffIfRx =>
    refine .inl ⟨_, rfl, fun _ h => BlockingLines.append ?_ h⟩
    split
    · exact .cons .total .nil
    · exact .nil
  case total =>
    refine .inl ⟨_, rfl, fun _ h => BlockingLines.append ?_ h⟩
    split
    · exact blocking_clearBits _ _
    · exact .nil
  case policy =>
    refine .inl ⟨_, rfl, fun _ h => BlockingLines.append ?_ h⟩
    split
    · exact blocking_manageAck true
    · exact .nil

/-! ## One boundary of each run -/

/-- One micro-step of the same line from states alike: neither has a step, or both have, to states alike, with the same
outcome. -/
theorem perform_alike (h : BlockingLine hw hb x hw' hb') (hA : Alike X Y) {l' : Locals} (h1 : hw = true → l'.w = l.w)
    (h2 : hb = true → l'.b = l.b) :
    (perform i l X x.act = none ∧ perform i l' Y x.act = none) ∨
    ∃ X' Y' m m', perform i l X x.act = some (X', m) ∧ perform i l' Y x.act = some (Y', m') ∧ Alike X' Y' ∧
      (∀ p, blockingOutcome p m' x.next = blockingOutcome p m x.next) ∧ (hw' = true → m'.w = m.w) ∧
      (hb' = true → m'.b = m.b) := by
  cases h <;> simp only [perform]
  case memReadAt =>
    simp only [hA.params]
    split
    · exact .inr ⟨_, _, _, _, rfl, rfl, hA.memRead _, fun _ => rfl, by simp, fun _ => hA.byteAt _⟩
    · exact .inl ⟨rfl, rfl⟩
  case memWriteAt | memWriteRx =>
    simp only [hA.params, h2 rfl]
    split
    · exact .inr ⟨_, _, _, _, rfl, rfl, hA.memWrite _ _, fun _ => rfl, by simp, by simp⟩
    · exact .inl ⟨rfl, rfl⟩
  case readW =>
    exact .inr ⟨_, _, _, _, rfl, rfl, hA.regRead _ _, fun _ => rfl, fun _ => by simp only [hA.eng], by simp⟩
  case readDR =>
    exact .inr ⟨_, _, _, _, rfl, rfl, hA.regRead _ _, fun _ => rfl, by simp, fun _ => by simp only [hA.eng]⟩
  case writeOr | writeAndNot =>
    simp only [h1 rfl]
    exact .inr ⟨_, _, _, _, rfl, rfl, hA.regWrite _ _ _, fun _ => rfl, by simp, by simp⟩
  case writeDRLocal =>
    simp only [h2 rfl]
    exact .inr ⟨_, _, _, _, rfl, rfl, hA.regWrite _ _ _, fun _ => rfl, by simp, by simp⟩
  case readSR1 | readSR2 => exact .inr ⟨_, _, _, _, rfl, rfl, hA.regRead _ _, fun _ => rfl, by simp, by simp⟩
  case poll =>
    exact .inr ⟨_, _, _, _, rfl, rfl, hA.regRead _ _, fun _ => by simp only [blockingOutcome, hA.eng], by simp, by simp⟩
  case writeDR | writeDRTx | writeSR1 =>
    exact .inr ⟨_, _, _, _, rfl, rfl, hA.regWrite _ _ _, fun _ => rfl, by simp, by simp⟩
  case ackOffIfRx | busy | total | policy =>
    refine .inr ⟨_, _, _, _, rfl, rfl, hA, fun _ => ?_, by simp, by simp⟩
    simp only [blockingOutcome, State.handle, hA.eng]
    congr

/-- The input of a boundary: a controller's step, or the running context's own, with the inputs then left. -/
inductive Boundary (X : State) : Option Input → State → Prop
  | run {xs} : X.inputs = .run :: xs → Boundary X none (X.withInputs xs)
  | quiet : X.inputs = [] → Boundary X none X
  | controller {y xs} : X.inputs = y :: xs → y ≠ .run → Boundary X (some y) (X.withInputs xs)

theorem boundary_exists (X : State) : ∃ o X0, Boundary X o X0 := by
  cases h : X.inputs with
  | nil => exact ⟨_, _, .quiet h⟩
  | cons y xs =>
    by_cases hy : y = .run
    · subst hy; exact ⟨_, _, .run h⟩
    · exact ⟨_, _, .controller h hy⟩

/-- A step of a controller. -/
def Input.OfController (y : Input) : Prop := (∃ i c, y = .free i c) ∨ ∃ i r, y = .ref i r

/-- What a boundary leaves to come, where only controllers move beside the running context. -/
theorem Boundary.left {o : Option Input} (h : Boundary X o X0) (hc : X.ControllersOnly) :
    X0.ControllersOnly ∧ (∀ y, o = some y → y.OfController) ∧
      controllerSteps X.inputs = o.toList ++ controllerSteps X0.inputs ∧ X0.depth = X.depth ∧
      ∀ Y, Alike X Y → Alike X0 Y := by
  cases h with
  | @run xs h =>
    exact ⟨fun y hy => hc y (by rw [h]; exact List.mem_cons_of_mem _ hy), by simp, by simp [h, controllerSteps], rfl,
      fun Y hY => hY.withInputs xs Y.inputs⟩
  | quiet h => exact ⟨hc, by simp, by simp, rfl, fun Y hY => hY⟩
  | @controller y xs h hy =>
    refine ⟨fun z hz => hc z (by rw [h]; exact List.mem_cons_of_mem _ hz), ?_, by simp [h, controllerSteps, hy], rfl,
      fun Y hY => hY.withInputs xs Y.inputs⟩
    rintro z ⟨⟩
    exact (hc y (by rw [h]; simp)).resolve_left hy

/-- What a controller's step does. -/
def controllerInput (y : Input) (X : State) : State :=
  match y with
  | .free i c => if i < X.params.nInst then X.controllerStep i (Engine.applyFreeInput c) else X
  | .ref i r => if i < X.params.nInst then X.controllerStep i (Engine.applyRef r) else X
  | .run => X
  | .dispatch => X
  | .reinit _ _ => X

theorem tick_controller {y : Input} {xs : List Input} {f : Frame} (h : X.inputs = y :: xs) (hy : y.OfController) :
    tick (X.push f) = (controllerInput y (X.withInputs xs)).latchAll.push f := by
  have h' : (X.push f).inputs = y :: xs := by simpa using h
  rcases hy with ⟨i, c, rfl⟩ | ⟨i, c, rfl⟩ <;> simp only [tick, h', applyInput, controllerInput] <;>
    by_cases hn : i < X.params.nInst <;> simp [hn, State.controllerStep]

theorem Alike.controllerInput (h : Alike X Y) (y : Input) : Alike (controllerInput y X) (controllerInput y Y) := by
  unfold Machine.controllerInput
  cases y <;> simp only [h.params] <;> first | exact h | (split <;> first | exact h.controllerStep _ _ | exact h)

theorem controllerInput_keeps (y : Input) (X : State) :
    (controllerInput y X).inputs = X.inputs ∧ (controllerInput y X).depth = X.depth ∧
      (controllerInput y X).params = X.params ∧ (controllerInput y X).mem = X.mem := by
  unfold controllerInput
  cases y <;> first | exact ⟨rfl, rfl, rfl, rfl⟩ | (simp only; split <;> exact ⟨rfl, rfl, rfl, rfl⟩)

theorem controllerInput_withInputs (y : Input) (X : State) (xs : List Input) :
    controllerInput y (X.withInputs xs) = (controllerInput y X).withInputs xs := by
  unfold controllerInput
  cases y <;> simp only [withInputs_params] <;> first | rfl | (split <;> rfl)

/-- A blocking line is neither the application's step nor a callback emission. -/
theorem BlockingLine.plain (h : BlockingLine hw hb x hw' hb') : x.act ≠ .app ∧ ∀ c, x.act ≠ .callback c := by
  cases h <;> exact ⟨by simp, by simp⟩

/-- The running context's own boundary. -/
theorem tick_own (hb0 : Boundary X none X0) (f : Frame) : tick (X.push f) = (contextStep (X0.push f)).latchAll := by
  cases hb0 with
  | run h => rw [tick_run (by simpa using h), push_withInputs]
  | quiet h => rw [tick_quiet (by simpa using h)]

theorem tick_line {X' : State} {o : Owner} (hf : BlockingLine hw hb x hw' hb') (h0 : Boundary X none X0)
    (hp : perform i l X0 x.act = some (X', m)) :
    tick (X.push ⟨o, i, x :: rest, l, res⟩) =
      X'.latchAll.push ((⟨o, i, rest, m, res⟩ : Frame).afterOutcome (blockingOutcome X.params m x.next)) := by
  have hX0 : X0.params = X.params := by cases h0 <;> rfl
  have hg := go_blockingOutcome hf X0.params ⟨o, i, rest, m, res⟩
  rw [hX0] at hg
  obtain ⟨a, nx⟩ := x
  rw [tick_own h0, contextStep_push hf.plain.1 hf.plain.2, hp]
  simp only [hX0, hg, push_latchAll]

theorem tick_line_stuck {o : Owner} (hf : BlockingLine hw hb x hw' hb') (h0 : Boundary X none X0)
    (hp : perform i l X0 x.act = none) :
    tick (X.push ⟨o, i, x :: rest, l, res⟩) = X0.latchAll.push ⟨o, i, x :: rest, l, res⟩ := by
  obtain ⟨a, nx⟩ := x
  rw [tick_own h0, contextStep_push hf.plain.1 hf.plain.2, hp, push_latchAll]

theorem tick_return {mn : Mnemonic} (h0 : Boundary X none X0) :
    tick (X.push ⟨.command mn, i, [], l, res⟩) = (X0.emit (.result i mn res)).latchAll := by
  rw [tick_own h0]
  simp [contextStep, frameStep, State.leave]

theorem perform_withInputs (i : Idx) (l : Locals) (Y : State) (zs : List Input) (a : Act) :
    perform i l (Y.withInputs zs) a = (perform i l Y a).map fun r => (r.1.withInputs zs, r.2) := by
  cases a <;> simp only [perform, Option.map_some, Option.map_none] <;> (try split) <;> first | rfl | simp_all

theorem perform_mem (h : BlockingLine hw hb x hw' hb') (hn : ∀ p, x.act ≠ .memWriteAt p) {s s' : State}
    (hp : perform i l s x.act = some (s', m)) : s'.mem = s.mem := by
  cases h <;> simp only [perform] at hp
  case memReadAt =>
    split at hp <;> simp at hp
    obtain ⟨rfl, -⟩ := hp
    rfl
  case memWriteAt | memWriteRx => exact absurd rfl (hn _)
  all_goals
    simp only [Option.some.injEq, Prod.mk.injEq] at hp
    obtain ⟨rfl, -⟩ := hp
    rfl

/-- A boundary of a run whose next input is `y`. -/
theorem advance_input {f : Frame} {k : Nat} {y : Input} {zs : List Input} (hd : Y.depth = d) (hm : Y.Unmarked) :
    advance ((y :: zs).length + k) d ((Y.withInputs (y :: zs)).push f) =
      advance (zs.length + k) d (tick ((Y.withInputs (y :: zs)).push f)) := by
  rw [advance_tick (by simp) (by simp; omega) (by simpa [State.Unmarked] using hm)]
  have h : (y :: zs).length + k - 1 = zs.length + k := by simp only [List.length_cons]; omega
  rw [h]

/-- One boundary of two runs that stand at the same line. There is an input with which the second does what the first does:
both stay at the line, or both go on with the same outcome. -/
theorem tick_both {restB : List Line} {l' : Locals} {oA oB : Owner} (hf : BlockingLine hw hb x hw' hb') (hA : Alike X Y)
    (hc : X.ControllersOnly) (h1 : hw = true → l'.w = l.w) (h2 : hb = true → l'.b = l.b) :
    ∃ (y : Input) (X1 Y1 : State), Alike X1 Y1 ∧ X1.ControllersOnly ∧ X1.depth = X.depth ∧ Y1.depth = Y.depth ∧
      Y1.latchAll = Y1 ∧ Y1.params = Y.params ∧ ((∀ p, x.act ≠ .memWriteAt p) → Y1.mem = Y.mem) ∧
      controllerSteps X.inputs = controllerSteps [y] ++ controllerSteps X1.inputs ∧
      ((tick (X.push ⟨oA, i, x :: rest, l, res⟩) = X1.push ⟨oA, i, x :: rest, l, res⟩ ∧
        ∀ zs, tick ((Y.withInputs (y :: zs)).push ⟨oB, i, x :: restB, l', res⟩) =
          (Y1.withInputs zs).push ⟨oB, i, x :: restB, l', res⟩) ∨
       ∃ m m', (hw' = true → m'.w = m.w) ∧ (hb' = true → m'.b = m.b) ∧
        tick (X.push ⟨oA, i, x :: rest, l, res⟩) =
          X1.push ((⟨oA, i, rest, m, res⟩ : Frame).afterOutcome (blockingOutcome X.params m x.next)) ∧
        ∀ zs, tick ((Y.withInputs (y :: zs)).push ⟨oB, i, x :: restB, l', res⟩) =
          (Y1.withInputs zs).push
            ((⟨oB, i, restB, m', res⟩ : Frame).afterOutcome (blockingOutcome X.params m x.next))) := by
  obtain ⟨o, X0, ho⟩ := boundary_exists X
  obtain ⟨c1, c2, c3, c4, c5⟩ := ho.left hc
  cases o with
  | some y =>
    have hy := c2 y rfl
    cases ho with
    | @controller _ xs h hr =>
      obtain ⟨k1, k2, -, -⟩ := controllerInput_keeps y (X.withInputs xs)
      obtain ⟨-, j2, j3, j4⟩ := controllerInput_keeps y Y
      refine ⟨y, (controllerInput y (X.withInputs xs)).latchAll, (controllerInput y Y).latchAll,
        ((c5 Y hA).controllerInput y).latchAll, fun z hz => c1 z (by simpa [k1] using hz), k2, j2, latchAll_twice _, j3,
        fun _ => j4, ?_, .inl ⟨tick_controller h hy, fun zs => ?_⟩⟩
      · rw [c3]; simp [k1, controllerSteps, hr]
      · rw [tick_controller (xs := zs) (by simp) hy, withInputs_withInputs, controllerInput_withInputs]
        rfl
  | none =>
    obtain ⟨pa, pb⟩ | ⟨X', Y', m, m', pa, pb, hA', hout, hw1, hb1⟩ := perform_alike hf (c5 Y hA) (i := i) h1 h2
    · refine ⟨.run, X0.latchAll, Y.latchAll, (c5 Y hA).latchAll, c1, c4, rfl, latchAll_twice _, rfl, fun _ => rfl,
        by rw [c3]; simp [controllerSteps], .inl ⟨tick_line_stuck hf ho pa, fun zs => ?_⟩⟩
      rw [tick_line_stuck hf (.run (X := Y.withInputs (.run :: zs)) rfl) (by
        rw [withInputs_withInputs, perform_withInputs, pb]; rfl)]
      rfl
    · have ka := perform_keeps pa
      have kb := perform_keeps pb
      refine ⟨.run, X'.latchAll, Y'.latchAll, hA'.latchAll, fun z hz => c1 z (by simpa [ka.inputs] using hz), ?_, ?_,
        latchAll_twice _, kb.params, fun hn => (perform_mem hf hn pb : Y'.mem = Y.mem), ?_,
        .inr ⟨m, m', hw1, hb1, tick_line hf ho pa, fun zs => ?_⟩⟩
      · rw [← c4]; simp [State.depth, ka.main, ka.handlers]
      · simp [State.depth, kb.main, kb.handlers]
      · rw [c3]; simp [controllerSteps, ka.inputs]
      · rw [tick_line hf (.run (X := Y.withInputs (.run :: zs)) rfl) (by
          rw [withInputs_withInputs, perform_withInputs, pb]; rfl)]
        simp only [withInputs_params, hA.params, hout]
        rfl

/-! ## Whole runs -/

/-- A run of lines that returns, run again from a state alike under the same controllers' steps: it returns too, with every
input used, with the same accesses and the same result. -/
theorem advance_alike : ∀ (n d : Nat) (X Y : State) (i : Idx) (lA lB : Locals) (lines : List Line) (res : Result)
    (hw hb : Bool) (mnA mnB : Mnemonic), Alike X Y → X.ControllersOnly → X.depth = d → Y.depth = d →
    BlockingLines hw hb lines → (hw = true → lB.w = lA.w) → (hb = true → lB.b = lA.b) →
    ∀ t, advance n d (X.push ⟨.command mnA, i, lines, lA, res⟩) = t → t.depth ≤ d →
    ∃ zs v, (∀ k, advance (zs.length + k) d ((Y.withInputs zs).push ⟨.command mnB, i, lines, lB, res⟩) = v) ∧
      v.depth = d ∧ v.inputs = [] ∧ controllerSteps X.inputs = controllerSteps zs ++ controllerSteps t.inputs ∧
      Alike t v ∧ ∃ r, t.trace.getLast? = some (.result i mnA r) ∧ v.trace.getLast? = some (.result i mnB r) := by
  intro n
  induction n with
  | zero =>
    intro d X Y i lA lB lines res hw hb mnA mnB _ _ hX _ _ _ _ t ht hd
    rw [advance] at ht
    subst ht
    simp at hd
    omega
  | succ n ih =>
    intro d X Y i lA lB lines res hw hb mnA mnB hA hc hX hY hF h1 h2 t ht hd
    rw [advance_tick (by omega) (by simp; omega) (by simpa [State.Unmarked] using hA.left)] at ht
    simp only [Nat.add_sub_cancel] at ht
    -- the second run makes a boundary with input `y`, and goes on as the first does
    have more : ∀ (y : Input) (X1 Y1 : State) (ls : List Line) (res' : Result) (mA mB : Locals) (hw' hb' : Bool),
        Alike X1 Y1 → X1.ControllersOnly → X1.depth = d → Y1.depth = d → BlockingLines hw' hb' ls →
        (hw' = true → mB.w = mA.w) → (hb' = true → mB.b = mA.b) →
        controllerSteps X.inputs = controllerSteps [y] ++ controllerSteps X1.inputs →
        tick (X.push ⟨.command mnA, i, lines, lA, res⟩) = X1.push ⟨.command mnA, i, ls, mA, res'⟩ →
        (∀ zs, tick ((Y.withInputs (y :: zs)).push ⟨.command mnB, i, lines, lB, res⟩) =
          (Y1.withInputs zs).push ⟨.command mnB, i, ls, mB, res'⟩) →
        ∃ zs v, (∀ k, advance (zs.length + k) d ((Y.withInputs zs).push ⟨.command mnB, i, lines, lB, res⟩) = v) ∧
          v.depth = d ∧ v.inputs = [] ∧ controllerSteps X.inputs = controllerSteps zs ++ controllerSteps t.inputs ∧
          Alike t v ∧
          ∃ r, t.trace.getLast? = some (.result i mnA r) ∧ v.trace.getLast? = some (.result i mnB r) := by
      intro y X1 Y1 ls res' mA mB hw' hb' e1 e2 e3 e4 e5 e6 e7 e8 e9 e10
      rw [e9] at ht
      obtain ⟨zs, v, hv, r1, r2, r3, r4⟩ := ih d X1 Y1 i mA mB ls res' hw' hb' mnA mnB e1 e2 e3 e4 e5 e6 e7 t ht hd
      refine ⟨y :: zs, v, fun k => ?_, r1, r2, ?_, r4⟩
      · rw [advance_input hY hA.right, e10]; exact hv k
      · rw [e8, r3, controllerSteps_cons y zs, List.append_assoc]
    cases hF with
    | nil =>
      obtain ⟨o, X0, ho⟩ := boundary_exists X
      obtain ⟨c1, c2, c3, c4, c5⟩ := ho.left hc
      cases o with
      | some y =>
        have hy := c2 y rfl
        cases ho with
        | @controller _ xs h hr =>
          obtain ⟨k1, k2, -, -⟩ := controllerInput_keeps y (X.withInputs xs)
          refine more y _ (controllerInput y Y).latchAll [] res lA lB hw hb ((c5 Y hA).controllerInput y).latchAll
            (fun z hz => c1 z (by simpa [k1] using hz)) (k2.trans hX) ((controllerInput_keeps y Y).2.1.trans hY) .nil h1
            h2 ?_ (tick_controller h hy) fun zs => ?_
          · rw [c3]; simp [k1, controllerSteps, hr]
          · rw [tick_controller (xs := zs) (by simp) hy, withInputs_withInputs, controllerInput_withInputs]
            rfl
      | none =>
        rw [tick_return ho, advance_done (by simp [c4, hX])] at ht
        subst ht
        refine ⟨[.run], ((Y.withInputs []).emit (.result i mnB res)).latchAll, fun k => ?_, hY, rfl, ?_, ?_, res, by simp,
          by simp⟩
        · rw [advance_input hY hA.right, tick_return (.run (X := Y.withInputs [.run]) rfl), withInputs_withInputs,
            advance_done (by simp [hY])]
        · rw [c3]; simp [controllerSteps]
        · exact ((((c5 Y hA).withInputs X0.inputs []).emitLeft _ rfl rfl).emitRight _ rfl rfl).latchAll
    | @cons _ _ x hw' hb' rest hf hr =>
      obtain ⟨y, X1, Y1, e1, e2, e3, e4, -, -, -, e5, ⟨e6, e7⟩ | ⟨m, m', e6, e7, e9, e10⟩⟩ :=
        tick_both (restB := rest) (rest := rest) (oA := .command mnA) (oB := .command mnB) (i := i) (res := res) hf hA hc
          h1 h2
      · exact more y X1 Y1 (x :: rest) res lA lB hw hb e1 e2 (e3.trans hX) (e4.trans hY) (.cons hf hr) h1 h2 e5 e6 e7
      · obtain ⟨ls, ho, hm⟩ | ⟨ls, st, ho, hl, -⟩ := blockingOutcome_lines hf X.params m <;> rw [ho] at e9 e10
        · exact more y X1 Y1 (ls ++ rest) res m m' hw' hb' e1 e2 (e3.trans hX) (e4.trans hY) (hm rest hr) e6 e7 e5 e9 e10
        · exact more y X1 Y1 ls (.status st) m m' false false e1 e2 (e3.trans hX) (e4.trans hY) hl (by simp) (by simp) e5
            e9 e10

/-- Lines that leave the result as it is. -/
def Settled (ls : List Line) : Prop := ∀ x ∈ ls, x.next = .straight ∨ x.next = .ackOnIfPolicy

theorem settled_setBits (r : RmwReg) (k : Half) : Settled (setBits r k) := by
  intro x hx
  simp only [setBits, Line.then, List.mem_cons, List.not_mem_nil, or_false] at hx
  rcases hx with rfl | rfl <;> exact .inl rfl

theorem Settled.append {ls ms : List Line} (h : Settled ls) (h' : Settled ms) : Settled (ls ++ ms) :=
  fun x hx => (List.mem_append.mp hx).elim (h x) (h' x)

theorem settled_nil : Settled [] := fun _ h => by cases h

theorem settled_abort (st : Status) (e : Word) (rx : Bool) : Settled (abortBlocking st e rx) := by
  unfold abortBlocking
  refine Settled.append ?_ ?_
  · split
    · refine Settled.append (fun x hx => ?_) ?_
      · simp only [Line.then, List.mem_singleton] at hx
        subst hx
        exact .inl rfl
      · split
        · exact settled_setBits _ _
        · exact settled_nil
    · exact settled_nil
  · cases rx
    · exact settled_nil
    · intro x hx
      simp only [if_true, restoreAck, List.mem_singleton] at hx
      subst hx
      exact .inr rfl

theorem settled_outcome (h : BlockingLine hw hb x hw' hb') (p : Params) (l : Locals) (ls : List Line) (st : Status)
    (ho : blockingOutcome p l x.next = .inr (ls, st)) : Settled ls := by
  cases h <;> simp only [blockingOutcome, reduceCtorEq] at ho
  case poll =>
    repeat' split at ho
    all_goals first
      | (cases ho; exact settled_abort _ _ _)
      | cases ho
  case busy =>
    split at ho
    · cases ho
    · simp only [Sum.inr.injEq, Prod.mk.injEq] at ho
      obtain ⟨rfl, -⟩ := ho
      exact settled_nil

/-- A command whose result is settled returns with it. -/
theorem advance_settled : ∀ (n d : Nat) (X : State) (i : Idx) (l : Locals) (lines : List Line) (res : Result)
    (hw hb : Bool) (mn : Mnemonic), X.Unmarked → X.ControllersOnly → X.depth = d → BlockingLines hw hb lines →
    Settled lines → ∀ t, advance n d (X.push ⟨.command mn, i, lines, l, res⟩) = t → t.depth ≤ d →
    t.trace.getLast? = some (.result i mn res) := by
  intro n
  induction n with
  | zero =>
    intro d X i l lines res hw hb mn _ _ hX _ _ t ht hd
    rw [advance] at ht
    subst ht
    simp at hd
    omega
  | succ n ih =>
    intro d X i l lines res hw hb mn hm hc hX hF hS t ht hd
    have hA : Alike X X := ⟨rfl, rfl, rfl, rfl, rfl, hm, hm⟩
    rw [advance_tick (by omega) (by simp; omega) (by simpa [State.Unmarked] using hm)] at ht
    simp only [Nat.add_sub_cancel] at ht
    cases hF with
    | nil =>
      obtain ⟨o, X0, ho⟩ := boundary_exists X
      obtain ⟨c1, c2, -, c4, c5⟩ := ho.left hc
      cases o with
      | some y =>
        have hy := c2 y rfl
        cases ho with
        | @controller _ xs h hr =>
          obtain ⟨k1, k2, -, -⟩ := controllerInput_keeps y (X.withInputs xs)
          rw [tick_controller h hy] at ht
          exact ih d _ i l [] res hw hb mn ((c5 X hA).controllerInput y).latchAll.left
            (fun z hz => c1 z (by simpa [k1] using hz)) (k2.trans hX) .nil hS t ht hd
      | none =>
        rw [tick_return ho, advance_done (by simp [c4, hX])] at ht
        subst ht
        simp
    | @cons _ _ x hw' hb' rest hf hr =>
      have hSr : Settled rest := fun y hy => hS y (List.mem_cons_of_mem _ hy)
      obtain ⟨y, X1, Y1, e1, e2, e3, -, -, -, -, -, ⟨e6, -⟩ | ⟨m, m', -, -, e9, -⟩⟩ :=
        tick_both (restB := rest) (rest := rest) (oA := .command mn) (oB := .command mn) (i := i) (res := res) (l := l)
          (l' := l) hf hA hc (fun _ => rfl) (fun _ => rfl)
      · rw [e6] at ht
        exact ih d X1 i l (x :: rest) res hw hb mn e1.left e2 (e3.trans hX) (.cons hf hr) hS t ht hd
      · rw [e9] at ht
        have hs : ∃ more, blockingOutcome X.params m x.next = .inl more ∧ Settled more := by
          rcases hS x (by simp) with h | h <;> rw [h]
          · exact ⟨[], rfl, settled_nil⟩
          · refine ⟨_, rfl, ?_⟩
            split
            · exact settled_setBits _ _
            · exact settled_nil
        obtain ⟨more, ho, hs⟩ := hs
        obtain ⟨more', ho', hm'⟩ | ⟨ls, st, ho', -⟩ := blockingOutcome_lines hf X.params m <;> rw [ho] at ho' <;>
          cases ho'
        rw [ho] at ht
        exact ih d X1 i m (more ++ rest) res hw' hb' mn e1.left e2 (e3.trans hX) (hm' rest hr) (hs.append hSr) t ht hd

/-! ## MEM_READ beside the explicit pair (41 R188) -/

/-- A line that neither sends a byte of the transmit nor stores one. -/
def PlainLine (x : Line) : Prop := (∀ src n sr, x.next ≠ .txMore src n sr) ∧ ∀ p, x.act ≠ .memWriteAt p

/-- The lines of the two transmits of one byte `b`: MEM_READ's writes it to DR, the command's reads it at `p` first. -/
inductive SameTransmit (b : Byte) (p : Word) : List Line → List Line → Prop
  | nil : SameTransmit b p [] []
  | same {x : Line} {la lb : List Line} : PlainLine x → SameTransmit b p la lb → SameTransmit b p (x :: la) (x :: lb)
  | send {la lb : List Line} : SameTransmit b p la lb →
      SameTransmit b p (⟨.writeDR b, .txMore (.scratch []) 0 true⟩ :: la)
        (⟨.memReadAt p, .straight⟩ :: ⟨.writeDRLocal, .txMore (.mem (p + 1)) 0 true⟩ :: lb)

variable {la lb RA : List Line}

theorem SameTransmit.append {b : Byte} {p : Word} (h : SameTransmit b p la lb) :
    ∀ {more : List Line}, (∀ x ∈ more, PlainLine x) → SameTransmit b p (more ++ la) (more ++ lb)
  | [], _ => h
  | x :: _, hm => .same (hm x (by simp)) (h.append fun y hy => hm y (List.mem_cons_of_mem _ hy))

theorem plain_outcome (h : BlockingLine hw hb x hw' hb') (hx : PlainLine x) (p : Params) (l : Locals) (more : List Line)
    (ho : blockingOutcome p l x.next = .inl more) : ∀ y ∈ more, PlainLine y := by
  intro y hy
  cases h <;> simp only [blockingOutcome] at ho
  case memWriteAt | memWriteRx => exact absurd rfl (hx.2 _)
  case writeDRLocal | writeDRTx => exact absurd rfl (hx.1 _ _ _)
  case poll =>
    repeat' split at ho
    all_goals simp only [reduceCtorEq, Sum.inl.injEq] at ho
    all_goals subst ho
    all_goals simp only [List.not_mem_nil, List.mem_singleton] at hy
    subst hy
    exact ⟨by simp, by simp⟩
  case busy =>
    split at ho <;> simp only [reduceCtorEq, Sum.inl.injEq] at ho
    subst ho
    cases hy
  case ackOffIfRx | total | policy =>
    simp only [Sum.inl.injEq] at ho
    subst ho
    split at hy <;> simp [clearBits, manageAck, setBits, Line.then] at hy
    first
      | (subst hy; exact ⟨by simp, by simp⟩)
      | (rcases hy with rfl | rfl <;> exact ⟨by simp, by simp⟩)
  all_goals
    simp only [Sum.inl.injEq] at ho
    subst ho
    cases hy

/-- What the explicit pair does from `Y`, its transmit at frame `fB`, beside a run of MEM_READ from `X` to `t`: the transmit
returns OK, the receive of the lines `RA` then does, on the same controllers' steps, and their end is alike. -/
def PairRuns (X Y : State) (d : Nat) (i : Idx) (RA : List Line) (t : State) (fB : Frame) : Prop :=
  ∃ ys zs u v, (∀ k, advance (ys.length + k) d ((Y.withInputs ys).push fB) = u) ∧ u.depth = d ∧ u.inputs = [] ∧
    u.trace.getLast? = some (.result i .MASTER_TX (.status .ok)) ∧ u.params = Y.params ∧
    (∀ k, advance (zs.length + k) d
      ((u.withInputs zs).push ⟨.command .MASTER_RX, i, RA, Locals.init, .status .ok⟩) = v) ∧
    v.depth = d ∧ v.inputs = [] ∧ v.trace.getLast? = some (.result i .MASTER_RX (.status .ok)) ∧
    controllerSteps X.inputs = controllerSteps ys ++ controllerSteps zs ++ controllerSteps t.inputs ∧ Alike t v

/-- The transmit makes a boundary first. -/
theorem PairRuns.first {Y1 X1 t : State} {fB fB' : Frame} {y : Input} (hY : Y.depth = d) (hm : Y.Unmarked)
    (hp : Y1.params = Y.params)
    (ht : ∀ zs, tick ((Y.withInputs (y :: zs)).push fB) = (Y1.withInputs zs).push fB')
    (hc : controllerSteps X.inputs = controllerSteps [y] ++ controllerSteps X1.inputs)
    (h : PairRuns X1 Y1 d i RA t fB') : PairRuns X Y d i RA t fB := by
  obtain ⟨ys, zs, u, v, h1, h2, h3, h4, h5, h6, h7, h8, h9, h10, h11⟩ := h
  refine ⟨y :: ys, zs, u, v, fun k => ?_, h2, h3, h4, h5.trans hp, h6, h7, h8, h9, ?_, h11⟩
  · rw [advance_input hY hm, ht]; exact h1 k
  · rw [hc, h10, controllerSteps_cons y ys]; simp only [List.append_assoc]

/-- MEM_READ with the lines `la` of its transmit to go, within `n` boundaries. -/
def PairFrom (b : Byte) (p : Word) (RA : List Line) (n : Nat) : Prop :=
  ∀ (d : Nat) (X Y : State) (i : Idx) (lA lB : Locals) (la lb : List Line) (hw hb : Bool),
    Alike X Y → X.ControllersOnly → X.depth = d → Y.depth = d → BlockingLines hw hb la → SameTransmit b p la lb →
    (hw = true → lB.w = lA.w) → (hb = true → lB.b = lA.b) →
    (Y.latchAll = Y ∨ ∃ r, la = ⟨.getState, .busyIfNotReady⟩ :: r) → Y.params.bufferOk p = true → Y.byteAt p = b →
    ∀ t, advance n d (X.push ⟨.command .MEM_READ, i, la ++ RA, lA, .status .ok⟩) = t → t.depth ≤ d →
    t.trace.getLast? = some (.result i .MEM_READ (.status .ok)) →
    PairRuns X Y d i RA t ⟨.command .MASTER_TX, i, lb, lB, .status .ok⟩

/-- MEM_READ at the write of its byte to DR, the transmit having read its byte, within `n` boundaries. -/
def PairFromByte (b : Byte) (p : Word) (RA : List Line) (n : Nat) : Prop :=
  ∀ (d : Nat) (X Y : State) (i : Idx) (lA lB : Locals) (la lb : List Line),
    Alike X Y → X.ControllersOnly → X.depth = d → Y.depth = d → BlockingLines false false la → SameTransmit b p la lb →
    lB.b = b → Y.params.bufferOk p = true → Y.byteAt p = b →
    ∀ t, advance n d (X.push ⟨.command .MEM_READ, i, ⟨.writeDR b, .txMore (.scratch []) 0 true⟩ :: (la ++ RA), lA,
      .status .ok⟩) = t → t.depth ≤ d →
    t.trace.getLast? = some (.result i .MEM_READ (.status .ok)) →
    PairRuns X Y d i RA t ⟨.command .MASTER_TX, i, ⟨.writeDRLocal, .txMore (.mem (p + 1)) 0 true⟩ :: lb, lB, .status .ok⟩

theorem txLoop_end (src : Src) : txLoop src 0 true = waitFlags (sr1TxE ||| sr1BTF) (.abort false) := by
  simp [txLoop, genStopUnless]

theorem pairFromByte_succ {b : Byte} {p : Word} (ih : PairFrom b p RA n) (ihb : PairFromByte b p RA n) :
    PairFromByte b p RA (n + 1) := by
  intro d X Y i lA lB la lb hA hc hX hY hF hT hb hok hby t ht hd hres
  rw [advance_tick (by omega) (by simp; omega) (by simpa [State.Unmarked] using hA.left)] at ht
  simp only [Nat.add_sub_cancel] at ht
  obtain ⟨o, X0, ho⟩ := boundary_exists X
  obtain ⟨c1, c2, c3, c4, c5⟩ := ho.left hc
  cases o with
  | some y =>
    have hy := c2 y rfl
    cases ho with
    | @controller _ xs h hr =>
      obtain ⟨k1, k2, -, -⟩ := controllerInput_keeps y (X.withInputs xs)
      obtain ⟨-, j2, j3, j4⟩ := controllerInput_keeps y Y
      rw [tick_controller h hy] at ht
      refine PairRuns.first (y := y) (Y1 := (controllerInput y Y).latchAll) hY hA.right j3 (fun zs => ?_)
        (X1 := (controllerInput y (X.withInputs xs)).latchAll) ?_
        (ihb d _ _ i lA lB la lb ((c5 Y hA).controllerInput y).latchAll (fun z hz => c1 z (by simpa [k1] using hz))
          (k2.trans hX) (j2.trans hY) hF hT hb (by simpa [j3] using hok) (by simpa [State.byteAt, j4] using hby) t ht hd
          hres)
      · rw [tick_controller (xs := zs) (by simp) hy, withInputs_withInputs, controllerInput_withInputs]
        rfl
      · rw [c3]; simp [k1, controllerSteps, hr]
  | none =>
    rw [tick_line (hw := false) (hb := false) .writeDRTx ho (X' := X0.regWrite i .dr (b.setWidth 32)) (m := lA) rfl] at ht
    simp only [blockingOutcome, Frame.afterOutcome, Frame.insert, txLoop_end, ← List.append_assoc] at ht
    refine PairRuns.first (y := .run) (Y1 := (Y.regWrite i .dr (b.setWidth 32)).latchAll) hY hA.right rfl (fun zs => ?_)
      (X1 := (X0.regWrite i .dr (b.setWidth 32)).latchAll) ?_
      (ih d _ _ i lA lB _ (waitFlags (sr1TxE ||| sr1BTF) (.abort false) ++ lb) false false
        ((c5 Y hA).regWrite _ _ _).latchAll c1 (c4.trans hX) hY ((blocking_waitFlags _ _).append hF)
        (hT.append (more := waitFlags (sr1TxE ||| sr1BTF) (.abort false)) ?_) (by simp) (by simp)
        (.inl (latchAll_twice _)) hok hby t ht hd hres)
    · rw [tick_line (hw := false) (hb := true) .writeDRLocal (.run (X := Y.withInputs (.run :: zs)) rfl)
        (X' := (Y.regWrite i .dr (b.setWidth 32)).withInputs zs) (m := lB) (by simp only [perform, hb]; rfl)]
      simp only [blockingOutcome, Frame.afterOutcome, Frame.insert, txLoop_end]
      rfl
    · rw [c3]; simp [controllerSteps]
    · intro x hx
      simp only [waitFlags, List.mem_singleton] at hx
      subst hx
      exact ⟨by simp, by simp⟩

theorem pairFrom_succ {b : Byte} {p : Word} (hRA : BlockingLines false false RA) (ih : PairFrom b p RA n)
    (ihb : PairFromByte b p RA (n + 1)) : PairFrom b p RA (n + 1) := by
  intro d X Y i lA lB la lb hw hb hA hc hX hY hF hT h1 h2 hL hok hby t ht hd hres
  cases hT with
  | nil =>
    have hL : Y.latchAll = Y := by
      rcases hL with h | ⟨r, h⟩
      · exact h
      · cases h
    have hAu : Alike X ((Y.withInputs []).emit (.result i .MASTER_TX (.status .ok))).latchAll :=
      ((hA.withInputs X.inputs []).emitRight (.result i .MASTER_TX (.status .ok)) rfl rfl).latchRight
        (congrArg State.engines hL : Y.latchAll.engines = Y.engines)
    obtain ⟨zs, v, hv, r1, r2, r3, r4, r, r5, r6⟩ := advance_alike (n + 1) d X _ i lA Locals.init RA (.status .ok) false
      false .MEM_READ .MASTER_RX hAu hc hX hY hRA (by simp) (by simp) t ht hd
    rw [hres] at r5
    simp only [Option.some.injEq, Event.result.injEq, true_and] at r5
    subst r5
    refine ⟨[.run], zs, ((Y.withInputs []).emit (.result i .MASTER_TX (.status .ok))).latchAll, v, fun k => ?_, hY, rfl,
      by simp, rfl, hv, r1, r2, r6, ?_, r4⟩
    · rw [advance_input hY hA.right, tick_return (.run (X := Y.withInputs [.run]) rfl), withInputs_withInputs,
        advance_done (by simp [hY])]
    · rw [r3]; simp [controllerSteps]
  | @send la lb hT =>
    have hL : Y.latchAll = Y := by
      rcases hL with h | ⟨r, h⟩
      · exact h
      · cases h
    cases hF with
    | cons hf hr =>
      cases hf
      have hAm : Alike X (Y.memRead p).latchAll :=
        (hA.emitRight _ rfl rfl).latchRight (congrArg State.engines hL : Y.latchAll.engines = Y.engines)
      refine PairRuns.first (y := .run) (Y1 := (Y.memRead p).latchAll) hY hA.right rfl (fun zs => ?_) (X1 := X)
        (by simp [controllerSteps]) (ihb d X _ i lA { lB with b := b } la lb hAm hc hX hY hr hT rfl hok hby t ht hd hres)
      rw [tick_line (hw := false) (hb := false) .memReadAt (.run (X := Y.withInputs (.run :: zs)) rfl)
        (X' := (Y.memRead p).withInputs zs) (m := { lB with b := b })
        (by simp only [perform, withInputs_withInputs, withInputs_params, hok, if_true]; rw [← hby]; rfl)]
      rfl
  | @same x la lb hx hT =>
    cases hF with
    | @cons _ _ _ hw' hb' _ hf hr =>
      rw [advance_tick (by omega) (by simp; omega) (by simpa [State.Unmarked] using hA.left)] at ht
      simp only [Nat.add_sub_cancel, List.cons_append] at ht
      obtain ⟨y, X1, Y1, e1, e2, e3, e4, e0, ep, em, e5, ⟨e6, e7⟩ | ⟨m, m', e6, e7, e9, e10⟩⟩ :=
        tick_both (restB := lb) (rest := la ++ RA) (oA := .command .MEM_READ) (oB := .command .MASTER_TX) (i := i)
          (res := .status .ok) hf hA hc h1 h2
      all_goals
        have hok' : Y1.params.bufferOk p = true := by rw [ep]; exact hok
        have hby' : Y1.byteAt p = b := by simpa [State.byteAt, em hx.2] using hby
      · rw [e6] at ht
        exact PairRuns.first hY hA.right ep e7 e5 (ih d X1 Y1 i lA lB (x :: la) (x :: lb) hw hb e1 e2 (e3.trans hX)
          (e4.trans hY) (.cons hf hr) (.same hx hT) h1 h2 (.inl e0) hok' hby' t ht hd hres)
      · rw [e9] at ht
        obtain ⟨more, ho, hm⟩ | ⟨ls, st, ho, hl, hst⟩ := blockingOutcome_lines hf X.params m <;> rw [ho] at ht e10
        · simp only [Frame.afterOutcome, Frame.insert, ← List.append_assoc] at ht
          exact PairRuns.first hY hA.right ep e10 e5 (ih d X1 Y1 i m m' (more ++ la) (more ++ lb) hw' hb' e1 e2
            (e3.trans hX) (e4.trans hY) (hm la hr) (hT.append (plain_outcome hf hx X.params m more ho)) e6 e7 (.inl e0)
            hok' hby' t ht hd hres)
        · have hend := advance_settled n d X1 i m ls (.status st) false false .MEM_READ e1.left e2 (e3.trans hX) hl
            (settled_outcome hf X.params m ls st ho) t ht hd
          rw [hres] at hend
          simp only [Option.some.injEq, Event.result.injEq, Result.status.injEq, true_and] at hend
          exact absurd hend.symm hst

/-- However far MEM_READ has come in its transmit, the explicit pair runs beside it. -/
theorem pairFrom_all {b : Byte} {p : Word} (hRA : BlockingLines false false RA) :
    ∀ n, PairFrom b p RA n ∧ PairFromByte b p RA n := by
  intro n
  induction n with
  | zero =>
    constructor
    · intro d X Y i lA lB la lb hw hb hA hc hX hY hF hT h1 h2 hL hok hby t ht hd hres
      rw [advance] at ht
      subst ht
      simp at hd
      omega
    · intro d X Y i lA lB la lb hA hc hX hY hF hT hb hok hby t ht hd hres
      rw [advance] at ht
      subst ht
      simp at hd
      omega
  | succ n ih =>
    have h := pairFromByte_succ ih.1 ih.2
    exact ⟨pairFrom_succ hRA ih.1 h, h⟩

/-- The lines of the two transmits of one byte. -/
theorem sameTransmit_masterTx (b : Byte) (p : Word) (addr : Byte) :
    SameTransmit b p (masterTx (.scratch [b]) 1 addr true) (masterTx (.mem p) 1 addr true) := by
  have hl : ∀ src : Src, masterTx src 1 addr true =
      (entryCheck ++ addressPhase addr .write false ++ clearAddr ++ waitFlags sr1TxE (.abort false)) ++
        sendFrom src (.txMore src.tail 0 true) := by
    intro src
    have : txLoop src 1 true = waitFlags sr1TxE (.abort false) ++ sendFrom src (.txMore src.tail 0 true) := by
      unfold txLoop
      rw [if_neg (by decide)]
      rfl
    simp only [masterTx, this, List.append_assoc]
  rw [hl, hl]
  refine SameTransmit.append (.send .nil) fun x hx => ?_
  simp only [entryCheck, addressPhase, genStart, setBits, waitFlags, sendAddr, clearAddr, Line.then, List.cons_append,
    List.nil_append, List.mem_cons, List.not_mem_nil, or_false] at hx
  rcases hx with rfl | rfl | rfl | rfl | rfl | rfl | rfl | rfl | rfl | rfl <;> exact ⟨by simp, by simp⟩

end Sys2Proof.Machine
end

