-- ==== Sys2Proof/Laws/PerInstr.lean ====
section
/-! SUPPORT. A law stated for every command: the opcode byte of its record selects the command's own row of the opcode
map (30 R121 to R123). -/

namespace Sys2Proof.Laws

/-- The opcode byte of a laid-out record. -/
theorem toRecord_op (f : CmdFields) : f.toRecord.extractLsb' 0 8 = f.op := by
  apply BitVec.eq_of_getLsbD_eq
  intro k hk
  simp only [CmdFields.toRecord, BitVec.getLsbD_extractLsb', BitVec.getLsbD_append, Nat.zero_add]
  rw [if_pos (by omega), if_pos (by omega), if_pos (by omega), if_pos (by omega), if_pos (by omega),
    if_pos (by omega), if_pos (by omega)]
  simp [hk]

/-- The opcode byte of a command's record. -/
theorem encode_op (x : Instr) : (encode x).extractLsb' 0 8 = opcode x := by
  rw [encode, toRecord_op]
  cases x <;> rfl

end Sys2Proof.Laws

namespace Sys2Proof.Laws.OpcodeRow

/-- The opcode byte of the command's record selects the command's own row. -/
def Statement (x : Instr) : Prop :=
  (rowOf ((encode x).extractLsb' 0 8)).map (·.name) = some x.mnemonic

theorem genStart (i : Nat) : Statement (.genStart i) := by rw [Statement, encode_op, opcode, Instr.mnemonic]; decide

theorem genStop (i : Nat) : Statement (.genStop i) := by rw [Statement, encode_op, opcode, Instr.mnemonic]; decide

theorem sendAddr (i : Nat) (a : Byte) (d : Dir) : Statement (.sendAddr i a d) := by
  rw [Statement, encode_op]
  cases d <;> rw [opcode, Instr.mnemonic] <;> decide

theorem clearAddr (i : Nat) : Statement (.clearAddr i) := by rw [Statement, encode_op, opcode, Instr.mnemonic]; decide

theorem manageAck (i : Nat) (en : Bool) : Statement (.manageAck i en) := by
  rw [Statement, encode_op]
  cases en <;> rw [opcode, Instr.mnemonic] <;> decide

theorem waitFlags (i : Nat) (m : Half) : Statement (.waitFlags i m) := by rw [Statement, encode_op, opcode, Instr.mnemonic]; decide

theorem masterTx (i : Nat) (buf len : Word) (addr : Byte) (sr : Bool) :
    Statement (.masterTx i buf len addr sr) := by rw [Statement, encode_op, opcode, Instr.mnemonic]; decide

theorem masterRx (i : Nat) (buf len : Word) (addr : Byte) (sr : Bool) :
    Statement (.masterRx i buf len addr sr) := by rw [Statement, encode_op, opcode, Instr.mnemonic]; decide

theorem memRead (i : Nat) (addr : Byte) (memAddr : Half) (width : Byte) (buf size : Word) :
    Statement (.memRead i addr memAddr width buf size) := by rw [Statement, encode_op, opcode, Instr.mnemonic]; decide

theorem masterTxIt (i : Nat) (buf len : Word) (addr : Byte) (sr : Bool) :
    Statement (.masterTxIt i buf len addr sr) := by rw [Statement, encode_op, opcode, Instr.mnemonic]; decide

theorem masterRxIt (i : Nat) (buf len : Word) (addr : Byte) (sr : Bool) :
    Statement (.masterRxIt i buf len addr sr) := by rw [Statement, encode_op, opcode, Instr.mnemonic]; decide

theorem closeTx (i : Nat) : Statement (.closeTx i) := by rw [Statement, encode_op, opcode, Instr.mnemonic]; decide

theorem closeRx (i : Nat) : Statement (.closeRx i) := by rw [Statement, encode_op, opcode, Instr.mnemonic]; decide

theorem evIrq (i : Nat) : Statement (.evIrq i) := by rw [Statement, encode_op, opcode, Instr.mnemonic]; decide

theorem erIrq (i : Nat) : Statement (.erIrq i) := by rw [Statement, encode_op, opcode, Instr.mnemonic]; decide

end Sys2Proof.Laws.OpcodeRow
end

