-- ==== Sys2Proof/Laws/Transfer.lean ====
section
/-! SUPPORT. Blocking transfers under a controller that answers: one lemma for each block of the pseudocode of 41, run through
the inputs that its statement's schedule gives it. The engine along the way is known but for its pending latches, which
follow the lines (60 R306). -/

namespace Sys2Proof.Machine

/-- A point of a command's run on controller `i`: `xs` the inputs to come, `e` the engine, `tr` the trace since the start,
`m` caller memory, `f` the command's frame. -/
def State.during (s : State) (i : Idx) (xs : List Input) (e : Engine) (tr : List Event) (m : List Host.Cell)
    (f : Frame) : State :=
  ((s.latchAll.withInputs xs).put i e tr m).push f

/-- What is known of the engine `e` along a transfer that began with `e₀`. -/
structure Running (e₀ e : Engine) (r : Regs) (lat : Latches) : Prop where
  regs    : e.regs = r
  lat     : e.lat = lat
  h       : e.h = e₀.h
  cbTrace : e.cbTrace = e₀.cbTrace
  wiring  : e.wiring = e₀.wiring
  ctrl    : e.ctrl = e₀.ctrl

variable {s : State} {i : Idx} {xs : List Input} {e e₀ : Engine} {tr : List Event} {m : List Host.Cell} {o : Owner}
  {rest : List Line} {l : Locals} {res : Result} {n : Nat} {r : Regs} {lat : Latches}

/-- One line of the command, when the next input lets it run. -/
theorem during_run {a : Act} {nx : Next} (hu : s.Unmarked) (hn : 0 < n) (ha : a ≠ .app) (hc : ∀ c, a ≠ .callback c) :
    advance n s.depth (s.during i (.run :: xs) e tr m ⟨o, i, ⟨a, nx⟩ :: rest, l, res⟩) =
      match perform i l ((s.latchAll.withInputs xs).put i e tr m) a with
      | none =>
        advance (n - 1) s.depth (((s.latchAll.withInputs xs).put i e tr m).latchAll.push
          ⟨o, i, ⟨a, nx⟩ :: rest, l, res⟩)
      | some (X', l') =>
        match nx.go s.params ⟨o, i, rest, l', res⟩ with
        | .error x => (X'.latchAll.push ⟨o, i, ⟨a, nx⟩ :: rest, l, res⟩).fail x
        | .ok f' => advance (n - 1) s.depth (X'.latchAll.push f') := by
  rw [State.during, advance_run (xs := xs) hn (by simp) (by simp [State.withInputs]) (by simpa [State.Unmarked] using hu)
    ha hc]
  simp only [put_withInputs, put_params]
  rfl

/-- The point a line leads to. -/
theorem during_eq {f : Frame} :
    ((s.latchAll.withInputs xs).put i e tr m).latchAll.push f = s.during i xs e.latchPending tr m f := by
  simp [State.during]

theorem Running.latchPending (h : Running e₀ e r lat) : Running e₀ e.latchPending r lat :=
  ⟨h.regs, h.lat, h.h, h.cbTrace, h.wiring, h.ctrl⟩

/-- `SetBits(CR1, mask)`. -/
theorem during_setCR1 {mask : Half} (hu : s.Unmarked) (h : Running e₀ e r lat) (he : r.cr1.getLsbD 0 = true)
    (hm : mask &&& ~~~cr1Writable = 0) (hn : 2 < n) :
    ∃ (e' : Engine) (l' : Locals),
      Running e₀ e'
        { r with cr1 := r.cr1 ||| mask, sr1 := if lat.stopf then r.sr1 &&& ~~~0x0010 else r.sr1 }
        { lat with stopf := false } ∧
      advance n s.depth (s.during i (.run :: .run :: xs) e tr m ⟨o, i, setBits .cr1 mask ++ rest, l, res⟩) =
        advance (n - 2) s.depth
          (s.during i xs e' (tr ++ rmwCR1 i r.cr1 (r.cr1 ||| mask)) m ⟨o, i, rest, l', res⟩) := by
  obtain ⟨rfl, rfl, h1, h2, h3, h4⟩ := h
  refine ⟨(e.latchPending.withCR1 (e.regs.cr1 ||| mask)).latchPending, { l with w := e.regs.cr1.setWidth 32 },
    ⟨rfl, rfl, h1, h2, h3, h4⟩, ?_⟩
  have hv : e.value .cr1 = e.regs.cr1.setWidth 32 := rfl
  have hr : e.afterRead .cr1 = e := rfl
  have hw : e.latchPending.afterWrite ((e.regs.cr1 ||| mask).setWidth 32) .cr1 =
      e.latchPending.withCR1 (e.regs.cr1 ||| mask) := by
    rw [← word_or]
    exact afterWrite_cr1_or rfl he hm
  simp only [setBits, Line.then, List.cons_append, List.nil_append]
  rw [during_run hu (by omega) (by simp) (by simp)]
  simp only [perform, RmwReg.reg, go_straight, put_eng_same, hv, hr, put_regRead, during_eq]
  rw [during_run hu (by omega) (by simp) (by simp)]
  simp only [perform, RmwReg.reg, go_straight, put_regWrite, during_eq, word_or, hw, rmwCR1, List.append_assoc,
    List.cons_append, List.nil_append]
  rfl

/-- `ClearBits(CR1, mask)`. -/
theorem during_clearCR1 {mask : Half} (hu : s.Unmarked) (h : Running e₀ e r lat) (he : r.cr1.getLsbD 0 = true)
    (hm : mask &&& ~~~cr1Writable = 0) (h0 : mask.getLsbD 0 = false) (hn : 2 < n) :
    ∃ (e' : Engine) (l' : Locals),
      Running e₀ e'
        { r with cr1 := r.cr1 &&& ~~~mask, sr1 := if lat.stopf then r.sr1 &&& ~~~0x0010 else r.sr1 }
        { lat with stopf := false } ∧
      advance n s.depth (s.during i (.run :: .run :: xs) e tr m ⟨o, i, clearBits .cr1 mask ++ rest, l, res⟩) =
        advance (n - 2) s.depth
          (s.during i xs e' (tr ++ rmwCR1 i r.cr1 (r.cr1 &&& ~~~mask)) m ⟨o, i, rest, l', res⟩) := by
  obtain ⟨rfl, rfl, h1, h2, h3, h4⟩ := h
  refine ⟨(e.latchPending.withCR1 (e.regs.cr1 &&& ~~~mask)).latchPending, { l with w := e.regs.cr1.setWidth 32 },
    ⟨rfl, rfl, h1, h2, h3, h4⟩, ?_⟩
  have hv : e.value .cr1 = e.regs.cr1.setWidth 32 := rfl
  have hr : e.afterRead .cr1 = e := rfl
  have hw : e.latchPending.afterWrite ((e.regs.cr1 &&& ~~~mask).setWidth 32) .cr1 =
      e.latchPending.withCR1 (e.regs.cr1 &&& ~~~mask) := by
    rw [← word_andNot]
    exact afterWrite_cr1_andNot rfl he hm h0
  simp only [clearBits, Line.then, List.cons_append, List.nil_append]
  rw [during_run hu (by omega) (by simp) (by simp)]
  simp only [perform, RmwReg.reg, go_straight, put_eng_same, hv, hr, put_regRead, during_eq]
  rw [during_run hu (by omega) (by simp) (by simp)]
  simp only [perform, RmwReg.reg, go_straight, put_regWrite, during_eq, word_andNot, hw, rmwCR1, List.append_assoc,
    List.cons_append, List.nil_append]
  rfl

/-- The registers after a step of `hwStep`, where the reserved status bits were 0. -/
theorem applyFree_hwStep {sr1 sr2 : Half} {d : Byte} (h1 : e.regs.sr1 &&& 0x2020 = 0) (h2 : e.regs.sr2 &&& 0x0008 = 0)
    (hs1 : sr1 &&& 0x2020 = 0) (hs2 : sr2 &&& 0x0008 = 0) :
    e.applyFree ⟨sr1, sr2, d, true, false⟩ =
      { e with regs := { e.regs with cr1 := cr1Done e.regs.cr1, sr1 := sr1, sr2 := sr2, dr := d } } := by
  have hm : ∀ {x y k w : Half}, x &&& k = 0 → y &&& k = 0 → ~~~w = k → mergeMask x y w = y := by
    intro x y k w hx hy hw
    apply Half.ext_bits
    intro j hj
    have hx' := congrArg (·.getLsbD j) hx
    have hy' := congrArg (·.getLsbD j) hy
    subst hw
    simp only [mergeMask, BitVec.getLsbD_or, BitVec.getLsbD_and, BitVec.getLsbD_not, hj, decide_true, Bool.true_and] at hx' hy' ⊢
    revert hx' hy'
    cases x.getLsbD j <;> cases y.getLsbD j <;> cases w.getLsbD j <;> simp
  have hc : clearMask (clearMask e.regs.cr1 cr1STOP) cr1START = cr1Done e.regs.cr1 := by
    simp only [clearMask, cr1Done, BitVec.and_assoc]
    congr 1
  simp only [Engine.applyFree, clearIf, if_true, Bool.false_eq_true, if_false, hc, hm h1 hs1 (by decide : ~~~sr1Hardware = 0x2020),
    hm h2 hs2 (by decide : ~~~sr2Hardware = 0x0008)]

/-- A controller step of the schedule. -/
theorem during_hwStep {sr1 sr2 : Half} {d : Byte} {f : Frame} (hu : s.Unmarked)
    (hj : i < s.params.nInst) (h : Running e₀ e r lat) (hf : e₀.ctrl = .free)
    (h1 : r.sr1 &&& 0x2020 = 0) (h2 : r.sr2 &&& 0x0008 = 0) (hs1 : sr1 &&& 0x2020 = 0) (hs2 : sr2 &&& 0x0008 = 0)
    (hn : 0 < n) :
    ∃ e' : Engine,
      Running e₀ e' { r with cr1 := cr1Done r.cr1, sr1 := sr1, sr2 := sr2, dr := d } lat ∧
      advance n s.depth (s.during i (hwStep i sr1 sr2 d :: xs) e tr m f) =
        advance (n - 1) s.depth (s.during i xs e' tr m f) := by
  obtain ⟨rfl, rfl, h3, h4, h5, h6⟩ := h
  have hc : e.ctrl = .free := h6.trans hf
  refine ⟨(e.applyFree ⟨sr1, sr2, d, true, false⟩).latchPending, ?_, ?_⟩
  · rw [applyFree_hwStep h1 h2 hs1 hs2]
    exact ⟨rfl, rfl, h3, h4, h5, h6⟩
  · rw [State.during, advance_free (j := i) (c := ⟨sr1, sr2, d, true, false⟩) (xs := xs) hn (by simp) (by simpa using hj)
      (by simp [State.withInputs, hwStep]) (by simpa [State.Unmarked] using hu)]
    simp only [put_eng_same, Engine.applyFreeInput, hc, put_withInputs, put_setEng]
    rw [← during_eq]
    rfl

/-- A poll that sees its mask at its first read, the flags set just before it. -/
theorem during_poll {mask sr1 sr2 : Half} {d : Byte} {exit : PollExit} (hu : s.Unmarked)
    (hj : i < s.params.nInst) (h : Running e₀ e r lat) (hf : e₀.ctrl = .free)
    (h1 : r.sr1 &&& 0x2020 = 0) (h2 : r.sr2 &&& 0x0008 = 0) (hs1 : sr1 &&& 0x2020 = 0) (hs2 : sr2 &&& 0x0008 = 0)
    (hm : sr1 &&& mask = mask) (hn : 2 < n) :
    ∃ (e' : Engine) (l' : Locals),
      Running e₀ e' { r with cr1 := cr1Done r.cr1, sr1 := sr1, sr2 := sr2, dr := d } (latchesOf sr1) ∧
      advance n s.depth
          (s.during i (hwStep i sr1 sr2 d :: .run :: xs) e tr m ⟨o, i, waitFlags mask exit ++ rest, l, res⟩) =
        advance (n - 2) s.depth (s.during i xs e' (tr ++ [rSR1 i sr1]) m ⟨o, i, rest, l', res⟩) := by
  obtain ⟨e', h', hadv⟩ := during_hwStep (s := s) (i := i) (xs := .run :: xs) (tr := tr) (m := m) (d := d)
    (f := ⟨o, i, waitFlags mask exit ++ rest, l, res⟩) hu hj h hf h1 h2 hs1 hs2 (show 0 < n by omega)
  have hsr : e'.regs.sr1 = sr1 := by rw [h'.regs]
  refine ⟨e'.sampledSR1.latchPending, { l with v := sr1.setWidth 32 }, ?_, ?_⟩
  · refine Running.latchPending ⟨h'.regs, ?_, h'.h, h'.cbTrace, h'.wiring, h'.ctrl⟩
    rw [← hsr]
    rfl
  · have hv : e'.value .sr1 = sr1.setWidth 32 := by rw [← hsr]; rfl
    have hz : (sr1.setWidth 32 &&& mask.setWidth 32 : Word) = mask.setWidth 32 := by
      rw [← hm, ← BitVec.setWidth_and, ← BitVec.and_assoc, BitVec.and_self]
    rw [hadv]
    simp only [waitFlags, List.cons_append, List.nil_append]
    rw [during_run hu (by omega) (by simp) (by simp)]
    simp only [perform, put_eng_same, put_regRead, afterRead_sr1, hv, Next.go, Frame.pollStep, hz, if_true, during_eq]
    rfl

/-- A read of the state that lets the command go on (41 R180). -/
theorem during_entryCheck (hu : s.Unmarked) (h : Running e₀ e r lat) (hr : e₀.h.transferState = .ready) (hn : 1 < n) :
    ∃ (e' : Engine) (l' : Locals), Running e₀ e' r lat ∧
      advance n s.depth (s.during i (.run :: xs) e tr m ⟨o, i, entryCheck ++ rest, l, res⟩) =
        advance (n - 1) s.depth (s.during i xs e' tr m ⟨o, i, rest, l', res⟩) := by
  have hs : e.h.transferState = .ready := by rw [h.h]; exact hr
  refine ⟨e.latchPending, { l with s := .ready }, h.latchPending, ?_⟩
  simp only [entryCheck, List.cons_append, List.nil_append]
  rw [during_run hu (by omega) (by simp) (by simp)]
  simp only [perform, handle_eq, put_eng_same, hs, Next.go, if_true, during_eq]

/-- CLEAR_ADDR outside an asynchronous receive (40 R153). -/
theorem during_clearAddr (hu : s.Unmarked) (h : Running e₀ e r lat) (hr : e₀.h.transferState = .ready) (hn : 3 < n) :
    ∃ (e' : Engine) (l' : Locals),
      Running e₀ e' { r with sr1 := r.sr1 &&& ~~~0x0002 } { latchesOf r.sr1 with addr := false } ∧
      advance n s.depth
          (s.during i (.run :: .run :: .run :: xs) e tr m ⟨o, i, clearAddr ++ rest, l, res⟩) =
        advance (n - 3) s.depth
          (s.during i xs e' (tr ++ [rSR1 i r.sr1, rSR2 i r.sr2]) m ⟨o, i, rest, l', res⟩) := by
  obtain ⟨rfl, rfl, h1, h2, h3, h4⟩ := h
  have hs : e.h.transferState = .ready := by rw [h1]; exact hr
  have hv : e.latchPending.value .sr1 = e.regs.sr1.setWidth 32 := rfl
  have hsr2 : (e.latchPending.sampledSR1.latchPending).value .sr2 = e.regs.sr2.setWidth 32 := rfl
  have hl2 : (e.latchPending.sampledSR1).latchPending = (e.latchPending.latchPending).sampledSR1 := rfl
  refine ⟨(e.latchPending.latchPending).withAddrCleared.latchPending,
    { l with s := .ready, v := e.regs.sr1.setWidth 32, u := e.regs.sr2.setWidth 32 },
    ⟨rfl, rfl, h1, h2, h3, h4⟩, ?_⟩
  simp only [clearAddr, Line.then, List.cons_append, List.nil_append]
  rw [during_run hu (by omega) (by simp) (by simp)]
  simp only [perform, handle_eq, put_eng_same, hs, Next.go, reduceCtorEq, if_false, during_eq]
  rw [during_run hu (by omega) (by simp) (by simp)]
  simp only [perform, go_straight, put_eng_same, put_regRead, afterRead_sr1, hv, during_eq]
  rw [during_run hu (by omega) (by simp) (by simp)]
  simp only [perform, go_straight, put_eng_same, put_regRead, hsr2, during_eq]
  rw [hl2, afterRead_sr1_sr2]
  simp only [List.append_assoc, List.cons_append, List.nil_append, rSR1, rSR2]
  rfl

/-- The engine after a DR write under a FREE controller (20 R77). -/
theorem Running.writeDR (h : Running e₀ e r lat) (hf : e₀.ctrl = .free) (b : Byte) :
    Running e₀ (e.afterWrite (b.setWidth 32) .dr)
      { r with
        tdr := b
        sr1 := r.sr1 &&& ~~~(0x0080 ||| (if lat.sb then 0x0001 else 0) ||| (if lat.btf then 0x0004 else 0)) }
      { lat with sb := false, btf := false } := by
  obtain ⟨rfl, rfl, h1, h2, h3, h4⟩ := h
  rw [afterWrite_dr]
  refine ⟨rfl, rfl, h1, h2, h3, ?_⟩
  have hc : e.ctrl = .free := h4.trans hf
  rw [← h4]
  simp only [hc]
  rfl

/-- A write of a byte to DR. -/
theorem during_writeDR {b : Byte} {nx : Next} {f' : Frame} (hu : s.Unmarked)
    (h : Running e₀ e r lat) (hf : e₀.ctrl = .free)
    (hg : nx.go s.params ⟨o, i, rest, l, res⟩ = .ok f') (hn : 1 < n) :
    ∃ e' : Engine,
      Running e₀ e'
        { r with
          tdr := b
          sr1 := r.sr1 &&& ~~~(0x0080 ||| (if lat.sb then 0x0001 else 0) ||| (if lat.btf then 0x0004 else 0)) }
        { lat with sb := false, btf := false } ∧
      advance n s.depth (s.during i (.run :: xs) e tr m ⟨o, i, ⟨.writeDR b, nx⟩ :: rest, l, res⟩) =
        advance (n - 1) s.depth (s.during i xs e' (tr ++ [wDR i b]) m f') := by
  refine ⟨_, (h.writeDR hf b).latchPending, ?_⟩
  rw [during_run hu (by omega) (by simp) (by simp)]
  simp only [perform, put_regWrite, hg, during_eq, wDR]

/-- A byte of caller memory, read and written to DR. -/
theorem during_sendMem {p : Word} {nx : Next} {f' : Frame} (hu : s.Unmarked)
    (h : Running e₀ e r lat) (hf : e₀.ctrl = .free)
    (hp : s.params.bufferOk p = true) (hg : nx.go s.params
      ⟨o, i, rest, { l with b := Memory.read m p.toNat }, res⟩ = .ok f') (hn : 2 < n) :
    ∃ e' : Engine,
      Running e₀ e'
        { r with
          tdr := Memory.read m p.toNat
          sr1 := r.sr1 &&& ~~~(0x0080 ||| (if lat.sb then 0x0001 else 0) ||| (if lat.btf then 0x0004 else 0)) }
        { lat with sb := false, btf := false } ∧
      advance n s.depth
          (s.during i (.run :: .run :: xs) e tr m
            ⟨o, i, .then (.memReadAt p) :: ⟨.writeDRLocal, nx⟩ :: rest, l, res⟩) =
        advance (n - 2) s.depth
          (s.during i xs e' (tr ++ [.memRead p (Memory.read m p.toNat), wDR i (Memory.read m p.toNat)]) m f') := by
  have hp' : ((s.latchAll.withInputs (.run :: xs)).put i e tr m).params.bufferOk p = true := hp
  refine ⟨_, (h.latchPending.writeDR hf _).latchPending, ?_⟩
  rw [Line.then, during_run hu (by omega) (by simp) (by simp)]
  simp only [perform, hp', if_true, put_byteAt, put_memRead, go_straight, during_eq]
  rw [during_run hu (by omega) (by simp) (by simp)]
  simp only [perform, put_regWrite, hg, during_eq, wDR, List.append_assoc, List.cons_append, List.nil_append]
  rfl

/-- A received byte, read from DR and stored. -/
theorem during_storeMem {p : Word} {nx : Next} {f' : Frame} (hu : s.Unmarked)
    (h : Running e₀ e r lat) (hf : e₀.ctrl = .free)
    (hp : s.params.bufferOk p = true) (hg : nx.go s.params ⟨o, i, rest, { l with b := r.dr }, res⟩ = .ok f')
    (hn : 2 < n) :
    ∃ e' : Engine,
      Running e₀ e'
        { r with sr1 := r.sr1 &&& ~~~(0x0040 ||| (if lat.btf then 0x0004 else 0)) } { lat with btf := false } ∧
      advance n s.depth
          (s.during i (.run :: .run :: xs) e tr m ⟨o, i, .then .readDR :: ⟨.memWriteAt p, nx⟩ :: rest, l, res⟩) =
        advance (n - 2) s.depth
          (s.during i xs e' (tr ++ [rDR i r.dr, .memWrite p r.dr]) (Memory.write m p.toNat r.dr) f') := by
  obtain ⟨rfl, rfl, h1, h2, h3, h4⟩ := h
  have hc : e.ctrl.heldByte = none := by rw [h4, hf]; rfl
  have hv : (e.regs.dr.setWidth 32).setWidth 8 = e.regs.dr := by
    apply BitVec.eq_of_getLsbD_eq
    intro k hk
    simp [hk]
  have hv' : e.value .dr = e.regs.dr.setWidth 32 := rfl
  have hp' : ∀ e' tr', ((s.latchAll.withInputs xs).put i e' tr' m).params.bufferOk p = true := fun _ _ => hp
  refine ⟨(e.afterRead .dr).latchPending.latchPending, ?_, ?_⟩
  · rw [afterRead_dr hc]
    exact ⟨rfl, rfl, h1, h2, h3, h4⟩
  · rw [Line.then, during_run hu (by omega) (by simp) (by simp)]
    simp only [perform, put_eng_same, put_regRead, go_straight, hv', hv, during_eq]
    rw [during_run hu (by omega) (by simp) (by simp)]
    simp only [perform, hp', if_true, put_memWrite, hg, during_eq, rDR, List.append_assoc, List.cons_append,
      List.nil_append]
    rfl

/-- The return of a command with no input left. -/
theorem during_return {mn : Mnemonic} (hu : s.Unmarked) (h : Running e₀ e r lat) (hn : 0 < n) :
    ∃ e' : Engine, Running e₀ e' r lat ∧
      advance n s.depth (s.during i [] e tr m ⟨.command mn, i, [], l, res⟩) =
        (s.latchAll.withInputs []).put i e' (tr ++ [.result i mn res]) m := by
  refine ⟨e.latchPending, h.latchPending, ?_⟩
  rw [State.during, advance_return (by omega) (by simp) ⟨by simp [State.withInputs], by simpa [State.Unmarked] using hu⟩]
  simp

end Sys2Proof.Machine
end

