-- ==== Sys2Proof/Tests/Slice0.lean ====
section
/-! SUPPORT. Tests of the model against the spec: the words of the opcode map, the smoke tests of WellFormed, the vectors of
95_test_vectors.md (V0.1 to V3.13, P2), and for each statement with premises a state that meets them. -/

set_option maxRecDepth 100000

namespace Sys2Proof.Tests
open Sys2Proof.Machine

/-! ## Helpers -/

/-- What a next state shows. -/
def after {α : Type} (f : State → α) : Out → Option α
  | .next t => some (f t)
  | .fault _ => none
  | .refused _ => none

/-- The refusal of an outcome. -/
def refusal : Out → Option Refusal
  | .next _ => none
  | .fault _ => none
  | .refused r => some r

/-- The state after reset with the engine of controller 0 changed. -/
def on (f : Engine → Engine) : State := State.reset.setEng 0 (f (State.reset.eng 0))

/-- CR1, CR2, SR1 and SR2 of an engine replaced. -/
def regs (cr1 cr2 sr1 sr2 : Half) (e : Engine) : Engine :=
  { e with regs := { e.regs with cr1 := cr1, cr2 := cr2, sr1 := sr1, sr2 := sr2 } }

/-- The state of the handle and its counts replaced. -/
def hand (st : TransferState) (txRem rxRem total : Word) (e : Engine) : Engine :=
  { e with h := { e.h with transferState := st, txRemaining := txRem, rxRemaining := rxRem, rxExpectedTotal := total } }

theorem reset_quiet : State.reset.Quiet := ⟨rfl, rfl, rfl⟩

theorem reset_has (i : Idx) (h : i < 3) : State.reset.Has i := ⟨h, h⟩

theorem on_quiet (f : Engine → Engine) : (on f).Quiet := ⟨rfl, rfl, rfl⟩

theorem on_has (f : Engine → Engine) : (on f).Has 0 := ⟨(by decide : 0 < 3), (by decide : 0 < 3)⟩

theorem reset_enabled (i : Idx) (h : i < 3) : State.reset.Enabled i := by
  unfold State.Enabled
  revert i
  decide

/-- The handler context just entered. -/
def entered (k : HandlerKind) (s : State) : State :=
  { s with handlers := [⟨k.owner, 0, handlerLines k, Locals.init, .none⟩] }

/-- The controller as REF at rest. -/
def asRef (e : Engine) : Engine := { e with ctrl := .ref RefPhase.quiet }

/-- `n` micro-steps of the running context. -/
def go (n : Nat) : List Input := List.replicate n .run

def R (r : Reg) (v : Word) : Event := .regRead 0 r v
def W (r : Reg) (v : Word) : Event := .regWrite 0 r v
def CB (c : EventCode) : Event := .callback 0 c

/-! ## WellFormed: each check with an ill-formed command -/

theorem test_wf_rejects_missing_controller : ¬ WellFormed 3 (.genStart 3) := by decide
theorem test_wf_rejects_empty_receive : ¬ WellFormed 3 (.masterRx 0 0x20000000 0 0x68 false) := by decide
theorem test_wf_rejects_empty_receive_it : ¬ WellFormed 3 (.masterRxIt 0 0x20000000 0 0x68 false) := by decide
theorem test_wf_rejects_empty_memory_read : ¬ WellFormed 3 (.memRead 0 0x68 0x75 1 0x20000000 0) := by decide
theorem test_wf_rejects_null_buffer : ¬ WellFormed 3 (.masterTx 0 0 1 0x68 false) := by decide
theorem test_wf_rejects_null_buffer_it : ¬ WellFormed 3 (.masterTxIt 0 0 1 0x68 false) := by decide
theorem test_wf_rejects_null_receive : ¬ WellFormed 3 (.masterRx 0 0 1 0x68 false) := by decide
theorem test_wf_rejects_width : ¬ WellFormed 3 (.memRead 0 0x68 0x1234 3 0x20000000 1) := by decide
theorem test_wf_accepts_null_with_no_byte : WellFormed 3 (.masterTx 2 0 0 0x68 true) := by decide

/-! ## Decoding: opcode bytes written out from 30 R122 -/

theorem test_decode_primitives :
    decodeTableWord 8 0b00000001 = some (.genStart 0) ∧ decodeTableWord 8 0b00000010 = some (.genStop 0) ∧
    decodeTableWord 8 0b00000100 = some (.sendAddr 0 0 .write) ∧ decodeTableWord 8 0b00000101 = some (.sendAddr 0 0 .read) ∧
    decodeTableWord 8 0b00000110 = some (.clearAddr 0) ∧ decodeTableWord 8 0b00001000 = some (.manageAck 0 false) ∧
    decodeTableWord 8 0b00001001 = some (.manageAck 0 true) ∧ decodeTableWord 8 0b00001010 = some (.waitFlags 0 0) := by
  decide

theorem test_decode_transfers :
    decodeTableWord 8 0b00010000 = some (.masterTx 0 0 0 0 false) ∧
    decodeTableWord 8 0b00010001 = some (.masterRx 0 0 0 0 false) ∧
    decodeTableWord 8 0b00010010 = some (.memRead 0 0 0 0 0 0) ∧
    decodeTableWord 8 0b00100000 = some (.masterTxIt 0 0 0 0 false) ∧
    decodeTableWord 8 0b00100001 = some (.masterRxIt 0 0 0 0 false) ∧
    decodeTableWord 8 0b00100010 = some (.closeTx 0) ∧ decodeTableWord 8 0b00100011 = some (.closeRx 0) := by decide

theorem test_decode_handlers :
    decodeTableWord 8 0b00110000 = some (.evIrq 0) ∧ decodeTableWord 8 0b00110001 = some (.erIrq 0) := by decide

/-- V0.21: reserved opcode bytes. -/
theorem test_decode_reserved :
    ∀ op ∈ [0x03, 0x0B, 0x13, 0x24, 0x32, 0xFF], decodeTableWord 8 op = none := by decide

/-- P1, command 1, as a whole record. -/
theorem test_decode_program :
    decode 0x000000022000000000000000003C0020 = .ok (.masterTxIt 0 0x20000000 2 0x3C false) := by decide

/-! ## Each row of the opcode map runs as the first command after reset -/

/-- The mnemonic a step that runs a row shows: the result it traces, or its refusal. -/
def runsRow (op : Nat) : Option (List Event) := after (·.trace.reverse.take 1) (step (State.reset.withFetchWord 8 op))

theorem test_rows_run :
    runsRow 0x01 = some [.result 0 .GEN_START .none] ∧ runsRow 0x06 = some [.result 0 .CLEAR_ADDR .none] ∧
    runsRow 0x0A = some [.result 0 .WAIT_FLAGS (.poll .ok 0)] ∧ runsRow 0x20 = some [.result 0 .MASTER_TX_IT (.state .ready)] ∧
    runsRow 0x23 = some [.result 0 .CLOSE_RX .none] ∧ runsRow 0x30 = some [R .sr1 0] ∧ runsRow 0x31 = some [R .sr1 0] := by
  decide

/-! ## Family 0 -/

/-- V0.1. -/
theorem test_genStart_sets_START :
    after (fun t => (t.trace, (t.eng 0).regs.cr1)) (exec (.genStart 0) State.reset) =
      some ([R .cr1 0x0401, W .cr1 0x0501, .result 0 .GEN_START .none], 0x0501) := by decide

/-- V0.20. -/
theorem test_genStart_refuses_missing_controller :
    refusal (exec (.genStart 3) State.reset) = some (.noSuchInstance 3) := by decide

/-- V0.4. -/
theorem test_genStop_sets_STOP :
    after (·.trace) (exec (.genStop 0) State.reset) =
      some [R .cr1 0x0401, W .cr1 0x0601, .result 0 .GEN_STOP .none] := by decide

/-- V0.5. -/
theorem test_genStop_clears_STOPF :
    after (fun t => (t.eng 0).regs.sr1)
      (exec (.genStop 0) (on fun e => { regs 0x0401 0x0010 0x0010 0 e with lat := ⟨false, false, false, true⟩ })) =
      some 0 := by decide

/-- V0.6. -/
theorem test_sendAddr_read_byte :
    after (·.trace) (exec (.sendAddr 0 0x68 .read) State.reset) =
      some [W .dr 0xD1, .result 0 .SEND_ADDR .none] := by decide

/-- V0.7. -/
theorem test_sendAddr_discards_bit_7 :
    after (·.trace) (exec (.sendAddr 0 0xE8 .write) State.reset) =
      some [W .dr 0xD0, .result 0 .SEND_ADDR .none] := by decide

/-- V0.9. -/
theorem test_clearAddr_disables_ack_first :
    after (·.trace) (exec (.clearAddr 0) (on (hand .busyRx 0 1 1 ∘ regs 0x0401 0x0010 0x0002 0x0003))) =
      some [R .cr1 0x0401, W .cr1 0x0001, R .sr1 0x0002, R .sr2 0x0003, .result 0 .CLEAR_ADDR .none] := by decide

/-- V0.10. -/
theorem test_clearAddr_leaves_ack :
    after (fun t => (t.trace, (t.eng 0).regs.sr1))
      (exec (.clearAddr 0) (on (hand .busyRx 0 3 3 ∘ regs 0x0401 0x0010 0x0002 0x0003))) =
      some ([R .sr1 0x0002, R .sr2 0x0003, .result 0 .CLEAR_ADDR .none], 0) := by decide

/-- V0.12. -/
theorem test_manageAck_disable :
    after (·.trace) (exec (.manageAck 0 false) State.reset) =
      some [R .cr1 0x0401, W .cr1 0x0001, .result 0 .MANAGE_ACK .none] := by decide

/-- V0.13. -/
theorem test_manageAck_enable_again :
    after (·.trace) (exec (.manageAck 0 true) State.reset) =
      some [R .cr1 0x0401, W .cr1 0x0401, .result 0 .MANAGE_ACK .none] := by decide

/-- V0.14. -/
theorem test_waitFlags_waits_for_both :
    after (·.trace) (exec (.waitFlags 0 0x0084)
      (State.reset.withInputs [hwStep 0 0x0080 0 0, .run, hwStep 0 0x0084 0 0, .run])) =
      some [R .sr1 0x0080, R .sr1 0x0084, .result 0 .WAIT_FLAGS (.poll .ok 0)] := by decide

/-- V0.18, and V0.17 beside it. -/
theorem test_waitFlags_success_first :
    let s (sr1 : Half) : State :=
      { on (regs 0x0401 0x0010 sr1 0) with params := { Params.default with propagateBusErrors := true } }
    after (·.trace) (exec (.waitFlags 0 0x0001) (s 0x0401)) =
      some [R .sr1 0x0401, .result 0 .WAIT_FLAGS (.poll .ok 0)] ∧
    after (·.trace) (exec (.waitFlags 0 0x0001) (s 0x0400)) =
      some [R .sr1 0x0400, .result 0 .WAIT_FLAGS (.poll .error 0x0400)] := by decide

/-! ## Family 1 -/

/-- V1.5: the trace of 41 R181's example. -/
theorem test_masterTx_trace :
    after (·.trace) (exec (.masterTx 0 0x20000000 1 0x68 false)
      { on asRef with
        mem := [(0x20000000, 0x3B)]
        inputs := go 3 ++ [.ref 0 .start] ++ go 2 ++ [.ref 0 .addrAck] ++ go 4 ++ [.ref 0 .txReady] ++ go 3 ++
          [.ref 0 .txByte, .ref 0 .txByte] }) =
      some [R .cr1 0x0401, W .cr1 0x0501, R .sr1 0x0001, W .dr 0xD0, R .sr1 0x0002, R .sr1 0x0002, R .sr2 0x0007,
        R .sr1 0x0080, .memRead 0x20000000 0x3B, W .dr 0x3B, R .sr1 0x0084, R .cr1 0x0401, W .cr1 0x0601,
        .result 0 .MASTER_TX (.status .ok)] := by decide

/-- V1.14. -/
theorem test_masterTx_lost_arbitration_asks_no_stop :
    after (·.trace) (exec (.masterTx 0 0x20000000 1 0x50 false)
      { on (regs 0x0401 0x0010 0x0600 0) with params := { Params.default with propagateBusErrors := true } }) =
      some [R .cr1 0x0401, W .cr1 0x0501, R .sr1 0x0600, W .sr1 0xD900, .result 0 .MASTER_TX (.status .error)] := by
  decide

/-- V1.7. -/
theorem test_masterRx_one_byte :
    after (fun t => (t.trace.drop 5, t.mem)) (exec (.masterRx 0 0x20000000 1 0x68 false)
      { on asRef with
        inputs := go 3 ++ [.ref 0 .start] ++ go 2 ++ [.ref 0 .addrAck] ++ go 6 ++ [.ref 0 (.rxByte 0x5A)] ++ go 5 ++
          [.ref 0 .stop] }) =
      some ([R .cr1 0x0401, W .cr1 0x0001, R .sr1 0x0002, R .sr2 0x0003, R .sr1 0x0040, R .cr1 0x0001, W .cr1 0x0201,
        R .dr 0x5A, .memWrite 0x20000000 0x5A, R .cr1 0x0001, W .cr1 0x0401, .result 0 .MASTER_RX (.status .ok)],
        [(0x20000000, 0x5A)]) := by decide

/-- V1.8. -/
theorem test_masterRx_three_bytes :
    after (fun t => (t.trace.drop 7, t.mem)) (exec (.masterRx 0 0x20000000 3 0x68 false)
      { on asRef with
        inputs := go 3 ++ [.ref 0 .start] ++ go 2 ++ [.ref 0 .addrAck] ++ go 4 ++ [.ref 0 (.rxByte 0x11)] ++ go 3 ++
          [.ref 0 (.rxByte 0x22)] ++ go 7 ++ [.ref 0 (.rxByte 0x33)] ++ go 3 ++ [.ref 0 .stop] }) =
      some ([R .sr1 0x0040, R .dr 0x11, .memWrite 0x20000000 0x11, R .sr1 0x0040, R .cr1 0x0401, W .cr1 0x0001,
        R .cr1 0x0001, W .cr1 0x0201, R .dr 0x22, .memWrite 0x20000001 0x22, R .sr1 0x0040, R .dr 0x33,
        .memWrite 0x20000002 0x33, R .cr1 0x0001, W .cr1 0x0401, .result 0 .MASTER_RX (.status .ok)],
        [(0x20000000, 0x11), (0x20000001, 0x22), (0x20000002, 0x33)]) := by decide

/-- P2. -/
theorem test_memRead_program :
    after (fun t => (t.trace, t.mem)) (exec (.memRead 0 0x68 0x75 1 0x20000100 1)
      { on asRef with
        inputs := go 3 ++ [.ref 0 .start] ++ go 2 ++ [.ref 0 .addrAck] ++ go 4 ++ [.ref 0 .txReady] ++ go 2 ++
          [.ref 0 .txByte, .ref 0 .txByte] ++ go 1 ++
          (go 3 ++ [.ref 0 .start] ++ go 2 ++ [.ref 0 .addrAck] ++ go 6 ++ [.ref 0 (.rxByte 0x68)] ++ go 5 ++
          [.ref 0 .stop]) }) =
      some ([R .cr1 0x0401, W .cr1 0x0501, R .sr1 0x0001, W .dr 0xD0, R .sr1 0x0002, R .sr1 0x0002, R .sr2 0x0007,
        R .sr1 0x0080, W .dr 0x75, R .sr1 0x0084, R .cr1 0x0401, W .cr1 0x0501, R .sr1 0x0001, W .dr 0xD1,
        R .sr1 0x0002, R .cr1 0x0401, W .cr1 0x0001, R .sr1 0x0002, R .sr2 0x0003, R .sr1 0x0040, R .cr1 0x0001,
        W .cr1 0x0201, R .dr 0x68, .memWrite 0x20000100 0x68, R .cr1 0x0001, W .cr1 0x0401,
        .result 0 .MEM_READ (.status .ok)], [(0x20000100, 0x68)]) := by decide

/-- V1.10. -/
theorem test_memRead_refuses_width :
    refusal (exec (.memRead 0 0x68 0x1234 3 0x20000000 1) State.reset) = some (.badAddressWidth 3) := by decide

/-! ## Family 2 -/

/-- V2.1. -/
theorem test_masterTxIt_start :
    after (fun t => (t.trace, (t.handle 0).transferState, (t.handle 0).txRemaining))
      (exec (.masterTxIt 0 0x20000000 2 0x68 false) State.reset) =
      some ([R .cr1 0x0401, W .cr1 0x0501, R .cr2 0x0010, W .cr2 0x0410, R .cr2 0x0410, W .cr2 0x0610, R .cr2 0x0610,
        W .cr2 0x0710, .result 0 .MASTER_TX_IT (.state .ready)], .busyTx, 2) := by decide

/-- V2.2. -/
theorem test_masterTxIt_busy :
    after (·.trace) (exec (.masterTxIt 0 0x20000000 2 0x68 false) (on (hand .busyRx 0 1 2))) =
      some [.result 0 .MASTER_TX_IT (.state .busyRx)] := by decide

/-- V2.6. -/
theorem test_masterRxIt_after_a_transfer :
    after (·.trace.drop 2) (exec (.masterRxIt 0 0x20000000 1 0x68 false) (on (regs 0x0401 0x0110 0 0))) =
      some [R .cr2 0x0110, W .cr2 0x0510, R .cr2 0x0510, W .cr2 0x0710, R .cr2 0x0710, W .cr2 0x0710,
        .result 0 .MASTER_RX_IT (.state .ready)] := by decide

/-- V2.5. -/
theorem test_masterRxIt_refuses_null_before_busy :
    refusal (exec (.masterRxIt 0 0 1 0x68 false) (on (hand .busyTx 1 0 0))) = some .nullBuffer := by decide

/-- V2.7. -/
theorem test_closeTx :
    after (fun t => (t.trace, (t.handle 0).transferState, (t.handle 0).txRemaining))
      (exec (.closeTx 0) (on (hand .busyTx 1 0 0 ∘ regs 0x0401 0x0710 0 0))) =
      some ([R .cr2 0x0710, W .cr2 0x0310, R .cr2 0x0310, W .cr2 0x0110, .result 0 .CLOSE_TX .none], .ready, 0) := by
  decide

/-- V2.10. -/
theorem test_closeTx_forced_leaves_receive_fields :
    after (fun t => ((t.handle 0).transferState, (t.handle 0).rxRemaining, (t.handle 0).rxExpectedTotal))
      (exec (.closeTx 0) (on (hand .busyRx 0 3 4))) = some (.ready, 3, 4) := by decide

/-- V2.8. -/
theorem test_closeRx :
    after (fun t => (t.trace, (t.handle 0).rxExpectedTotal))
      (exec (.closeRx 0) (on (hand .busyRx 0 1 2 ∘ regs 0x0001 0x0710 0 0))) =
      some ([R .cr2 0x0710, W .cr2 0x0310, R .cr2 0x0310, W .cr2 0x0110, R .cr1 0x0001, W .cr1 0x0401,
        .result 0 .CLOSE_RX .none], 0) := by decide

/-- V2.9. -/
theorem test_closeRx_policy_off :
    after (fun t => (t.eng 0).regs.cr1)
      (exec (.closeRx 0) (on fun e =>
        let x := hand .busyRx 0 1 2 (regs 0x0001 0x0710 0 0 e)
        { x with h := { x.h with cfg := { x.h.cfg with ackControl := .disable } } })) = some 0x0001 := by decide

/-! ## Family 3 -/

/-- V3.4. -/
theorem test_evIrq_sends_last_byte :
    after (fun t => (t.trace, (t.handle 0).txRemaining)) (exec (.evIrq 0)
      { entered .ev (on (hand .busyTx 1 0 0 ∘ regs 0x0401 0x0710 0x0084 0x0007)) with mem := [(0, 0x99)] }) =
      some ((List.replicate 5 [R .cr2 0x0710, R .sr1 0x0084]).flatten ++
        [R .sr2 0x0007, .memRead 0 0x99, W .dr 0x99, R .cr2 0x0710, R .sr1 0x0000], 0) := by decide

/-- V3.9. -/
theorem test_evIrq_ends_receive_with_repeated_start :
    after (fun t => (t.trace.drop 12, (t.eng 0).cbTrace, (t.handle 0).transferState)) (exec (.evIrq 0)
      (entered .ev (on fun e =>
        let x := hand .busyRx 0 1 2 (regs 0x0001 0x0710 0x0040 0x0003 e)
        { x with
          h := { x.h with repeatedStartRequested := true, rxBuffer := 0x20000001 }
          regs := { x.regs with dr := 0x34 } }))) =
      some ([R .sr2 0x0003, R .dr 0x34, .memWrite 0x20000001 0x34, R .cr2 0x0710, W .cr2 0x0310, R .cr2 0x0310,
        W .cr2 0x0110, R .cr1 0x0001, W .cr1 0x0401, CB .rxCmplt], [.rxCmplt], .ready) := by decide

/-- V3.10. -/
theorem test_erIrq_two_errors :
    after (·.trace) (exec (.erIrq 0) (entered .er (on (regs 0x0401 0x0710 0x0900 0)))) =
      some [R .cr2 0x0710, R .sr1 0x0900, W .sr1 0xDE00, CB .errorBerr, R .sr1 0x0800, R .sr1 0x0800, R .sr1 0x0800,
        W .sr1 0xD700, CB .errorOvr, R .sr1 0] := by decide

/-- V3.12: PECERR is cleared by no check, so the latch is set again. -/
theorem test_erIrq_leaves_pecerr :
    after (fun t => (t.trace, (t.eng 0).pendER)) (exec (.erIrq 0) (entered .er (on (regs 0x0401 0x0710 0x1000 0)))) =
      some (R .cr2 0x0710 :: List.replicate 5 (R .sr1 0x1000), true) := by decide

/-! ## Witnesses: for each statement with premises, states and operands that meet them, clause by clause -/

/-- An outcome that is a next state, and what it shows. -/
theorem next_of {o : Out} {P : State → Prop} [DecidablePred P] (h : after (fun t => decide (P t)) o = some true) :
    ∃ t, o = .next t ∧ P t := by
  cases o with
  | next t => exact ⟨t, rfl, of_decide_eq_true (Option.some.inj h)⟩
  | fault e => cases h
  | refused e => cases h

/-- An outcome that is a next state. -/
theorem is_next {o : Out} (h : after (fun _ => ()) o = some ()) : ∃ t, o = .next t := by
  cases o with
  | next t => exact ⟨t, rfl⟩
  | fault e => cases h
  | refused e => cases h

theorem witness_DecodeInvertsEncode :
    256 ≤ 256 ∧ WellFormed 256 (.memRead 255 0xFF 0xFFFF 2 0xFFFFFFFF 0xFFFFFFFF) ∧ WellFormed 1 (.masterTx 0 0 0 0x68 true) := by
  decide

theorem witness_OpcodeMapTotalAndUnambiguous :
    (reservedOpcode 0x01 = false ∧ reservedOpcode 0x31 = false) ∧
    (reservedOpcode 0x00 = true ∧ reservedOpcode 0x32 = true ∧ reservedOpcode 0xFF = true) ∧
    (let s : State := { State.reset with program := [0x32] }
     s.Unmarked ∧ s.main = [] ∧ s.handlers = [] ∧ s.program = 0x32 :: [] ∧ s.inputs = []) ∧
    (let s : State := { State.reset with program := [0], inputs := [.run] }
     s.Unmarked ∧ s.main = [] ∧ s.handlers = [] ∧ s.program = 0 :: [] ∧ ∃ xs, s.inputs = .run :: xs) ∧
    ⟨.SEND_ADDR, 0x04, 0xFE⟩ ∈ opTable ∧ (0x05 : Byte) &&& 0xFE = 0x04 :=
  ⟨by decide, by decide, ⟨⟨rfl, rfl⟩, rfl, rfl, rfl, rfl⟩, ⟨⟨rfl, rfl⟩, rfl, rfl, rfl, [], rfl⟩, by decide⟩

theorem witness_DataRegisterAccessesClearFlags :
    (State.reset.eng 2).ctrl.heldByte = none ∧ (State.reset.eng 2).ctrl = .free ∧
    ((on asRef).eng 0).ctrl.heldByte = none := by decide

theorem witness_ControlOneWriteAndDisable :
    (0x0001 : Word).getLsbD 0 = true ∧ (0xFFFE : Word).getLsbD 0 = false := by decide

theorem witness_StatusWritesAndPlainAccesses :
    (0 : Nat) ∈ [0, 1, 2, 3, 4, 5, 8, 9, 10, 11, 12] ∧ (15 : Nat) ∈ [6, 7, 13, 14, 15] ∧
    Reg.fltr ∈ [Reg.cr1, .cr2, .oar1, .oar2, .ccr, .trise, .fltr] := by decide

theorem witness_PendingLatchesFollowTheLines :
    (let t := tick (on (regs 0x0401 0x0710 0x0001 0x0003))
     (t.eng 0).evLine = true ∧ (t.eng 0).wiring.nvicEn = true ∧ (t.eng 0).pending .ev = true) ∧
    (let s : State := { on (fun e => { e with pendER := true }) with inputs := [.dispatch] }
     (s.eng 0).pending .er = true ∧ ((tick s).eng 0).pending .er = false) ∧
    (let s : State := { on (fun e => { e with pendER := true }) with inputs := [.reinit 0 Launch.default] }
     (s.eng 0).pending .er = true ∧ ((tick s).eng 0).pending .er = false) := by decide

/-- An event handler that runs while its controller's error latch is set, with nesting on. -/
def nested : State :=
  { entered .ev (on fun e => { e with pendER := true }) with params := { Params.default with irqNesting := true } }

theorem witness_DispatchTakesFirstSetLatch :
    (on fun e => { e with pendER := true }).handlers = [] ∧
    (on fun e => { e with pendER := true }).nextInterrupt = some (.er, 0) ∧ State.reset.nextInterrupt = none := by decide

theorem witness_HandlerEntryAndReturn :
    (let s : State := { on (fun e => { e with pendEV := true }) with inputs := [.dispatch] }
     s.inputs = .dispatch :: [] ∧ s.nextInterrupt = some (.ev, 0)) ∧
    (let s : State := { State.reset with handlers := [⟨.er, 2, [], Locals.init, .none⟩] }
     s.Quiet ∧ s.handlers = ⟨.er, 2, [], Locals.init, .none⟩ :: [] ∧ Owner.er.isHandler = true) :=
  ⟨by decide, ⟨rfl, rfl, rfl⟩, rfl, rfl⟩

theorem witness_HandlerRunExcludesMainAndNests :
    nested.handlers ≠ [] ∧ nested.nextInterrupt = some (.er, 0) := by decide

theorem witness_ControllerStepsChangeOnlyHardwareState :
    (State.reset.withInputs [.free 2 ⟨0xFFFF, 0xFFFF, 0xFF, true, true⟩]).inputs =
      .free 2 ⟨0xFFFF, 0xFFFF, 0xFF, true, true⟩ :: [] ∧
    ((on asRef).withInputs [.ref 0 .start]).inputs = .ref 0 .start :: [] := by decide

/-- A REF controller that receives, its address phase over, standing between bytes or not. -/
def receiving (cr1 sr1 : Half) (gap : Bool) (x : Reaction) : State :=
  { on (fun e => { regs cr1 0x0010 sr1 0x0003 e with ctrl := .ref ⟨none, true, none, none, none, true, gap⟩ }) with
    inputs := [.ref 0 x] }

theorem witness_ReferenceReceiveByte (sr1 : Half) (h : sr1 = 0x0000 ∨ sr1 = 0x0040) :
    let s := receiving 0x0401 sr1 true (.rxByte 0x5A)
    0 < s.params.nInst ∧ (s.eng 0).ctrl = .ref ⟨none, true, none, none, none, true, true⟩ ∧
    s.inputs = .ref 0 (.rxByte 0x5A) :: [] ∧ (s.eng 0).regs.sr2.getLsbD 2 = false ∧
    (s.eng 0).regs.sr1.getLsbD 1 = false ∧ (s.eng 0).regs.cr1 &&& 0x0300 = 0 :=
  ⟨(by decide : 0 < 3), rfl, rfl, (by decide : (0x0003 : Half).getLsbD 2 = false), show sr1.getLsbD 1 = false by
    rcases h with rfl | rfl <;> decide, (by decide : (0x0401 : Half) &&& 0x0300 = 0)⟩

theorem witness_ReferenceReceiveByte_between :
    (let s := receiving 0x0601 0x0040 true (.rxByte 0x5A)
     0 < s.params.nInst ∧ (s.eng 0).ctrl = .ref ⟨none, true, none, none, none, true, true⟩ ∧
       (s.eng 0).regs.cr1 &&& 0x0300 ≠ 0 ∧ s.inputs = .ref 0 (.rxByte 0x5A) :: []) ∧
    (let s := receiving 0x0601 0x0040 true .stop
     (s.eng 0).regs.cr1 &&& 0x0300 ≠ 0 ∧ (s.eng 0).regs.cr1.getLsbD 9 = true ∧ s.inputs = .ref 0 .stop :: []) ∧
    (let s := receiving 0x0501 0x0040 true .start
     (s.eng 0).regs.cr1 &&& 0x0300 ≠ 0 ∧ (s.eng 0).regs.cr1.getLsbD 8 = true ∧ (s.eng 0).regs.sr2.getLsbD 0 = true ∧
       s.inputs = .ref 0 .start :: []) := by decide

/-- A STOP requested with ACK at 1 while a byte is being received is performed after that byte (20 R87, RF7, RF8). -/
theorem test_ref_stop_with_ack :
    let s : State := { receiving 0x0601 0 false .stop with inputs := [.ref 0 .stop, .ref 0 (.rxByte 0x5A), .ref 0 .stop] }
    (tick s).eng 0 = s.eng 0 ∧ ((tick (tick (tick s))).eng 0).regs.cr1 = 0x0401 ∧
      ((tick (tick (tick s))).eng 0).regs.sr2 = 0 := by decide

/-- A main context about to perform `x`, with no buffer byte valid. -/
def rejecting (x : Act) : State :=
  { State.reset with
    main   := [⟨.command .MASTER_TX, 0, [⟨x, .straight⟩], Locals.init, .none⟩]
    params := { Params.default with bufOk := [] } }

/-- An event handler's callback about to read a buffer byte that is not valid, the error latch set, with nesting. -/
def rejectingApp : State :=
  { on (fun e => { e with pendER := true }) with
    handlers := [Frame.callback 0 .stop, ⟨.ev, 0, [], Locals.init, .none⟩]
    params := { Params.default with
      irqNesting := true
      bufOk := []
      app := [[⟨.const 1, [], .memRead (.const 0) 0, 1⟩]] } }

theorem witness_RejectedBufferAccessIsStuck :
    (∀ x ∈ [Act.memReadAt 0, .memWriteAt 0, .memReadP, .memWriteP],
      let f : Frame := ⟨.command .MASTER_TX, 0, [⟨x, .straight⟩], Locals.init, .none⟩
      (rejecting x).top = some f ∧ f.Accesses (rejecting x) 0 ∧ (rejecting x).params.bufferOk 0 = false ∧
        (rejecting x).inputs = [] ∧ ∀ y ∈ f.lines.head?, y.act ≠ .app) ∧
    (let s := rejectingApp.withInputs [.run]
     s.top = some (Frame.callback 0 .stop) ∧ (Frame.callback 0 .stop).Accesses s 0 ∧ s.params.bufferOk 0 = false ∧
       s.inputs = .run :: [] ∧ s.handlers = Frame.callback 0 .stop :: [⟨.ev, 0, [], Locals.init, .none⟩]) := by
  refine ⟨fun x hx => ⟨rfl, ⟨⟨x, .straight⟩, [], rfl, ?_⟩, rfl, rfl, ?_⟩, rfl,
    ⟨⟨.app, .straight⟩, [], rfl, .inr (.inr (.inr ⟨rfl, .const 0, _, rfl, .inl ⟨0, rfl⟩⟩))⟩, rfl, rfl, rfl⟩
  · simp only [List.mem_cons, List.not_mem_nil, or_false] at hx
    rcases hx with rfl | rfl | rfl | rfl <;> simp [Locals.init]
  · simp only [List.mem_cons, List.not_mem_nil, or_false] at hx
    rcases hx with rfl | rfl | rfl | rfl <;> simp

/-- 60 R311: no error handler is entered over an event handler that is stuck, though it would be over one that is not. -/
theorem test_stuck_handler_is_not_preempted :
    (rejectingApp.withInputs [.dispatch]).nextInterrupt = none ∧ (tick (rejectingApp.withInputs [.dispatch])).handlers =
      rejectingApp.handlers ∧ nested.nextInterrupt = some (.er, 0) := by decide

theorem witness_ReinitialisationResetsOneController :
    1 < State.reset.params.nInst ∧ (State.reset.withInputs [.reinit 1 Launch.default]).inputs = .reinit 1 Launch.default :: [] ∧
    State.reset.handlers = [] ∧ (∀ f ∈ State.reset.main, f.inst ≠ 1) ∧
    (State.reset.handle 1).transferState = .ready := by decide

theorem witness_StepRunsTheDecodedCommand :
    (let s : State := { State.reset with program := [0x0201] }
     s.Unmarked ∧ s.main = [] ∧ s.handlers = [] ∧ s.program = 0x0201 :: [] ∧ decode 0x0201 = .ok (.genStart 2) ∧
       s.inputs = []) ∧
    (let s : State := { State.reset with program := [0x0201], inputs := [.run] }
     s.Unmarked ∧ s.main = [] ∧ s.handlers = [] ∧ s.program = 0x0201 :: [] ∧ s.inputs = .run :: []) ∧
    (entered .ev State.reset).AtHandler .ev 0 [] ∧ (entered .er State.reset).AtHandler .er 0 [] :=
  ⟨⟨⟨rfl, rfl⟩, rfl, rfl, rfl, by decide, rfl⟩, ⟨⟨rfl, rfl⟩, rfl, rfl, rfl, rfl⟩, rfl, rfl⟩

theorem witness_MarksAreNeverCleared :
    ({ State.reset with refused := some .nullBuffer } : State).refused = some .nullBuffer ∧
    ({ State.reset with faults := [.rxUnderflow 0] } : State).refused = none ∧
    ({ State.reset with faults := [.rxUnderflow 0] } : State).faults = .rxUnderflow 0 :: [] := by decide

theorem witness_IllegalOperandsAreRefusedByName :
    State.reset.params.nInst ≤ (Instr.erIrq 3).index ∧ 2 < State.reset.params.nInst ∧ (1 : Word) ≠ 0 ∧
    ((0 : Byte) ≠ 1 ∧ (0 : Byte) ≠ 2) ∧ ((3 : Byte) ≠ 1 ∧ (3 : Byte) ≠ 2) := by decide

/-- An event handler in its callback, of an application that makes one step. -/
def calling (x : AppStep) : State :=
  { State.reset with
    handlers := [Frame.callback 0 .stop, ⟨.ev, 0, [], Locals.init, .none⟩]
    params := { Params.default with app := [[⟨.const 1, [], x, 1⟩]] } }

/-- An application's command that has only an opcode and a controller index. -/
def appCmd (op i : Word) : AppCommand :=
  ⟨.const op, .const i, .const 0, .const 0, .const 0, .const 0, .const 0, .const 0⟩

/-- The application issues EV_IRQ. -/
def appHandler (i : Word) : AppCommand := appCmd 0x30 i

theorem witness_HandlersFromSoftwareAreRefused :
    (State.reset.entered .ev 0 = false ∧ State.reset.entered .er 2 = false) ∧
    let s := calling (.command (appHandler 1))
    1 < s.params.nInst ∧ s.Quiet ∧ s.top = some (Frame.callback 0 .stop) ∧
    ∃ g, appChoice (Frame.callback 0 .stop) s = some (.command (appHandler 1), g) ∧
      decode ((appHandler 1).record g s) = .ok (.evIrq 1) :=
  ⟨by decide, (by decide : 1 < 3), ⟨rfl, rfl, rfl⟩, rfl, _, rfl, by decide⟩

theorem witness_GenStartAndGenStopSetTheirRequest :
    State.reset.Has 2 ∧ State.reset.Quiet ∧ State.reset.Enabled 2 :=
  ⟨reset_has _ (by decide), reset_quiet, reset_enabled _ (by decide)⟩

theorem witness_SendAddrWritesAddressByte :
    State.reset.Has 0 ∧ State.reset.Quiet ∧ (State.reset.eng 0).ctrl = .free :=
  ⟨reset_has _ (by decide), reset_quiet, by decide⟩

theorem witness_ClearAddrDisablesAckFirst :
    let s := on (hand .busyRx 0 1 1)
    (s.Has 0 ∧ s.Quiet ∧ s.Enabled 0 ∧ (s.eng 0).latchPending.h.transferState = .busyRx ∧
      (s.eng 0).latchPending.h.rxExpectedTotal = 1) ∧
    State.reset.Has 0 ∧ State.reset.Quiet ∧ State.reset.Enabled 0 :=
  ⟨⟨on_has _, on_quiet _, by unfold State.Enabled; decide, by decide, by decide⟩, reset_has _ (by decide), reset_quiet,
    reset_enabled _ (by decide)⟩

theorem witness_ManageAckWritesAck : State.reset.Has 0 ∧ State.reset.Quiet ∧ State.reset.Enabled 0 :=
  ⟨reset_has _ (by decide), reset_quiet, reset_enabled _ (by decide)⟩

theorem witness_WaitFlagsReturnsItsPoll :
    let s (d : Option Nat) (sr1 : Half) : State :=
      { on (regs 0x0401 0x0010 sr1 0) with
        params := { Params.default with propagateBusErrors := true, pollDeadline := d } }
    ∀ d ∈ [some 0, some 100], (s d 0x0401).inputs = [] ∧ (s d 0x0401).refused = none ∧ (s d 0x0401).faults = [] ∧
      0 < (s d 0x0401).params.nInst ∧ 0 < (s d 0x0401).engines.length ∧
      ((s d 0x0401).eng 0).latchPending.regs.sr1 &&& 0x0001 = 0x0001 ∧
      ¬ ((s d 0x0400).eng 0).latchPending.regs.sr1 &&& 0x0001 = 0x0001 ∧ (s d 0).params.propagateBusErrors = true ∧
      ((s d 0x0400).eng 0).latchPending.regs.sr1 &&& 0x4F00 ≠ 0 ∧
      ((s d 0x0000).eng 0).latchPending.regs.sr1 &&& 0x4F00 = 0 ∧ (s d 0).params.pollDeadline = d := by decide

theorem witness_PollWithoutAnswerHangs :
    let f : Frame := ⟨.command .WAIT_FLAGS, 0, [⟨.readSR1, .poll 0x0001 0 .result⟩], Locals.init, .none⟩
    let s : State := { on (regs 0x0401 0x0010 0x0400 0) with main := [f] }
    s.Quiet ∧ s.handlers = [] ∧ s.main = f :: [] ∧ f.inst = 0 ∧
    f.lines = ⟨.readSR1, .poll 0x0001 0 .result⟩ :: f.lines.tail ∧ (s.eng 0).regs.sr1 &&& 0x0001 ≠ 0x0001 ∧
    s.params.propagateBusErrors = false ∧ s.params.pollDeadline = none :=
  ⟨⟨rfl, rfl, rfl⟩, rfl, rfl, rfl, rfl, by decide, rfl, rfl⟩

theorem witness_BlockingCommandReturnsBusy :
    let s := on (hand .busyTx 1 0 0)
    s.Has 0 ∧ s.Quiet ∧ (s.handle 0).transferState ≠ .ready ∧ ((0 : Word) ≠ 0 ∨ (0 : Word) = 0) ∧ (1 : Word) ≠ 0 ∧
      ((1 : Byte) = 1 ∨ (1 : Byte) = 2) := ⟨on_has _, on_quiet _, by decide, by decide, by decide, by decide⟩

/-- Every address is a valid buffer byte after reset. -/
theorem reset_bufferOk (a : Word) : State.reset.params.bufferOk a = true := by
  have := a.isLt
  simp [State.reset, Params.default, Params.bufferOk, Region.holds, this]

/-- The nested dispatch: an event handler at its first line, with controller 0's error latch set and with none. -/
theorem witness_DispatchTakesFirstSetLatch_nested : ∀ s ∈ [nested, { nested with engines := State.reset.engines }],
    s.params.irqNesting = true ∧ (∃ f, s.handlers = [f] ∧ (∀ g ∈ s.handlers, g.owner ≠ .er) ∧
      ∀ a, f.Accesses s a → s.params.bufferOk a = true) := by
  intro s hs
  simp only [List.mem_cons, List.not_mem_nil, or_false] at hs
  rcases hs with rfl | rfl <;> exact ⟨rfl, _, rfl, by decide, fun a _ => reset_bufferOk a⟩

theorem reset_canTransfer (xs : List Input) : (State.reset.withInputs xs).CanTransfer 0 :=
  ⟨⟨rfl, rfl⟩, reset_has _ (by decide), reset_enabled 0 (by decide), rfl, rfl,
    (by decide : (State.reset.eng 0).regs.sr1 &&& 0x2020 = 0), (by decide : (State.reset.eng 0).regs.sr2 &&& 0x0008 = 0)⟩

theorem witness_MasterTxSendsEveryByte :
    ∀ len ∈ [(0 : Word), 2],
      let s := State.reset.withInputs (txSchedule 0 3 len.toNat)
      s.CanTransfer 0 ∧ ((0x20000000 : Word) ≠ 0 ∨ len = 0) ∧
      (∀ k, k < len.toNat → s.params.bufferOk (0x20000000 + BitVec.ofNat 32 k) = true) ∧
      s.inputs = txSchedule 0 3 len.toNat :=
  fun _ _ => ⟨reset_canTransfer _, .inl (by decide), fun _ _ => reset_bufferOk _, rfl⟩

theorem witness_MasterRxStoresEveryByte :
    ∀ ds ∈ [[(0x5A : Byte)], [0x11, 0x22, 0x33]],
      let s := State.reset.withInputs (rxSchedule 0 false ds)
      let len : Word := BitVec.ofNat 32 ds.length
      s.CanTransfer 0 ∧ s.MemoryCanonical ∧ (0x20000000 : Word) ≠ 0 ∧ len ≠ 0 ∧ ds.length = len.toNat ∧
      (∀ k, k < len.toNat → s.params.bufferOk (0x20000000 + BitVec.ofNat 32 k) = true) ∧
      s.inputs = rxSchedule 0 false ds := by
  intro ds hd
  refine ⟨reset_canTransfer _, rfl, by decide, ?_, ?_, fun _ _ => reset_bufferOk _, rfl⟩ <;>
    (revert ds; decide)

theorem witness_MemReadComposesTransmitAndReceive :
    ∀ width ∈ [(1 : Byte), 2],
      let ds : List Byte := [0x68, 0x69]
      let s := State.reset.withInputs (txSchedule 0 2 width.toNat ++ rxSchedule 0 false ds)
      s.CanTransfer 0 ∧ s.MemoryCanonical ∧ (width = 1 ∨ width = 2) ∧ (0x20000100 : Word) ≠ 0 ∧ (2 : Word) ≠ 0 ∧
      ds.length = (2 : Word).toNat ∧
      (∀ k, k < (2 : Word).toNat → s.params.bufferOk (0x20000100 + BitVec.ofNat 32 k) = true) ∧
      s.inputs = txSchedule 0 2 width.toNat ++ rxSchedule 0 false ds := by
  intro w hw
  exact ⟨reset_canTransfer _, rfl, by revert w; decide, by decide, by decide, by decide,
    fun _ _ => reset_bufferOk _, rfl⟩

/-- S9: M[0x20000200] = 0x75. -/
theorem witness_MemReadWireEqualsExplicitPair :
    let s : State := { State.reset with mem := [(0x20000200, 0x75)] }
    s.CanTransfer 0 ∧ s.MemoryCanonical ∧ (0x20000200 : Word) ≠ 0 ∧ s.params.bufferOk 0x20000200 = true ∧
    s.byteAt 0x20000200 = (0x0075 : Half).setWidth 8 ∧ (0x20000100 : Word) ≠ 0 ∧ (1 : Word) ≠ 0 ∧
    ([0x68] : List Byte).length = (1 : Word).toNat ∧
    ∀ k, k < (1 : Word).toNat → s.params.bufferOk (0x20000100 + BitVec.ofNat 32 k) = true :=
  ⟨⟨⟨rfl, rfl⟩, reset_has _ (by decide), reset_enabled 0 (by decide), rfl, rfl, by decide, by decide⟩,
    by unfold State.MemoryCanonical; decide, by decide, by decide, by decide, by decide, by decide, by decide,
    fun _ _ => reset_bufferOk _⟩

theorem controllersOnly_of {s : State} (h : s.inputs.all (fun
    | .run => true
    | .free _ _ => true
    | .ref _ _ => true
    | .dispatch => false
    | .reinit _ _ => false) = true) : s.ControllersOnly := by
  intro x hx
  have := List.all_eq_true.mp h x hx
  cases x <;> simp_all

/-- What the general clause asks: MEM_READ runs to OK under a controller, whose steps and the context's own are all there
is, and returns where it was issued. -/
theorem witness_MemReadWireEqualsExplicitPair_general :
    let s : State := { State.reset with
      mem    := [(0x20000200, 0x75)]
      inputs := txSchedule 0 2 1 ++ rxSchedule 0 false [0x68] }
    s.ControllersOnly ∧ s.byteAt 0x20000200 = (0x0075 : Half).setWidth 8 ∧
    ∃ t, exec (.memRead 0 0x68 0x75 1 0x20000100 1) s = .next t ∧
      (t.depth = s.depth ∧ t.trace.getLast? = some (.result 0 .MEM_READ (.status .ok))) := by
  exact ⟨controllersOnly_of (by decide), by decide, next_of (by decide)⟩

/-- These flags seen by every read, with this deadline and bus errors propagated. -/
def failing (sr1 : Half) (deadline : Option Nat) : State :=
  { on (regs 0x0401 0x0010 sr1 0) with
    params := { Params.default with propagateBusErrors := true, pollDeadline := deadline } }

theorem witness_AbortExitAfterBusError (sr1 : Half) (h : sr1 = 0x0400 ∨ sr1 = 0x0600) :
    let s := failing sr1 none
    s.Has 0 ∧ s.Quiet ∧ s.Enabled 0 ∧ (s.handle 0).transferState = .ready ∧ (1 : Word) ≠ 0 ∧
    s.params.propagateBusErrors = true ∧ (s.eng 0).lat.stopf = false ∧ (s.eng 0).regs.sr1.getLsbD 0 = false ∧
    (s.eng 0).regs.sr1 &&& 0x4F00 ≠ 0 :=
  ⟨⟨(by decide : 0 < 3), (by decide : 0 < 3)⟩, ⟨rfl, rfl, rfl⟩, (by decide : (0x0401 : Half).getLsbD 0 = true), rfl,
    by decide, rfl, rfl, show sr1.getLsbD 0 = false by rcases h with rfl | rfl <;> decide,
    show sr1 &&& 0x4F00 ≠ 0 by rcases h with rfl | rfl <;> decide⟩

theorem witness_AbortExitAfterBusError_timeout :
    ∀ d ∈ [0, 100],
      let s := failing 0x0010 (some d)
      s.Has 0 ∧ s.Quiet ∧ s.Enabled 0 ∧ (s.handle 0).transferState = .ready ∧ (s.eng 0).lat.stopf = false ∧
      (s.eng 0).regs.sr1.getLsbD 0 = false ∧ (s.eng 0).regs.sr1 &&& 0x4F00 = 0 ∧ s.params.pollDeadline = some d ∧
      d ≤ 100 := fun d hd =>
  ⟨⟨(by decide : 0 < 3), (by decide : 0 < 3)⟩, ⟨rfl, rfl, rfl⟩, (by decide : (0x0401 : Half).getLsbD 0 = true), rfl, rfl,
    (by decide : (0x0010 : Half).getLsbD 0 = false), (by decide : (0x0010 : Half) &&& 0x4F00 = 0), rfl,
    by revert d; decide⟩

/-- A receive in the poll of RxNE, its third read to come. -/
theorem witness_AbortExitAfterBusError_later (sr1 : Half) (h : sr1 = 0x0400 ∨ sr1 = 0x0010) :
    let f : Frame := ⟨.command .MASTER_RX, 0, [⟨.readSR1, .poll 0x0040 2 (.abort true)⟩], Locals.init, .status .ok⟩
    let s : State := { failing sr1 (some 3) with main := [f] }
    s.Quiet ∧ s.Enabled f.inst ∧ s.top = some f ∧ f.owner = .command .MASTER_RX ∧
    f.lines = ⟨.readSR1, .poll 0x0040 2 (.abort true)⟩ :: [] ∧ (s.eng 0).regs.sr1 &&& 0x0040 ≠ 0x0040 ∧
    ((sr1 = 0x0400 ∧ s.params.propagateBusErrors = true ∧ (s.eng 0).regs.sr1 &&& 0x4F00 ≠ 0) ∨
      (sr1 = 0x0010 ∧ (s.eng 0).regs.sr1 &&& 0x4F00 = 0 ∧ s.params.pollDeadline = some 3 ∧ 3 ≤ 2 + 1)) := by
  refine ⟨⟨rfl, rfl, rfl⟩, (by decide : (0x0401 : Half).getLsbD 0 = true), rfl, rfl, rfl, ?_, ?_⟩
  · show sr1 &&& 0x0040 ≠ 0x0040
    rcases h with rfl | rfl <;> decide
  · rcases h with rfl | rfl
    · exact .inl ⟨rfl, rfl, by decide⟩
    · exact .inr ⟨rfl, by decide, rfl, by decide⟩

theorem witness_SynchronousCommandFrame :
    let s := State.reset.withInputs (rxSchedule 0 false [0x11])
    (Instr.masterRx 0 0x20000000 1 0x68 false).synchronous = true ∧ s.ControllersOnly ∧ s.MemoryCanonical ∧
    ∃ t, exec (.masterRx 0 0x20000000 1 0x68 false) s = .next t :=
  ⟨rfl, controllersOnly_of (by decide), rfl, is_next (by decide)⟩

theorem witness_LegacyBlockingResult :
    (State.reset.withInputs (txSchedule 0 3 0)).ControllersOnly ∧ State.reset.params.propagateBusErrors = false ∧
    State.reset.params.pollDeadline = none ∧ (Instr.masterTx 0 0 0 0x68 true).synchronous = true ∧
    (Instr.masterTx 0 0 0 0x68 true).mnemonic = .MASTER_TX ∧
    ∃ t, exec (.masterTx 0 0 0 0x68 true) (State.reset.withInputs (txSchedule 0 3 0)) = .next t ∧ t.depth = 0 :=
  ⟨controllersOnly_of (by decide), rfl, rfl, rfl, rfl, next_of (by decide)⟩

theorem witness_LegacyBlockingResult_busy :
    (on (hand .busyRx 0 1 1)).inputs = [] ∧ ((on (hand .busyRx 0 1 1)).handle 0).transferState ≠ .ready ∧
    ∃ t, exec (.masterTx 0 0 0 0x68 true) (on (hand .busyRx 0 1 1)) = .next t ∧ t.depth = 0 :=
  ⟨rfl, by decide, next_of (by decide)⟩

theorem witness_StaleRequestIsWrittenBack :
    let c : HwChange := ⟨0x0001, 0x0003, 0, true, false⟩
    let s : State := { on (regs 0x0501 0x0010 0 0) with inputs := [.run, .free 0 c, .run] }
    s.Has 0 ∧ s.Unmarked ∧ s.Enabled 0 ∧ (s.eng 0).ctrl = .free ∧ c.startDone = true ∧ c.stop = false ∧
    (s.eng 0).regs.cr1.getLsbD 8 = true ∧ s.inputs = [.run, .free 0 c, .run] :=
  ⟨⟨(by decide : 0 < 3), (by decide : 0 < 3)⟩, ⟨rfl, rfl⟩, by unfold State.Enabled; decide, by decide, rfl, rfl, by decide, rfl⟩

theorem witness_AsynchronousStartArmsTheTransfer :
    State.reset.Has 1 ∧ State.reset.Quiet ∧ State.reset.Enabled 1 ∧ ((0 : Word) ≠ 0 ∨ (0 : Word) = 0) ∧ (1 : Word) ≠ 0 ∧
    (State.reset.handle 1).transferState = .ready ∧ (∃ f, masterTxItCmd 3 1 0 0 0x68 false = .ok f) ∧
    ∃ f, masterRxItCmd 3 1 1 1 0x68 false = .ok f :=
  ⟨reset_has _ (by decide), reset_quiet, reset_enabled _ (by decide), by decide, by decide, by decide, ⟨_, rfl⟩, ⟨_, rfl⟩⟩

theorem witness_StartWhileBusyIsRejected :
    let s := on (hand .busyRx 0 1 2)
    s.Has 0 ∧ s.Quiet ∧ (s.handle 0).transferState ≠ .ready ∧ ((0 : Word) ≠ 0 ∨ (0 : Word) = 0) ∧ (1 : Word) ≠ 0 :=
  ⟨on_has _, on_quiet _, by decide, by decide, by decide⟩

theorem witness_ClosesReleaseTheHandle :
    (on (hand .busyRx 0 1 2)).Has 0 ∧ (on (hand .busyRx 0 1 2)).Quiet ∧ (on (hand .busyRx 0 1 2)).Enabled 0 :=
  ⟨on_has _, on_quiet _, by unfold State.Enabled; decide⟩

/-- The event handler just entered with these status flags and handle. -/
def atEvent (sr1 sr2 : Half) (st : TransferState) (txRem rxRem total : Word) : State :=
  entered .ev (on (hand st txRem rxRem total ∘ regs 0x0401 0x0710 sr1 sr2))

theorem atEvent_eng (sr1 sr2 : Half) (st : TransferState) (txRem rxRem total : Word) :
    (atEvent sr1 sr2 st txRem rxRem total).eng 0 =
      hand st txRem rxRem total (regs 0x0401 0x0710 sr1 sr2 (State.reset.eng 0)) := rfl

/-- What the handler finds in its controller. -/
theorem atEvent_finds (sr1 sr2 : Half) (st : TransferState) (txRem rxRem total : Word) :
    let e := ((atEvent sr1 sr2 st txRem rxRem total).eng 0).latchPending
    e.regs.cr2 = 0x0710 ∧ e.regs.sr1 = sr1 ∧ e.regs.sr2 = sr2 ∧ e.h.transferState = st ∧ e.h.txRemaining = txRem ∧
      e.h.rxRemaining = rxRem ∧ e.h.rxExpectedTotal = total := ⟨rfl, rfl, rfl, rfl, rfl, rfl, rfl⟩

theorem atEvent_entry (sr1 sr2 : Half) (st : TransferState) (txRem rxRem total : Word) :
    (atEvent sr1 sr2 st txRem rxRem total).EventEntry 0 [] :=
  ⟨⟨(by decide : 0 < 3), (by decide : 0 < 3)⟩, rfl, ⟨rfl, rfl, rfl⟩, rfl⟩

theorem atEvent_bufferOk (sr1 sr2 : Half) (st : TransferState) (txRem rxRem total a : Word) :
    (atEvent sr1 sr2 st txRem rxRem total).params.bufferOk a = true := reset_bufferOk a

theorem atEvent_enabled (sr1 sr2 : Half) (st : TransferState) (txRem rxRem total : Word) :
    (atEvent sr1 sr2 st txRem rxRem total).Enabled 0 := by
  unfold State.Enabled
  rw [atEvent_eng]
  exact (by decide : (0x0401 : Half).getLsbD 0 = true)

theorem witness_EventHandlerRunsItsSixChecks :
    (atEvent 0 0 .ready 0 0 0).EventEntry 0 [] ∧
    (((atEvent 0 0 .ready 0 0 0).eng 0).latchPending.regs.sr1 &&& 0x0017 = 0 ∧
      ((atEvent 0 0 .ready 0 0 0).eng 0).latchPending.regs.sr1 &&& 0x00C0 = 0) ∧
    (entered .ev State.reset).EventEntry 0 [] ∧
    ((entered .ev State.reset).eng 0).latchPending.regs.cr2.getLsbD 9 = false :=
  ⟨atEvent_entry .., by decide,
    ⟨⟨(by decide : 0 < 3), (by decide : 0 < 3)⟩, rfl, ⟨rfl, rfl, rfl⟩, rfl⟩, by decide⟩

/-- Flags with nothing to do: BTF in `BUSY_RX`; BTF and TxE in `READY`; TxE with no byte left; RxNE in `BUSY_TX`. -/
theorem witness_EventHandlerRunsItsSixChecks_nothing :
    ∀ x ∈ [((0x0004 : Half), TransferState.busyRx, (0 : Word)), (0x0084, .ready, 0), (0x0080, .busyTx, 0),
        (0x0040, .busyTx, 1)],
      let s := atEvent x.1 0x0003 x.2.1 x.2.2 0 0
      let e := (s.eng 0).latchPending
      s.EventEntry 0 [] ∧ e.regs.cr2.getLsbD 9 = true ∧ e.regs.sr1 &&& 0x0013 = 0 ∧
      (e.regs.sr1.getLsbD 2 = true →
        e.h.transferState ≠ .busyTx ∨ e.regs.sr1.getLsbD 7 = false ∨ e.h.txRemaining ≠ 0) ∧
      (e.regs.cr2.getLsbD 10 = true → e.regs.sr1.getLsbD 7 = true → e.regs.sr2.getLsbD 0 = true ∧
        (e.h.transferState ≠ .busyTx ∨ e.h.txRemaining = 0)) ∧
      (e.regs.cr2.getLsbD 10 = true → e.regs.sr1.getLsbD 6 = true → e.regs.sr2.getLsbD 0 = true ∧
        e.h.transferState ≠ .busyRx) :=
  fun x h => ⟨atEvent_entry .., by revert x; decide⟩

/-- Several flags in one entry: ADDR, STOPF and RxNE with one byte of one left. The six checks go through. -/
theorem witness_EventHandlerRunsItsSixChecks_all :
    let s := atEvent 0x0052 0x0003 .busyRx 0 1 1
    s.EventEntry 0 [] ∧ s.Enabled 0 ∧ ∃ y, Served.sixChecks s.params 0 ⟨(s.eng 0).latchPending, [], s.mem⟩ = some y :=
  ⟨atEvent_entry .., atEvent_enabled .., Option.isSome_iff_exists.mp (by decide)⟩

/-- That entry: ADDR is cleared with ACK off, STOPF by the write that turned ACK off, so that no EV_STOP is emitted, and the
byte ends the transfer (43 R240). -/
theorem test_evIrq_serves_several_flags :
    after (fun t => ((t.eng 0).cbTrace, (t.eng 0).regs.sr1, (t.handle 0).transferState))
      (exec (.evIrq 0) (atEvent 0x0052 0x0003 .busyRx 0 1 1)) = some ([.rxCmplt], 0, .ready) := by decide

theorem witness_EventHandlerSendsAddress :
    ∀ st ∈ [TransferState.ready, .busyTx, .busyRx],
      let s := atEvent 0x0001 0x0003 st 1 1 1
      s.EventEntry 0 [] ∧ (s.eng 0).latchPending.regs.cr2.getLsbD 9 = true ∧
      (s.eng 0).latchPending.regs.sr1 &&& 0x00D7 = 0x0001 ∧ (s.eng 0).latchPending.h.transferState = st :=
  fun st h => ⟨atEvent_entry .., by revert st; decide⟩

theorem witness_EventHandlerClearsAddress :
    ∀ total ∈ [(1 : Word), 2],
      let s := atEvent 0x0002 0x0003 .busyRx 0 total total
      s.EventEntry 0 [] ∧ s.Enabled 0 ∧ (s.eng 0).latchPending.regs.cr2.getLsbD 9 = true ∧
      (s.eng 0).latchPending.regs.sr1 &&& 0x00D7 = 0x0002 :=
  fun total _ => ⟨atEvent_entry .., atEvent_enabled .., by
    rw [(atEvent_finds ..).1, (atEvent_finds ..).2.1]
    decide⟩

theorem witness_EventHandlerEndsTransmit :
    let s := atEvent 0x0084 0x0007 .busyTx 0 0 0
    s.EventEntry 0 [] ∧ s.Enabled 0 ∧ (s.eng 0).latchPending.regs.cr2.getLsbD 9 = true ∧
    (s.eng 0).latchPending.regs.sr1 &&& 0x00D7 = 0x0084 ∧ (s.eng 0).latchPending.h.transferState = .busyTx ∧
    (s.eng 0).latchPending.h.txRemaining = 0 :=
  ⟨atEvent_entry .., atEvent_enabled .., by decide⟩

theorem witness_EventHandlerAcknowledgesStop :
    let s := atEvent 0x0010 0 .ready 0 0 0
    s.EventEntry 0 [] ∧ s.Enabled 0 ∧ (s.eng 0).latchPending.regs.cr2.getLsbD 9 = true ∧
    (s.eng 0).latchPending.regs.sr1 &&& 0x00D7 = 0x0010 := ⟨atEvent_entry .., atEvent_enabled .., by decide⟩

theorem witness_EventHandlerSendsNextByte :
    ∀ sr1 ∈ [(0x0080 : Half), 0x0084],
    let s := atEvent sr1 0x0007 .busyTx 1 0 0
    s.EventEntry 0 [] ∧ (s.eng 0).latchPending.regs.cr2.getLsbD 9 = true ∧
    (s.eng 0).latchPending.regs.cr2.getLsbD 10 = true ∧ (s.eng 0).latchPending.regs.sr1 &&& 0x00D3 = 0x0080 ∧
    (s.eng 0).latchPending.regs.sr2.getLsbD 0 = true ∧ (s.eng 0).latchPending.h.transferState = .busyTx ∧
    (s.eng 0).latchPending.h.txRemaining ≠ 0 ∧ s.params.bufferOk (s.eng 0).latchPending.h.txBuffer = true := by
  intro sr1 h
  refine ⟨atEvent_entry .., ?_, ?_, ?_, ?_, (atEvent_finds ..).2.2.2.1, ?_, atEvent_bufferOk ..⟩
  · rw [(atEvent_finds ..).1]; decide
  · rw [(atEvent_finds ..).1]; decide
  · rw [(atEvent_finds ..).2.1]; simp only [List.mem_cons, List.not_mem_nil, or_false] at h; rcases h with rfl | rfl <;> decide
  · rw [(atEvent_finds ..).2.2.1]; decide
  · rw [(atEvent_finds ..).2.2.2.2.1]; decide

theorem witness_EventHandlerSlaveCallbacks (sr1 sr2 : Half) (h1 : sr1 = 0x0080 ∨ sr1 = 0x0040)
    (h2 : sr2 = 0x0002 ∨ sr2 = 0x0006) :
    let s := atEvent sr1 sr2 .ready 0 0 0
    s.EventEntry 0 [] ∧ (s.eng 0).latchPending.regs.cr2.getLsbD 9 = true ∧
    (s.eng 0).latchPending.regs.cr2.getLsbD 10 = true ∧ (s.eng 0).latchPending.regs.sr2.getLsbD 0 = false ∧
    (s.eng 0).latchPending.regs.sr1 &&& 0x00D7 = sr1 := by
  dsimp only
  rw [(atEvent_finds ..).1, (atEvent_finds ..).2.1, (atEvent_finds ..).2.2.1]
  refine ⟨atEvent_entry .., by decide, by decide, ?_, ?_⟩
  · rcases h2 with rfl | rfl <;> decide
  · rcases h1 with rfl | rfl <;> decide

/-- RxNE as master receiver, alone or with BTF. -/
def atReceive (sr1 : Half) (rem total : Word) : State := atEvent sr1 0x0003 .busyRx 0 rem total

theorem atReceive_entry (rem total : Word) (sr1 : Half) (h : sr1 &&& 0x00D3 = 0x0040) :
    (atReceive sr1 rem total).ReceiveEntry 0 [] where
  toEventEntry := atEvent_entry ..
  enabled := atEvent_enabled ..
  itevten := by rw [atReceive, atEvent_eng]; exact (by decide : (0x0710 : Half).getLsbD 9 = true)
  itbufen := by rw [atReceive, atEvent_eng]; exact (by decide : (0x0710 : Half).getLsbD 10 = true)
  flags := by rw [atReceive, atEvent_eng]; exact h
  master := by rw [atReceive, atEvent_eng]; exact (by decide : (0x0003 : Half).getLsbD 0 = true)
  busy := by rw [State.handle, atReceive, atEvent_eng]; rfl
  buffer := reset_bufferOk _
  noHeld := by rw [atReceive, atEvent_eng]; rfl
  memory := rfl

theorem witness_EventHandlerReceivesByte :
    (atReceive 0x0040 2 2).ReceiveEntry 0 [] ∧ (atReceive 0x0044 3 3).ReceiveEntry 0 [] ∧
    (atReceive 0x0040 0xFFFFFFFF 1).ReceiveEntry 0 [] ∧
    (((atReceive 0x0040 2 2).eng 0).latchPending.h.rxRemaining ≠ 0 ∧
      ((atReceive 0x0040 2 2).eng 0).latchPending.h.rxRemaining ≠ 1) :=
  ⟨atReceive_entry _ _ _ rfl, atReceive_entry _ _ _ rfl, atReceive_entry _ _ _ rfl, by decide⟩

theorem witness_EventHandlerEndsReceive :
    (atReceive 0x0040 1 1).ReceiveEntry 0 [] ∧ (atReceive 0x0044 1 2).ReceiveEntry 0 [] ∧
    ((atReceive 0x0040 1 1).eng 0).latchPending.h.rxRemaining = 1 :=
  ⟨atReceive_entry _ _ _ rfl, atReceive_entry _ _ _ rfl, rfl⟩

theorem witness_ReceiveUnderflowFaults :
    (atReceive 0x0040 0 1).ReceiveEntry 0 [] ∧ ((atReceive 0x0040 0 1).handle 0).rxRemaining = 0 :=
  ⟨atReceive_entry _ _ _ rfl, rfl⟩

theorem witness_ErrorHandlerClearsAndReports :
    ∀ cr2 ∈ [(0x0710 : Half), 0x0010],
      let s := entered .er (on (regs 0x0401 cr2 0x4F00 0))
      s.Has 0 ∧ s.AtHandler .er 0 [] ∧ s.Quiet ∧ s.params.app = [] :=
  fun _ _ => ⟨⟨(by decide : 0 < 3), (by decide : 0 < 3)⟩, rfl, ⟨rfl, rfl, rfl⟩, rfl⟩

theorem witness_CallbackRunsTheApplication :
    (let s : State := { State.reset with handlers := [⟨.ev, 0, [⟨.callback .txCmplt, .straight⟩], Locals.init, .none⟩] }
     s.Quiet ∧ s.handlers = ⟨.ev, 0, [⟨.callback .txCmplt, .straight⟩], Locals.init, .none⟩ :: []) ∧
    (∀ x, (calling x).Quiet ∧ (calling x).handlers = Frame.callback 0 .stop :: [⟨.ev, 0, [], Locals.init, .none⟩] ∧
      (Frame.callback 0 .stop).lines = [⟨.app, .straight⟩] ∧ (calling x).MemoryCanonical ∧
      (∀ p, (calling x).params.bufferOk p = true) ∧ ∃ g, appChoice (Frame.callback 0 .stop) (calling x) = some (x, g)) ∧
    ((let c := appCmd 0x23 0
      let s := calling (.command c)
      decode (c.record (Frame.callback 0 .stop) s) = .ok (.closeRx 0) ∧ ∃ h, softwareCmd s.params.nInst (.closeRx 0) = .ok h) ∧
     (let c := appCmd 0x23 3
      let s := calling (.command c)
      decode (c.record (Frame.callback 0 .stop) s) = .ok (.closeRx 3) ∧
        softwareCmd s.params.nInst (.closeRx 3) = .error (.noSuchInstance 3)) ∧
     (let c := appCmd 0x32 0
      decode (c.record (Frame.callback 0 .stop) (calling (.command c))) = .error (.unknownCommand 0x32))) ∧
    let s : State := { State.reset with handlers := [(Frame.callback 0 .stop).finish .none] }
    s.Quiet ∧ s.handlers = (Frame.callback 0 .stop).finish .none :: [] ∧
      ((Frame.callback 0 .stop).finish .none).owner = .app :=
  ⟨⟨⟨rfl, rfl, rfl⟩, rfl⟩, fun x => ⟨⟨rfl, rfl, rfl⟩, rfl, rfl, rfl, fun p => by
      have := p.isLt
      simp [calling, State.reset, Params.default, Params.bufferOk, Region.holds, this], _, rfl⟩,
    ⟨⟨by decide, _, rfl⟩, ⟨by decide, rfl⟩, by decide⟩, ⟨rfl, rfl, rfl⟩, rfl, rfl⟩

/-- 44 R275: an application for the whole run, that answers EV_ERROR_AF (code 5) with CLOSE_TX (0x22) on the same controller
and every other event with nothing. -/
def closeOnAF : AppProgram :=
  [[⟨.op .eq .code (.const 5), [], .command ⟨.const 0x22, .inst, .const 0, .const 0, .const 0, .const 0, .const 0, .const 0⟩,
    1⟩]]

/-- 44 R276, 95 V3.11 with that application: the AF closes the transfer, and ER_IRQ goes on; the BERR of the same entry does
not. -/
theorem test_app_depends_on_its_code :
    after (fun t => (t.trace.drop 2, (t.handle 0).transferState))
      (exec (.erIrq 0) { entered .er (on (hand .busyTx 1 0 0 ∘ regs 0x0401 0x0710 0x0500 0)) with
        params := { Params.default with app := closeOnAF } }) =
      some ([W .sr1 0xDE00, CB .errorBerr, R .sr1 0x0400, R .sr1 0x0400, W .sr1 0xDB00, CB .errorAf,
        R .cr2 0x0710, W .cr2 0x0310, R .cr2 0x0310, W .cr2 0x0110, .result 0 .CLOSE_TX .none, R .sr1 0, R .sr1 0],
        .ready) := by decide

/-- 44 R276, R277: an application that reads DR for ever never returns, and its handler stays where it is. -/
theorem test_app_may_never_return :
    let s : State := { State.reset with
      handlers := [Frame.callback 0 .dataRcv, ⟨.ev, 0, [], Locals.init, .none⟩]
      params := { Params.default with app := [[⟨.const 1, [], .readDR 0, 0⟩]] } }
    after (fun t => (t.trace.length, t.handlers.length)) (step s) = some (128, 2) := by decide

/-- 44 R276: as a slave, the application stores the byte it reads from DR. -/
theorem test_app_stores_received_byte :
    after (fun t => (t.mem, t.handlers)) (step { State.reset with
      handlers := [Frame.callback 0 .dataRcv]
      engines := State.reset.engines.map fun e => { e with regs := { e.regs with dr := 0x5A } }
      params := { Params.default with
        app := [[⟨.const 1, [], .readDR 0, 1⟩], [⟨.const 1, [], .memWrite (.const 0x20000000) (.var 0), 2⟩]] } }) =
      some ([(0x20000000, 0x5A)], []) := by decide

/-- 00 R12, 60 R311: a command the application gives no controller marks the run; what was done before it stays. -/
theorem test_refused_in_callback_keeps_accesses :
    after (fun t => (t.trace, t.refused, t.handlers.length))
      (exec (.erIrq 0) { entered .er (on (regs 0x0401 0x0710 0x0100 0)) with
        params := { Params.default with app := [[⟨.const 1, [], .command (appCmd 0x22 3), 1⟩]] } }) =
      some ([R .cr2 0x0710, R .sr1 0x0100, W .sr1 0xDE00, CB .errorBerr], some (.noSuchInstance 3), 2) := by decide

/-- 10 R39, 20 R77, R78: a DR write hands a byte over; a DR read still returns the byte received last. -/
theorem test_write_leaves_received_byte :
    let s := (on fun e => { e with regs := { e.regs with dr := 0x5A } }).regWrite 0 .dr 0x77
    (s.eng 0).regs.tdr = 0x77 ∧ (s.eng 0).value .dr = 0x5A := by decide

/-- 70 R352: a stale RxNE beside SB: the address byte is sent, and the byte stored is the one received before. -/
theorem test_evIrq_stale_received_byte :
    after (fun t => (t.trace.drop 2, t.mem)) (exec (.evIrq 0) (entered .ev (on fun e =>
      let x := hand .busyRx 0 3 3 (regs 0x0401 0x0710 0x0041 0x0003 e)
      { x with
        h := { x.h with rxBuffer := 0x20000000, targetDeviceAddress := 0x68 }
        regs := { x.regs with dr := 0x5A } }))) =
      some ([W .dr 0xD1, R .cr2 0x0710, R .sr1 0x0040, R .cr2 0x0710, R .sr1 0x0040, R .cr2 0x0710, R .sr1 0x0040,
        R .cr2 0x0710, R .sr1 0x0040, R .cr2 0x0710, R .sr1 0x0040, R .sr2 0x0003, R .dr 0x5A,
        .memWrite 0x20000000 0x5A], [(0x20000000, 0x5A)]) := by decide

/-- 30 R134: the application's DR write leaves the reserved bits 0. -/
theorem test_app_writes_one_byte :
    after (·.trace) (step { State.reset with
      handlers := [Frame.callback 0 .dataReq]
      params := { Params.default with app := [[⟨.const 1, [], .writeDR (.const 0x1A5), 1⟩]] } }) =
      some [W .dr 0xA5] := by decide

/-- 20 R73, R94: the addresses of I2C2's DR and of I2C1's CR1. -/
theorem test_register_addresses :
    (State.reset.eng 1).regAddress .dr = 0x40005810 ∧ (State.reset.eng 0).regAddress .cr1 = 0x40005400 := by decide

/-- 43 R247, 00 R14: the fault is recorded in the state that holds the accesses before it, and the next step answers it. -/
theorem test_fault_keeps_accesses :
    after (fun t => (t.trace.length, t.faults, t.handlers.length)) (exec (.evIrq 0) (atReceive 0x0040 0 1)) =
      some (13, [.rxUnderflow 0], 1) ∧
    runMarked 2 (atReceive 0x0040 0 1) = runMarked 1 (atReceive 0x0040 0 1) := by decide

/-- 00 R9, 30 R124: with five controllers, controller 4 is there; with one, controller 1 is not. -/
theorem test_number_of_controllers :
    after (·.trace) (exec (.closeTx 4) { State.reset with
      engines := (List.range 5).map fun i => Engine.launch i Launch.default ⟨0x40000000, true⟩ .free
      params := { Params.default with nInst := 5 } }) =
      some [.regRead 4 .cr2 0x0010, .regWrite 4 .cr2 0x0010, .regRead 4 .cr2 0x0010, .regWrite 4 .cr2 0x0010,
        .result 4 .CLOSE_TX .none] ∧
    refusal (exec (.closeTx 1) { State.reset with params := { Params.default with nInst := 1 } }) =
      some (.noSuchInstance 1) := by decide

/-- A state off the reset path, for the invariants: an event handler that runs, a byte stored, an input to come. -/
def running : State :=
  { atEvent 0x0084 0x0007 .busyTx 0 0 0 with mem := [(0x20000000, 0x11)], inputs := [.run] }

theorem witness_StepKeepsMemoryCanonical : running.MemoryCanonical ∧ ∃ t, step running = .next t :=
  ⟨by unfold State.MemoryCanonical; decide, is_next (by decide)⟩

theorem witness_StepKeepsLinesLatched : running.latchAll.LinesLatched ∧ ∃ t, step running.latchAll = .next t := by
  refine ⟨?_, is_next (by decide)⟩
  intro i
  rw [latchAll_eng]
  exact ⟨fun h h' => by rw [Engine.latchPending] at h h' ⊢; simp_all [Engine.evLine],
    fun h h' => by rw [Engine.latchPending] at h h' ⊢; simp_all [Engine.erLine]⟩

theorem witness_StepKeepsHandlersNested :
    running.HandlersNested ∧ nested.HandlersNested ∧ ∃ t, step running = .next t := by
  refine ⟨?_, ?_, is_next (by decide)⟩
  · refine ⟨by decide, fun f hf => ?_⟩
    cases hf
    rfl
  · refine ⟨by decide, fun f hf => ?_⟩
    cases hf
    rfl

theorem witness_StepKeepsTheLaunchedControlRegister :
    State.reset.LaunchKept ∧ ∃ t, step { State.reset with program := [0x0001] } = .next t := by
  refine ⟨⟨?_, ?_, ?_⟩, is_next (by decide)⟩
  · intro i
    match i with
    | 0 | 1 | 2 => exact ⟨by decide, by decide⟩
    | n + 3 =>
      have h : State.reset.eng (n + 3) = Engine.absent := rfl
      rw [h]
      exact ⟨by decide, by decide⟩
  · intro f hf
    cases hf
  · intro f hf
    cases hf

theorem witness_StepKeepsConfiguration : running.NoReinit 0 ∧ ∃ t, step running = .next t := by
  refine ⟨fun l h => ?_, is_next (by decide)⟩
  cases h with
  | tail _ h => cases h

theorem witness_TracesOnlyGrow : ∃ t, step running = .next t ∧ running.trace.length < t.trace.length :=
  next_of (by decide)

end Sys2Proof.Tests
end

/-! The step of the system by the position it starts from (10 R33, R47, 60 R310), and the two traces (10 R32, 00 R14). -/

namespace Sys2Proof.Machine

variable {s t : State}

/-! ## The step, by marks and position -/

theorem step_refused {r : Refusal} (h : s.refused = some r) : step s = .refused r := by
  simp only [step, h]

theorem step_faulted {e : Fault} {es : List Fault} (hr : s.refused = none) (hf : s.faults = e :: es) :
    step s = .fault e := by
  simp only [step, hr, hf]

theorem step_idle (hu : s.Unmarked) (hm : s.main = []) (hh : s.handlers = []) : step s = idleStep s := by
  simp [step, hu.1, hu.2, State.depth, hm, hh]

/-- With a handler context that is not idle, the step is that of the position it stands at. -/
theorem step_handler {f : Frame} {below : List Frame} (hu : s.Unmarked) (hh : s.handlers = f :: below) :
    step s = busyStep s := by
  simp [step, hu.1, hu.2, State.depth, hh]

/-- The fetch issues the command the next record decodes to (10 R33, 30 R123). -/
theorem fetch_decoded {w : CmdWord} {rest : List CmdWord} {x : Instr} (hp : s.program = w :: rest)
    (hd : decode w = .ok x) : s.fetch = exec x (s.withProgram rest) := by
  simp only [State.fetch, hp, hd]

/-- A handler just entered is not one of the other kind. -/
theorem entered_atHandler {k k' : HandlerKind} {i : Idx} {below : List Frame} (h : s.AtHandler k i below) :
    s.entered k' i = decide (k' = k) := by
  rw [Bool.eq_iff_iff, entered_iff, h]
  cases k <;> cases k' <;> simp [HandlerKind.owner]

/-- The step of a handler just entered is the command the dispatch issues (60 R310, 30 R137). -/
theorem step_atHandler {k : HandlerKind} {i : Idx} {below : List Frame} (hu : s.Unmarked)
    (h : s.AtHandler k i below) : step s = runHandler k i s := by
  have hev := entered_atHandler (k' := .ev) h
  have her := entered_atHandler (k' := .er) h
  rw [step_handler hu h, busyStep, h]
  cases k <;> simp [hev, her, exec, execEvIrq, execErIrq]

/-! ## Marked runs -/

/-- Where the mark of a step's outcome changes nothing, no number of steps does. -/
theorem runMarked_fixed (h : s.mark (step s) = s) : ∀ n, runMarked n s = s
  | 0 => rfl
  | n + 1 => by rw [runMarked, h, runMarked_fixed h n]

/-! ## The observed trace and the callback traces -/

/-- Every move but a re-initialisation only appends to the observed trace (00 R14). -/
theorem Kept.tracePrefix (tr : List Event) : Kept fun s => tr <+: s.trace := by
  have append : ∀ {l : List Event} (xs), tr <+: l → tr <+: l ++ xs := fun xs h => h.trans (List.prefix_append _ xs)
  constructor <;> intro s
  case leave => intro f hs; rw [leave_trace]; exact append _ hs
  case regRead | regWrite | memRead | memWrite | emitCallback => intros; exact append _ ‹_›
  all_goals (intros; simpa)

/-- Every move but a re-initialisation only appends to the callback trace of a controller (10 R32). -/
theorem Kept.callbackPrefix (i : Idx) (cs : List EventCode) :
    Kept fun s => ∀ j, j = i → cs <+: (s.eng j).cbTrace := by
  have same : ∀ {j : Idx} {e e' : Engine}, e'.cbTrace = e.cbTrace → (j = i → cs <+: e.cbTrace) →
      j = i → cs <+: e'.cbTrace := fun he h => he ▸ h
  refine Kept.ofEngine (Q := fun j e => j = i → cs <+: e.cbTrace) ?latch ?read ?write ?handle ?callback ?clear ?free ?ref
  case latch => exact fun _ _ => same rfl
  case read => intro _ e r; obtain ⟨-, hc, -⟩ := afterRead_keeps e r; exact same hc
  case write => intro _ e r v; obtain ⟨-, hc, -⟩ := afterWrite_keeps e r v; exact same hc
  case handle => exact fun _ _ _ _ _ => same rfl
  case callback => exact fun _ _ c h hj => (h hj).trans (List.prefix_append _ [c])
  case clear => intro _ e k; cases k <;> exact same rfl
  case free => intro _ e c; obtain ⟨-, hc, -⟩ := applyFreeInput_keeps e c; exact same hc
  case ref => intro _ e x; obtain ⟨-, hc, -⟩ := applyRef_keeps e x; exact same hc

/-- No move adds a re-initialisation to the inputs to come. -/
theorem Kept.noReinit (i : Idx) : Kept fun s => s.NoReinit i := by
  have h : (fun s : State => s.NoReinit i) = fun s => ∀ x ∈ s.inputs, ∀ l, x ≠ .reinit i l := by
    funext s
    exact propext ⟨fun hn x hx l hxl => hn l (hxl ▸ hx), fun hn l hl => hn _ hl l rfl⟩
  rw [h]
  exact Kept.inputs

/-- A step only appends to the observed trace: a re-initialisation leaves it as it is (log 14). -/
theorem step_trace_prefix (h : step s = .next t) : s.trace <+: t.trace :=
  (Kept.tracePrefix s.trace).step (fun _ hu _ _ _ _ _ => hu) List.prefix_rfl h

/-- A step only appends to the callback trace of a controller that no coming input initialises anew: what initialises
another controller leaves this one's trace. -/
theorem step_callback_prefix {i : Idx} (hi : s.NoReinit i) (h : step s = .next t) :
    (s.eng i).cbTrace <+: (t.eng i).cbTrace := by
  have hkept := (Kept.noReinit i).and (Kept.callbackPrefix i (s.eng i).cbTrace)
  refine (hkept.step ?_ ⟨hi, fun j hj => hj ▸ List.prefix_rfl⟩ h).2 i rfl
  rintro u ⟨hno, hcb⟩ k l xs hx -
  refine ⟨(Kept.noReinit i).withInputs u _ xs hx hno, ?_⟩
  rintro j rfl
  have hkj : k ≠ j := by
    rintro rfl
    exact hno l (hx ▸ List.mem_cons_self)
  rw [State.reinit, eng_setEng_ne _ _ _ _ hkj]
  exact hcb _ rfl

/-! ## The statements settled -/

/-- Settles O60: both traces are kept as prefixes by every move (`Kept`), the callback trace but for its own
controller's re-initialisation. -/
theorem tracesOnlyGrow : Obligations.TracesOnlyGrow := by
  intro s t h
  refine ⟨?_, fun i hi => ?_⟩
  · obtain ⟨tr, htr⟩ := step_trace_prefix h
    exact ⟨tr, htr.symm⟩
  · obtain ⟨cs, hcs⟩ := step_callback_prefix hi h
    exact ⟨cs, hcs.symm⟩

/-- Settles O18, by the position the step starts from: idle in both contexts, or a handler just entered. -/
theorem stepRunsTheDecodedCommand : Obligations.StepRunsTheDecodedCommand := by
  refine ⟨fun s w rest x hu hm hh hp hd => ⟨fun hi => ?_, fun xs hi => ?_⟩, fun s i below hu =>
    ⟨step_atHandler hu, step_atHandler hu⟩⟩
  · rw [step_idle hu hm hh, idleStep, hi]
    exact fetch_decoded hp hd
  · rw [step_idle hu hm hh, idleStep, hi]
    exact fetch_decoded hp hd

/-- Settles O19: a marked run's step answers the mark, and that outcome marks nothing anew. -/
theorem marksAreNeverCleared : Obligations.MarksAreNeverCleared := by
  refine fun s => ⟨fun r hr => ?_, fun e es hr hf => ?_⟩
  · have h := step_refused hr
    exact ⟨h, runMarked_fixed (by simp [h, State.mark, hr])⟩
  · have h := step_faulted hr hf
    exact ⟨h, runMarked_fixed (by rw [h, State.mark])⟩

end Sys2Proof.Machine

/-! Caller memory, what register accesses and the controllers' steps do to an engine, the CR1 that every step keeps, and
contexts stuck at a buffer access (20 R70 to R88). -/

namespace Sys2Proof.Machine

variable {s t : State} {i : Idx} {e : Engine} {f f' : Frame} {a : Word} {p : RefPhase}

/-! ## Caller memory -/

/-- Every move keeps the canonical form of caller memory: only a buffer write changes memory (20 R71). -/
theorem Kept.memoryCanonical : Kept State.MemoryCanonical := by
  constructor <;> intro s
  case memWrite => intro a b hs; exact s.memWrite_wf a b hs
  all_goals (intros; simpa [State.MemoryCanonical])

/-! ## CR1 as launch left it (70 R342) -/

/-- A merge takes each bit from the one value or the other. -/
theorem mergeMask_bit {r v w : Half} {k : Nat} (hk : k < 16) :
    (mergeMask r v w).getLsbD k = if w.getLsbD k then v.getLsbD k else r.getLsbD k := by
  simp only [mergeMask, BitVec.getLsbD_or, BitVec.getLsbD_and, BitVec.getLsbD_not, hk, decide_true, Bool.true_and]
  cases w.getLsbD k <;> simp

/-- CR1 is as launch left it exactly if, START, STOP and ACK aside, PE is its one bit set. -/
theorem cr1Kept_iff {v : Half} :
    cr1Kept v ↔ ∀ k, k < 16 → (0x0700 : Half).getLsbD k = false → v.getLsbD k = decide (k = 0) := by
  have hmask : ∀ k < 16, (0x0700 : Half).getLsbD k = false → cr1KeptZero.getLsbD k = !decide (k = 0) := by decide
  have hout : ∀ k < 16, (0x0700 : Half).getLsbD k = true → cr1KeptZero.getLsbD k = false := by decide
  constructor
  · rintro ⟨hpe, hz⟩ k hk hm
    by_cases h0 : k = 0
    · subst h0; simpa using hpe
    · have hbit := congrArg (fun x => x.getLsbD k) hz
      simpa [hmask k hk hm, h0] using hbit
  · intro h
    refine ⟨by simpa using h 0 (by decide) (by decide), Half.ext_bits fun k hk => ?_⟩
    cases hm : (0x0700 : Half).getLsbD k
    · simp [h k hk hm, hmask k hk hm]
    · simp [hout k hk hm]

/-- A mask of START, STOP and ACK has no other bit. -/
theorem cr1MaskOk_bit {m : Half} (hm : cr1MaskOk m = true) {k : Nat} (hk : (0x0700 : Half).getLsbD k = false) :
    m.getLsbD k = false := by
  have h : m &&& 0x0700 = m := by simpa [cr1MaskOk] using hm
  rw [← h, BitVec.getLsbD_and, hk, Bool.and_false]

theorem cr1Kept.setBits {v m : Half} (hv : cr1Kept v) (hm : cr1MaskOk m = true) : cr1Kept (v ||| m) := by
  rw [cr1Kept_iff] at hv ⊢
  intro k hk h
  rw [BitVec.getLsbD_or, cr1MaskOk_bit hm h, Bool.or_false, hv k hk h]

theorem cr1Kept.clearBits {v m : Half} (hv : cr1Kept v) (hm : cr1MaskOk m = true) : cr1Kept (v &&& ~~~m) := by
  rw [cr1Kept_iff] at hv ⊢
  intro k hk h
  rw [BitVec.getLsbD_and, BitVec.getLsbD_not, cr1MaskOk_bit hm h, hv k hk h]
  simp [hk]

/-- Two values that agree but for START and STOP are kept alike. -/
theorem cr1Kept.congr {v v' : Half} (hv : cr1Kept v) (h : v' &&& ~~~0x0300 = v &&& ~~~0x0300) : cr1Kept v' := by
  have hmask : ∀ k < 16, (0x0700 : Half).getLsbD k = false → (~~~0x0300 : Half).getLsbD k = true := by decide
  rw [cr1Kept_iff] at hv ⊢
  intro k hk hm
  have hbit := congrArg (fun x => x.getLsbD k) h
  simp only [BitVec.getLsbD_and, hmask k hk hm, Bool.and_true] at hbit
  rw [hbit, hv k hk hm]

/-- A CR1 write of a kept value over a kept value leaves one: PE stays 1, so 20 R84 does not act. -/
theorem cr1Kept.afterWrite {w : Word} (he : cr1Kept e.regs.cr1) (hw : cr1Kept (w.setWidth 16)) :
    cr1Kept (e.afterWrite w .cr1).regs.cr1 := by
  have hm : cr1Kept (mergeMask e.regs.cr1 (w.setWidth 16) cr1Writable) := by
    rw [cr1Kept_iff] at he hw ⊢
    intro k hk h
    rw [mergeMask_bit hk, hw k hk h, he k hk h, ite_self]
  rw [writeCR1_eq rfl hm.1]
  exact hm

/-! ## Positions whose CR1 writes write back what was read (20 R74) -/

/-- The register a line leaves as the one read last. -/
def heldAfter : Act → Option RmwReg
  | .readW r => some r
  | _ => none

theorem heldAfter_eq_none {a : Act} (h : ∀ r, a ≠ .readW r) : heldAfter a = none := by
  cases a <;> simp_all [heldAfter]

/-- What `rmwOk` asks of one line. -/
def rmwLineOk (held : Option RmwReg) : Line → Bool
  | ⟨.readW _, nx⟩ => decide (nx = .straight)
  | ⟨.writeOr r m, _⟩ => decide (held = some r) && (decide (r = .cr2) || cr1MaskOk m)
  | ⟨.writeAndNot r m, _⟩ => decide (held = some r) && (decide (r = .cr2) || cr1MaskOk m)
  | ⟨_, _⟩ => true

theorem rmwOk_cons (held : Option RmwReg) (x : Line) (rest : List Line) :
    rmwOk held (x :: rest) = (rmwLineOk held x && rmwOk (heldAfter x.act) rest) := by
  obtain ⟨a, nx⟩ := x
  cases a <;> simp [rmwOk, rmwLineOk, heldAfter]

/-- Lines that need nothing read before them may follow any read. -/
theorem rmwOk_of_none {held : Option RmwReg} {ls : List Line} (h : rmwOk none ls = true) : rmwOk held ls = true := by
  cases ls with
  | nil => rfl
  | cons x rest =>
    obtain ⟨a, nx⟩ := x
    rw [rmwOk_cons] at h ⊢
    cases a <;> simp_all [rmwLineOk]

/-- Blocks that need nothing read before them may follow any lines. -/
theorem rmwOk_append {ls ms : List Line} (hm : rmwOk none ms = true) :
    ∀ {held : Option RmwReg}, rmwOk held ls = true → rmwOk held (ls ++ ms) = true := by
  induction ls with
  | nil => intro held _; exact rmwOk_of_none hm
  | cons x rest ih =>
    intro held h
    rw [rmwOk_cons, Bool.and_eq_true] at h
    rw [List.cons_append, rmwOk_cons, h.1, ih h.2, Bool.and_self]

/-! The blocks of the pseudocode. -/

theorem rmwOk_genStopUnless (sr : Bool) : rmwOk none (genStopUnless sr) = true := by cases sr <;> rfl

theorem rmwOk_manageAck (en : Bool) : rmwOk none (manageAck en) = true := by cases en <;> rfl

theorem rmwOk_txLoop (src : Src) (n : Word) (sr : Bool) : rmwOk none (txLoop src n sr) = true := by
  unfold txLoop
  split
  · exact rmwOk_append (rmwOk_genStopUnless sr) rfl
  · cases src <;> rfl

theorem rmwOk_rxLoop (p k : Word) (sr : Bool) : rmwOk none (rxLoop p k sr) = true := by
  unfold rxLoop
  split
  · rfl
  · refine rmwOk_append rfl (rmwOk_append ?_ rfl)
    split
    · exact rmwOk_append (rmwOk_genStopUnless sr) (rmwOk_manageAck false)
    · rfl

theorem rmwOk_rxBytes (buf len : Word) (sr : Bool) : rmwOk none (rxBytes buf len sr) = true := by
  unfold rxBytes
  split
  · exact rmwOk_append rfl (rmwOk_append (rmwOk_genStopUnless sr) rfl)
  · exact rmwOk_append (rmwOk_rxLoop buf len sr) rfl

theorem rmwOk_masterTx (src : Src) (len : Word) (addr : Byte) (sr : Bool) :
    rmwOk none (masterTx src len addr sr) = true := rmwOk_append (rmwOk_txLoop src len sr) rfl

theorem rmwOk_masterRx (buf len : Word) (addr : Byte) (sr : Bool) : rmwOk none (masterRx buf len addr sr) = true :=
  rmwOk_append rfl (rmwOk_append (rmwOk_rxBytes buf len sr) rfl)

theorem rmwOk_abortBlocking (st : Status) (err : Word) (rx : Bool) :
    rmwOk none (abortBlocking st err rx) = true := by
  unfold abortBlocking
  refine rmwOk_append ?_ ?_
  · cases rx <;> rfl
  · split
    · exact rmwOk_append (by split <;> rfl) rfl
    · rfl

theorem rmwOk_rxneMasterByte (t n : Word) : rmwOk none (rxneMasterByte t n) = true := by
  unfold rxneMasterByte
  refine rmwOk_append rfl ?_
  split
  · rfl
  · exact rmwOk_append rfl (by split <;> rfl)

theorem rmwOk_handlerLines (k : HandlerKind) : rmwOk none (handlerLines k) = true := by cases k <;> rfl

/-! How the pseudocode goes on. -/

theorem rmwOk_insert {more : List Line} (hf : rmwOk none f.lines = true) (hm : rmwOk none more = true) :
    rmwOk none (f.insert more).lines = true := rmwOk_append hf hm

/-- A test of the pseudocode inserts a block before the lines that follow, or does not. -/
theorem rmwOk_insertIf {c : Prop} [Decidable c] {more : List Line} (hf : rmwOk none f.lines = true)
    (hm : rmwOk none more = true) : rmwOk none (if c then f.insert more else f).lines = true := by
  split
  · exact rmwOk_insert hf hm
  · exact hf

theorem rmwOk_pollStep (p : Params) (mask : Half) (k : Nat) (exit : PollExit) (hf : rmwOk none f.lines = true) :
    rmwOk none (f.pollStep p mask k exit).lines = true := by
  have hfail : ∀ st err, rmwOk none (f.pollFailed exit st err).lines = true := by
    intro st err
    cases exit with
    | result => rfl
    | abort rx => exact rmwOk_abortBlocking st err rx
  unfold Frame.pollStep
  split
  · exact hf
  · split
    · exact hfail _ _
    · split
      · exact hfail _ _
      · exact rmwOk_insert hf rfl

/-- Every test of the pseudocode leads to a position that writes back what it reads. -/
theorem rmwOk_go {p : Params} {nx : Next} (hf : rmwOk none f.lines = true) (h : nx.go p f = .ok f') :
    rmwOk none f'.lines = true := by
  cases nx <;> simp only [Next.go, Except.ok.injEq] at h
  case straight => exact h ▸ hf
  case poll => exact h ▸ rmwOk_pollStep _ _ _ _ hf
  case txMore => exact h ▸ rmwOk_insert hf (rmwOk_txLoop _ _ _)
  case rxMore => exact h ▸ rmwOk_insert hf (rmwOk_rxLoop _ _ _)
  case ackOnIfPolicy => exact h ▸ rmwOk_insertIf hf rfl
  case busyIfNotReady | rejectIfBusy =>
    subst h
    split
    · exact hf
    · rfl
  case sbByState =>
    split at h <;> cases h
    · exact hf
    · exact rmwOk_insert hf rfl
    · exact rmwOk_insert hf rfl
  case txeByRole =>
    subst h
    split
    · exact rmwOk_insert hf rfl
    · exact rmwOk_insertIf hf rfl
  case txeIfMore =>
    subst h
    split
    · exact hf
    · exact rmwOk_insert hf rfl
  case rxneByRole =>
    subst h
    split
    · exact rmwOk_insert hf rfl
    · split
      · exact hf
      · exact rmwOk_insert hf rfl
  case rxneByte =>
    split at h <;> cases h
    exact rmwOk_insert hf (rmwOk_rxneMasterByte _ _)
  case btfFinish | rxneFinish =>
    exact h ▸ rmwOk_insert hf (rmwOk_append rfl (rmwOk_append rfl (rmwOk_genStopUnless _)))
  all_goals exact h ▸ rmwOk_insertIf hf rfl

/-! The commands software issues. -/

/-- An entry check lets a command go on or refuses it. -/
theorem except_bind_eq_ok {ε α β : Type} {c : Except ε α} {k : α → Except ε β} {b : β} (h : (c >>= k) = .ok b) :
    ∃ a, c = .ok a ∧ k a = .ok b := by
  cases c with
  | error r => cases h
  | ok a => exact ⟨a, rfl, h⟩

/-- Every command software issues starts at a position that writes back what it reads. -/
theorem rmwOk_softwareCmd {nInst : Nat} {x : Instr} (h : softwareCmd nInst x = .ok f) : rmwOk none f.lines = true := by
  cases x <;> obtain ⟨j, -, h⟩ := except_bind_eq_ok h
  case masterTx =>
    obtain ⟨-, -, h⟩ := except_bind_eq_ok h
    cases h
    exact rmwOk_masterTx _ _ _ _
  case masterTxIt =>
    obtain ⟨-, -, h⟩ := except_bind_eq_ok h
    cases h
    rfl
  case masterRx =>
    obtain ⟨-, -, h⟩ := except_bind_eq_ok h
    obtain ⟨-, -, h⟩ := except_bind_eq_ok h
    cases h
    exact rmwOk_masterRx _ _ _ _
  case masterRxIt =>
    obtain ⟨-, -, h⟩ := except_bind_eq_ok h
    obtain ⟨-, -, h⟩ := except_bind_eq_ok h
    cases h
    rfl
  case memRead =>
    obtain ⟨-, -, h⟩ := except_bind_eq_ok h
    obtain ⟨-, -, h⟩ := except_bind_eq_ok h
    obtain ⟨-, -, h⟩ := except_bind_eq_ok h
    cases h
    exact rmwOk_append (rmwOk_masterRx _ _ _ _) (rmwOk_masterTx _ _ _ _)
  case manageAck => cases h; exact rmwOk_manageAck _
  case evIrq | erIrq => cases h
  all_goals (cases h; rfl)

/-! ## The controllers' steps (20 R85) -/

/-- What a controller's step may change of its engine: SR1 and SR2 but for their reserved bits, DR as it is read, the
requests START and STOP of CR1, of which START is only cleared, and what the engine cannot read (20 R85, log 16). -/
structure HardwareStep (e e' : Engine) : Prop where
  frame : e' = { e with
    regs := { e.regs with cr1 := e'.regs.cr1, sr1 := e'.regs.sr1, sr2 := e'.regs.sr2, dr := e'.regs.dr }
    ctrl := e'.ctrl }
  cr1   : e'.regs.cr1 &&& ~~~0x0300 = e.regs.cr1 &&& ~~~0x0300
  start : e'.regs.cr1.getLsbD 8 = true → e.regs.cr1.getLsbD 8 = true
  sr1   : e'.regs.sr1 &&& 0x2020 = e.regs.sr1 &&& 0x2020
  sr2   : e'.regs.sr2 &&& 0x0008 = e.regs.sr2 &&& 0x0008

theorem HardwareStep.refl (e : Engine) : HardwareStep e e := ⟨rfl, rfl, id, rfl, rfl⟩

/-! Bits outside a mask keep their values when the mask's bits change. -/

theorem setMask_and {r x m : Half} (hx : x &&& m = 0) : setMask r x &&& m = r &&& m := by
  rw [setMask, BitVec.and_comm, BitVec.and_or_distrib_left, BitVec.and_comm m x, hx, BitVec.and_comm]
  exact BitVec.or_zero

theorem clearMask_and {r c m : Half} (hc : c &&& m = 0) : clearMask r c &&& m = r &&& m := by
  apply Half.ext_bits
  intro k hk
  have hbit := congrArg (fun y => y.getLsbD k) hc
  simp only [clearMask, BitVec.getLsbD_and, BitVec.getLsbD_not, hk] at hbit ⊢
  cases hm : m.getLsbD k <;> simp_all

theorem clearIf_and {b : Bool} {r c m : Half} (hc : c &&& m = 0) : clearIf b r c &&& m = r &&& m := by
  cases b
  · rfl
  · exact clearMask_and hc

theorem mergeMask_and {r v w m : Half} (hw : w &&& m = 0) : mergeMask r v w &&& m = r &&& m := by
  have hv : v &&& w &&& m = 0 := by rw [BitVec.and_assoc, hw]; exact BitVec.and_zero
  exact (setMask_and hv).trans (clearMask_and hw)

/-- A step of a FREE controller. -/
theorem hardwareStep_applyFreeInput (e : Engine) (c : HwChange) : HardwareStep e (e.applyFreeInput c) := by
  unfold Engine.applyFreeInput
  split
  · refine ⟨rfl, ?_, fun h => ?_, mergeMask_and (by decide), mergeMask_and (by decide)⟩
    · refine (clearIf_and (by decide)).trans ?_
      split
      · exact setMask_and (by decide)
      · exact clearMask_and (by decide)
    · have hstop : (if c.stop then setMask e.regs.cr1 cr1STOP else clearMask e.regs.cr1 cr1STOP).getLsbD 8 = true := by
        cases hd : c.startDone <;> simp only [Engine.applyFree, hd] at h
        · exact h
        · exact getLsbD_of_andNot h
      split at hstop
      · simpa [setMask, cr1STOP] using hstop
      · exact getLsbD_of_andNot hstop
  · exact .refl e

/-- A reaction that clears and sets these hardware bits, and may take a byte in. -/
theorem hardwareStep_react {cc sc x tc y : Half} (hcc : cc &&& ~~~0x0300 = 0) (hsc : sc &&& 0x2020 = 0)
    (hx : x &&& 0x2020 = 0) (htc : tc &&& 0x0008 = 0) (hy : y &&& 0x0008 = 0) (d : Byte) (p : RefPhase) :
    HardwareStep e (e.react { e.regs.hw cc sc x tc y with dr := d } p) where
  frame := rfl
  cr1 := clearMask_and hcc
  start := getLsbD_of_andNot
  sr1 := (setMask_and hx).trans (clearMask_and hsc)
  sr2 := (setMask_and hy).trans (clearMask_and htc)

/-- A reaction of the reference controller. -/
theorem hardwareStep_reaction (e : Engine) (p : RefPhase) (x : Reaction) : HardwareStep e (e.reaction p x) := by
  cases x
  case addrAck =>
    refine hardwareStep_react (by decide) (by decide) (by decide) (by decide) ?_ _ _
    unfold traOf
    split <;> decide
  case slaveAddr tra =>
    exact hardwareStep_react (by decide) (by decide) (by decide) (by decide) (by cases tra <;> decide) _ _
  case error k =>
    exact hardwareStep_react (by decide) (by decide) (by cases k <;> decide) (by decide) (by decide) _ _
  case txByte | rxByte =>
    simp only [Engine.reaction]
    split
    all_goals exact hardwareStep_react (by decide) (by decide) (by decide) (by decide) (by decide) _ _
  all_goals exact hardwareStep_react (by decide) (by decide) (by decide) (by decide) (by decide) _ _

theorem hardwareStep_applyRef (e : Engine) (x : Reaction) : HardwareStep e (e.applyRef x) := by
  unfold Engine.applyRef
  split
  · exact .refl e
  · split
    · exact hardwareStep_reaction e _ x
    · exact .refl e

/-! ## Every step keeps CR1 as launch left it -/

/-- No CR1 write comes before a CR1 read. -/
theorem Frame.writesBack_of_none (h : rmwOk none f.lines = true) : f.WritesBack := ⟨none, h, nofun⟩

theorem State.LaunchKept.cr1 (hs : s.LaunchKept) (j : Idx) : cr1Kept (s.eng j).regs.cr1 := hs.1 j

/-- What leaves every CR1 and both contexts' positions keeps it. -/
theorem State.LaunchKept.of_same (hs : s.LaunchKept) (he : ∀ j, (t.eng j).regs.cr1 = (s.eng j).regs.cr1)
    (hm : t.main = s.main) (hh : t.handlers = s.handlers) : t.LaunchKept := by
  obtain ⟨hc, hmain, hhandlers⟩ := hs
  exact ⟨fun j => he j ▸ hc j, hm ▸ hmain, hh ▸ hhandlers⟩

theorem State.LaunchKept.setEng (hs : s.LaunchKept) (he : cr1Kept e.regs.cr1) : (s.setEng i e).LaunchKept := by
  obtain ⟨hc, hmain, hhandlers⟩ := hs
  refine ⟨fun j => ?_, hmain, hhandlers⟩
  rw [eng_setEng]
  split
  · exact he
  · exact hc j

theorem State.LaunchKept.top (hs : s.LaunchKept) (hf : s.top = some f) : f.WritesBack := by
  obtain ⟨-, hmain, hhandlers⟩ := hs
  unfold State.top at hf
  split at hf
  · next g fs hg => cases hf; exact hhandlers _ (hg ▸ List.mem_cons_self)
  · exact hmain f (List.mem_of_head? hf)

theorem State.LaunchKept.setTop (hs : s.LaunchKept) (hf : f.WritesBack) : (s.setTop f).LaunchKept := by
  obtain ⟨hc, hmain, hhandlers⟩ := hs
  unfold State.setTop
  split
  · next g fs hg =>
    refine ⟨hc, hmain, List.forall_mem_cons.mpr ⟨hf, fun x hx => hhandlers x ?_⟩⟩
    exact hg ▸ List.mem_cons_of_mem _ hx
  · exact ⟨hc, List.forall_mem_cons.mpr ⟨hf, fun x hx => hmain x (List.mem_of_mem_tail hx)⟩, hhandlers⟩

theorem State.LaunchKept.enter (hs : s.LaunchKept) (hf : f.WritesBack) : (s.enter f).LaunchKept := by
  obtain ⟨hc, hmain, hhandlers⟩ := hs
  exact ⟨hc, hmain, List.forall_mem_cons.mpr ⟨hf, hhandlers⟩⟩

theorem State.LaunchKept.push (hs : s.LaunchKept) (hf : f.WritesBack) : (s.push f).LaunchKept := by
  unfold State.push
  split
  · next g fs hg =>
    have h := hs.enter hf
    rwa [State.enter, hg] at h
  · obtain ⟨hc, hmain, hhandlers⟩ := hs
    exact ⟨hc, List.forall_mem_cons.mpr ⟨hf, hmain⟩, hhandlers⟩

theorem State.LaunchKept.pop (hs : s.LaunchKept) : s.pop.LaunchKept := by
  obtain ⟨hc, hmain, hhandlers⟩ := hs
  unfold State.pop
  split
  · next g fs hg => exact ⟨hc, hmain, fun x hx => hhandlers x (hg ▸ List.mem_cons_of_mem _ hx)⟩
  · exact ⟨hc, fun x hx => hmain x (List.mem_of_mem_tail hx), hhandlers⟩

theorem State.LaunchKept.leave (hs : s.LaunchKept) (f : Frame) : (s.leave f).LaunchKept := by
  obtain ⟨hm, hh⟩ := leave_eq_pop s f
  exact hs.pop.of_same (fun j => by rw [leave_eng, pop_eng]) hm hh

theorem State.LaunchKept.memRead (hs : s.LaunchKept) (a : Word) : (s.memRead a).LaunchKept :=
  hs.of_same (fun _ => rfl) rfl rfl

theorem State.LaunchKept.memWrite (hs : s.LaunchKept) (a : Word) (b : Byte) : (s.memWrite a b).LaunchKept :=
  hs.of_same (fun _ => rfl) rfl rfl

theorem State.LaunchKept.emitCallback (hs : s.LaunchKept) (c : EventCode) : (s.emitCallback i c).LaunchKept := by
  refine hs.of_same (fun j => ?_) rfl rfl
  obtain ⟨-, -, -, -, hregs⟩ := emitCallback_keeps s i j c
  rw [hregs]

theorem State.LaunchKept.regRead (hs : s.LaunchKept) (r : Reg) : (s.regRead i r).LaunchKept := by
  refine hs.of_same (fun j => ?_) rfl rfl
  obtain ⟨-, -, -, -, -, hcr1, -⟩ := regRead_keeps s i j r
  exact hcr1

/-- A register write keeps it; one of CR1 must write a kept value. -/
theorem State.LaunchKept.regWrite (hs : s.LaunchKept) {r : Reg} {v : Word}
    (hv : r = .cr1 → cr1Kept (v.setWidth 16)) : (s.regWrite i r v).LaunchKept := by
  refine (hs.setEng (i := i) (e := (s.eng i).afterWrite v r) ?_).of_same (fun _ => rfl) rfl rfl
  by_cases hr : r = .cr1
  · subst hr
    exact (hs.cr1 i).afterWrite (hv rfl)
  · rw [afterWrite_cr1 _ _ _ hr]
    exact hs.cr1 i

/-- A read-modify-write whose register was read right before writes a kept value (20 R74). -/
theorem cr1Kept_rmwWrite {held : Option RmwReg} {a : Act} {q : RmwReg} {m : Half} {nx : Next} {w : Word}
    (ha : a = .writeOr q m ∨ a = .writeAndNot q m) (hx : rmwLineOk held ⟨a, nx⟩ = true)
    (hw : held = some .cr1 → cr1Kept (w.setWidth 16)) (hq : q.reg = .cr1) :
    cr1Kept ((w ||| m.setWidth 32).setWidth 16) ∧ cr1Kept ((w &&& ~~~m.setWidth 32).setWidth 16) := by
  cases q with
  | cr2 => cases hq
  | cr1 =>
    have h : held = some .cr1 ∧ cr1MaskOk m = true := by
      rcases ha with rfl | rfl <;> simpa [rmwLineOk] using hx
    obtain ⟨hheld, hm⟩ := h
    have hor : (w ||| m.setWidth 32).setWidth 16 = w.setWidth 16 ||| m := by simp
    have hand : (w &&& ~~~m.setWidth 32).setWidth 16 = w.setWidth 16 &&& ~~~m := by
      apply Half.ext_bits; intro k hk; simp [hk]
    exact ⟨hor ▸ (hw hheld).setBits hm, hand ▸ (hw hheld).clearBits hm⟩

/-- A micro-step of a frame that writes back what it reads keeps it. -/
theorem State.LaunchKept.perform (hs : s.LaunchKept) {held : Option RmwReg} {l l' : Locals} {x : Line}
    (hx : rmwLineOk held x = true) (hl : held = some .cr1 → cr1Kept (l.w.setWidth 16))
    (hp : perform i l s x.act = some (t, l')) : t.LaunchKept := by
  obtain rfl | ⟨r, rfl⟩ | ⟨r, v, rfl, hr⟩ | ⟨q, m, hq⟩ | ⟨p, rfl, -⟩ | ⟨p, b, rfl, -⟩ | ⟨g, rfl, -, -⟩ | ⟨c, -, rfl⟩ :=
    perform_cases _ _ _ hp
  · exact hs
  · exact hs.regRead r
  · exact hs.regWrite (by rcases hr with rfl | rfl <;> exact nofun)
  · have hkept := cr1Kept_rmwWrite (nx := x.next) (hq.imp And.left And.left) hx hl
    obtain ⟨-, rfl⟩ | ⟨-, rfl⟩ := hq
    · exact hs.regWrite fun hr => (hkept hr).1
    · exact hs.regWrite fun hr => (hkept hr).2
  · exact hs.memRead p
  · exact hs.memWrite p b
  · exact hs.setEng (hs.cr1 i)
  · exact hs.emitCallback c

/-- The position after a line writes back what it reads. -/
theorem writesBack_go {held : Option RmwReg} {l l' : Locals} {x : Line} {rest : List Line} {p : Params}
    {o : Owner} {res : Result} (hs : cr1Kept (s.eng i).regs.cr1) (hx : rmwLineOk held x = true)
    (hrest : rmwOk (heldAfter x.act) rest = true) (hp : Machine.perform i l s x.act = some (t, l'))
    (hgo : x.next.go p ⟨o, i, rest, l', res⟩ = .ok f') : f'.WritesBack := by
  by_cases hread : ∃ r, x.act = .readW r
  · obtain ⟨r, hr⟩ := hread
    obtain ⟨a, nx⟩ := x
    cases hr
    have hnx : nx = .straight := by simpa [rmwLineOk] using hx
    subst hnx
    rw [go_straight] at hgo
    cases hgo
    refine ⟨some r, hrest, fun hcr1 => ?_⟩
    cases hcr1
    cases hp
    simpa [Engine.value, RmwReg.reg] using hs
  · rw [heldAfter_eq_none (not_exists.mp hread)] at hrest
    exact Frame.writesBack_of_none (rmwOk_go hrest hgo)

/-- The application's step keeps it: it writes DR alone, and issues commands from their first line (44 R276). -/
theorem State.LaunchKept.appStep (hs : s.LaunchKept) {nx : Next} {rest : List Line} (hf : f.WritesBack)
    (hl : f.lines = ⟨.app, nx⟩ :: rest) : (appStep f s).LaunchKept := by
  obtain ⟨held, hok, -⟩ := hf
  rw [hl] at hok
  have hnone : ∀ g : Frame, g.lines = f.lines ∨ g.lines = [] → g.WritesBack := by
    rintro g (hg | hg) <;> apply Frame.writesBack_of_none <;> rw [hg]
    · rw [hl]; exact hok
    · rfl
  obtain h | ⟨r, h⟩ | ⟨g, ⟨-, -, hg⟩, h | ⟨w, c, hc, h⟩ | ⟨p, -, h⟩ | ⟨p, b, -, h⟩ | h | ⟨w, h⟩⟩ :=
    appStep_cases s f <;> rw [h]
  · exact hs
  · exact hs.of_same (fun _ => rfl) rfl rfl
  · exact hs.setTop (hnone g hg)
  · refine (hs.setTop (hnone g hg)).push (Frame.writesBack_of_none ?_)
    unfold issued at hc
    split at hc
    · cases hc
    · exact rmwOk_softwareCmd hc
  · exact (hs.memRead p).setTop (hnone g hg)
  · exact (hs.memWrite p b).setTop (hnone g hg)
  · exact (hs.regRead .dr).setTop (hnone g hg)
  · exact (hs.regWrite (r := .dr) nofun).setTop (hnone g hg)

theorem State.LaunchKept.contextStep (hs : s.LaunchKept) : (contextStep s).LaunchKept := by
  refine contextStep_keeps hs (fun f _ _ => hs.leave f) (fun f nx rest hf hl => hs.appStep (hs.top hf) hl) ?line ?fault
  case line =>
    intro f x rest u l f' hf hl hp hgo
    obtain ⟨held, hok, hw⟩ := hs.top hf
    rw [hl, rmwOk_cons, Bool.and_eq_true] at hok
    have ht := (hs.perform hok.1 hw hp).setTop (writesBack_go (hs.cr1 _) hok.1 hok.2 hp hgo)
    unfold State.callAfter
    split
    · exact ht.push (Frame.writesBack_of_none rfl)
    · exact ht
  case fault =>
    intro f x rest u l r hf hl hp _
    obtain ⟨held, hok, hw⟩ := hs.top hf
    rw [hl, rmwOk_cons, Bool.and_eq_true] at hok
    exact (hs.perform hok.1 hw hp).of_same (fun _ => rfl) rfl rfl

theorem State.LaunchKept.tick (hs : s.LaunchKept) : (tick s).LaunchKept := by
  have hin : ∀ xs, (s.withInputs xs).LaunchKept := fun xs => hs.of_same (fun _ => rfl) rfl rfl
  refine tick_keeps (fun u hu => hu.of_same (fun j => by rw [latchAll_eng]; rfl) rfl rfl) (fun _ xs _ => hin xs)
    (fun xs _ => (hin xs).contextStep) ?free ?ref ?dispatch ?reinit
  case free => exact fun i c xs _ => (hin xs).setEng ((hs.cr1 i).congr (hardwareStep_applyFreeInput _ c).cr1)
  case ref => exact fun i x xs _ => (hin xs).setEng ((hs.cr1 i).congr (hardwareStep_applyRef _ x).cr1)
  case dispatch =>
    intro xs _
    obtain hn | ⟨k, i, hn⟩ := nextInterrupt_cases (s.withInputs xs)
    · rw [dispatch_none hn]; exact hin xs
    · rw [dispatch_some hn]
      refine ((hin xs).setEng ?_).enter (Frame.writesBack_of_none (rmwOk_handlerLines k))
      cases k <;> exact hs.cr1 i
  case reinit =>
    intro i l xs _
    unfold State.reinitInput
    split
    · refine (hin xs).setEng ?_
      cases h : l.ack <;> simp only [Engine.launch, Regs.launch, h] <;> exact ⟨by decide, by decide⟩
    · exact (hin xs).of_same (fun _ => rfl) rfl rfl

theorem State.LaunchKept.step (hs : s.LaunchKept) (h : step s = .next t) : t.LaunchKept :=
  step_keeps (fun _ hu => hu.tick) (fun _ _ _ hu _ => hu.of_same (fun _ => rfl) rfl rfl)
    (fun _ _ _ hu _ => hu.of_same (fun _ => rfl) rfl rfl)
    (fun _ _ _ hu hf => hu.push (Frame.writesBack_of_none (rmwOk_softwareCmd hf))) hs h

/-! ## One register access (20 R73 to R84) -/

/-- A register read is one access, with the effect of 20 R75, R76, R78 on its engine. -/
theorem access_regRead (s : State) (i : Idx) (r : Reg) :
    Access s (s.regRead i r) i ((s.eng i).afterRead r) (.regRead i r ((s.eng i).value r)) where
  engine := regRead_eng_same s i r
  others j hj := regRead_eng_ne s i j r hj.symm
  trace := rfl
  memory _ := rfl
  main := rfl
  handlers := rfl
  program := rfl
  inputs := rfl
  params := rfl
  refused := rfl
  faults := rfl

/-- A register write is one access, with the effect of 20 R77, R79 to R81 on its engine. -/
theorem access_regWrite (s : State) (i : Idx) (r : Reg) (v : Word) :
    Access s (s.regWrite i r v) i ((s.eng i).afterWrite v r) (.regWrite i r v) where
  engine := regWrite_eng_same s i r v
  others j hj := regWrite_eng_ne s i j r v hj.symm
  trace := rfl
  memory _ := rfl
  main := rfl
  handlers := rfl
  program := rfl
  inputs := rfl
  params := rfl
  refused := rfl
  faults := rfl

/-- An SR2 read clears an ADDR that the latest SR1 read saw, and nothing otherwise (20 R76). -/
theorem afterRead_sr2 (e : Engine) : e.afterRead .sr2 =
    if e.lat.addr then
      { e with regs := { e.regs with sr1 := e.regs.sr1 &&& ~~~0x0002 }, lat := { e.lat with addr := false } }
    else e := by
  cases h : e.lat.addr
  · have hlat : { e.lat with addr := false } = e.lat := by rw [← h]
    simp [Engine.afterRead, Engine.readSR2, h, hlat]
  · simp only [Engine.afterRead, Engine.readSR2, h, clearIf_true]
    rfl

/-- Only the low byte of a DR write counts (20 R77). -/
theorem afterWrite_dr_lowByte (e : Engine) (v : Word) :
    e.afterWrite v .dr = e.afterWrite ((v.setWidth 8 : Byte).setWidth 32) .dr := by
  simp [Engine.afterWrite, Engine.writeDR]

/-- A CR1 write gives the bits software may write their values, all but 2 and 14 (20 R79, log 17). -/
theorem cr1_merged_bit {r : Half} {v : Word} {k : Nat} (hk : k < 16) :
    (mergeMask r (v.setWidth 16) cr1Writable).getLsbD k = if k = 2 ∨ k = 14 then r.getLsbD k else v.getLsbD k := by
  have hw : ∀ k < 16, cr1Writable.getLsbD k = decide (¬ (k = 2 ∨ k = 14)) := by decide
  rw [mergeMask_bit hk, hw k hk, BitVec.getLsbD_setWidth]
  by_cases h : k = 2 ∨ k = 14 <;> simp [h, hk]

/-- A CR1 write with PE = 1. -/
theorem afterWrite_cr1_enabled {v : Word} (hv : v.getLsbD 0 = true) :
    e.afterWrite v .cr1 = e.withCR1 (mergeMask e.regs.cr1 (v.setWidth 16) cr1Writable) :=
  writeCR1_eq rfl ((cr1_merged_bit (by decide)).trans hv)

/-- A CR1 write with PE = 0 clears every status flag, START, STOP and ACK (20 R84). -/
theorem afterWrite_cr1_disabled {v : Word} (hv : v.getLsbD 0 = false) : e.afterWrite v .cr1 =
    { e with
      regs := { e.regs with
        cr1 := mergeMask e.regs.cr1 (v.setWidth 16) cr1Writable &&& ~~~0x0700, sr1 := 0, sr2 := 0 }
      lat  := { e.lat with stopf := false } } := by
  have hpe : (mergeMask e.regs.cr1 (v.setWidth 16) cr1Writable).getLsbD 0 = false :=
    (cr1_merged_bit (by decide)).trans hv
  simp only [Engine.afterWrite, Engine.writeCR1, Regs.disabledIfPE0, anyBit_PE, hpe, Bool.false_eq_true, if_false]
  rfl

/-- The bits of a value with START, STOP and ACK cleared. -/
theorem cr1_cleared_bit {r : Half} {k : Nat} (hk : k < 16) :
    (r &&& ~~~0x0700).getLsbD k = if k = 8 ∨ k = 9 ∨ k = 10 then false else r.getLsbD k := by
  have hw : ∀ k < 16, (~~~0x0700 : Half).getLsbD k = decide (¬ (k = 8 ∨ k = 9 ∨ k = 10)) := by decide
  rw [BitVec.getLsbD_and, hw k hk]
  by_cases h : k = 8 ∨ k = 9 ∨ k = 10 <;> simp [h]

/-- An SR1 write clears the error flags written 0 (20 R80). -/
theorem sr1_written_bit {r : Half} {v : Word} {k : Nat} (hk : k < 16) :
    (r &&& (v.setWidth 16 ||| ~~~rcw0All)).getLsbD k =
      if k ∈ [8, 9, 10, 11, 12, 14, 15] ∧ v.getLsbD k = false then false else r.getLsbD k := by
  have hw : ∀ k < 16, (~~~rcw0All).getLsbD k = !decide (k ∈ [8, 9, 10, 11, 12, 14, 15]) := by decide
  rw [BitVec.getLsbD_and, BitVec.getLsbD_or, hw k hk, BitVec.getLsbD_setWidth]
  by_cases hm : k ∈ [8, 9, 10, 11, 12, 14, 15] <;> cases v.getLsbD k <;> simp [hm, hk]

/-! ## Boundaries at which a controller moves -/

/-- At a controller's step its own engine moves as hardware may, and nothing else changes but the latches' update. -/
theorem tick_ofController {x : Input} {rest : List Input} (h : s.inputs = x :: rest)
    (hx : (∃ c, x = .free i c) ∨ ∃ r, x = .ref i r) :
    ∃ es, tick s = ({ s with engines := es, inputs := rest } : State).latchAll ∧
      HardwareStep (s.eng i) (engineAt es i) ∧ ∀ j, j ≠ i → engineAt es j = s.eng j := by
  have moved : ∀ g : Engine → Engine, HardwareStep (s.eng i) (g (s.eng i)) →
      tick s = (if i < s.params.nInst then (s.withInputs rest).controllerStep i g else s.withInputs rest).latchAll →
      ∃ es, tick s = ({ s with engines := es, inputs := rest } : State).latchAll ∧
        HardwareStep (s.eng i) (engineAt es i) ∧ ∀ j, j ≠ i → engineAt es j = s.eng j := by
    intro g hg ht
    rw [ht]
    split
    · refine ⟨putEngine s.engines i (g (s.eng i)), rfl, ?_, fun j hj => engineAt_putEngine_ne _ _ i j hj.symm⟩
      rwa [engineAt_putEngine_same]
    · exact ⟨s.engines, rfl, .refl _, fun _ _ => rfl⟩
  obtain ⟨c, rfl⟩ | ⟨r, rfl⟩ := hx
  · exact moved _ (hardwareStep_applyFreeInput _ c) (by simp [tick, h, applyInput])
  · exact moved _ (hardwareStep_applyRef _ r) (by simp [tick, h, applyInput])

/-- A boundary whose input is a reaction of a controller that exists. -/
theorem tick_ref {x : Reaction} {rest : List Input} (hi : i < s.params.nInst) (h : s.inputs = .ref i x :: rest) :
    (tick s).eng i = ((s.eng i).applyRef x).latchPending := by
  simp [tick, h, applyInput, hi, State.controllerStep]

/-- START or STOP is requested where one of their bits is set. -/
theorem requested_eq (e : Engine) : e.requested = (e.regs.cr1.getLsbD 8 || e.regs.cr1.getLsbD 9) := by
  rw [Engine.requested, anyBit_or, anyBit_START, anyBit_STOP]

theorem requested_iff (e : Engine) : e.requested = true ↔ e.regs.cr1 &&& 0x0300 ≠ 0 := by
  simp only [Engine.requested, anyBit, bne_iff_ne]
  rfl

theorem applyRef_of_admits {x : Reaction} (hp : e.ctrl = .ref p) (h : e.admits p x = true) :
    e.applyRef x = e.reaction p x := by simp only [Engine.applyRef, hp, h, if_true]

theorem clearMask_zero (r : Half) : clearMask r 0 = r := BitVec.and_allOnes

theorem setMask_zero (r : Half) : setMask r 0 = r := BitVec.or_zero

/-- Registers of which no hardware bit of CR1 or SR2 is changed and none of SR1 cleared. -/
theorem hw_setSR1 (r : Regs) (x : Half) : r.hw 0 0 x 0 0 = { r with sr1 := r.sr1 ||| x } := by
  simp only [Regs.hw, clearMask_zero, setMask_zero]
  rfl

/-- A byte that completes while RxNE is 0 comes into DR (20 R87, RF7). -/
theorem reaction_rxByte_taken (d : Byte) (h : e.regs.sr1.getLsbD 6 = false) : e.reaction p (.rxByte d) =
    e.react { e.regs with sr1 := e.regs.sr1 ||| 0x0040, dr := d }
      { p with rxAck := e.regs.cr1.getLsbD 10, gap := e.regs.cr1.getLsbD 8 || e.regs.cr1.getLsbD 9 } := by
  simp only [Engine.reaction, anyBit_RxNE, h, anyBit_ACK, requested_eq, hw_setSR1, Bool.false_eq_true, if_false]
  rfl

/-- A byte that completes while RxNE is 1 is held back (20 R87, RF7). -/
theorem reaction_rxByte_held (d : Byte) (h : e.regs.sr1.getLsbD 6 = true) : e.reaction p (.rxByte d) =
    e.react { e.regs with sr1 := e.regs.sr1 ||| 0x0004 } { p with held := some d } := by
  simp only [Engine.reaction, anyBit_RxNE, h, hw_setSR1, if_true]
  rfl

/-- SR1 after a DR read that brings a held byte in: RxNE is set again, BTF is cleared. -/
theorem held_byte_flags (b : Bool) (r : Half) :
    setMask (clearMask (clearIf b (clearMask r sr1RxNE) sr1BTF) sr1BTF) sr1RxNE = (r ||| 0x0040) &&& ~~~0x0004 := by
  have hother : ∀ k < 16, sr1RxNE.getLsbD k = true → sr1BTF.getLsbD k = false := by decide
  apply Half.ext_bits
  intro k hk
  change _ = ((r ||| sr1RxNE) &&& ~~~sr1BTF).getLsbD k
  have hflag : (clearIf b (clearMask r sr1RxNE) sr1BTF).getLsbD k =
      (r.getLsbD k && !sr1RxNE.getLsbD k && !(b && sr1BTF.getLsbD k)) := by
    cases b <;> simp only [clearIf_true, clearIf_false, clearMask, BitVec.getLsbD_and, BitVec.getLsbD_not, hk] <;> simp
  simp only [setMask, clearMask, BitVec.getLsbD_or, BitVec.getLsbD_and, BitVec.getLsbD_not, hk] at hflag ⊢
  rw [hflag]
  cases hrx : sr1RxNE.getLsbD k
  · cases sr1BTF.getLsbD k <;> simp
  · simp only [hother k hk hrx, Bool.or_true, Bool.not_false, Bool.and_true, decide_true]

/-- A DR read brings the held byte in and acknowledges it by CR1.ACK of that read (20 R87, RF7). -/
theorem afterRead_dr_held {d : Byte} (hp : e.ctrl = .ref p) (hd : p.held = some d) :
    (e.afterRead .dr).regs = { e.regs with sr1 := (e.regs.sr1 ||| 0x0040) &&& ~~~0x0004, dr := d } ∧
    (e.afterRead .dr).ctrl = .ref { p with
      held := none, rxAck := e.regs.cr1.getLsbD 10, gap := e.regs.cr1.getLsbD 8 || e.regs.cr1.getLsbD 9 } := by
  have hheld : e.ctrl.heldByte = some d := by rw [hp]; exact hd
  have hsr1 := held_byte_flags e.lat.btf e.regs.sr1
  constructor <;> simp only [Engine.afterRead, Engine.readDR, hheld, hsr1]
  simp only [hp, Ctrl.release, anyBit_ACK, requested_eq]

/-- A controller that stands between bytes has none in flight (20 R87, RF1, RF8). -/
theorem not_receiving_between (hg : p.gap = true) (hr : e.requested = true) : e.receiving p = false := by
  simp [Engine.receiving, Engine.betweenBytes, hg, hr]

theorem noByteInFlight_between (hg : p.gap = true) (hr : e.requested = true) (hs : p.shift = none)
    (ha : p.addr = none) : e.noByteInFlight p = true := by
  simp [Engine.noByteInFlight, not_receiving_between hg hr, hs, ha]

/-- A STOP performed (20 R87, RF8). -/
theorem reaction_stop_regs : (e.reaction p .stop).regs = { e.regs with
    cr1 := e.regs.cr1 &&& ~~~0x0200, sr1 := e.regs.sr1 &&& ~~~0x0084, sr2 := e.regs.sr2 &&& ~~~0x0007 } := by
  simp only [Engine.reaction, Engine.react, Regs.hw, setMask_zero]
  rfl

/-- A START performed (20 R87, RF1). -/
theorem reaction_start_regs : (e.reaction p .start).regs = { e.regs with
    cr1 := e.regs.cr1 &&& ~~~0x0100, sr1 := (e.regs.sr1 &&& ~~~0x0084) ||| 0x0001
    sr2 := (e.regs.sr2 &&& ~~~0x0004) ||| 0x0003 } := rfl

/-- A bit set before it is cleared makes no difference. -/
theorem or_or_andNot (r x y : Half) : (r ||| x ||| y) &&& ~~~x = (r ||| y) &&& ~~~x := by
  apply Half.ext_bits
  intro k hk
  simp only [BitVec.getLsbD_or, BitVec.getLsbD_and, BitVec.getLsbD_not, hk]
  cases x.getLsbD k <;> simp

/-! ## A context stuck at a rejected buffer access (20 R71, 60 R311) -/

/-- A stuck context does not move. -/
theorem contextStep_stuck (ht : s.top = some f) (hf : f.stuck s = true) : contextStep s = s := by
  simp only [contextStep, ht, frameStep_stuck hf]

/-- Nor does it with other inputs to come. -/
theorem contextStep_stuck_withInputs (ht : s.top = some f) (hf : f.stuck s = true) (xs : List Input) :
    contextStep (s.withInputs xs) = s.withInputs xs := by
  have hsame : f.stuck (s.withInputs xs) = f.stuck s := stuck_congr f rfl fun _ => rfl
  exact contextStep_stuck (f := f) ht (hsame.trans hf)

/-- A stuck handler admits no entry above it. -/
theorem nextInterrupt_stuck {below : List Frame} (hh : s.handlers = f :: below) (hf : f.stuck s = true) :
    s.nextInterrupt = none := by
  have hstuck : s.handlerStuck = true := by simp only [State.handlerStuck, hh, hf]
  simp [State.nextInterrupt, State.mayEnter, hh, hstuck]

/-- An access that is not the application's stays the same whatever else moves. -/
theorem Frame.Accesses.of_not_app (h : f.Accesses s a) (hn : ∀ x ∈ f.lines.head?, x.act ≠ .app) (t : State) :
    f.Accesses t a := by
  obtain ⟨x, rest, hl, h⟩ := h
  have hx : x.act ≠ .app := hn x (by simp [hl])
  refine ⟨x, rest, hl, ?_⟩
  obtain h | h | h | ⟨happ, -⟩ := h
  · exact .inl h
  · exact .inr (.inl h)
  · exact .inr (.inr (.inl h))
  · exact absurd happ hx

/-- What a boundary leaves of a state in which some context is stuck, whichever it is. -/
structure MainHeld (s t : State) : Prop where
  main   : t.main = s.main
  params : t.params = s.params

/-- What a boundary leaves of a state whose handler context is stuck. -/
structure HandlerHeld (s t : State) : Prop where
  handlers : t.handlers = s.handlers
  program  : t.program = s.program
  trace    : t.trace = s.trace
  params   : t.params = s.params
  handle   : ∀ j, t.handle j = s.handle j

theorem tick_mainHeld (ht : s.top = some f) (hf : f.stuck s = true) : MainHeld s (tick s) := by
  refine tick_keeps (fun u hu => ⟨hu.main, hu.params⟩) (fun _ _ _ => ⟨rfl, rfl⟩) (fun xs _ => ?context)
    (fun _ _ _ _ => ⟨rfl, rfl⟩) (fun _ _ _ _ => ⟨rfl, rfl⟩) (fun xs _ => ?dispatch) (fun i l xs _ => ?reinit)
  case context => rw [contextStep_stuck_withInputs ht hf]; exact ⟨rfl, rfl⟩
  case dispatch =>
    obtain hn | ⟨k, i, hn⟩ := nextInterrupt_cases (s.withInputs xs)
    · rw [dispatch_none hn]; exact ⟨rfl, rfl⟩
    · rw [dispatch_some hn]; exact ⟨rfl, rfl⟩
  case reinit => unfold State.reinitInput; split <;> exact ⟨rfl, rfl⟩

/-- A controller's step leaves the handles (20 R85). -/
theorem handle_setEng_hardware {xs : List Input} {e' : Engine} (h : HardwareStep (s.eng i) e') (j : Idx) :
    ((s.withInputs xs).setEng i e').handle j = s.handle j := by
  rw [handle_eq, handle_eq, eng_setEng]
  split
  · next hij => subst hij; rw [h.frame]
  · rfl

theorem tick_handlerHeld {below : List Frame} (hh : s.handlers = f :: below) (hf : f.stuck s = true) :
    HandlerHeld s (tick s) := by
  have ht : s.top = some f := by simp only [State.top, hh]
  refine tick_keeps (fun u hu => ⟨hu.handlers, hu.program, hu.trace, hu.params, fun j => ?latch⟩)
    (fun _ _ _ => ⟨rfl, rfl, rfl, rfl, fun _ => rfl⟩) (fun xs _ => ?context)
    (fun i c xs _ => ⟨rfl, rfl, rfl, rfl, handle_setEng_hardware (hardwareStep_applyFreeInput _ c)⟩)
    (fun i x xs _ => ⟨rfl, rfl, rfl, rfl, handle_setEng_hardware (hardwareStep_applyRef _ x)⟩)
    (fun xs _ => ?dispatch) (fun i l xs _ => ?reinit)
  case latch => rw [handle_eq, latchAll_eng, latchPending_h]; exact hu.handle j
  case context => rw [contextStep_stuck_withInputs ht hf]; exact ⟨rfl, rfl, rfl, rfl, fun _ => rfl⟩
  case dispatch =>
    rw [dispatch_none ((withInputs_nextInterrupt s xs).trans (nextInterrupt_stuck hh hf))]
    exact ⟨rfl, rfl, rfl, rfl, fun _ => rfl⟩
  case reinit =>
    have hq : (s.withInputs xs).quietFor i = false := by simp [State.quietFor, hh]
    rw [State.reinitInput, hq]
    exact ⟨rfl, rfl, rfl, rfl, fun _ => rfl⟩

/-! ## A stale request written back (20 R74, 70 R348) -/

@[simp] theorem withInputs_unmarked (xs : List Input) : (s.withInputs xs).Unmarked ↔ s.Unmarked := Iff.rfl

/-- CR1 written back from a read of before a controller's step holds what was read: the reserved bits, which the write
leaves, are none the step changes. -/
theorem cr1_afterWrite_stale {e : Engine} {v m : Half} (h : e.regs.cr1 &&& ~~~0x0300 = v &&& ~~~0x0300)
    (hpe : v.getLsbD 0 = true) (hm : m &&& ~~~cr1Writable = 0) :
    (e.afterWrite (v.setWidth 32 ||| m.setWidth 32) .cr1).regs.cr1 = v ||| m := by
  have hout : ∀ k < 16, cr1Writable.getLsbD k = false → (~~~0x0300 : Half).getLsbD k = true := by decide
  have hpe' : (v.setWidth 32 ||| m.setWidth 32 : Word).getLsbD 0 = true := by simp [hpe]
  rw [afterWrite_cr1_enabled hpe', half_or, withCR1_cr1]
  apply Half.ext_bits
  intro k hk
  rw [mergeMask_bit hk]
  cases hw : cr1Writable.getLsbD k
  · have hr := congrArg (fun x => x.getLsbD k) h
    have hmk := congrArg (fun x => x.getLsbD k) hm
    simp only [BitVec.getLsbD_and, hout k hk hw, Bool.and_true] at hr
    simp only [BitVec.getLsbD_and, BitVec.getLsbD_not, hw, hk, decide_true, Bool.not_false, Bool.and_true] at hmk
    rw [BitVec.getLsbD_or, hmk]
    simpa using hr
  · rfl

/-- GEN_STOP with a controller's step between its read and its write. -/
theorem exec_genStop_interleaved {e : Engine} {c : HwChange} (hh : s.Has i) (hu : s.Unmarked)
    (hin : s.inputs = [.run, .free i c, .run])
    (he : (((s.eng i).latchPending.applyFreeInput c).latchPending.afterWrite
      ((s.eng i).regs.cr1.setWidth 32 ||| cr1STOP.setWidth 32) .cr1) = e) :
    ∃ t, exec (.genStop i) s = .next t ∧ (t.eng i).regs = e.regs ∧ Returned s t := by
  have hstart : exec (.genStop i) s = issue (.ok (Frame.start .GEN_STOP i genStop .none)) s := by
    simp [exec, execGenStop, genStopCmd, checkIndex_has hh]
  have hr : (s.eng i).afterRead .cr1 = s.eng i := rfl
  have hv : (s.eng i).value .cr1 = (s.eng i).regs.cr1.setWidth 32 := rfl
  have hfuel : s.fuel = 131 := by simp [State.fuel, hin]
  simp only [hstart, issue_put hh, hfuel, Frame.start, genStop, setBits, Line.then]
  rw [advance_run (xs := [.free i c, .run]) (by omega) (by simp) (by simpa using hin) (by simpa using hu) (by simp)
    (by simp)]
  simp only [perform, RmwReg.reg, put_withInputs, put_params, go_straight, put_eng_same, hv, hr, put_regRead,
    put_latchAll]
  rw [advance_free (j := i) (c := c) (xs := [.run]) (by omega) (by simp) (by simpa using hh.1) (by simp)
    (by simpa using hu)]
  simp only [put_withInputs, put_eng_same, put_setEng, put_latchAll]
  rw [advance_run (xs := []) (by omega) (by simp) (by simp) (by simpa using hu) (by simp) (by simp)]
  simp only [perform, RmwReg.reg, put_withInputs, put_params, go_straight, put_regWrite, put_latchAll, he]
  rw [advance_return (by omega) (by simp) ⟨by simp, by simpa using hu⟩]
  refine ⟨_, rfl, ?_, rfl, rfl⟩
  rw [latchAll_eng, emit_eng, put_eng_same]
  rfl

/-! ## The statements settled -/

/-- Settles O54: only a buffer write changes memory, and it keeps the form; a re-initialisation leaves memory. -/
theorem stepKeepsMemoryCanonical : Obligations.StepKeepsMemoryCanonical :=
  fun _ _ hs h => Kept.memoryCanonical.step (fun _ hu _ _ _ _ _ => hu) hs h

/-- Settles O57, by the invariant on registers and positions: every move of a boundary keeps `LaunchKept`. -/
theorem stepKeepsTheLaunchedControlRegister : Obligations.StepKeepsTheLaunchedControlRegister :=
  fun _ _ hs h => hs.step h

/-- Settles O5: one access each, and the engine after it; the sequence is `afterRead_sr1_sr2`. -/
theorem statusReadsAndTheAddressClear : Obligations.StatusReadsAndTheAddressClear := by
  refine ⟨fun s i => ?_, fun s i => ?_, fun s i => ?_⟩
  · have h := access_regRead s i .sr1
    rwa [afterRead_sr1] at h
  · have h := access_regRead s i .sr2
    rwa [afterRead_sr2] at h
  · rw [regRead_eng_same, regRead_eng_same, afterRead_sr1, afterRead_sr1_sr2]
    rfl

/-- Settles O6: one access each; a FREE controller takes no note of a byte written. -/
theorem dataRegisterAccessesClearFlags : Obligations.DataRegisterAccessesClearFlags := by
  refine ⟨fun s i v => ?_, fun s i hc => ?_⟩
  · have h := access_regWrite s i .dr v
    rw [afterWrite_dr_lowByte, afterWrite_dr] at h
    exact ⟨_, fun hf => by rw [hf]; rfl, h⟩
  · have h := access_regRead s i .dr
    rwa [afterRead_dr hc] at h

/-- Settles O7, by whether the value written has PE set. -/
theorem controlOneWriteAndDisable : Obligations.ControlOneWriteAndDisable := by
  intro s i v
  have h := access_regWrite s i .cr1 v
  have hbit : ∀ k, k < 16 → k ≠ 2 → k ≠ 14 →
      (mergeMask (s.eng i).regs.cr1 (v.setWidth 16) cr1Writable).getLsbD k = v.getLsbD k := by
    intro k hk h2 h14
    rw [cr1_merged_bit hk, if_neg (by simp [h2, h14])]
  cases hv : v.getLsbD 0
  · rw [afterWrite_cr1_disabled hv] at h
    refine ⟨_, h, fun k hk h2 h14 hk' => ?_, ?_, ?_, nofun, fun _ => ⟨rfl, rfl, ?_, ?_, ?_⟩,
      rfl, rfl, rfl, rfl, rfl, rfl, rfl, rfl⟩
    · obtain ⟨h8, h9, h10⟩ := hk'.resolve_left nofun
      rw [cr1_cleared_bit hk, if_neg (by simp [h8, h9, h10]), hbit k hk h2 h14]
    · exact (cr1_cleared_bit (by decide)).trans (cr1_merged_bit (by decide))
    · exact (cr1_cleared_bit (by decide)).trans (cr1_merged_bit (by decide))
    · exact cr1_cleared_bit (by decide)
    · exact cr1_cleared_bit (by decide)
    · exact cr1_cleared_bit (by decide)
  · rw [afterWrite_cr1_enabled hv] at h
    exact ⟨_, h, fun k hk h2 h14 _ => hbit k hk h2 h14, cr1_merged_bit (by decide), cr1_merged_bit (by decide),
      fun _ => ⟨rfl, rfl⟩, nofun, rfl, rfl, rfl, rfl, rfl, rfl, rfl, rfl⟩

/-- Settles O8: one access each, its bits read off the masks of software-writable bits. -/
theorem statusWritesAndPlainAccesses : Obligations.StatusWritesAndPlainAccesses := by
  have hset : ∀ k ∈ [0, 1, 2, 3, 4, 5, 8, 9, 10, 11, 12], k < 16 ∧ cr2Writable.getLsbD k = true := by decide
  have hleft : ∀ k ∈ [6, 7, 13, 14, 15], k < 16 ∧ cr2Writable.getLsbD k = false := by decide
  refine ⟨fun s i v => ⟨_, access_regWrite s i .sr1 v, fun k hk => sr1_written_bit hk⟩, fun s i v =>
    ⟨⟨_, access_regWrite s i .cr2 v, fun k hk => ?_, fun k hk => ?_⟩, access_regWrite s i .sr2 v, fun r hr => ?_⟩⟩
  · obtain ⟨h16, hw⟩ := hset k hk
    rw [mergeMask_bit h16, hw, if_pos rfl, BitVec.getLsbD_setWidth]
    simp [h16]
  · obtain ⟨h16, hw⟩ := hleft k hk
    rw [mergeMask_bit h16, hw]
    rfl
  · simp only [List.mem_cons, List.not_mem_nil, or_false] at hr
    obtain rfl | rfl | rfl | rfl | rfl | rfl | rfl := hr
    all_goals exact access_regRead s i _

/-- Settles O14: the step is a `HardwareStep` of its own engine, and the latches' update. -/
theorem controllerStepsChangeOnlyHardwareState : Obligations.ControllerStepsChangeOnlyHardwareState := by
  intro s i x rest h hx
  obtain ⟨es, ht, hw, hothers⟩ := tick_ofController h hx
  refine ⟨_, _, _, _, (engineAt es i).regs.dr, (engineAt es i).ctrl, ht, ?_, hw.cr1, hw.start, hw.sr1, hw.sr2,
    fun j hj => ?_, fun _ => rfl, ⟨rfl, rfl⟩, rfl, rfl, rfl, rfl, rfl, rfl⟩
  · rw [latchAll_eng]
    exact congrArg Engine.latchPending hw.frame
  · rw [latchAll_eng]
    exact congrArg Engine.latchPending (hothers j hj)

/-- Settles O15, by the reactions: a byte taken or held back, and a STOP or START between bytes. -/
theorem referenceReceiveByte : Obligations.ReferenceReceiveByte := by
  refine ⟨fun s i p d rest hi hp hin htra haddr hacked hack hheld hgap => ?byte, fun s i p rest hi hp hg hr => ?between⟩
  case byte =>
    have hbetween : (s.eng i).betweenBytes p = false := by
      rw [Engine.betweenBytes, Bool.and_eq_false_iff]
      exact hgap.imp id fun h0 => Bool.eq_false_iff.mpr fun h => (requested_iff _).mp h h0
    have hadmits : (s.eng i).admits p (.rxByte d) = true := by
      simp only [Engine.admits, Engine.receiving, Engine.addressDone, anyBit_TRA, anyBit_ADDR, htra, haddr, hacked,
        hack, hheld, hbetween]
      rfl
    have ht := tick_ref hi hin
    rw [applyRef_of_admits hp hadmits] at ht
    refine ⟨fun hrx => ?_, fun hrx => ?_⟩
    · rw [ht, reaction_rxByte_taken d hrx]
      exact ⟨rfl, rfl⟩
    · rw [reaction_rxByte_held d hrx] at ht
      have hregs : ((tick s).eng i).regs = { (s.eng i).regs with sr1 := (s.eng i).regs.sr1 ||| 0x0004 } := by
        rw [ht]; rfl
      have hctrl : ((tick s).eng i).ctrl = .ref { p with held := some d } := by rw [ht]; rfl
      obtain ⟨hregs', hctrl'⟩ := afterRead_dr_held hctrl rfl
      rw [regRead_eng_same, hregs', hctrl', Engine.value, hregs, or_or_andNot]
      exact ⟨rfl, hctrl, rfl, rfl, rfl⟩
  case between =>
    have hreq : (s.eng i).requested = true := (requested_iff _).mpr hr
    refine ⟨fun d hin => ?_, fun hin hstop hs ha => ?_, fun hin hstart hmsl hs ha => ?_⟩ <;>
      rw [tick_ref hi hin]
    · have hadmits : (s.eng i).admits p (.rxByte d) = false := not_receiving_between hg hreq
      simp only [Engine.applyRef, hp, hadmits, Bool.false_eq_true, if_false]
    · have hadmits : (s.eng i).admits p .stop = true := by
        simp only [Engine.admits, anyBit_STOP, hstop, noByteInFlight_between hg hreq hs ha, Bool.and_self]
      rw [applyRef_of_admits hp hadmits, latchPending_regs, reaction_stop_regs]
    · have hadmits : (s.eng i).admits p .start = true := by
        simp only [Engine.admits, anyBit_START, anyBit_MSL, hstart, hmsl, noByteInFlight_between hg hreq hs ha,
          Bool.and_self, Bool.or_true]
      rw [applyRef_of_admits hp hadmits, latchPending_regs, reaction_start_regs]

/-- Settles O16: the stuck context stays at every kind of boundary, and a stuck handler admits no entry. -/
theorem rejectedBufferAccessIsStuck : Obligations.RejectedBufferAccessIsStuck := by
  intro s f a ht ha hb
  have hf : f.stuck s = true := stuck_iff.mpr ⟨a, ha, hb⟩
  have hm := tick_mainHeld ht hf
  refine ⟨fun hi => ?_, fun xs hi => ?_, hm.main, hm.params, fun below hh => ?_, fun hn => ha.of_not_app hn _⟩
  · rw [tick_quiet hi, contextStep_stuck ht hf]
  · rw [tick_run hi, contextStep_stuck_withInputs ht hf]
  · have h := tick_handlerHeld hh hf
    refine ⟨h.handlers, h.program, h.trace, ?_⟩
    rw [accesses_iff_bufferAddr] at ha ⊢
    rw [bufferAddr_congr f (congrArg Params.app h.params) h.handle, ha]

/-- Settles O38: the write back holds the bits read before the controller's step (`cr1_afterWrite_stale`). -/
theorem staleRequestIsWrittenBack : Obligations.StaleRequestIsWrittenBack := by
  intro s i c hh hu he _ _ _ hpend hin
  obtain ⟨t, hexec, hregs, hret⟩ := exec_genStop_interleaved (c := c) hh hu hin rfl
  have hcr1 : (t.eng i).regs.cr1 = (s.eng i).regs.cr1 ||| 0x0200 := by
    rw [hregs]
    exact cr1_afterWrite_stale (hardwareStep_applyFreeInput _ c).cr1 he (by decide)
  exact ⟨t, hexec, hcr1, by simp [hcr1, hpend], hret⟩

end Sys2Proof.Machine

/-! The command records and the opcode map, the refusals of illegal operands and of handler commands, and the address
bytes (30). -/

namespace Sys2Proof

variable {w : CmdWord} {op : Byte} {x : Instr} {r r' : OpRow}

/-! ## The layout of a record (log 1) -/

/-- A record's fields are read back: each lies between the fields appended below it and those above. -/
theorem ofRecord_toRecord (f : CmdFields) : CmdFields.ofRecord f.toRecord = f := by
  simp (disch := decide) only [CmdFields.ofRecord, CmdFields.toRecord, BitVec.extractLsb'_append_eq_of_le,
    BitVec.extractLsb'_append_eq_of_add_le]
  simp only [Nat.reduceAdd, Nat.reduceSub, BitVec.extractLsb'_eq_self]

/-- The bit of `sr` is set exactly if `sr` is. -/
theorem ofBool_beq_one (b : Bool) : (BitVec.ofBool b == 1) = b := by
  cases b <;> rfl

/-- The direction of SEND_ADDR is op[0] (30 R121). -/
theorem opcode_sendAddr_bit (i : Nat) (a : Byte) (d : Dir) :
    (opcode (.sendAddr i a d)).getLsbD 0 = decide (d = .read) := by
  cases d <;> simp [opcode]

/-- The enable of MANAGE_ACK is op[0] (30 R121). -/
theorem opcode_manageAck_bit (i : Nat) (en : Bool) : (opcode (.manageAck i en)).getLsbD 0 = en := by
  cases en <;> simp [opcode]

/-- The fields of a command's record, read as a command of its row, are the command: an index below 256 fits its byte. -/
theorem command_fieldsOf (hi : x.index < 256) : (fieldsOf x).command x.mnemonic = x := by
  have hidx : (BitVec.ofNat 8 x.index).toNat = x.index := by rw [BitVec.toNat_ofNat, Nat.mod_eq_of_lt hi]
  cases x
  case sendAddr i a d =>
    simp only [Instr.index] at hidx
    simp only [fieldsOf, CmdFields.command, Instr.mnemonic, hidx, opcode_sendAddr_bit]
    cases d <;> rfl
  case manageAck =>
    simp only [Instr.index] at hidx
    simp only [fieldsOf, CmdFields.plain, CmdFields.command, Instr.mnemonic, hidx, opcode_manageAck_bit]
  all_goals
    simp only [Instr.index] at hidx
    simp only [fieldsOf, CmdFields.plain, CmdFields.transfer, CmdFields.command, Instr.mnemonic, hidx, ofBool_beq_one]

/-! ## The opcode map (30 R122, R123) -/

/-- A record whose opcode byte selects a row decodes to that row's command. -/
theorem decode_of_row (h : rowOf (w.extractLsb' 0 8) = some r) :
    decode w = .ok ((CmdFields.ofRecord w).command r.name) := by
  simp only [decode, CmdFields.ofRecord, h]

/-- A record whose opcode byte selects no row is rejected by name. -/
theorem decode_of_noRow (h : rowOf (w.extractLsb' 0 8) = none) :
    decode w = .error (.unknownCommand (w.extractLsb' 0 8)) := by
  simp only [decode, CmdFields.ofRecord, h]

/-- The row a byte selects is a row of the map, and the byte matches it. -/
theorem rowOf_some (h : rowOf op = some r) : r ∈ opTable ∧ op &&& r.mask = r.value :=
  ⟨List.mem_of_find?_eq_some h, by simpa [OpRow.hits] using List.find?_some h⟩

/-- The bytes that select no row are those 30 R123 lists, over the 256 bytes. -/
theorem rowOf_none_iff : rowOf op = none ↔ Machine.reservedOpcode op = true := by
  have h : ∀ op : Byte, rowOf op = none ↔ Machine.reservedOpcode op = true := by decide
  exact h op

/-- Two rows matched by one byte agree where both masks look, and so are one row. -/
theorem row_unique (hr : r ∈ opTable) (hr' : r' ∈ opTable) (h : op &&& r.mask = r.value)
    (h' : op &&& r'.mask = r'.value) : r = r' := by
  have hdisjoint : ∀ r ∈ opTable, ∀ r' ∈ opTable, r.value &&& r'.mask = r'.value &&& r.mask → r = r' := by decide
  refine hdisjoint r hr r' hr' ?_
  calc r.value &&& r'.mask = op &&& r.mask &&& r'.mask := by rw [h]
    _ = op &&& r'.mask &&& r.mask := by ac_rfl
    _ = r'.value &&& r.mask := by rw [h']

/-- The command read from the fields of a record for a row belongs to that row. -/
theorem command_mnemonic (f : CmdFields) (m : Mnemonic) : (f.command m).mnemonic = m := by
  cases m <;> rfl

/-- The opcode byte of a command's record selects the command's row, command by command. -/
theorem rowOf_encode (x : Instr) : (rowOf ((encode x).extractLsb' 0 8)).map (·.name) = some x.mnemonic := by
  cases x
  case genStart => exact Laws.OpcodeRow.genStart _
  case genStop => exact Laws.OpcodeRow.genStop _
  case sendAddr => exact Laws.OpcodeRow.sendAddr ..
  case clearAddr => exact Laws.OpcodeRow.clearAddr _
  case manageAck => exact Laws.OpcodeRow.manageAck ..
  case waitFlags => exact Laws.OpcodeRow.waitFlags ..
  case masterTx => exact Laws.OpcodeRow.masterTx ..
  case masterRx => exact Laws.OpcodeRow.masterRx ..
  case memRead => exact Laws.OpcodeRow.memRead ..
  case masterTxIt => exact Laws.OpcodeRow.masterTxIt ..
  case masterRxIt => exact Laws.OpcodeRow.masterRxIt ..
  case closeTx => exact Laws.OpcodeRow.closeTx _
  case closeRx => exact Laws.OpcodeRow.closeRx _
  case evIrq => exact Laws.OpcodeRow.evIrq _
  case erIrq => exact Laws.OpcodeRow.erIrq _

/-- Decoding inverts encoding for every command whose index a record can name. -/
theorem decode_encode (hi : x.index < 256) : decode (encode x) = .ok x := by
  obtain ⟨r, hrow, hname⟩ := Option.map_eq_some_iff.mp (rowOf_encode x)
  rw [decode_of_row hrow, hname, encode, ofRecord_toRecord, command_fieldsOf hi]

/-- A record written out decodes to the command it is the record of. -/
theorem decode_of_encode (he : encode x = w) (hi : x.index < 256) : decode w = .ok x := he ▸ decode_encode hi

/-- A well-formed command names a controller that exists. -/
theorem WellFormed.index_lt {n : Nat} (h : WellFormed n x) : x.index < n := by
  simp only [WellFormed, Instr.wellFormed, Bool.and_eq_true, decide_eq_true_eq] at h
  exact h.1

end Sys2Proof

namespace Sys2Proof.Machine

variable {s : State} {i : Idx} {k : HandlerKind} {x : Instr}

/-! ## Refusals at a command's entry (30 R132, R137) -/

theorem checkIndex_lt {n : Nat} (h : i < n) : checkIndex n i = .ok i := by
  simp only [checkIndex, h, if_true]

/-- A command of a controller that does not exist is refused before any other check (log 12). -/
theorem softwareCmd_noSuchInstance {n : Nat} (h : n ≤ x.index) :
    softwareCmd n x = .error (.noSuchInstance x.index) := by
  have hidx : checkIndex n x.index = .error (.noSuchInstance x.index) := checkIndex_ge h
  cases x
  all_goals exact congrArg (· >>= _) hidx

/-- A handler command of software is refused (30 R137). -/
theorem handlerCmd_lt {n : Nat} (h : i < n) : handlerCmd n i = .error .handlerFromSoftware := by
  rw [handlerCmd, checkIndex_lt h]
  rfl

/-- A handler command of a controller that does not exist is refused for that, entered or not. -/
theorem runHandler_noSuchInstance (h : s.params.nInst ≤ i) : runHandler k i s = .refused (.noSuchInstance i) := by
  simp only [runHandler, checkIndex_ge h]

/-- A handler command is refused where the dispatch has not just entered that handler. -/
theorem runHandler_notEntered (hi : i < s.params.nInst) (h : s.entered k i = false) :
    runHandler k i s = .refused .handlerFromSoftware := by
  simp only [runHandler, checkIndex_lt hi, h, Bool.false_eq_true, if_false]

/-- A command of a controller that does not exist is refused by name. -/
theorem exec_noSuchInstance (h : s.params.nInst ≤ x.index) : exec x s = .refused (.noSuchInstance x.index) := by
  have hcmd := softwareCmd_noSuchInstance h
  cases x
  case evIrq => exact runHandler_noSuchInstance h
  case erIrq => exact runHandler_noSuchInstance h
  all_goals exact congrArg (issue · s) hcmd

section EntryChecks

variable {n : Nat} {buf len size : Word} {addr width : Byte} {m : Half} {sr : Bool} (hi : i < n)
include hi

theorem masterTxCmd_null (hl : len ≠ 0) : masterTxCmd n i 0 len addr sr = .error .nullBuffer := by
  simp [masterTxCmd, checkIndex_lt hi, checkBuffer_null hl]

theorem masterRxCmd_zero : masterRxCmd n i buf 0 addr sr = .error .zeroLengthReceive := by
  simp [masterRxCmd, checkIndex_lt hi]

theorem masterRxCmd_null (hl : len ≠ 0) : masterRxCmd n i 0 len addr sr = .error .nullBuffer := by
  simp [masterRxCmd, checkIndex_lt hi, checkReceiveLength_ok hl, checkBuffer_null hl]

theorem masterTxItCmd_null (hl : len ≠ 0) : masterTxItCmd n i 0 len addr sr = .error .nullBuffer := by
  simp [masterTxItCmd, checkIndex_lt hi, checkBuffer_null hl]

theorem masterRxItCmd_zero : masterRxItCmd n i buf 0 addr sr = .error .zeroLengthReceive := by
  simp [masterRxItCmd, checkIndex_lt hi]

theorem masterRxItCmd_null (hl : len ≠ 0) : masterRxItCmd n i 0 len addr sr = .error .nullBuffer := by
  simp [masterRxItCmd, checkIndex_lt hi, checkReceiveLength_ok hl, checkBuffer_null hl]

theorem memReadCmd_badWidth (h1 : width ≠ 1) (h2 : width ≠ 2) :
    memReadCmd n i addr m width buf size = .error (.badAddressWidth width) := by
  simp [memReadCmd, checkIndex_lt hi, checkWidth_bad h1 h2]

theorem memReadCmd_zero (hw : width = 1 ∨ width = 2) :
    memReadCmd n i addr m width buf 0 = .error .zeroLengthReceive := by
  simp [memReadCmd, checkIndex_lt hi, checkWidth_ok hw]

theorem memReadCmd_null (hw : width = 1 ∨ width = 2) (hs : size ≠ 0) :
    memReadCmd n i addr m width 0 size = .error .nullBuffer := by
  simp [memReadCmd, checkIndex_lt hi, checkWidth_ok hw, checkReceiveLength_ok hs, checkBuffer_null hs]

end EntryChecks

/-! ## Refusals at the fetch and in the callback -/

/-- A step from the idle contexts, with no input or the main context's next, is a fetch. -/
theorem step_fetch (hu : s.Unmarked) (hm : s.main = []) (hh : s.handlers = [])
    (hi : s.inputs = [] ∨ ∃ xs, s.inputs = .run :: xs) : ∃ xs, step s = (s.withInputs xs).fetch := by
  rw [step_idle hu hm hh]
  obtain hnil | ⟨xs, hrun⟩ := hi
  · have hs : s.withInputs [] = s := by rw [← hnil]; rfl
    refine ⟨[], ?_⟩
    rw [idleStep, hnil, hs]
  · refine ⟨xs, ?_⟩
    rw [idleStep, hrun]

/-- The fetch refuses a record with a reserved opcode byte by name (30 R123). -/
theorem fetch_unknown {w : CmdWord} {rest : List CmdWord} {op : Byte} (hp : s.program = w :: rest)
    (hd : decode w = .error (.unknownCommand op)) : s.fetch = .refused (.unknownCommand op) := by
  simp only [State.fetch, hp, hd]

/-- A handler command of the application is refused, whether or not a handler was entered (30 R137). -/
theorem issued_handler {n : Nat} {w : CmdWord} (hi : i < n) (hd : decode w = .ok (.evIrq i) ∨ decode w = .ok (.erIrq i)) :
    issued n w = .error .handlerFromSoftware := by
  obtain hd | hd := hd <;> simp only [issued, hd, softwareCmd, handlerCmd_lt hi]

/-- A refused command of the callback marks the run and leaves the callback where it stands (00 R12, 60 R311). -/
theorem tick_callback_refused {f g : Frame} {c : AppCommand} {e : Refusal} (hf : f.lines = [⟨.app, .straight⟩])
    (hin : s.inputs = []) (ht : s.top = some f) (hc : appChoice f s = some (.command c, g))
    (he : issued s.params.nInst (c.record g s) = .error e) : tick s = s.latchAll.refuse e := by
  have happ : appStep f s = s.refuse e := by simp only [appStep, hc, he]
  rw [tick_quiet hin, ← refuse_latchAll, ← happ]
  simp only [contextStep, ht, frameStep, hf]

/-! ## The address bytes (30 R125, R126) -/

/-- The address byte holds the low seven bits of the operand above the direction. -/
theorem addrByte_high (a : Byte) (d : Dir) : (addrByte a d).extractLsb' 1 7 = a.extractLsb' 0 7 := by
  have hmask : ∀ k < 7, (0xFE : Byte).getLsbD (1 + k) = true := by decide
  have hdir : ∀ k < 7, (Dir.bit d).getLsbD (1 + k) = false := by cases d <;> decide
  apply BitVec.eq_of_getLsbD_eq
  intro k hk
  have hlt : 1 + k < 8 := by omega
  simp only [BitVec.getLsbD_extractLsb', addrByte, BitVec.getLsbD_or, BitVec.getLsbD_and, BitVec.getLsbD_shiftLeft,
    hmask k hk, hdir k hk, hk, hlt]
  simp

/-- Bit 0 of the address byte is the direction. -/
theorem addrByte_zero (a : Byte) (d : Dir) : (addrByte a d).getLsbD 0 = decide (d = .read) := by
  cases d <;> simp [addrByte, Dir.bit]

/-- One memory-address byte is the low one. -/
theorem memAddrBytes_one (m : Half) : memAddrBytes m 1 = [m.setWidth 8] := by
  rw [memAddrBytes, if_pos rfl, BitVec.setWidth_eq_extractLsb' (by decide)]

/-- Two memory-address bytes go high byte first. -/
theorem memAddrBytes_two (m : Half) : memAddrBytes m 2 = [(m >>> 8).setWidth 8, m.setWidth 8] := by
  have hhigh : (m >>> 8).setWidth 8 = m.extractLsb' 8 8 := rfl
  rw [memAddrBytes, if_neg (by decide), hhigh, BitVec.setWidth_eq_extractLsb' (by decide)]

/-! ## The statements settled -/

/-- Settles O1, by the round trip of the record's fields and the row each opcode byte selects. -/
theorem decodeInvertsEncode : Obligations.DecodeInvertsEncode :=
  fun _ _ hn hx => decode_encode (hx.index_lt.trans_le hn)

/-- Settles O2: the map's rows are disjoint, and the bytes it leaves are the reserved ones, refused at the fetch. -/
theorem opcodeMapTotalAndUnambiguous : Obligations.OpcodeMapTotalAndUnambiguous := by
  refine ⟨fun w hw => ?hit, fun w hw => ?reserved, fun op r hr r' hr' => row_unique hr hr'⟩
  case hit =>
    have hrow : rowOf (w.extractLsb' 0 8) ≠ none := by simp [rowOf_none_iff, hw]
    obtain ⟨r, hr⟩ := Option.ne_none_iff_exists'.mp hrow
    obtain ⟨hmem, hhit⟩ := rowOf_some hr
    exact ⟨_, r, decode_of_row hr, hmem, hhit, command_mnemonic _ _⟩
  case reserved =>
    have hd := decode_of_noRow (rowOf_none_iff.mpr hw)
    refine ⟨hd, fun s rest hu hm hh hp hi => ?_⟩
    obtain ⟨xs, hstep⟩ := step_fetch hu hm hh hi
    exact hstep.trans (fetch_unknown (s := s.withInputs xs) hp hd)

/-- Settles O23: software's handler command fails its entry check, and from the callback the refusal is a mark. -/
theorem handlersFromSoftwareAreRefused : Obligations.HandlersFromSoftwareAreRefused := by
  intro s i hi
  refine ⟨runHandler_notEntered hi, runHandler_notEntered hi, fun f g c hf hq ht hc hd => ?_⟩
  have htick := tick_callback_refused hf hq.1 ht hc (issued_handler hi hd)
  rw [htick]
  exact ⟨rfl, ⟨rfl, rfl⟩, rfl, step_refused rfl⟩

/-- Settles O3: each word written out is the record of its command, and decoding inverts encoding. -/
theorem wordsOfTheOpcodeMapDecode : Obligations.WordsOfTheOpcodeMapDecode := by
  and_intros <;> exact decode_of_encode (by decide) (by decide)

/-- Settles O4, by the bits of the address byte; the bytes of MEM_READ by its width. -/
theorem addressBytesOnTheWire : Obligations.AddressBytesOnTheWire :=
  ⟨⟨fun _ => ⟨rfl, rfl⟩,
      fun a => ⟨addrByte_high a _, addrByte_zero a _, addrByte_high a _, addrByte_zero a _⟩,
      by decide, by decide, by decide, by decide⟩,
    fun m => ⟨memAddrBytes_one m, memAddrBytes_two m⟩⟩

/-- Settles O22: each command runs its entry checks in the rules' order, and the first that fails names the refusal. -/
theorem illegalOperandsAreRefusedByName : Obligations.IllegalOperandsAreRefusedByName := by
  have refused : ∀ {c : Except Refusal Frame} {e : Refusal} (s : State), c = .error e → issue c s = .refused e :=
    fun s h => h ▸ issue_error _ s
  refine ⟨fun x s h => exec_noSuchInstance h, fun i s hi => ⟨fun buf addr sr => ⟨?_, ?_⟩,
    fun len addr sr hl => ⟨?_, ?_, ?_, ?_⟩, fun addr m width buf size h1 h2 => ?_, fun addr m width buf hw => ?_,
    fun addr m width size hw hs => ?_⟩⟩
  · exact refused s (masterRxCmd_zero hi)
  · exact refused s (masterRxItCmd_zero hi)
  · exact refused s (masterTxCmd_null hi hl)
  · exact refused s (masterRxCmd_null hi hl)
  · exact refused s (masterTxItCmd_null hi hl)
  · exact refused s (masterRxItCmd_null hi hl)
  · exact refused s (memReadCmd_badWidth hi h1 h2)
  · exact refused s (memReadCmd_zero hi hw)
  · exact refused s (memReadCmd_null hi hw hs)

end Sys2Proof.Machine

/-! The primitives (40): the lines and blocks they are made of, run in either context with no input pending, and the run of
a whole command from its issue to its return. -/

namespace Sys2Proof.Machine

variable {X s : State} {o : Owner} {i : Idx} {e e' : Engine} {tr tr' : List Event} {m m' : List Host.Cell}
  {rest lines : List Line} {l l' : Locals} {res res' : Result} {n d : Nat}

/-! ## A command with no input pending -/

/-- One line of a command: its access on the command's controller, then the way the pseudocode goes on. -/
theorem advance_line {a : Act} {nx : Next} {f : Frame} (hd : X.depth = d) (hq : X.Quiet) (hn : 0 < n) (ha : a ≠ .app)
    (hc : ∀ c, a ≠ .callback c) (hp : perform i l (X.put i e tr m) a = some (X.put i e' tr' m', l'))
    (hg : nx.go X.params ⟨o, i, rest, l', res⟩ = .ok f) :
    advance n d ((X.put i e tr m).push ⟨o, i, ⟨a, nx⟩ :: rest, l, res⟩) =
      advance (n - 1) d ((X.latchAll.put i e'.latchPending tr' m').push f) := by
  rw [advance_quiet hn (by simpa using hd) (by simpa using hq) ha hc, hp]
  simp only [put_params, hg, put_latchAll]

/-- A command whose only entry check is its index, and whose run reaches its return, completes: its engine, its accesses
and its result, and nothing else (10 R33, 00 R14). -/
theorem exec_completes {x : Instr} {mn : Mnemonic}
    (hx : exec x s = issue (do return Frame.start mn (← checkIndex s.params.nInst i) lines res) s)
    (hh : s.Has i) (hq : s.Quiet) (hL : e.Latched) (hn : 0 < n)
    (hrun : advance 128 s.depth ((s.put i (s.eng i) [] s.mem).push ⟨.command mn, i, lines, Locals.init, res⟩) =
      advance n s.depth ((s.latchAll.put i e tr s.mem).push ⟨.command mn, i, [], l, res'⟩)) :
    ∃ t, exec x s = .next t ∧ Effect s t i e (tr ++ [.result i mn res']) ∧ SameMemory s t ∧ Returned s t := by
  refine ⟨s.latchAll.put i e (tr ++ [.result i mn res']) s.mem, ?_, effect_put .., fun _ => rfl, returned_put ..⟩
  rw [hx, checkIndex_has hh, except_bind_ok, except_pure, issue_put hh, fuel_quiet hq.1, Frame.start, hrun,
    advance_return hn (by simp) (by simpa using hq)]
  simp [hL.latchPending]

/-! ## Blocks -/

/-- A read-modify-write of CR1 on an enabled controller, whose second line writes back `v` (20 R74, R79). -/
theorem advance_rmwCR1 {a : Act} {v : Half} (hd : X.depth = d) (hq : X.Quiet) (hn : 1 < n) (ha : a ≠ .app)
    (hc : ∀ c, a ≠ .callback c)
    (hw : ∀ Y k, k.w = e.regs.cr1.setWidth 32 → perform i k Y a = some (Y.regWrite i .cr1 (v.setWidth 32), k))
    (hv : v.getLsbD 0 = true) (hm : mergeMask e.regs.cr1 v cr1Writable = v) :
    advance n d ((X.put i e tr m).push ⟨o, i, .then (.readW .cr1) :: .then a :: rest, l, res⟩) =
      advance (n - 2) d ((X.latchAll.put i (e.latchPending.withCR1 v) (tr ++ rmwCR1 i e.regs.cr1 v) m).push
        ⟨o, i, rest, { l with w := e.regs.cr1.setWidth 32 }, res⟩) := by
  have hread : perform i l (X.put i e tr m) (.readW .cr1) =
      some (X.put i e (tr ++ [.regRead i .cr1 (e.regs.cr1.setWidth 32)]) m,
        { l with w := e.regs.cr1.setWidth 32 }) := by
    simp only [perform, RmwReg.reg, put_regRead, put_eng_same]
    rfl
  have hwrite : e.latchPending.afterWrite (v.setWidth 32) .cr1 = e.latchPending.withCR1 v :=
    writeCR1_eq (by simpa using hm) hv
  have hL := (Engine.latched_latchPending e).withCR1 v
  rw [Line.then, advance_line hd hq (by omega) (by simp) (by simp) hread (go_straight ..), Line.then,
    advance_line (by simpa using hd) (by simpa using hq) (by omega) ha hc
      ((hw _ _ rfl).trans (by rw [put_regWrite, hwrite])) (go_straight ..)]
  simp only [latchAll_twice, hL.latchPending, rmwCR1, List.append_assoc, List.cons_append, List.nil_append]
  rfl

/-- `SetBits(CR1, mask)`. -/
theorem advance_setCR1 {mask : Half} (hd : X.depth = d) (hq : X.Quiet) (hn : 1 < n)
    (he : e.regs.cr1.getLsbD 0 = true) (hm : mask &&& ~~~cr1Writable = 0) :
    advance n d ((X.put i e tr m).push ⟨o, i, setBits .cr1 mask ++ rest, l, res⟩) =
      advance (n - 2) d ((X.latchAll.put i (e.latchPending.withCR1 (e.regs.cr1 ||| mask))
        (tr ++ rmwCR1 i e.regs.cr1 (e.regs.cr1 ||| mask)) m).push
        ⟨o, i, rest, { l with w := e.regs.cr1.setWidth 32 }, res⟩) :=
  advance_rmwCR1 hd hq hn (by simp) (by simp) (fun Y k hk => by rw [perform, hk, word_or]; rfl) (by simp [he])
    (mergeMask_or _ _ hm)

/-- `ClearBits(CR1, mask)`. -/
theorem advance_clearCR1 {mask : Half} (hd : X.depth = d) (hq : X.Quiet) (hn : 1 < n)
    (he : e.regs.cr1.getLsbD 0 = true) (hm : mask &&& ~~~cr1Writable = 0) (h0 : mask.getLsbD 0 = false) :
    advance n d ((X.put i e tr m).push ⟨o, i, clearBits .cr1 mask ++ rest, l, res⟩) =
      advance (n - 2) d ((X.latchAll.put i (e.latchPending.withCR1 (e.regs.cr1 &&& ~~~mask))
        (tr ++ rmwCR1 i e.regs.cr1 (e.regs.cr1 &&& ~~~mask)) m).push
        ⟨o, i, rest, { l with w := e.regs.cr1.setWidth 32 }, res⟩) :=
  advance_rmwCR1 hd hq hn (by simp) (by simp) (fun Y k hk => by rw [perform, hk, word_andNot]; rfl)
    (by rw [BitVec.getLsbD_and, BitVec.getLsbD_not, h0, he]; rfl) (mergeMask_andNot _ _ hm)

/-- A read of SR1 (20 R75). -/
theorem perform_readSR1 : perform i l (X.put i e tr m) .readSR1 =
    some (X.put i e.sampledSR1 (tr ++ [rSR1 i e.regs.sr1]) m, { l with v := e.regs.sr1.setWidth 32 }) := by
  simp only [perform, put_regRead, put_eng_same, afterRead_sr1]
  rfl

/-- The read sequence SR1, SR2, which clears ADDR (20 R75, R76). -/
theorem advance_readSequence (hd : X.depth = d) (hq : X.Quiet) (hn : 1 < n) (hL : e.Latched) :
    advance n d ((X.latchAll.put i e tr m).push ⟨o, i, [.then .readSR1, .then .readSR2], l, res⟩) =
      advance (n - 2) d ((X.latchAll.put i e.withAddrCleared
        (tr ++ [rSR1 i e.regs.sr1, rSR2 i e.regs.sr2]) m).push
        ⟨o, i, [], { l with v := e.regs.sr1.setWidth 32, u := e.regs.sr2.setWidth 32 }, res⟩) := by
  have hsr2 : ∀ Y u k, perform i k (State.put Y i e.sampledSR1 u m) .readSR2 =
      some (Y.put i e.withAddrCleared (u ++ [rSR2 i e.regs.sr2]) m, { k with u := e.regs.sr2.setWidth 32 }) := by
    intro Y u k
    simp only [perform, put_regRead, put_eng_same, afterRead_sr1_sr2]
    rfl
  rw [Line.then, advance_line (by simpa using hd) (by simpa using hq) (by omega) (by simp) (by simp) perform_readSR1
      (go_straight ..), hL.sampledSR1.latchPending, latchAll_twice, Line.then,
    advance_line (by simpa using hd) (by simpa using hq) (by omega) (by simp) (by simp) (hsr2 ..) (go_straight ..),
    hL.withAddrCleared.latchPending, latchAll_twice]
  simp only [List.append_assoc, List.cons_append, List.nil_append]
  rfl

/-! ## CLEAR_ADDR before its reads (40 R153) -/

/-- A read of the handle's state. -/
theorem advance_getState {nx : Next} {f : Frame} (hd : X.depth = d) (hq : X.Quiet) (hn : 0 < n)
    (hg : nx.go X.params ⟨o, i, rest, { l with s := e.h.transferState }, res⟩ = .ok f) :
    advance n d ((X.put i e tr m).push ⟨o, i, ⟨.getState, nx⟩ :: rest, l, res⟩) =
      advance (n - 1) d ((X.latchAll.put i e.latchPending tr m).push f) :=
  advance_line hd hq hn (by simp) (by simp) (by simp [perform]) hg

/-- A read of the handle's total. -/
theorem advance_getTotal {nx : Next} {f : Frame} (hd : X.depth = d) (hq : X.Quiet) (hn : 0 < n)
    (hg : nx.go X.params ⟨o, i, rest, { l with t := e.h.rxExpectedTotal }, res⟩ = .ok f) :
    advance n d ((X.put i e tr m).push ⟨o, i, ⟨.getTotal, nx⟩ :: rest, l, res⟩) =
      advance (n - 1) d ((X.latchAll.put i e.latchPending tr m).push f) :=
  advance_line hd hq hn (by simp) (by simp) (by simp [perform]) hg

/-- In a receive of one byte ACK is disabled before the lines that follow. -/
theorem advance_ackOff (hd : X.depth = d) (hq : X.Quiet) (hn : 3 < n) (he : e.regs.cr1.getLsbD 0 = true)
    (hrx : e.h.transferState = .busyRx) (hone : e.h.rxExpectedTotal = 1) :
    advance n d ((X.put i e tr m).push ⟨o, i, ⟨.getState, .ackOffIfRx⟩ :: rest, l, res⟩) =
      advance (n - 4) d ((X.latchAll.put i (e.latchPending.withCR1 (e.regs.cr1 &&& ~~~0x0400))
        (tr ++ rmwCR1 i e.regs.cr1 (e.regs.cr1 &&& ~~~0x0400)) m).push
        ⟨o, i, rest, { l with s := .busyRx, t := 1, w := e.regs.cr1.setWidth 32 }, res⟩) := by
  have hstate : Next.ackOffIfRx.go X.params ⟨o, i, rest, { l with s := e.h.transferState }, res⟩ =
      .ok ⟨o, i, ⟨.getTotal, .ackOffIfOne⟩ :: rest, { l with s := .busyRx }, res⟩ := by
    simp [Next.go, hrx, Frame.insert]
  have htotal : Next.ackOffIfOne.go X.latchAll.params
      ⟨o, i, rest, { l with s := .busyRx, t := e.latchPending.h.rxExpectedTotal }, res⟩ =
      .ok ⟨o, i, clearBits .cr1 cr1ACK ++ rest, { l with s := .busyRx, t := 1 }, res⟩ := by
    simp [Next.go, hone, Frame.insert]
  rw [advance_getState hd hq (by omega) hstate, advance_getTotal (by simpa using hd) (by simpa using hq) (by omega) htotal,
    latchPending_twice, latchAll_twice,
    advance_clearCR1 (e := e.latchPending) (by simpa using hd) (by simpa using hq) (by omega) he (by decide) (by decide)]
  simp only [latchAll_twice, latchPending_twice, latchPending_regs]
  rfl

/-- In every other state the lines that follow come next, and CR1 is not touched. -/
theorem advance_ackKept (hd : X.depth = d) (hq : X.Quiet) (hn : 1 < n)
    (h : ¬ (e.h.transferState = .busyRx ∧ e.h.rxExpectedTotal = 1)) :
    ∃ n' l', n - 2 ≤ n' ∧
      advance n d ((X.put i e tr m).push ⟨o, i, ⟨.getState, .ackOffIfRx⟩ :: rest, l, res⟩) =
        advance n' d ((X.latchAll.put i e.latchPending tr m).push ⟨o, i, rest, l', res⟩) := by
  by_cases hrx : e.h.transferState = .busyRx
  · have hone : e.h.rxExpectedTotal ≠ 1 := fun hone => h ⟨hrx, hone⟩
    have hstate : Next.ackOffIfRx.go X.params ⟨o, i, rest, { l with s := e.h.transferState }, res⟩ =
        .ok ⟨o, i, ⟨.getTotal, .ackOffIfOne⟩ :: rest, { l with s := e.h.transferState }, res⟩ := by
      simp [Next.go, hrx, Frame.insert]
    refine ⟨n - 2, { l with s := e.h.transferState, t := e.h.rxExpectedTotal }, Nat.le_refl _, ?_⟩
    rw [advance_getState hd hq (by omega) hstate,
      advance_getTotal (by simpa using hd) (by simpa using hq) (by omega) (by rw [Next.go, if_neg (by simpa using hone)])]
    simp only [latchAll_twice, latchPending_twice]
    rfl
  · exact ⟨n - 1, _, by omega, advance_getState hd hq (by omega) (by rw [Next.go, if_neg (by simpa using hrx)])⟩

/-! ## WAIT_FLAGS (40 R155) -/

/-- A mask is seen in the sampled word exactly if it is in the register. -/
theorem sampled_mask_iff {v mask : Half} :
    (v.setWidth 32 &&& mask.setWidth 32 : Word) = mask.setWidth 32 ↔ v &&& mask = mask := by
  rw [← BitVec.setWidth_and]
  refine ⟨fun h => ?_, congrArg _⟩
  simpa using congrArg (BitVec.setWidth 16) h

section Poll

variable {f : Frame} {p : Params} {v mask : Half} {k : Nat} {exit : PollExit} (hv : f.loc.v = v.setWidth 32)

include hv

/-- A read that shows every bit of the mask ends the poll, whatever else it shows. -/
theorem pollStep_seen (h : v &&& mask = mask) : f.pollStep p mask k exit = f := by
  rw [Frame.pollStep, hv, if_pos (sampled_mask_iff.mpr h)]

/-- A read that shows an error and not the mask ends the poll, if errors are propagated. -/
theorem pollStep_error (h : ¬ v &&& mask = mask) (he : p.propagateBusErrors = true ∧ v &&& 0x4F00 ≠ 0) :
    f.pollStep p mask k exit = f.pollFailed exit .error ((v &&& 0x4F00).setWidth 32) := by
  have herr : (p.propagateBusErrors && sampled (v.setWidth 32) errMask) = true := by
    simpa [anyBit, errMask] using he
  rw [Frame.pollStep, hv, if_neg (mt sampled_mask_iff.mp h), if_pos herr, ← BitVec.setWidth_and, errMask]

/-- Any other read ends the poll at its deadline, and else leads to the next. -/
theorem pollStep_unanswered (h : ¬ v &&& mask = mask) (he : ¬ (p.propagateBusErrors = true ∧ v &&& 0x4F00 ≠ 0)) :
    f.pollStep p mask k exit =
      if p.expired (k + 1) then f.pollFailed exit .timeout 0 else f.insert [⟨.readSR1, .poll mask (k + 1) exit⟩] := by
  have herr : ¬ (p.propagateBusErrors && sampled (v.setWidth 32) errMask) = true := by
    simpa [anyBit, errMask] using he
  rw [Frame.pollStep, hv, if_neg (mt sampled_mask_iff.mp h), if_neg herr]

end Poll

/-- One read of a poll. -/
theorem advance_poll {mask : Half} {k : Nat} {exit : PollExit} {f : Frame} (hd : X.depth = d) (hq : X.Quiet) (hn : 0 < n)
    (hf : Frame.pollStep ⟨o, i, rest, { l with v := e.regs.sr1.setWidth 32 }, res⟩ X.params mask k exit = f) :
    advance n d ((X.put i e tr m).push ⟨o, i, ⟨.readSR1, .poll mask k exit⟩ :: rest, l, res⟩) =
      advance (n - 1) d ((X.latchAll.put i e.latchPending.sampledSR1 (tr ++ [rSR1 i e.regs.sr1]) m).push f) := by
  rw [advance_line hd hq hn (by simp) (by simp) perform_readSR1 (by rw [Next.go, hf]), sampledSR1_latchPending]

/-- A poll that nothing answers reads SR1 up to its deadline: from its read after the `k`-th, `r` reads more and the last,
by induction on `r`. -/
theorem advance_poll_timeout {mask : Half} {dl : Nat} (hdl : X.params.pollDeadline = some dl) (hd : X.depth = d)
    (hq : X.Quiet) (h : ¬ e.regs.sr1 &&& mask = mask)
    (he : ¬ (X.params.propagateBusErrors = true ∧ e.regs.sr1 &&& 0x4F00 ≠ 0)) {r k : Nat} (hr : max dl 1 = k + r + 1)
    (hn : r < n) :
    ∃ l', advance n d ((X.put i e tr m).push ⟨o, i, [⟨.readSR1, .poll mask k .result⟩], l, res⟩) =
      advance (n - (r + 1)) d
        ((X.latchAll.put i e.latchPending.sampledSR1 (tr ++ List.replicate (r + 1) (rSR1 i e.regs.sr1)) m).push
          ⟨o, i, [], l', .poll .timeout 0⟩) := by
  induction r generalizing X e tr k l n with
  | zero =>
    have hexp : X.params.expired (k + 1) = true := by simp only [Params.expired, hdl, decide_eq_true_eq]; omega
    exact ⟨_, advance_poll hd hq hn ((pollStep_unanswered rfl h he).trans (if_pos hexp))⟩
  | succ r ih =>
    have hexp : ¬ X.params.expired (k + 1) = true := by simp only [Params.expired, hdl, decide_eq_true_eq]; omega
    obtain ⟨l', hrest⟩ := ih (X := X.latchAll) (e := e.latchPending.sampledSR1) (tr := tr ++ [rSR1 i e.regs.sr1])
      (k := k + 1) (l := { l with v := e.regs.sr1.setWidth 32 }) (n := n - 1) hdl (by simpa using hd)
      (by simpa using hq) h he (by omega) (by omega)
    refine ⟨l', ?_⟩
    rw [advance_poll hd hq (by omega) ((pollStep_unanswered rfl h he).trans (if_neg hexp))]
    refine hrest.trans ?_
    rw [Nat.sub_sub, Nat.add_comm 1]
    simp [List.replicate_succ (n := r + 1)]

/-! ## Commands that are one read-modify-write of CR1 -/

/-- A command that is `SetBits(CR1, mask)` completes. -/
theorem exec_setCR1 {x : Instr} {mn : Mnemonic} {mask : Half}
    (hx : exec x s = issue (do return Frame.start mn (← checkIndex s.params.nInst i) (setBits .cr1 mask) .none) s)
    (hh : s.Has i) (hq : s.Quiet) (he : s.Enabled i) (hm : mask &&& ~~~cr1Writable = 0) :
    ∃ t, exec x s = .next t ∧
      Effect s t i ((s.eng i).latchPending.withCR1 ((s.eng i).regs.cr1 ||| mask))
        (rmwCR1 i (s.eng i).regs.cr1 ((s.eng i).regs.cr1 ||| mask) ++ [.result i mn .none]) ∧
      SameMemory s t ∧ Returned s t :=
  exec_completes hx hh hq ((Engine.latched_latchPending _).withCR1 _) (by omega)
    (advance_setCR1 (rest := []) rfl hq (by omega) he hm)

/-! ## The statements settled -/

/-- Settles O24: each is `SetBits(CR1, mask)` with its own request. -/
theorem genStartAndGenStopSetTheirRequest : Obligations.GenStartAndGenStopSetTheirRequest :=
  ⟨fun _ _ hh hq he => exec_setCR1 rfl hh hq he (by decide), fun _ _ hh hq he => exec_setCR1 rfl hh hq he (by decide)⟩

/-- Settles O25: one write of DR, and the return. -/
theorem sendAddrWritesAddressByte : Obligations.SendAddrWritesAddressByte := by
  intro s i a d hh hq
  have hwrite : perform i Locals.init (s.put i (s.eng i) [] s.mem) (.writeDR (addrByte a d)) =
      some (s.put i ((s.eng i).afterWrite ((addrByte a d).setWidth 32) .dr) [wDR i (addrByte a d)] s.mem,
        Locals.init) := by
    simp only [perform, put_regWrite]
    rfl
  rw [afterWrite_dr] at hwrite
  obtain ⟨t, hx, hrest⟩ := exec_completes (x := .sendAddr i a d) rfl hh hq (Engine.latched_latchPending _) (by omega)
    (advance_line rfl hq (by omega) (by simp) (by simp) hwrite (go_straight ..))
  exact ⟨t, _, hx, fun hf => by rw [hf]; rfl, hrest⟩

/-- Settles O26, by whether the command stands in a receive of one byte. -/
theorem clearAddrDisablesAckFirst : Obligations.ClearAddrDisablesAckFirst := by
  intro s i hh hq he
  have hL := Engine.latched_latchPending (s.eng i)
  by_cases h : (s.eng i).h.transferState = .busyRx ∧ (s.eng i).h.rxExpectedTotal = 1
  · have hL' := hL.withCR1 ((s.eng i).regs.cr1 &&& ~~~0x0400)
    obtain ⟨t, hx, hE, hret⟩ := exec_completes (x := .clearAddr i) rfl hh hq hL'.withAddrCleared (by omega)
      ((advance_ackOff rfl hq (by omega) he h.1 h.2).trans (advance_readSequence rfl hq (by omega) hL'))
    exact ⟨t, hx, (if_pos h).mpr hE, hret⟩
  · obtain ⟨n, l, hn, hack⟩ := advance_ackKept rfl hq (show 1 < 128 by omega) h
    obtain ⟨t, hx, hE, hret⟩ := exec_completes (x := .clearAddr i) rfl hh hq hL.withAddrCleared (by omega)
      (hack.trans (advance_readSequence rfl hq (by omega) hL))
    exact ⟨t, hx, (if_neg h).mpr hE, hret⟩

/-- Settles O27, by the read-modify-write that `en` selects. -/
theorem manageAckWritesAck : Obligations.ManageAckWritesAck := by
  intro s i en hh hq he
  cases en with
  | false =>
    exact exec_completes rfl hh hq ((Engine.latched_latchPending _).withCR1 _) (by omega)
      (advance_clearCR1 (rest := []) rfl hq (by omega) he (by decide) (by decide))
  | true => exact exec_setCR1 rfl hh hq he (by decide)

/-- Settles O28: the first read decides where it shows the mask or a propagated error, and else the deadline's. -/
theorem waitFlagsReturnsItsPoll : Obligations.WaitFlagsReturnsItsPoll := by
  intro s i mask hh hq
  have hL := (Engine.latched_latchPending (s.eng i)).sampledSR1
  refine ⟨fun hseen => ?_, fun hseen herr => ?_, fun dl hseen herr hdl hle => ?_⟩
  · exact exec_completes rfl hh hq hL (by omega) (advance_poll rfl hq (by omega) (pollStep_seen rfl hseen))
  · exact exec_completes rfl hh hq hL (by omega) (advance_poll rfl hq (by omega) (pollStep_error rfl hseen herr))
  · obtain ⟨l, hrun⟩ := advance_poll_timeout (X := s) (e := s.eng i) (tr := []) (m := s.mem) (l := Locals.init)
      (o := .command .WAIT_FLAGS) (i := i) (res := .poll .ok 0) (k := 0) (r := max dl 1 - 1) (n := 128) hdl rfl hq hseen
      herr (by omega) (by omega)
    rw [show max dl 1 - 1 + 1 = max dl 1 by omega] at hrun
    exact exec_completes rfl hh hq hL (by omega) hrun

end Sys2Proof.Machine

/-! The polls of the blocking transfers (41 R180, R184, R186), in either context with no input pending: the entry check that
finds another state, the read of a poll that nothing answers, and the abort exit. -/

namespace Sys2Proof.Machine

variable {X X' s : State} {o : Owner} {i : Idx} {e : Engine} {tr : List Event} {m : List Host.Cell} {rest : List Line}
  {l l' : Locals} {res : Result} {n k : Nat} {h rx : Bool} {mask : Half} {exit : PollExit} {mn : Mnemonic} {f : Frame}

/-! ## A frame of either context -/

/-- `f` as the innermost frame over `X`: on top of the handler context if `h`, a call of the running context otherwise. -/
def State.above (X : State) (h : Bool) (f : Frame) : State := if h then X.enter f else X.push f

/-- A state whose running context stands at `f` is `f` over what runs below it. -/
theorem eq_pop_above (ht : s.top = some f) : ∃ h, s = s.pop.above h f := by
  obtain ⟨_, _, main, handlers, _, _, _, _, _, _⟩ := s
  cases handlers with
  | cons g gs =>
    cases ht
    exact ⟨true, rfl⟩
  | nil =>
    cases main with
    | nil => cases ht
    | cons g gs =>
      cases ht
      exact ⟨false, rfl⟩

@[simp] theorem above_depth : (X.above h f).depth = X.depth + 1 := by cases h <;> simp [State.above]

@[simp] theorem above_trace : (X.above h f).trace = X.trace := by cases h <;> simp [State.above]

@[simp] theorem above_eng (j : Idx) : (X.above h f).eng j = X.eng j := by cases h <;> simp [State.above]

@[simp] theorem above_params : (X.above h f).params = X.params := by cases h <;> simp [State.above]

@[simp] theorem above_byteAt (a : Word) : (X.above h f).byteAt a = X.byteAt a := by cases h <;> simp [State.above]

theorem above_quiet : (X.above h f).Quiet ↔ X.Quiet := by
  cases h <;> simp [State.above, State.Quiet, State.Unmarked]

/-- Two changes in normal form, one after the other. -/
@[simp] theorem put_put (tr' : List Event) (e' : Engine) (m' : List Host.Cell) :
    (X.put i e tr m).put i e' tr' m' = X.put i e' (tr ++ tr') m' := by
  simp [State.put, putEngine_putEngine]

/-- One line of a command, in either context. -/
theorem above_line {a : Act} {nx : Next} {f : Frame} (hq : X.Quiet) (hn : 0 < n) (ha : a ≠ .app)
    (hc : ∀ c, a ≠ .callback c) (hp : perform i l X a = some (X', l')) (hg : nx.go X.params ⟨o, i, rest, l', res⟩ = .ok f) :
    advance n X.depth (X.above h ⟨o, i, ⟨a, nx⟩ :: rest, l, res⟩) = advance (n - 1) X.depth (X'.latchAll.above h f) := by
  cases h with
  | false => simp only [State.above, Bool.false_eq_true, if_false, advance_quiet hn rfl hq ha hc, hp, hg]
  | true => simp only [State.above, if_true, advance_quiet_enter hn rfl hq ha hc, hp, hg]

/-- A CR1 write back leaves SR1 but for STOPF. -/
theorem withCR1_sr1_and (e : Engine) (v : Half) {w : Half} (hw : 0x0010 &&& w = 0) :
    (e.withCR1 v).regs.sr1 &&& w = e.regs.sr1 &&& w := by
  simp only [Engine.withCR1]
  split
  · exact clearMask_and hw
  · rfl

/-- The return of a command, in either context. -/
theorem above_return (hq : X.Quiet) (hn : 0 < n) :
    advance n X.depth (X.above h ⟨.command mn, i, [], l, res⟩) = (X.emit (.result i mn res)).latchAll := by
  cases h with
  | false => exact advance_return hn rfl hq
  | true =>
    rw [State.above, if_pos rfl, advance_tick hn (by simp) (by simpa [State.Unmarked] using hq.2),
      tick_quiet (by simpa using hq.1)]
    simp [contextStep, frameStep, State.leave, advance_done]

/-- `SetBits(CR1, mask)` on an enabled controller, in either context. -/
theorem above_setCR1 (hq : X.Quiet) (hL : e.Latched) (he : e.regs.cr1.getLsbD 0 = true)
    (hm : mask &&& ~~~cr1Writable = 0) (hn : 2 < n) :
    advance n X.depth ((X.latchAll.put i e tr m).above h ⟨o, i, setBits .cr1 mask ++ rest, l, res⟩) =
      advance (n - 2) X.depth ((X.latchAll.put i (e.withCR1 (e.regs.cr1 ||| mask))
        (tr ++ rmwCR1 i e.regs.cr1 (e.regs.cr1 ||| mask)) m).above h
        ⟨o, i, rest, { l with w := e.regs.cr1.setWidth 32 }, res⟩) := by
  cases h with
  | false =>
    have hrun := advance_setCR1 (X := X.latchAll) (o := o) (i := i) (e := e) (tr := tr) (m := m) (rest := rest) (l := l)
      (res := res) rfl hq (show 1 < n by omega) he hm
    rwa [hL.latchPending, latchAll_twice] at hrun
  | true => exact block_setCR1 hq hL he hm hn

/-! ## A poll (40 R155) -/

/-- One read of a poll. -/
theorem above_poll (hq : X.Quiet) (hn : 0 < n)
    (hf : Frame.pollStep ⟨o, i, rest, { l with v := (X.eng i).regs.sr1.setWidth 32 }, res⟩ X.params mask k exit = f) :
    advance n X.depth (X.above h ⟨o, i, ⟨.readSR1, .poll mask k exit⟩ :: rest, l, res⟩) =
      advance (n - 1) X.depth
        ((X.latchAll.put i (X.eng i).latchPending.sampledSR1 [rSR1 i (X.eng i).regs.sr1] X.mem).above h f) := by
  have hread : perform i l X .readSR1 =
      some (X.put i (X.eng i).sampledSR1 [rSR1 i (X.eng i).regs.sr1] X.mem,
        { l with v := (X.eng i).regs.sr1.setWidth 32 }) := by
    simp only [perform, State.regRead, afterRead_sr1]
    rfl
  rw [above_line hq hn (by simp) (by simp) hread (congrArg _ hf), put_latchAll, sampledSR1_latchPending]

/-- A read that shows neither the mask nor a propagated error, and is not the deadline's, leads to the next. -/
theorem pollStep_again {p : Params} {v : Half} (hv : f.loc.v = v.setWidth 32) (hx : ¬ v &&& mask = mask)
    (he : ¬ (p.propagateBusErrors = true ∧ v &&& 0x4F00 ≠ 0)) (hexp : p.expired (k + 1) = false) :
    f.pollStep p mask k exit = f.insert [⟨.readSR1, .poll mask (k + 1) exit⟩] :=
  (pollStep_unanswered hv hx he).trans (if_neg (by simp [hexp]))

section Unanswered

variable (hx : ¬ (X.eng i).regs.sr1 &&& mask = mask)
  (he : ¬ (X.params.propagateBusErrors = true ∧ (X.eng i).regs.sr1 &&& 0x4F00 ≠ 0))
include hx he

/-- A poll that nothing answers, from its read after the `k`-th: `r + 1` reads on, none of them the deadline's, it stands
in the poll again. By induction on `r`. -/
theorem above_poll_unanswered {r : Nat} (hq : X.Quiet) (hexp : ∀ j, j ≤ r → X.params.expired (k + j + 1) = false)
    (hn : r < n) :
    advance n X.depth (X.above h ⟨o, i, ⟨.readSR1, .poll mask k exit⟩ :: rest, l, res⟩) =
      advance (n - (r + 1)) X.depth
        ((X.latchAll.put i (X.eng i).latchPending.sampledSR1 (List.replicate (r + 1) (rSR1 i (X.eng i).regs.sr1))
          X.mem).above h
          ⟨o, i, ⟨.readSR1, .poll mask (k + (r + 1)) exit⟩ :: rest, { l with v := (X.eng i).regs.sr1.setWidth 32 },
            res⟩) := by
  induction r generalizing X k l n with
  | zero => exact above_poll hq hn (pollStep_again rfl hx he (hexp 0 (by omega)))
  | succ r ih =>
    have hrest := ih (X := X.latchAll.put i (X.eng i).latchPending.sampledSR1 [rSR1 i (X.eng i).regs.sr1] X.mem)
      (k := k + 1) (l := { l with v := (X.eng i).regs.sr1.setWidth 32 }) (n := n - 1) (by simpa using hx)
      (by simpa using he) hq (fun j hj => by rw [Nat.add_right_comm k 1 j]; exact hexp (j + 1) (by omega)) (by omega)
    rw [above_poll hq (by omega) (pollStep_again rfl hx he (hexp 0 (by omega)))]
    refine hrest.trans ?_
    simp [Nat.sub_sub, Nat.add_comm, Nat.add_left_comm, List.replicate_succ]

end Unanswered

/-- A main context at `f` is `f` pushed on what runs below it. -/
theorem exists_push {below : List Frame} (hh : s.handlers = []) (hm : s.main = f :: below) :
    ∃ X : State, s = X.above false f ∧ X.main = below ∧ X.handlers = [] ∧ X.depth = below.length := by
  obtain ⟨_, _, _, _, _, _, _, _, _, _⟩ := s
  subst hh hm
  exact ⟨⟨_, _, below, [], _, _, _, _, _, _⟩, rfl, rfl, rfl, rfl⟩

theorem above_false_main (hh : X.handlers = []) : (X.above false f).main = f :: X.main := by
  simp [State.above, push_eq, hh]

theorem above_false_handlers (hh : X.handlers = []) : (X.above false f).handlers = [] := by
  simp [State.above, push_eq, hh]

/-- Settles O29: no read is the deadline's, since there is none, so a poll that nothing answers stands in the poll again
after any number of reads. -/
theorem pollWithoutAnswerHangs : Obligations.PollWithoutAnswerHangs := by
  intro s i mask k n exit f below hq hh hm hi hlines hx herr hdl
  obtain ⟨X, rfl, hXm, hXh, hXd⟩ := exists_push hh hm
  obtain ⟨o, i', lines, l, res⟩ := f
  obtain rfl : i' = i := hi
  obtain ⟨rest, rfl⟩ : ∃ rest, lines = ⟨.readSR1, .poll mask k exit⟩ :: rest := ⟨_, hlines⟩
  simp only [above_eng, above_params, above_quiet] at hx herr hdl hq ⊢
  have herr' : ¬ (X.params.propagateBusErrors = true ∧ (X.eng i').regs.sr1 &&& 0x4F00 ≠ 0) := by
    rintro ⟨hp, hs⟩
    exact herr.elim (by rw [hp]; simp) hs
  have hnone : ∀ j, X.params.expired (k + j + 1) = false := fun j => by simp [Params.expired, hdl]
  cases n with
  | zero => exact ⟨X.above false _, l.v, rfl, hm, hh, by simp, by simp, by simp, fun _ => rfl, above_quiet.mpr hq⟩
  | succ n =>
    have hrun := above_poll_unanswered (h := false) (o := o) (rest := rest) (l := l) (res := res) (exit := exit) hx herr'
      hq (fun j _ => hnone j) (Nat.lt_succ_self n)
    rw [hXd, Nat.sub_self, advance] at hrun
    refine ⟨_, (X.eng i').regs.sr1.setWidth 32, hrun, ?_, above_false_handlers hXh, by simp, by simp, fun j => ?_,
      fun a => ?_, above_quiet.mpr hq⟩
    · rw [above_false_main (by exact hXh)]
      exact congrArg (_ :: ·) hXm
    · obtain rfl | hj := eq_or_ne j i'
      · simp
      · simp [put_eng_ne _ _ _ _ _ _ hj]
    · simp only [above_byteAt, put_byteAt]
      rfl

/-! ## A blocking command at its entry (41 R180) -/

section Entry

variable {buf len size : Word} {addr width : Byte} {memAddr : Half} {sr : Bool} (hh : s.Has i)
include hh

theorem exec_masterTx (hb : buf ≠ 0 ∨ len = 0) : exec (.masterTx i buf len addr sr) s =
    issue (.ok (Frame.start .MASTER_TX i (masterTx (.mem buf) len addr sr) (.status .ok))) s := by
  simp [exec, execMasterTx, masterTxCmd, checkIndex_has hh, checkBuffer_ok hb]

theorem exec_masterRx (hb : buf ≠ 0) (hl : len ≠ 0) : exec (.masterRx i buf len addr sr) s =
    issue (.ok (Frame.start .MASTER_RX i (masterRx buf len addr sr) (.status .ok))) s := by
  simp [exec, execMasterRx, masterRxCmd, checkIndex_has hh, checkReceiveLength_ok hl, checkBuffer_ok (.inl hb)]

theorem exec_memRead (hw : width = 1 ∨ width = 2) (hb : buf ≠ 0) (hl : size ≠ 0) :
    exec (.memRead i addr memAddr width buf size) s =
      issue (.ok (Frame.start .MEM_READ i (memRead addr memAddr width buf size) (.status .ok))) s := by
  simp [exec, execMemRead, memReadCmd, checkIndex_has hh, checkWidth_ok hw, checkReceiveLength_ok hl,
    checkBuffer_ok (.inl hb)]

/-- A command whose first line is the entry check returns BUSY in a state other than READY. -/
theorem issue_busy (hq : s.Quiet) (hs : (s.handle i).transferState ≠ .ready) :
    ∃ t, issue (.ok (Frame.start mn i (entryCheck ++ rest) (.status .ok))) s = .next t ∧
      Effect s t i (s.eng i).latchPending [.result i mn (.status .busy)] ∧ SameMemory s t ∧ Returned s t := by
  refine ⟨s.latchAll.put i (s.eng i).latchPending [.result i mn (.status .busy)] s.mem, ?_, effect_put ..,
    fun _ => rfl, returned_put ..⟩
  have hbusy : Next.busyIfNotReady.go s.params
      ⟨.command mn, i, rest, { Locals.init with s := (s.eng i).h.transferState }, .status .ok⟩ =
      .ok ⟨.command mn, i, [], { Locals.init with s := (s.eng i).h.transferState }, .status .busy⟩ :=
    congrArg Except.ok (if_neg hs)
  rw [issue_put hh, fuel_quiet hq.1, Frame.start, entryCheck, List.cons_append, List.nil_append,
    advance_getState rfl hq (by omega) hbusy,
    advance_return (by omega) (by simp) (by simpa using hq)]
  simp

end Entry

/-- Settles O30: each is a command whose first line is the entry check. -/
theorem blockingCommandReturnsBusy : Obligations.BlockingCommandReturnsBusy := by
  intro s i hh hq hs
  refine ⟨fun buf len addr sr hb => ?_, fun buf len addr sr hb hl => ?_, fun addr m width buf size hw hb hl => ?_⟩
  · rw [exec_masterTx hh hb]
    exact issue_busy hh hq hs
  · rw [exec_masterRx hh hb hl]
    exact issue_busy hh hq hs
  · rw [exec_memRead hh hw hb hl]
    exact issue_busy hh hq hs

/-! ## The abort exit (41 R184) -/

/-- The errors ask for a STOP: AF, alone of ARLO and BERR. -/
abbrev AsksStop (x : Half) : Prop := x.getLsbD 10 = true ∧ x &&& 0x0300 = 0

/-- The exit re-enables ACK: after a receive, if the policy is ENABLE. -/
abbrev RestoresAck (rx : Bool) (h : Handle) : Prop := rx = true ∧ h.cfg.ackControl = .enable

theorem asksStop_iff {x : Half} :
    (sampled ((x &&& 0x4F00).setWidth 32) sr1AF && !sampled ((x &&& 0x4F00).setWidth 32) (sr1ARLO ||| sr1BERR)) = true ↔
      AsksStop x := by
  have h1 : (x &&& 0x4F00).getLsbD 10 = x.getLsbD 10 := by simp
  have h2 : x &&& 0x4F00 &&& (sr1ARLO ||| sr1BERR) = x &&& 0x0300 := by rw [BitVec.and_assoc]; rfl
  rw [sampled_setWidth, sampled_setWidth, anyBit_AF, h1, anyBit, h2]
  simp [AsksStop]

/-- The lines of the exit with ERROR. -/
theorem abortBlocking_error (x : Half) (rx : Bool) : abortBlocking .error ((x &&& 0x4F00).setWidth 32) rx =
    .then (.writeSR1 (errClearValue ((x &&& 0x4F00).setWidth 32))) ::
      ((if AsksStop x then genStop else []) ++ if rx then restoreAck else []) := by
  simp only [abortBlocking, asksStop_iff, if_true, List.cons_append, List.nil_append]

/-- `a <- h.cfg.ackControl; if a == ACK_ENABLE: MANAGE_ACK(en = 1)` if the transfer is a receive, and the return. -/
theorem above_restoreAck_return (hq : X.Quiet) (hL : e.Latched) (he : e.regs.cr1.getLsbD 0 = true) (hn : 4 < n) :
    ∃ e' : Engine,
      advance n X.depth
          ((X.latchAll.put i e tr m).above h ⟨.command mn, i, if rx then restoreAck else [], l, res⟩) =
        X.latchAll.put i e' (tr ++ (if RestoresAck rx e.h then rmwCR1 i e.regs.cr1 (e.regs.cr1 ||| 0x0400) else []) ++
          [.result i mn res]) m ∧
      e'.regs.cr1 = (if RestoresAck rx e.h then e.regs.cr1 ||| 0x0400 else e.regs.cr1) ∧
      e'.regs.sr1 &&& 0xFFEF = e.regs.sr1 &&& 0xFFEF ∧ e'.h = e.h := by
  have hret : ∀ (e : Engine) (tr : List Event) (l : Locals) (n : Nat), e.Latched → 0 < n →
      advance n X.depth ((X.latchAll.put i e tr m).above h ⟨.command mn, i, [], l, res⟩) =
        X.latchAll.put i e (tr ++ [.result i mn res]) m := by
    intro e tr l n hL hn
    exact (above_return (X := X.latchAll.put i e tr m) hq hn).trans (by simp [hL.latchPending])
  cases rx with
  | false => exact ⟨e, (hret e tr l n hL (by omega)).trans (by simp [RestoresAck]), by simp [RestoresAck], rfl, rfl⟩
  | true =>
    have hget : perform i l (X.latchAll.put i e tr m) .getPolicy =
        some (X.latchAll.put i e tr m, { l with pol := e.h.cfg.ackControl }) := by simp [perform]
    have hline : ∀ f, Next.ackOnIfPolicy.go X.params ⟨.command mn, i, [], { l with pol := e.h.cfg.ackControl }, res⟩ = .ok f →
        advance n X.depth ((X.latchAll.put i e tr m).above h ⟨.command mn, i, restoreAck, l, res⟩) =
          advance (n - 1) X.depth ((X.latchAll.put i e tr m).above h f) := by
      intro f hf
      refine (above_line (X := X.latchAll.put i e tr m) hq (by omega) (by simp) (by simp) hget hf).trans ?_
      simp [hL.latchPending]
    rw [if_pos rfl]
    by_cases hpol : e.h.cfg.ackControl = .enable
    · refine ⟨e.withCR1 (e.regs.cr1 ||| 0x0400), ?_, by simp [hpol], withCR1_sr1_and _ _ (by decide), rfl⟩
      rw [hline _ (by rw [Next.go, if_pos hpol]), Frame.insert, manageAck, if_pos rfl,
        above_setCR1 hq hL he (by decide) (by omega), hret _ _ _ _ (hL.withCR1 _) (by omega), if_pos ⟨rfl, hpol⟩]
      rfl
    · refine ⟨e, ?_, by simp [hpol], rfl, rfl⟩
      rw [hline _ (by rw [Next.go, if_neg hpol]), hret _ _ _ _ hL (by omega), if_neg (by simp [hpol]), List.append_nil]

theorem errClearValue_setWidth (y : Half) : errClearValue (y.setWidth 32) = (0xDF00 &&& ~~~y).setWidth 32 :=
  word_andNot rcw0All

/-- A bit of SR1 after the write of R184: an error flag seen is cleared, every other flag is left (20 R80). -/
theorem writeSR1_errClear_bit {x : Half} {k : Nat} (hk : k < 16) :
    (x &&& ((errClearValue ((x &&& 0x4F00).setWidth 32)).setWidth 16 ||| ~~~rcw0All)).getLsbD k =
      (x.getLsbD k && !errMask.getLsbD k) := by
  have hin : ∀ k < 16, errMask.getLsbD k = true → rcw0All.getLsbD k = true := by decide
  have hw : (errClearValue ((x &&& errMask).setWidth 32)).setWidth 16 = rcw0All &&& ~~~(x &&& errMask) := by
    rw [errClearValue_setWidth]
    simp [rcw0All]
  change (x &&& ((errClearValue ((x &&& errMask).setWidth 32)).setWidth 16 ||| ~~~rcw0All)).getLsbD k = _
  rw [hw]
  simp only [BitVec.getLsbD_and, BitVec.getLsbD_or, BitVec.getLsbD_not, hk, decide_true, Bool.true_and]
  cases hm : errMask.getLsbD k
  · cases rcw0All.getLsbD k <;> simp
  · cases x.getLsbD k <;> simp [hin k hk hm]

/-- The write of R184 clears the error flags seen and leaves the others. -/
theorem writeSR1_errClear (x : Half) :
    let y := x &&& ((errClearValue ((x &&& 0x4F00).setWidth 32)).setWidth 16 ||| ~~~rcw0All)
    y &&& 0x4F00 = 0 ∧ y &&& 0xB0EF = x &&& 0xB0EF := by
  have hout : ∀ k < 16, (0xB0EF : Half).getLsbD k = true → errMask.getLsbD k = false := by decide
  constructor <;> apply Half.ext_bits <;> intro k hk <;> rw [BitVec.getLsbD_and, writeSR1_errClear_bit hk]
  · change (_ && errMask.getLsbD k) = _
    cases errMask.getLsbD k <;> simp
  · rw [BitVec.getLsbD_and]
    cases hm : (0xB0EF : Half).getLsbD k
    · simp
    · rw [hout k hk hm]
      simp

/-- Values that agree on a mask agree on a part of it. -/
theorem and_eq_of_and_eq {a b w k : Half} (h : a &&& w = b &&& w) (hk : w &&& k = k) : a &&& k = b &&& k := by
  rw [← hk, ← BitVec.and_assoc, ← BitVec.and_assoc, h]

/-- Writing SR1 raises no line. -/
theorem Engine.Latched.writeSR1 (hL : e.Latched) (w : Word) : (e.writeSR1 w).Latched :=
  hL.mono rfl rfl rfl (fun k hk => by
    simp only [Engine.writeSR1, BitVec.getLsbD_and, Bool.and_eq_true] at hk
    exact hk.1) (fun _ h => h)

/-- The exit with ERROR: the error flags seen are cleared, STOP is requested if they ask for it, and ACK is re-enabled after
a receive. -/
theorem above_abort_error (hq : X.Quiet) (hL : e.Latched) (he : e.regs.cr1.getLsbD 0 = true) (hn : 8 < n) {x v : Half}
    (hx : e.regs.sr1 = x) (hv : e.regs.cr1 = v) :
    let v2 := if AsksStop x then v ||| 0x0200 else v
    ∃ e' : Engine,
      advance n X.depth ((X.latchAll.put i e tr m).above h
          ⟨.command mn, i, abortBlocking .error ((x &&& 0x4F00).setWidth 32) rx, l, res⟩) =
        X.latchAll.put i e' (tr ++ [.regWrite i .sr1 ((0xDF00 &&& ~~~(x &&& 0x4F00) : Half).setWidth 32)] ++
          (if AsksStop x then rmwCR1 i v v2 else []) ++
          (if RestoresAck rx e.h then rmwCR1 i v2 (v2 ||| 0x0400) else []) ++ [.result i mn res]) m ∧
      e'.regs.sr1 &&& 0x4F00 = 0 ∧ e'.regs.sr1 &&& 0xB0EF = x &&& 0xB0EF ∧
      e'.regs.cr1 = (if RestoresAck rx e.h then v2 ||| 0x0400 else v2) ∧ e'.h = e.h := by
  subst hx hv
  intro v2
  obtain ⟨hz, hkeep⟩ := writeSR1_errClear e.regs.sr1
  generalize hw : errClearValue ((e.regs.sr1 &&& 0x4F00).setWidth 32) = w at hz hkeep
  have hline : ∀ ls, advance n X.depth ((X.latchAll.put i e tr m).above h
        ⟨.command mn, i, .then (.writeSR1 w) :: ls, l, res⟩) =
      advance (n - 1) X.depth ((X.latchAll.put i (e.writeSR1 w) (tr ++ [.regWrite i .sr1 w]) m).above h
        ⟨.command mn, i, ls, l, res⟩) := by
    intro ls
    refine (above_line (X := X.latchAll.put i e tr m) hq (by omega) (by simp) (by simp) rfl (go_straight ..)).trans ?_
    simp [Engine.afterWrite, (hL.writeSR1 w).latchPending]
  -- what is left after the STOP, if one is asked for, from engine `e₂`
  have hend : ∀ (e₂ : Engine) (tr₂ : List Event) (l₂ : Locals) (n₂ : Nat), 4 < n₂ → e₂.Latched → e₂.regs.cr1 = v2 →
      v2.getLsbD 0 = true → e₂.h = e.h → e₂.regs.sr1 &&& 0xFFEF = (e.writeSR1 w).regs.sr1 &&& 0xFFEF →
      ∃ e' : Engine,
        advance n₂ X.depth ((X.latchAll.put i e₂ tr₂ m).above h
            ⟨.command mn, i, if rx then restoreAck else [], l₂, res⟩) =
          X.latchAll.put i e' (tr₂ ++ (if RestoresAck rx e.h then rmwCR1 i v2 (v2 ||| 0x0400) else []) ++
            [.result i mn res]) m ∧
        e'.regs.sr1 &&& 0x4F00 = 0 ∧ e'.regs.sr1 &&& 0xB0EF = e.regs.sr1 &&& 0xB0EF ∧
        e'.regs.cr1 = (if RestoresAck rx e.h then v2 ||| 0x0400 else v2) ∧ e'.h = e.h := by
    intro e₂ tr₂ l₂ n₂ hn₂ hL₂ hcr he₂ hh hs
    obtain ⟨e', hrun, hcr', hsr', hh'⟩ := above_restoreAck_return (h := h) (rx := rx) (tr := tr₂) (m := m) (i := i)
      (l := l₂) (mn := mn) (res := res) hq hL₂ (by rw [hcr]; exact he₂) hn₂
    rw [hcr, hh] at hrun hcr'
    have hsr := hsr'.trans hs
    exact ⟨e', hrun, (and_eq_of_and_eq hsr (by decide)).trans hz, (and_eq_of_and_eq hsr (by decide)).trans hkeep, hcr',
      hh'.trans hh⟩
  by_cases hs : AsksStop e.regs.sr1
  · have hv2 : v2 = e.regs.cr1 ||| 0x0200 := if_pos hs
    obtain ⟨e', hrun, hfacts⟩ := hend ((e.writeSR1 w).withCR1 v2)
      (tr ++ [.regWrite i .sr1 w] ++ rmwCR1 i e.regs.cr1 v2) { l with w := e.regs.cr1.setWidth 32 } (n - 1 - 2)
      (by omega) ((hL.writeSR1 w).withCR1 v2) rfl (by rw [hv2]; simp [he]) rfl (withCR1_sr1_and _ _ (by decide))
    refine ⟨e', ?_, hfacts⟩
    rw [abortBlocking_error, hw, if_pos hs, hline, genStop, above_setCR1 hq (hL.writeSR1 w) he (by decide) (by omega),
      if_pos hs, ← errClearValue_setWidth, hw]
    refine Eq.trans ?_ hrun
    rw [hv2]
    rfl
  · have hv2 : v2 = e.regs.cr1 := if_neg hs
    obtain ⟨e', hrun, hfacts⟩ := hend (e.writeSR1 w) (tr ++ [.regWrite i .sr1 w]) l (n - 1) (by omega) (hL.writeSR1 w)
      hv2.symm (by rw [hv2]; exact he) rfl rfl
    refine ⟨e', ?_, hfacts⟩
    rw [abortBlocking_error, hw, if_neg hs, hline, List.nil_append, hrun, if_neg hs, ← errClearValue_setWidth, hw,
      List.append_nil]

/-- The read that ends a poll with an error, and the exit with ERROR. -/
theorem above_poll_error (hq : X.Quiet) (he : (X.eng i).regs.cr1.getLsbD 0 = true) (hn : 9 < n) {x v : Half}
    (hx : (X.eng i).regs.sr1 = x) (hv : (X.eng i).regs.cr1 = v) (hmask : ¬ x &&& mask = mask)
    (herr : X.params.propagateBusErrors = true ∧ x &&& 0x4F00 ≠ 0) :
    let v2 := if AsksStop x then v ||| 0x0200 else v
    ∃ e' : Engine,
      advance n X.depth (X.above h ⟨.command mn, i, ⟨.readSR1, .poll mask k (.abort rx)⟩ :: rest, l, res⟩) =
        X.latchAll.put i e' ([rSR1 i x, .regWrite i .sr1 ((0xDF00 &&& ~~~(x &&& 0x4F00) : Half).setWidth 32)] ++
          (if AsksStop x then rmwCR1 i v v2 else []) ++
          (if RestoresAck rx (X.eng i).h then rmwCR1 i v2 (v2 ||| 0x0400) else []) ++ [.result i mn (.status .error)])
          X.mem ∧
      e'.regs.sr1 &&& 0x4F00 = 0 ∧ e'.regs.sr1 &&& 0xB0EF = x &&& 0xB0EF ∧
      e'.regs.cr1 = (if RestoresAck rx (X.eng i).h then v2 ||| 0x0400 else v2) ∧ e'.h = (X.eng i).h := by
  subst hx hv
  intro v2
  obtain ⟨e', hrun, hfacts⟩ := above_abort_error (h := h) (rx := rx) (i := i) (tr := [rSR1 i (X.eng i).regs.sr1])
    (m := X.mem) (l := { l with v := (X.eng i).regs.sr1.setWidth 32 }) (mn := mn) (res := .status .error) (n := n - 1) hq
    ((Engine.latched_latchPending (X.eng i)).sampledSR1) he (by omega) rfl rfl
  exact ⟨e', (above_poll hq (by omega) (pollStep_error rfl hmask herr)).trans hrun, hfacts⟩

/-- The read at which a poll reaches its deadline, and the exit with TIMEOUT. -/
theorem above_poll_timeout (hq : X.Quiet) (he : (X.eng i).regs.cr1.getLsbD 0 = true) (hn : 5 < n) {x v : Half}
    (hx : (X.eng i).regs.sr1 = x) (hv : (X.eng i).regs.cr1 = v) (hmask : ¬ x &&& mask = mask)
    (herr : ¬ (X.params.propagateBusErrors = true ∧ x &&& 0x4F00 ≠ 0)) (hexp : X.params.expired (k + 1) = true) :
    ∃ e' : Engine,
      advance n X.depth (X.above h ⟨.command mn, i, ⟨.readSR1, .poll mask k (.abort rx)⟩ :: rest, l, res⟩) =
        X.latchAll.put i e' ([rSR1 i x] ++ (if RestoresAck rx (X.eng i).h then rmwCR1 i v (v ||| 0x0400) else []) ++
          [.result i mn (.status .timeout)]) X.mem ∧
      e'.regs.sr1 &&& 0xFFEF = x &&& 0xFFEF ∧
      e'.regs.cr1 = (if RestoresAck rx (X.eng i).h then v ||| 0x0400 else v) ∧ e'.h = (X.eng i).h := by
  subst hx hv
  obtain ⟨e', hrun, hcr, hsr, hh⟩ := above_restoreAck_return (h := h) (rx := rx) (i := i)
    (tr := [rSR1 i (X.eng i).regs.sr1]) (m := X.mem) (l := { l with v := (X.eng i).regs.sr1.setWidth 32 }) (mn := mn)
    (res := .status .timeout) (n := n - 1) hq ((Engine.latched_latchPending (X.eng i)).sampledSR1) he (by omega)
  exact ⟨e', (above_poll hq (by omega) ((pollStep_unanswered rfl hmask herr).trans (if_pos hexp))).trans hrun, hsr, hcr, hh⟩

/-- A poll that nothing answers up to its deadline, from its first read, and the exit with TIMEOUT. -/
theorem above_poll_deadline {d : Nat} (hq : X.Quiet) (he : (X.eng i).regs.cr1.getLsbD 0 = true) (hn : max d 1 + 5 < n)
    {x v : Half} (hx : (X.eng i).regs.sr1 = x) (hv : (X.eng i).regs.cr1 = v) (hmask : ¬ x &&& mask = mask)
    (herr : ¬ (X.params.propagateBusErrors = true ∧ x &&& 0x4F00 ≠ 0)) (hdl : X.params.pollDeadline = some d) :
    ∃ e' : Engine,
      advance n X.depth (X.above h ⟨.command mn, i, ⟨.readSR1, .poll mask 0 (.abort rx)⟩ :: rest, l, res⟩) =
        X.latchAll.put i e' (List.replicate (max d 1) (rSR1 i x) ++
          (if RestoresAck rx (X.eng i).h then rmwCR1 i v (v ||| 0x0400) else []) ++ [.result i mn (.status .timeout)])
          X.mem ∧
      e'.regs.sr1 &&& 0xFFEF = x &&& 0xFFEF ∧
      e'.regs.cr1 = (if RestoresAck rx (X.eng i).h then v ||| 0x0400 else v) ∧ e'.h = (X.eng i).h := by
  subst hx hv
  obtain hd | ⟨r, hr⟩ : max d 1 = 1 ∨ ∃ r, max d 1 = r + 2 := by
    by_cases h1 : max d 1 = 1
    · exact .inl h1
    · exact .inr ⟨max d 1 - 2, by omega⟩
  · rw [hd]
    exact above_poll_timeout hq he (by omega) rfl rfl hmask herr (by simp [Params.expired, hdl]; omega)
  · have hnot : ∀ j, j ≤ r → X.params.expired (0 + j + 1) = false := fun j hj => by simp [Params.expired, hdl]; omega
    generalize hY : X.latchAll.put i (X.eng i).latchPending.sampledSR1 (List.replicate (r + 1) (rSR1 i (X.eng i).regs.sr1))
      X.mem = Y
    have hYe : Y.eng i = (X.eng i).latchPending.sampledSR1 := by rw [← hY, put_eng_same]
    obtain ⟨e', hrun, hfacts⟩ := above_poll_timeout (X := Y) (h := h) (i := i) (rx := rx) (mn := mn) (mask := mask)
      (rest := rest) (res := res) (l := { l with v := (X.eng i).regs.sr1.setWidth 32 }) (k := 0 + (r + 1))
      (n := n - (r + 1)) (x := (X.eng i).regs.sr1) (v := (X.eng i).regs.cr1) (by rw [← hY]; exact hq)
      (by rw [hYe]; exact he) (by omega) (by rw [hYe]; rfl) (by rw [hYe]; rfl) hmask (by rw [← hY]; exact herr)
      (by rw [← hY]; simp [Params.expired, hdl]; omega)
    rw [hYe] at hrun hfacts
    refine ⟨e', ?_, hfacts⟩
    rw [above_poll_unanswered hmask herr hq hnot (by omega), hY]
    refine Eq.trans (by rw [← hY]; rfl) (hrun.trans ?_)
    rw [← hY, hr, put_latchAll, put_put, put_mem, latchAll_twice, List.replicate_succ' (n := r + 1)]
    simp only [List.append_assoc]
    rfl

/-- What a run in normal form has done, and what it has left. -/
theorem put_done (X : State) (i : Idx) (e : Engine) (tr : List Event) :
    (X.latchAll.put i e tr X.mem).trace = X.trace ++ tr ∧ (X.latchAll.put i e tr X.mem).eng i = e ∧
      SameMemory X (X.latchAll.put i e tr X.mem) ∧ Returned X (X.latchAll.put i e tr X.mem) :=
  ⟨rfl, put_eng_same .., fun _ => rfl, rfl, rfl⟩

/-! ## The exit from a transfer's first poll -/

/-- A transfer up to its first poll: the entry check, GEN_START, the poll of SB (41 R181, R182). -/
def firstPoll (rx : Bool) (rest : List Line) : List Line :=
  entryCheck ++ (genStart ++ ⟨.readSR1, .poll sr1SB 0 (.abort rx)⟩ :: rest)

theorem masterTx_eq_firstPoll (src : Src) (len : Word) (addr : Byte) (sr : Bool) :
    ∃ rest, masterTx src len addr sr = firstPoll false rest := ⟨_, rfl⟩

theorem masterRx_eq_firstPoll (buf len : Word) (addr : Byte) (sr : Bool) :
    ∃ rest, masterRx buf len addr sr = firstPoll true rest := by
  refine ⟨sendAddr addr .read ++ waitFlags sr1ADDR (.abort true) ++ rxBytes buf len sr ++ restoreAck, ?_⟩
  simp [masterRx, firstPoll, addressPhase, waitFlags]

/-- The engine at the first poll, START requested. -/
def Engine.started (e : Engine) : Engine := e.latchPending.withCR1 (e.regs.cr1 ||| 0x0100)

/-- A state from which a transfer that began in `s` stands at its first poll. -/
structure AtFirstPoll (s X : State) (i : Idx) : Prop where
  quiet  : X.Quiet
  eng    : X.eng i = (s.eng i).started
  trace  : X.trace = s.trace ++ rmwCR1 i (s.eng i).regs.cr1 ((s.eng i).regs.cr1 ||| 0x0100)
  mem    : X.mem = s.mem
  depth  : X.depth = s.depth
  below  : Returned s X
  params : X.params = s.params

/-- A transfer on an enabled controller in READY comes to its first poll, START requested. -/
theorem issue_firstPoll (hh : s.Has i) (hq : s.Quiet) (he : s.Enabled i) (hr : (s.handle i).transferState = .ready) :
    ∃ X l, AtFirstPoll s X i ∧ issue (.ok (Frame.start mn i (firstPoll rx rest) (.status .ok))) s =
      .next (advance 125 X.depth
        (X.above false ⟨.command mn, i, ⟨.readSR1, .poll sr1SB 0 (.abort rx)⟩ :: rest, l, .status .ok⟩)) := by
  have hgo : Next.busyIfNotReady.go s.params ⟨.command mn, i, genStart ++ ⟨.readSR1, .poll sr1SB 0 (.abort rx)⟩ :: rest,
      { Locals.init with s := (s.eng i).h.transferState }, .status .ok⟩ = .ok _ := congrArg Except.ok (if_pos hr)
  refine ⟨s.latchAll.put i (s.eng i).started (rmwCR1 i (s.eng i).regs.cr1 ((s.eng i).regs.cr1 ||| 0x0100)) s.mem,
    { Locals.init with s := (s.eng i).h.transferState, w := (s.eng i).regs.cr1.setWidth 32 },
    ⟨hq, put_eng_same .., rfl, rfl, rfl, ⟨rfl, rfl⟩, rfl⟩, ?_⟩
  rw [issue_put hh, fuel_quiet hq.1, Frame.start, firstPoll, entryCheck, List.cons_append, List.nil_append,
    advance_getState rfl hq (by omega) hgo]
  exact congrArg _ (above_setCR1 (h := false) hq (Engine.latched_latchPending _) he (by decide) (by omega))

/-- What has run in normal form from the first poll has run from the start. -/
theorem AtFirstPoll.done (hX : AtFirstPoll s X i) (e : Engine) (tr : List Event) :
    let t := X.latchAll.put i e tr X.mem
    t.trace = s.trace ++ rmwCR1 i (s.eng i).regs.cr1 ((s.eng i).regs.cr1 ||| 0x0100) ++ tr ∧ t.eng i = e ∧
      SameMemory s t ∧ Returned s t := by
  obtain ⟨htr, heng, -, -⟩ := put_done X i e tr
  refine ⟨by rw [htr, hX.trace], heng, fun a => ?_, hX.below⟩
  rw [put_byteAt, hX.mem]
  rfl

/-- Settles O35: both exits are those of the poll at which the command stands, the first poll after START. -/
theorem abortExitAfterBusError : Obligations.AbortExitAfterBusError := by
  constructor
  · intro s i buf len addr sr rx hh hq he hr hb hl hstopf hsb v x v1 stop v2 ack c mn
    have hexec : ∃ rest, exec c s = issue (.ok (Frame.start mn i (firstPoll rx rest) (.status .ok))) s := by
      cases rx with
      | false =>
        obtain ⟨rest, hrest⟩ := masterTx_eq_firstPoll (.mem buf) len addr sr
        exact ⟨rest, hrest ▸ exec_masterTx hh (.inl hb)⟩
      | true =>
        obtain ⟨rest, hrest⟩ := masterRx_eq_firstPoll buf len addr sr
        exact ⟨rest, hrest ▸ exec_masterRx hh hb hl⟩
    obtain ⟨rest, hexec⟩ := hexec
    obtain ⟨X, l, hX, hstart⟩ := issue_firstPoll (mn := mn) (rx := rx) (rest := rest) hh hq he hr
    have hsr : (X.eng i).regs.sr1 = x := by simp [hX.eng, Engine.started, Engine.withCR1, hstopf, x]
    have hcr : (X.eng i).regs.cr1 = v1 := by rw [hX.eng]; rfl
    have hXh : (X.eng i).h = (s.eng i).h := by rw [hX.eng]; rfl
    have hen : (X.eng i).regs.cr1.getLsbD 0 = true := by rw [hcr]; simp [v1, v]; exact he
    have hmask : ¬ x &&& sr1SB = sr1SB := fun h => by
      have h0 := congrArg (fun y => y.getLsbD 0) h
      rw [BitVec.getLsbD_and, hsb] at h0
      exact absurd h0 (by decide)
    rw [hexec, hstart]
    refine ⟨fun hp herr => ?_, fun d herr hdl hd => ?_⟩
    · obtain ⟨e', hrun, hz, hk, hcr', hh'⟩ := above_poll_error (h := false) (mn := mn) (rx := rx) (rest := rest) (l := l)
        (res := .status .ok) (k := 0) (n := 125) hX.quiet hen (by omega) hsr hcr hmask
        (by rw [hX.params]; exact ⟨hp, herr⟩)
      rw [hXh] at hrun hcr' hh'
      obtain ⟨htr, heng, hmem, hret⟩ := hX.done e' _
      rw [← hrun] at htr heng hmem hret
      refine ⟨_, rfl, ?_, by rw [heng]; exact hz, by rw [heng]; exact hk, by rw [heng]; exact hcr', by rw [heng]; exact hh',
        hmem, hret⟩
      rw [htr]
      simp only [List.append_assoc]
      rfl
    · obtain ⟨e', hrun, hk, hcr', hh'⟩ := above_poll_deadline (h := false) (mn := mn) (rx := rx) (rest := rest) (l := l)
        (res := .status .ok) (d := d) (n := 125) hX.quiet hen (by omega) hsr hcr hmask
        (by rw [hX.params]; rintro ⟨hp, hs⟩; exact herr.elim (by rw [hp]; simp) hs) (by rw [hX.params]; exact hdl)
      rw [hXh] at hrun hcr' hh'
      obtain ⟨htr, heng, hmem, hret⟩ := hX.done e' _
      rw [← hrun] at htr heng hmem hret
      refine ⟨_, rfl, ?_, by rw [heng]; exact hk, by rw [heng]; exact hcr', by rw [heng]; exact hh', hmem, hret⟩
      rw [htr]
      simp only [List.append_assoc]
      rfl
  · intro s f k mask rx rest mn hq he ht ho hl i v x stop v2 ack t hmask
    obtain ⟨o, i', lines, l, res⟩ := f
    obtain rfl : o = _ := ho
    obtain rfl : lines = _ := hl
    obtain ⟨h, hs⟩ := eq_pop_above ht
    generalize hX : s.pop = X at hs ⊢
    have heng : s.eng i' = X.eng i' := by rw [hs, above_eng]
    have htr : s.trace = X.trace := by rw [hs, above_trace]
    have hmem : ∀ t, SameMemory X t → SameMemory s t := fun t h a => (h a).trans (by rw [hs, above_byteAt])
    have hXq : X.Quiet := by rw [hs, above_quiet] at hq; exact hq
    have hp : s.params = X.params := by rw [hs, above_params]
    have hrunTo : t = advance 128 X.depth
        (X.above h ⟨.command mn, i', ⟨.readSR1, .poll mask k (.abort rx)⟩ :: rest, l, res⟩) := by
      change advance s.fuel (s.depth - 1) s = _
      rw [fuel_quiet hq.1, hs, above_depth, Nat.add_sub_cancel]
    have hsr : (X.eng i').regs.sr1 = x := by rw [← heng]
    have hcr : (X.eng i').regs.cr1 = v := by rw [← heng]
    have hXh : (X.eng i').h = (s.eng i').h := by rw [heng]
    have hen : (X.eng i').regs.cr1.getLsbD 0 = true := by rw [← heng]; exact he
    rw [htr, hrunTo]
    refine ⟨fun hp' herr => ?_, fun d herr hdl hd => ?_⟩
    · obtain ⟨e', hrun, hz, hk, hcr', hh'⟩ := above_poll_error (h := h) (mn := mn) (rx := rx) (rest := rest) (l := l)
        (res := res) (k := k) (n := 128) hXq hen (by omega) hsr hcr hmask (by rw [← hp]; exact ⟨hp', herr⟩)
      rw [hXh] at hrun hcr' hh'
      obtain ⟨htr, heng, hm, hret⟩ := put_done X i' e' _
      rw [← hrun] at htr heng hm hret
      refine ⟨?_, by rw [heng]; exact hz, by rw [heng]; exact hk, by rw [heng]; exact hcr', by rw [heng]; exact hh',
        hmem _ hm, hret⟩
      rw [htr]
      simp only [List.append_assoc]
      rfl
    · obtain ⟨e', hrun, hk, hcr', hh'⟩ := above_poll_timeout (h := h) (mn := mn) (rx := rx) (rest := rest) (l := l)
        (res := res) (k := k) (n := 128) hXq hen (by omega) hsr hcr hmask
        (by rw [← hp]; rintro ⟨hp, hs⟩; exact herr.elim (by rw [hp]; simp) hs)
        (by rw [← hp]; simpa [Params.expired, hdl] using hd)
      rw [hXh] at hrun hcr' hh'
      obtain ⟨htr, heng, hm, hret⟩ := put_done X i' e' _
      rw [← hrun] at htr heng hm hret
      refine ⟨?_, by rw [heng]; exact hk, by rw [heng]; exact hcr', by rw [heng]; exact hh', hmem _ hm, hret⟩
      rw [htr]
      simp only [List.append_assoc]
      rfl

end Sys2Proof.Machine

/-! Primitives and blocking commands under any steps of the controllers (20 R85, 41 R185, R187): what such a command and the
world around it can do at a boundary, and two facts that hold however far it has run. -/

namespace Sys2Proof.Machine

variable {P : Word → Prop} {s t X X' Y : State} {i j : Idx} {l l' : Locals} {a : Act} {nx : Next} {f f' : Frame} {x : Line}
  {ls ms : List Line} {e e' e'' : Engine}

/-! ## The lines of a primitive or a blocking command -/

/-- The accesses such a command makes, with `P` the addresses it may store to. -/
inductive SyncAct (P : Word → Prop) : Act → Prop
  | readCR1 : SyncAct P (.readW .cr1)
  | setCR1 {m} : SyncAct P (.writeOr .cr1 m)
  | clearCR1 {m} : SyncAct P (.writeAndNot .cr1 m)
  | readSR1 : SyncAct P .readSR1
  | readSR2 : SyncAct P .readSR2
  | readDR : SyncAct P .readDR
  | writeDR {b} : SyncAct P (.writeDR b)
  | writeDRLocal : SyncAct P .writeDRLocal
  | writeSR1 {v} : SyncAct P (.writeSR1 v)
  | memReadAt {p} : SyncAct P (.memReadAt p)
  | memWriteAt {p} : P p → SyncAct P (.memWriteAt p)
  | getState : SyncAct P .getState
  | getTotal : SyncAct P .getTotal
  | getPolicy : SyncAct P .getPolicy

/-- The ways such a command goes on. -/
inductive SyncNext (P : Word → Prop) : Next → Prop
  | straight : SyncNext P .straight
  | poll {m k exit} : SyncNext P (.poll m k exit)
  | ackOffIfRx : SyncNext P .ackOffIfRx
  | ackOffIfOne : SyncNext P .ackOffIfOne
  | busy : SyncNext P .busyIfNotReady
  | txMore {src n sr} : SyncNext P (.txMore src n sr)
  | rxMore {p k : Word} {sr} : (∀ j, j < k.toNat → P (p + BitVec.ofNat 32 j)) → SyncNext P (.rxMore p k sr)
  | policy : SyncNext P .ackOnIfPolicy

/-- A line of such a command. The entry check tests the state its own access has read. -/
structure SyncLine (P : Word → Prop) (x : Line) : Prop where
  act  : SyncAct P x.act
  next : SyncNext P x.next
  busy : x.next = .busyIfNotReady → x.act = .getState

/-- Lines of such a command. -/
def SyncLines (P : Word → Prop) (ls : List Line) : Prop := ∀ x ∈ ls, SyncLine P x

theorem SyncLines.append (h : SyncLines P ls) (h' : SyncLines P ms) : SyncLines P (ls ++ ms) :=
  fun x hx => (List.mem_append.mp hx).elim (h x) (h' x)

theorem SyncLines.cons (h : SyncLine P x) (h' : SyncLines P ls) : SyncLines P (x :: ls) :=
  fun y hy => (List.mem_cons.mp hy).elim (fun hyx => hyx ▸ h) (h' y)

theorem syncLines_nil : SyncLines P [] := fun _ h => absurd h List.not_mem_nil

theorem SyncLines.head (h : SyncLines P (x :: ls)) : SyncLine P x := h x List.mem_cons_self

theorem SyncLines.tail (h : SyncLines P (x :: ls)) : SyncLines P ls := fun y hy => h y (List.mem_cons_of_mem _ hy)

/-- A choice of lines is one of such a command if both of its sides are. -/
theorem SyncLines.ite {c : Prop} [Decidable c] (h : c → SyncLines P ls) (h' : ¬ c → SyncLines P ms) :
    SyncLines P (if c then ls else ms) := by
  split
  · exact h ‹_›
  · exact h' ‹_›

/-- A line with no test. -/
theorem SyncAct.line (h : SyncAct P a) : SyncLine P (.then a) := ⟨h, .straight, nofun⟩

theorem syncLines_setCR1 (m : Half) : SyncLines P (setBits .cr1 m) :=
  .cons SyncAct.readCR1.line (.cons SyncAct.setCR1.line syncLines_nil)

theorem syncLines_clearCR1 (m : Half) : SyncLines P (clearBits .cr1 m) :=
  .cons SyncAct.readCR1.line (.cons SyncAct.clearCR1.line syncLines_nil)

theorem syncLines_manageAck (en : Bool) : SyncLines P (manageAck en) :=
  .ite (fun _ => syncLines_setCR1 _) fun _ => syncLines_clearCR1 _

theorem syncLines_genStopUnless (sr : Bool) : SyncLines P (genStopUnless sr) :=
  .ite (fun _ => syncLines_nil) fun _ => syncLines_setCR1 _

theorem syncLines_waitFlags (m : Half) (exit : PollExit) : SyncLines P (waitFlags m exit) :=
  .cons ⟨.readSR1, .poll, nofun⟩ syncLines_nil

theorem syncLines_clearAddr : SyncLines P clearAddr :=
  .cons ⟨.getState, .ackOffIfRx, nofun⟩ (.cons SyncAct.readSR1.line (.cons SyncAct.readSR2.line syncLines_nil))

theorem syncLines_restoreAck : SyncLines P restoreAck := .cons ⟨.getPolicy, .policy, nofun⟩ syncLines_nil

theorem syncLines_entry (addr : Byte) (d : Dir) (rx : Bool) : SyncLines P (entryCheck ++ addressPhase addr d rx) :=
  .cons ⟨.getState, .busy, fun _ => rfl⟩
    ((((syncLines_setCR1 _).append (syncLines_waitFlags _ _)).append (.cons SyncAct.writeDR.line syncLines_nil)).append
      (syncLines_waitFlags _ _))

theorem syncLines_txLoop (src : Src) (n : Word) (sr : Bool) : SyncLines P (txLoop src n sr) := by
  refine .ite (fun _ => (syncLines_waitFlags _ _).append (syncLines_genStopUnless sr)) fun _ =>
    (syncLines_waitFlags _ _).append ?_
  cases src with
  | mem p => exact .cons SyncAct.memReadAt.line (.cons ⟨.writeDRLocal, .txMore, nofun⟩ syncLines_nil)
  | scratch bytes => exact .cons ⟨.writeDR, .txMore, nofun⟩ syncLines_nil

theorem syncLines_masterTx (src : Src) (n : Word) (addr : Byte) (sr : Bool) : SyncLines P (masterTx src n addr sr) :=
  ((syncLines_entry _ _ _).append syncLines_clearAddr).append (syncLines_txLoop _ _ _)

/-- The first of some addresses. -/
theorem first_of_range {p k : Word} (h : ∀ j, j < k.toNat → P (p + BitVec.ofNat 32 j)) (hk : k ≠ 0) : P p := by
  have hpos : 0 < k.toNat := Nat.pos_of_ne_zero fun h0 => hk (BitVec.eq_of_toNat_eq h0)
  simpa using h 0 hpos

/-- The others. -/
theorem rest_of_range {p k : Word} (h : ∀ j, j < k.toNat → P (p + BitVec.ofNat 32 j)) (hk : k ≠ 0) :
    ∀ j, j < (k - 1).toNat → P (p + 1 + BitVec.ofNat 32 j) := by
  intro j hj
  have hpos : 0 < k.toNat := Nat.pos_of_ne_zero fun h0 => hk (BitVec.eq_of_toNat_eq h0)
  have hlt : j + 1 < k.toNat := by
    have : (k - 1).toNat = k.toNat - 1 := by bv_omega
    omega
  have hadd : p + BitVec.ofNat 32 (j + 1) = p + 1 + BitVec.ofNat 32 j := by
    rw [Nat.add_comm j 1, BitVec.ofNat_add, BitVec.add_assoc]
    rfl
  exact hadd ▸ h (j + 1) hlt

/-- The receive of `k` bytes stores to the `k` bytes from `p` on. -/
theorem syncLines_rxLoop {p k : Word} (sr : Bool) (h : ∀ j, j < k.toNat → P (p + BitVec.ofNat 32 j)) :
    SyncLines P (rxLoop p k sr) := by
  refine .ite (fun _ => syncLines_nil) fun hk => SyncLines.append ((syncLines_waitFlags _ _).append
    (.ite (fun _ => (syncLines_manageAck false).append (syncLines_genStopUnless sr)) fun _ => syncLines_nil))
    (.cons SyncAct.readDR.line
      (.cons ⟨.memWriteAt (first_of_range h hk), .rxMore (rest_of_range h hk), nofun⟩ syncLines_nil))

theorem syncLines_rxBytes {buf len : Word} (sr : Bool) (h : ∀ j, j < len.toNat → P (buf + BitVec.ofNat 32 j)) :
    SyncLines P (rxBytes buf len sr) := by
  refine .ite (fun hl => ?_) fun _ => syncLines_clearAddr.append (syncLines_rxLoop sr h)
  have hbuf : P buf := first_of_range h (by rw [hl]; decide)
  exact ((((syncLines_manageAck false).append syncLines_clearAddr).append (syncLines_waitFlags _ _)).append
    (syncLines_genStopUnless sr)).append (.cons SyncAct.readDR.line (.cons (SyncAct.memWriteAt hbuf).line syncLines_nil))

theorem syncLines_masterRx {buf len : Word} (addr : Byte) (sr : Bool)
    (h : ∀ j, j < len.toNat → P (buf + BitVec.ofNat 32 j)) : SyncLines P (masterRx buf len addr sr) :=
  ((syncLines_entry _ _ _).append (syncLines_rxBytes sr h)).append syncLines_restoreAck

theorem syncLines_abort (st : Status) (w : Word) (rx : Bool) : SyncLines P (abortBlocking st w rx) :=
  SyncLines.append
    (.ite (fun _ => .cons SyncAct.writeSR1.line (.ite (fun _ => syncLines_setCR1 _) fun _ => syncLines_nil))
      fun _ => syncLines_nil)
    (.ite (fun _ => syncLines_restoreAck) fun _ => syncLines_nil)

theorem checkIndex_eq_ok {n k : Nat} (h : checkIndex n i = .ok k) : k = i := by
  unfold checkIndex at h
  split at h <;> cases h
  rfl

/-- The frame of a primitive or a blocking command that has passed its entry checks. -/
theorem softwareCmd_sync {n : Nat} {x : Instr} (hx : x.synchronous = true) (h : softwareCmd n x = .ok f) :
    f.owner = .command x.mnemonic ∧ f.inst = x.index ∧ SyncLines x.mayStore f.lines := by
  cases x
  case masterTxIt | masterRxIt | closeTx | closeRx | evIrq | erIrq => cases hx
  all_goals
    obtain ⟨k, hk, hf⟩ := except_bind_eq_ok h
    clear h
    obtain rfl := checkIndex_eq_ok hk
  case genStart | genStop => cases hf; exact ⟨rfl, rfl, syncLines_setCR1 _⟩
  case sendAddr => cases hf; exact ⟨rfl, rfl, .cons SyncAct.writeDR.line syncLines_nil⟩
  case clearAddr => cases hf; exact ⟨rfl, rfl, syncLines_clearAddr⟩
  case manageAck => cases hf; exact ⟨rfl, rfl, syncLines_manageAck _⟩
  case waitFlags => cases hf; exact ⟨rfl, rfl, syncLines_waitFlags _ _⟩
  case masterTx =>
    obtain ⟨-, -, hf⟩ := except_bind_eq_ok hf
    cases hf
    exact ⟨rfl, rfl, syncLines_masterTx _ _ _ _⟩
  case masterRx =>
    obtain ⟨-, -, hf⟩ := except_bind_eq_ok hf
    obtain ⟨-, -, hf⟩ := except_bind_eq_ok hf
    cases hf
    exact ⟨rfl, rfl, syncLines_masterRx _ _ fun j hj => ⟨j, hj, rfl⟩⟩
  case memRead =>
    obtain ⟨-, -, hf⟩ := except_bind_eq_ok hf
    obtain ⟨-, -, hf⟩ := except_bind_eq_ok hf
    obtain ⟨-, -, hf⟩ := except_bind_eq_ok hf
    cases hf
    exact ⟨rfl, rfl, (syncLines_masterTx _ _ _ _).append (syncLines_masterRx _ _ fun j hj => ⟨j, hj, rfl⟩)⟩

/-- A poll goes on with lines of such a command. -/
theorem syncLines_pollStep (p : Params) (m : Half) (k : Nat) (exit : PollExit) (h : SyncLines P f.lines) :
    SyncLines P (f.pollStep p m k exit).lines := by
  have hfail : ∀ st w, SyncLines P (f.pollFailed exit st w).lines := by
    intro st w
    cases exit with
    | result => exact syncLines_nil
    | abort rx => exact syncLines_abort st w rx
  unfold Frame.pollStep
  split
  · exact h
  · split
    · exact hfail _ _
    · split
      · exact hfail _ _
      · exact .cons ⟨.readSR1, .poll, nofun⟩ h

/-- Such a command goes on with lines of its own, and raises no fault. -/
theorem go_sync {p : Params} (hn : SyncNext P nx) (h : SyncLines P f.lines) :
    ∃ f', nx.go p f = .ok f' ∧ SyncLines P f'.lines := by
  have hinsertIf : ∀ {c : Prop} [Decidable c] {ms : List Line}, SyncLines P ms →
      SyncLines P (if c then f.insert ms else f).lines := by
    intro c _ ms hm
    split
    · exact hm.append h
    · exact h
  cases hn with
  | straight => exact ⟨_, rfl, h⟩
  | poll => exact ⟨_, rfl, syncLines_pollStep _ _ _ _ h⟩
  | ackOffIfRx => exact ⟨_, rfl, hinsertIf (.cons ⟨.getTotal, .ackOffIfOne, nofun⟩ syncLines_nil)⟩
  | ackOffIfOne => exact ⟨_, rfl, hinsertIf (syncLines_clearCR1 _)⟩
  | busy =>
    refine ⟨_, rfl, ?_⟩
    split
    · exact h
    · exact syncLines_nil
  | txMore => exact ⟨_, rfl, (syncLines_txLoop _ _ _).append h⟩
  | rxMore hk => exact ⟨_, rfl, (syncLines_rxLoop _ hk).append h⟩
  | policy => exact ⟨_, rfl, hinsertIf (syncLines_setCR1 _)⟩

theorem SyncAct.mono {Q : Word → Prop} (h : SyncAct P a) (hPQ : ∀ p, P p → Q p) : SyncAct Q a := by
  cases h <;> constructor
  exact hPQ _ ‹_›

/-- Such a line is neither the application's step nor a callback emission. -/
theorem SyncAct.plain (h : SyncAct P a) : a ≠ .app ∧ ∀ c, a ≠ .callback c := by
  cases h <;> exact ⟨nofun, nofun⟩

/-! ## What happens around such a command -/

/-- What a boundary may do to an engine beside a command's access: a controller's step, the latches' update (20 R85,
60 R306). -/
def WorldStep (e e' : Engine) : Prop := ∃ e₁, HardwareStep e e₁ ∧ (e' = e₁ ∨ e' = e₁.latchPending)

/-- What a boundary may do to a state beside a command's access: the engines move so, and inputs are used up. -/
structure World (X X' : State) : Prop where
  engines  : ∀ j, WorldStep (X.eng j) (X'.eng j)
  mem      : X'.mem = X.mem
  main     : X'.main = X.main
  handlers : X'.handlers = X.handlers
  program  : X'.program = X.program
  trace    : X'.trace = X.trace
  params   : X'.params = X.params

theorem World.depth (h : World X X') : X'.depth = X.depth := by simp only [State.depth, h.main, h.handlers]

theorem world_withInputs (X : State) (xs : List Input) : World X (X.withInputs xs) :=
  ⟨fun _ => ⟨_, .refl _, .inl rfl⟩, rfl, rfl, rfl, rfl, rfl, rfl⟩

theorem world_latchAll (X : State) : World X X.latchAll :=
  ⟨fun j => ⟨_, .refl _, .inr (latchAll_eng X j)⟩, rfl, rfl, rfl, rfl, rfl, rfl⟩

theorem world_setEng (X : State) (h : HardwareStep (X.eng i) e) : World X (X.setEng i e) := by
  refine ⟨fun j => ?_, rfl, rfl, rfl, rfl, rfl, rfl⟩
  rw [eng_setEng]
  split
  · next hij => exact ⟨e, hij ▸ h, .inl rfl⟩
  · exact ⟨_, .refl _, .inl rfl⟩

theorem world_controllerInput (y : Input) (X : State) : World X (controllerInput y X) := by
  have hself : World X X := world_withInputs X X.inputs
  have hmoved : ∀ (i : Idx) (g : Engine → Engine), HardwareStep (X.eng i) (g (X.eng i)) →
      World X (if i < X.params.nInst then X.controllerStep i g else X) := by
    intro i g hg
    split
    · exact world_setEng X hg
    · exact hself
  cases y with
  | free i c => exact hmoved i _ (hardwareStep_applyFreeInput _ c)
  | ref i x => exact hmoved i _ (hardwareStep_applyRef _ x)
  | run | dispatch | reinit => exact hself

/-- The running context's own boundary uses an input up, or none. -/
theorem Boundary.world {o : Option Input} {X0 : State} (h : Boundary X o X0) : World X X0 := by
  cases h with
  | run | controller => exact world_withInputs X _
  | quiet => exact world_withInputs X X.inputs

/-! ## The run of such a command -/

/-- A property of the state below the command's frame and of the frame, kept by the world around the command and by its
lines, holds however far the command has run under the controllers' steps: it stands at a frame, or has returned. By
induction on the boundaries. -/
theorem advance_sync {I : State → Frame → Prop} {mn : Mnemonic} (hworld : ∀ X X' f, World X X' → I X f → I X' f)
    (hline : ∀ X X' l' f f' x rest, I X f → f.inst = i → f.lines = x :: rest → SyncLine P x →
      perform i f.loc X x.act = some (X', l') → x.next.go X.params { f with lines := rest, loc := l' } = .ok f' → I X' f')
    (n : Nat) (X : State) (f : Frame) (hc : X.ControllersOnly) (ho : f.owner = .command mn) (hi : f.inst = i)
    (hs : SyncLines P f.lines) (hI : I X f) :
    (∃ X' f', advance n X.depth (X.push f) = X'.push f' ∧ X'.depth = X.depth ∧ I X' f') ∨
    ∃ X' f', advance n X.depth (X.push f) = (X'.emit (.result i mn f'.result)).latchAll ∧ X'.depth = X.depth ∧
      f'.lines = [] ∧ I X' f' := by
  induction n generalizing X f with
  | zero => exact .inl ⟨X, f, rfl, rfl, hI⟩
  | succ n ih =>
    by_cases hm : X.marked = true
    · exact .inl ⟨X, f, advance_marked (by simpa [State.marked] using hm), rfl, hI⟩
    have hu : X.Unmarked := (marked_false_iff X).mp (by simpa using hm)
    rw [advance_tick (by omega) (by simp) (by simpa [State.Unmarked] using hu), Nat.add_sub_cancel]
    -- the run goes on from `X₁` at frame `g`
    have next : ∀ (X₁ : State) (g : Frame), tick (X.push f) = X₁.push g → X₁.depth = X.depth → X₁.ControllersOnly →
        g.owner = .command mn → g.inst = i → SyncLines P g.lines → I X₁ g →
        (∃ X' f', advance n X.depth (tick (X.push f)) = X'.push f' ∧ X'.depth = X.depth ∧ I X' f') ∨
        ∃ X' f', advance n X.depth (tick (X.push f)) = (X'.emit (.result i mn f'.result)).latchAll ∧ X'.depth = X.depth ∧
          f'.lines = [] ∧ I X' f' := by
      intro X₁ g ht hd hc₁ ho₁ hi₁ hs₁ hI₁
      rw [ht, ← hd]
      exact ih X₁ g hc₁ ho₁ hi₁ hs₁ hI₁
    obtain ⟨o, X0, hb⟩ := boundary_exists X
    obtain ⟨hc0, hy, -, hd0, -⟩ := hb.left hc
    have hI0 := hworld _ _ f hb.world hI
    cases o with
    | some y =>
      cases hb with
      | @controller _ xs h hr =>
        obtain ⟨hin, hd, -, -⟩ := controllerInput_keeps y (X.withInputs xs)
        exact next _ f (tick_controller h (hy y rfl)) hd (fun z hz => hc0 z (by simpa [hin] using hz)) ho hi hs
          (hworld _ _ f (world_latchAll _) (hworld _ _ f (world_controllerInput y _) hI0))
    | none =>
      obtain ⟨o', i', lines, l, res⟩ := f
      obtain rfl : i' = i := hi
      obtain rfl : o' = Owner.command mn := ho
      cases lines with
      | nil => exact .inr ⟨X0, _, by rw [tick_return hb, advance_done (by simp [hd0])], hd0, rfl, hI0⟩
      | cons x rest =>
        obtain ⟨a, nx⟩ := x
        obtain ⟨hact, hnext, -⟩ := hs.head
        have hstep : tick (X.push _) = _ := tick_own hb ⟨.command mn, i', ⟨a, nx⟩ :: rest, l, res⟩
        rw [contextStep_push hact.plain.1 hact.plain.2] at hstep
        cases hp : perform i' l X0 a with
        | none =>
          simp only [hp, push_latchAll] at hstep
          exact next X0.latchAll _ hstep hd0 hc0 rfl rfl hs (hworld _ _ _ (world_latchAll _) hI0)
        | some r =>
          obtain ⟨X', l'⟩ := r
          obtain ⟨f', hgo, hs'⟩ := go_sync (p := X0.params) (f := ⟨.command mn, i', rest, l', res⟩) hnext hs.tail
          have hk := perform_keeps hp
          obtain ⟨ho', hi'⟩ := go_owner hgo
          simp only [hp, hgo, push_latchAll] at hstep
          have hd' : X'.depth = X.depth := by rw [← hd0, State.depth, State.depth, hk.main, hk.handlers]
          exact next X'.latchAll f' hstep hd' (fun z hz => hc0 z (by simpa [hk.inputs] using hz)) ho' hi' hs'
            (hworld _ _ _ (world_latchAll _) (hline X0 X' l' _ f' _ rest hI0 rfl rfl hs.head hp hgo))

/-! ## O36: what such a command never writes -/

/-- What a command's own accesses and the world around it leave of an engine: the handle, the callback trace, the registers
of initialisation and the wiring (41 R187, 42 R215). -/
structure OwnFrame (e e' : Engine) : Prop where
  h       : e'.h = e.h
  cbTrace : e'.cbTrace = e.cbTrace
  cr2     : e'.regs.cr2 = e.regs.cr2
  oar1    : e'.regs.oar1 = e.regs.oar1
  oar2    : e'.regs.oar2 = e.regs.oar2
  ccr     : e'.regs.ccr = e.regs.ccr
  trise   : e'.regs.trise = e.regs.trise
  fltr    : e'.regs.fltr = e.regs.fltr
  wiring  : e'.wiring = e.wiring

theorem OwnFrame.trans (h : OwnFrame e e') (h' : OwnFrame e' e'') : OwnFrame e e'' :=
  ⟨h'.h.trans h.h, h'.cbTrace.trans h.cbTrace, h'.cr2.trans h.cr2, h'.oar1.trans h.oar1, h'.oar2.trans h.oar2,
    h'.ccr.trans h.ccr, h'.trise.trans h.trise, h'.fltr.trans h.fltr, h'.wiring.trans h.wiring⟩

/-- What the world alone leaves of an engine besides: the latches of the clearing sequences, the byte to send, and CR1 but
for the requests, of which START is only cleared (20 R85). -/
structure OtherFrame (e e' : Engine) : Prop where
  lat   : e'.lat = e.lat
  tdr   : e'.regs.tdr = e.regs.tdr
  cr1   : e'.regs.cr1 &&& ~~~0x0300 = e.regs.cr1 &&& ~~~0x0300
  start : e'.regs.cr1.getLsbD 8 = true → e.regs.cr1.getLsbD 8 = true

theorem OtherFrame.trans (h : OtherFrame e e') (h' : OtherFrame e' e'') : OtherFrame e e'' :=
  ⟨h'.lat.trans h.lat, h'.tdr.trans h.tdr, h'.cr1.trans h.cr1, fun hs => h.start (h'.start hs)⟩

theorem HardwareStep.ownFrame (h : HardwareStep e e') : OwnFrame e e' := by
  rw [h.frame]
  constructor <;> rfl

theorem HardwareStep.otherFrame (h : HardwareStep e e') : OtherFrame e e' :=
  ⟨by rw [h.frame], by rw [h.frame], h.cr1, h.start⟩

theorem WorldStep.ownFrame (h : WorldStep e e') : OwnFrame e e' := by
  obtain ⟨e₁, h, rfl | rfl⟩ := h
  · exact h.ownFrame
  · exact h.ownFrame.trans ⟨rfl, rfl, rfl, rfl, rfl, rfl, rfl, rfl, rfl⟩

theorem WorldStep.otherFrame (h : WorldStep e e') : OtherFrame e e' := by
  obtain ⟨e₁, h, rfl | rfl⟩ := h
  · exact h.otherFrame
  · exact h.otherFrame.trans ⟨rfl, rfl, rfl, id⟩

/-- No register read touches them. -/
theorem ownFrame_afterRead (e : Engine) (r : Reg) : OwnFrame e (e.afterRead r) := by
  cases r
  case dr =>
    simp only [Engine.afterRead, Engine.readDR]
    split <;> constructor <;> rfl
  all_goals constructor <;> rfl

/-- Nor does a write of CR1, DR or SR1. -/
theorem ownFrame_afterWrite (e : Engine) (v : Word) {r : Reg} (hr : r = .cr1 ∨ r = .dr ∨ r = .sr1) :
    OwnFrame e (e.afterWrite v r) := by
  obtain rfl | rfl | rfl := hr
  · simp only [Engine.afterWrite, Engine.writeCR1, Regs.disabledIfPE0]
    split <;> constructor <;> rfl
  · constructor <;> rfl
  · constructor <;> rfl

/-- What a run of such a command on controller `i` has left of the state `s` it began in, with `P` the addresses it may
store to. -/
structure SyncFrame (P : Word → Prop) (i : Idx) (s t : State) : Prop where
  own       : ∀ j, OwnFrame (s.eng j) (t.eng j)
  other     : ∀ j, j ≠ i → OtherFrame (s.eng j) (t.eng j)
  trace     : ∃ tr, t.trace = s.trace ++ tr ∧ ∀ e ∈ tr, ∀ j, e.regInst = some j → j = i
  memory    : s.MemoryCanonical → t.MemoryCanonical ∧ ∀ a, ¬ P a → t.byteAt a = s.byteAt a
  program   : t.program = s.program
  params    : t.params = s.params

theorem SyncFrame.refl (P : Word → Prop) (i : Idx) (s : State) : SyncFrame P i s s :=
  ⟨fun _ => ⟨rfl, rfl, rfl, rfl, rfl, rfl, rfl, rfl, rfl⟩, fun _ _ => ⟨rfl, rfl, rfl, id⟩,
    ⟨[], by simp, fun _ h => absurd h List.not_mem_nil⟩, fun h => ⟨h, fun _ _ => rfl⟩, rfl, rfl⟩

/-- The world around the command keeps it. -/
theorem SyncFrame.world (h : SyncFrame P i s X) (hw : World X X') : SyncFrame P i s X' where
  own j := (h.own j).trans (hw.engines j).ownFrame
  other j hj := (h.other j hj).trans (hw.engines j).otherFrame
  trace := hw.trace ▸ h.trace
  memory := by simpa only [State.MemoryCanonical, State.byteAt, hw.mem] using h.memory
  program := hw.program.trans h.program
  params := hw.params.trans h.params

/-- An access to a register of controller `i`, recorded, keeps it. -/
theorem SyncFrame.access (h : SyncFrame P i s X) (he : OwnFrame (X.eng i) e) {x : Event}
    (hx : ∀ j, x.regInst = some j → j = i) : SyncFrame P i s ((X.setEng i e).emit x) := by
  obtain ⟨tr, htr, hin⟩ := h.trace
  refine ⟨fun j => ?_, fun j hj => ?_, ⟨tr ++ [x], ?_, ?_⟩, h.memory, h.program, h.params⟩
  · rw [emit_eng, eng_setEng]
    split
    · next hij => subst hij; exact (h.own _).trans he
    · exact h.own j
  · rw [emit_eng, eng_setEng, if_neg fun hij => hj hij.symm]
    exact h.other j hj
  · rw [emit_trace, setEng_trace, htr, List.append_assoc]
  · intro y hy
    obtain hy | hy := List.mem_append.mp hy
    · exact hin y hy
    · obtain rfl := List.mem_singleton.mp hy
      exact hx

/-- So does an event that is no register access. -/
theorem SyncFrame.emit (h : SyncFrame P i s X) {x : Event} (hx : x.regInst = none) : SyncFrame P i s (X.emit x) := by
  obtain ⟨tr, htr, hin⟩ := h.trace
  refine ⟨h.own, h.other, ⟨tr ++ [x], by rw [emit_trace, htr, List.append_assoc], fun y hy => ?_⟩, h.memory, h.program,
    h.params⟩
  obtain hy | hy := List.mem_append.mp hy
  · exact hin y hy
  · obtain rfl := List.mem_singleton.mp hy
    simp [hx]

/-- The frame above the state is none of it. -/
theorem SyncFrame.push (h : SyncFrame P i s X) (f : Frame) : SyncFrame P i s (X.push f) where
  own j := by rw [push_eng]; exact h.own j
  other j hj := by rw [push_eng]; exact h.other j hj
  trace := by rw [push_trace]; exact h.trace
  memory := by simpa only [State.MemoryCanonical, push_mem, push_byteAt] using h.memory
  program := by rw [push_program]; exact h.program
  params := by rw [push_params]; exact h.params

/-- And a store to an address the command may store to. -/
theorem SyncFrame.memWrite (h : SyncFrame P i s X) {a : Word} (ha : P a) (b : Byte) :
    SyncFrame P i s (X.memWrite a b) := by
  have hemit := h.emit (x := .memWrite a b) rfl
  refine ⟨hemit.own, hemit.other, hemit.trace, fun hs => ?_, hemit.program, hemit.params⟩
  obtain ⟨hc, hbyte⟩ := h.memory hs
  refine ⟨X.memWrite_wf a b hc, fun a' ha' => ?_⟩
  rw [X.byteAt_memWrite a a' b hc, if_neg (fun heq : a = a' => ha' (heq ▸ ha))]
  exact hbyte a' ha'

/-- A micro-step of such a command keeps it. -/
theorem SyncFrame.perform (h : SyncFrame P i s X) {a : Act} (ha : SyncAct P a)
    (hp : perform i l X a = some (X', l')) : SyncFrame P i s X' := by
  have hread : ∀ r, SyncFrame P i s (X.regRead i r) := fun r => h.access (ownFrame_afterRead _ r) (by simp [Event.regInst])
  have hwrite : ∀ {r} v, r = .cr1 ∨ r = .dr ∨ r = .sr1 → SyncFrame P i s (X.regWrite i r v) :=
    fun v hr => h.access (ownFrame_afterWrite _ v hr) (by simp [Event.regInst])
  cases ha <;> simp only [Machine.perform, Option.some.injEq, Prod.mk.injEq] at hp
  case memReadAt =>
    split at hp
    · cases hp; exact h.emit rfl
    · cases hp
  case memWriteAt hP =>
    split at hp
    · cases hp; exact h.memWrite hP _
    · cases hp
  all_goals obtain ⟨rfl, -⟩ := hp
  case readCR1 | readSR1 | readSR2 | readDR => exact hread _
  case getState | getTotal | getPolicy => exact h
  all_goals exact hwrite _ (by simp [RmwReg.reg])

/-- A synchronous command that ran has run its frame: it is no handler's command. -/
theorem exec_synchronous {x : Instr} (hx : x.synchronous = true) (h : exec x s = .next t) :
    ∃ f, softwareCmd s.params.nInst x = .ok f ∧ t = advance s.fuel s.depth (s.push f) := by
  obtain h | ⟨k, i, -, rfl, -⟩ := exec_software h
  · exact h
  · cases k <;> cases hx

/-- Settles O36: the frame is kept by the world and by every line, and so it holds however far the command has run. -/
theorem synchronousCommandFrame : Obligations.SynchronousCommandFrame := by
  unfold Obligations.SynchronousCommandFrame
  intro x s t hx hc hmem hexec
  obtain ⟨f, hf, rfl⟩ := exec_synchronous hx hexec
  obtain ⟨ho, hi, hs⟩ := softwareCmd_sync hx hf
  have hrun := advance_sync (I := fun X _ => SyncFrame x.mayStore x.index s X) (fun _ _ _ hw h => h.world hw)
    (fun _ _ _ _ _ _ _ h _ _ hl hp _ => h.perform hl.act hp) s.fuel s f hc ho hi hs (.refl _ _ _)
  have hframe : SyncFrame x.mayStore x.index s (advance s.fuel s.depth (s.push f)) := by
    obtain ⟨X, g, ht, -, h⟩ | ⟨X, g, ht, -, -, h⟩ := hrun
    · rw [ht]
      exact h.push g
    · rw [ht]
      exact (h.emit rfl).world (world_latchAll _)
  obtain ⟨own, other, trace, memory, program, -⟩ := hframe
  exact ⟨fun j => (own j).h, fun j => (own j).cbTrace, fun j => (own j).cr2,
    fun j => ⟨(own j).oar1, (own j).oar2, (own j).ccr, (own j).trise, (own j).fltr, (own j).wiring⟩,
    fun j hj => ⟨(other j hj).lat, (other j hj).tdr, (other j hj).cr1, (other j hj).start⟩, trace, (memory hmem).2, program⟩

/-! ## O37: the results with the default parameters -/

/-- A blocking command begins with its entry check, and returns OK unless something else is decided (41 R180). -/
theorem softwareCmd_blocking {n : Nat} {x : Instr}
    (hx : x.mnemonic = .MASTER_TX ∨ x.mnemonic = .MASTER_RX ∨ x.mnemonic = .MEM_READ) (h : softwareCmd n x = .ok f) :
    f.result = .status .ok ∧ ∃ rest, f.lines = ⟨.getState, .busyIfNotReady⟩ :: rest := by
  cases x <;> simp only [Instr.mnemonic, reduceCtorEq, or_false, or_true] at hx
  case masterTx =>
    obtain ⟨_, -, h⟩ := except_bind_eq_ok h
    obtain ⟨-, -, h⟩ := except_bind_eq_ok h
    cases h
    exact ⟨rfl, _, rfl⟩
  case masterRx =>
    obtain ⟨_, -, h⟩ := except_bind_eq_ok h
    obtain ⟨-, -, h⟩ := except_bind_eq_ok h
    obtain ⟨-, -, h⟩ := except_bind_eq_ok h
    cases h
    exact ⟨rfl, _, rfl⟩
  case memRead =>
    obtain ⟨_, -, h⟩ := except_bind_eq_ok h
    obtain ⟨-, -, h⟩ := except_bind_eq_ok h
    obtain ⟨-, -, h⟩ := except_bind_eq_ok h
    obtain ⟨-, -, h⟩ := except_bind_eq_ok h
    cases h
    exact ⟨rfl, _, rfl⟩

/-- With errors not propagated and no deadline, a poll decides no result (40 R155). -/
theorem pollStep_result {p : Params} (hp : p.propagateBusErrors = false) (hd : p.pollDeadline = none) (m : Half) (k : Nat)
    (exit : PollExit) : (f.pollStep p m k exit).result = f.result := by
  have hexp : p.expired (k + 1) = false := by rw [Params.expired, hd]
  unfold Frame.pollStep
  rw [hp, hexp, Bool.false_and, if_neg Bool.false_ne_true, if_neg Bool.false_ne_true]
  split <;> rfl

/-- So such a command keeps its result, but where its entry check finds a state other than READY. -/
theorem go_result {p : Params} (hp : p.propagateBusErrors = false) (hd : p.pollDeadline = none) (hn : SyncNext P nx)
    (hb : nx = .busyIfNotReady → f.loc.s = .ready) (h : nx.go p f = .ok f') : f'.result = f.result := by
  cases hn <;> cases h
  case poll => exact pollStep_result hp hd _ _ _
  case busy => rw [if_pos (hb rfl)]
  case ackOffIfRx | ackOffIfOne | policy => split <;> rfl
  all_goals rfl

/-- What holds below a blocking command begun in READY, with the default parameters: the frame of the command, and its
result is still OK. -/
def LegacyReady (i : Idx) (s X : State) (f : Frame) : Prop := SyncFrame (fun _ => True) i s X ∧ f.result = .status .ok

/-- What holds of one begun outside READY: it has made no access, and stands at its entry check or ends with BUSY. -/
def LegacyBusy (i : Idx) (s X : State) (f : Frame) : Prop :=
  X.handle i = s.handle i ∧ X.trace = s.trace ∧
    ((∃ rest, f.lines = ⟨.getState, .busyIfNotReady⟩ :: rest) ∨ (f.lines = [] ∧ f.result = .status .busy))

theorem World.handle (h : World X X') (i : Idx) : X'.handle i = X.handle i := (h.engines i).ownFrame.h

/-- A line of such a command keeps the first. -/
theorem LegacyReady.line {rest : List Line} (hp : s.params.propagateBusErrors = false) (hd : s.params.pollDeadline = none)
    (hr : (s.handle i).transferState = .ready) (h : LegacyReady i s X f) (hx : SyncLine P x)
    (ha : perform i f.loc X x.act = some (X', l'))
    (hgo : x.next.go X.params { f with lines := rest, loc := l' } = .ok f') : LegacyReady i s X' f' := by
  obtain ⟨hframe, hres⟩ := h
  refine ⟨hframe.perform (hx.act.mono fun _ _ => trivial) ha, ?_⟩
  have hstate : x.next = .busyIfNotReady → l'.s = .ready := by
    intro hb
    rw [hx.busy hb] at ha
    cases ha
    exact (congrArg Handle.transferState (hframe.own i).h).trans hr
  rw [hframe.params] at hgo
  exact (go_result hp hd hx.next hstate hgo).trans hres

/-- And the second. -/
theorem LegacyBusy.line {rest : List Line} {p : Params} (hr : (s.handle i).transferState ≠ .ready) (h : LegacyBusy i s X f)
    (hl : f.lines = x :: rest) (ha : perform i f.loc X x.act = some (X', l'))
    (hgo : x.next.go p { f with lines := rest, loc := l' } = .ok f') : LegacyBusy i s X' f' := by
  obtain ⟨hh, htr, ⟨rest', hl'⟩ | ⟨hnil, -⟩⟩ := h
  · cases hl.symm.trans hl'
    cases ha
    cases hgo
    have hs : (X.handle i).transferState ≠ .ready := by rwa [hh]
    exact ⟨hh, htr, .inr (by rw [if_neg hs]; exact ⟨rfl, rfl⟩)⟩
  · rw [hl] at hnil
    cases hnil

/-- Settles O37: begun in READY the result stays OK through every line, begun outside it the entry check decides BUSY. -/
theorem legacyBlockingResult : Obligations.LegacyBlockingResult := by
  unfold Obligations.LegacyBlockingResult
  intro x s t hx hm hc hp hd hexec hdepth
  obtain ⟨f, hf, rfl⟩ := exec_synchronous hx hexec
  obtain ⟨ho, hi, hs⟩ := softwareCmd_sync hx hf
  obtain ⟨hres, rest, hl⟩ := softwareCmd_blocking hm hf
  have hpush : ∀ {X : State} {g : Frame}, X.depth = s.depth → (X.push g).depth ≠ s.depth := by
    intro X g h
    rw [push_depth, h]
    exact Nat.succ_ne_self _
  by_cases hr : (s.handle x.index).transferState = .ready
  · refine .inl ?_
    obtain ⟨X, g, ht, hX, -⟩ | ⟨X, g, ht, -, -, hframe, hg⟩ := advance_sync (I := LegacyReady x.index s)
      (fun _ _ _ hw h => ⟨h.1.world hw, h.2⟩) (fun _ _ _ _ _ _ _ h _ _ hl ha hgo => h.line hp hd hr hl ha hgo) s.fuel s f hc
      ho hi hs ⟨.refl _ _ _, hres⟩
    · exact absurd (ht ▸ hdepth) (hpush hX)
    · obtain ⟨tr, htr, -⟩ := hframe.trace
      exact ⟨tr, by rw [ht, latchAll_trace, emit_trace, htr, hg]⟩
  · refine .inr ⟨hr, ?_⟩
    obtain ⟨X, g, ht, hX, -⟩ | ⟨X, g, ht, -, hnil, -, htr, hg⟩ := advance_sync (I := LegacyBusy x.index s)
      (fun _ _ _ hw h => ⟨(hw.handle _).trans h.1, hw.trace.trans h.2.1, h.2.2⟩)
      (fun _ _ _ _ _ _ _ h _ hl _ ha hgo => h.line hr hl ha hgo) s.fuel s f hc ho hi hs ⟨rfl, rfl, .inl ⟨rest, hl⟩⟩
    · exact absurd (ht ▸ hdepth) (hpush hX)
    · obtain ⟨rest', hl'⟩ | ⟨-, hbusy⟩ := hg
      · rw [hnil] at hl'
        cases hl'
      · rw [ht, latchAll_trace, emit_trace, htr, hbusy]

end Sys2Proof.Machine

/-! Blocking transfers under a controller that answers every poll at once (41 R181 to R183, R189): the blocks of the
pseudocode one after the other, each with the inputs its statement's schedule gives it. -/

namespace Sys2Proof.Machine

/-! ## Points of a run -/

/-- A point of a command's run: `xs` the inputs to come, `regs` and `lat` what is known of the engine, `tr` the trace since
the start, `m` caller memory, `lines` the command's position. -/
structure Point where
  xs    : List Input
  regs  : Regs
  lat   : Latches
  tr    : List Event
  m     : List Host.Cell
  lines : List Line

/-- The registers a transfer writes, with these values. -/
def Regs.set (r : Regs) (cr1 sr1 sr2 : Half) (dr tdr : Byte) : Regs :=
  { r with cr1 := cr1, sr1 := sr1, sr2 := sr2, dr := dr, tdr := tdr }

/-- The premise of the schedules that does not change along a run (20 R86). -/
structure Answering (s : State) (i : Idx) (e₀ : Engine) : Prop where
  unmarked : s.Unmarked
  has      : i < s.params.nInst
  free     : e₀.ctrl = .free
  ready    : e₀.h.transferState = .ready

/-- The run of a command of controller `i` above `s` goes from `p` to `q`, and uses no fuel but the inputs'. -/
def Reaches (s : State) (i : Idx) (e₀ : Engine) (o : Owner) (res : Result) (p q : Point) : Prop :=
  ∀ (e : Engine) (l : Locals) (k : Nat), Running e₀ e p.regs p.lat → ∃ (e' : Engine) (l' : Locals),
    Running e₀ e' q.regs q.lat ∧
    advance (k + p.xs.length + 1) s.depth (s.during i p.xs e p.tr p.m ⟨o, i, p.lines, l, res⟩) =
      advance (k + q.xs.length + 1) s.depth (s.during i q.xs e' q.tr q.m ⟨o, i, q.lines, l', res⟩)

variable {s : State} {i : Idx} {e₀ : Engine} {o : Owner} {res : Result} {p q w : Point} {xs : List Input} {r : Regs}
  {lat : Latches} {tr : List Event} {m : List Host.Cell} {rest : List Line} {mask sr1 sr2 c a b : Half} {d d' t : Byte}
  {exit : PollExit}

theorem Reaches.refl (p : Point) : Reaches s i e₀ o res p p := fun e l _ h => ⟨e, l, h, rfl⟩

theorem Reaches.trans (h : Reaches s i e₀ o res p q) (h' : Reaches s i e₀ o res q w) : Reaches s i e₀ o res p w := by
  intro e l k hr
  obtain ⟨e₁, l₁, hr₁, h₁⟩ := h e l k hr
  obtain ⟨e₂, l₂, hr₂, h₂⟩ := h' e₁ l₁ k hr₁
  exact ⟨e₂, l₂, hr₂, h₁.trans h₂⟩

/-! ## Blocks -/

section Blocks

variable (hA : Answering s i e₀)
include hA

theorem reaches_setCR1 (he : c.getLsbD 0 = true) (hm : mask &&& ~~~cr1Writable = 0) :
    Reaches s i e₀ o res ⟨.run :: .run :: xs, r.set c a b d t, lat, tr, m, setBits .cr1 mask ++ rest⟩
      ⟨xs, r.set (c ||| mask) (if lat.stopf then a &&& ~~~0x0010 else a) b d t,
        { lat with stopf := false }, tr ++ rmwCR1 i c (c ||| mask), m, rest⟩ :=
  fun _ _ k h => during_setCR1 (n := k + (xs.length + 1 + 1) + 1) (xs := xs) (tr := tr) (m := m) (rest := rest) hA.unmarked h
    he hm (by omega)

theorem reaches_clearCR1 (he : c.getLsbD 0 = true) (hm : mask &&& ~~~cr1Writable = 0) (h0 : mask.getLsbD 0 = false) :
    Reaches s i e₀ o res ⟨.run :: .run :: xs, r.set c a b d t, lat, tr, m, clearBits .cr1 mask ++ rest⟩
      ⟨xs, r.set (c &&& ~~~mask) (if lat.stopf then a &&& ~~~0x0010 else a) b d t,
        { lat with stopf := false }, tr ++ rmwCR1 i c (c &&& ~~~mask), m, rest⟩ :=
  fun _ _ k h => during_clearCR1 (n := k + (xs.length + 1 + 1) + 1) (xs := xs) (tr := tr) (m := m) (rest := rest) hA.unmarked
    h he hm h0 (by omega)

theorem reaches_entryCheck : Reaches s i e₀ o res ⟨.run :: xs, r.set c a b d t, lat, tr, m, entryCheck ++ rest⟩
    ⟨xs, r.set c a b d t, lat, tr, m, rest⟩ :=
  fun _ _ k h => during_entryCheck (n := k + (xs.length + 1) + 1) (xs := xs) (tr := tr) (m := m) (rest := rest) hA.unmarked h
    hA.ready (by omega)

theorem reaches_clearAddr : Reaches s i e₀ o res ⟨.run :: .run :: .run :: xs, r.set c a b d t, lat, tr, m, clearAddr ++ rest⟩
    ⟨xs, r.set c (a &&& ~~~0x0002) b d t, { latchesOf a with addr := false },
      tr ++ [rSR1 i a, rSR2 i b], m, rest⟩ :=
  fun _ _ k h => during_clearAddr (n := k + (xs.length + 1 + 1 + 1) + 1) (xs := xs) (tr := tr) (m := m) (rest := rest)
    hA.unmarked h hA.ready (by omega)

/-- A byte of the command's own, written to DR. -/
theorem reaches_writeDR {nx : Next} {more : List Line}
    (hg : ∀ l, nx.go s.params ⟨o, i, rest, l, res⟩ = .ok ⟨o, i, more, l, res⟩) :
    Reaches s i e₀ o res ⟨.run :: xs, r.set c a b d t, lat, tr, m, ⟨.writeDR d', nx⟩ :: rest⟩
      ⟨xs, r.set c (a &&& ~~~(0x0080 ||| (if lat.sb then 0x0001 else 0) ||| (if lat.btf then 0x0004 else 0))) b d d',
        { lat with sb := false, btf := false }, tr ++ [wDR i d'], m, more⟩ := by
  intro e l k h
  obtain ⟨e', h', hrun⟩ := during_writeDR (n := k + (xs.length + 1) + 1) (xs := xs) (tr := tr) (m := m) (b := d') hA.unmarked h
    hA.free (hg l) (by omega)
  exact ⟨e', l, h', hrun⟩

/-- A byte of caller memory, read and written to DR. -/
theorem reaches_sendMem {p : Word} {nx : Next} {more : List Line} (hp : s.params.bufferOk p = true)
    (hg : ∀ l, nx.go s.params ⟨o, i, rest, l, res⟩ = .ok ⟨o, i, more, l, res⟩) :
    Reaches s i e₀ o res
      ⟨.run :: .run :: xs, r.set c a b d t, lat, tr, m, .then (.memReadAt p) :: ⟨.writeDRLocal, nx⟩ :: rest⟩
      ⟨xs, r.set c (a &&& ~~~(0x0080 ||| (if lat.sb then 0x0001 else 0) ||| (if lat.btf then 0x0004 else 0))) b d
          (Memory.read m p.toNat),
        { lat with sb := false, btf := false },
        tr ++ [.memRead p (Memory.read m p.toNat), wDR i (Memory.read m p.toNat)], m, more⟩ := by
  intro e l k h
  obtain ⟨e', h', hrun⟩ := during_sendMem (n := k + (xs.length + 1 + 1) + 1) (xs := xs) (tr := tr) (m := m) hA.unmarked h
    hA.free hp (hg { l with b := Memory.read m p.toNat }) (by omega)
  exact ⟨e', _, h', hrun⟩

/-- A received byte, read from DR and stored. -/
theorem reaches_storeMem {p : Word} {nx : Next} {more : List Line} (hp : s.params.bufferOk p = true)
    (hg : ∀ l, nx.go s.params ⟨o, i, rest, l, res⟩ = .ok ⟨o, i, more, l, res⟩) :
    Reaches s i e₀ o res ⟨.run :: .run :: xs, r.set c a b d t, lat, tr, m, .then .readDR :: ⟨.memWriteAt p, nx⟩ :: rest⟩
      ⟨xs, r.set c (a &&& ~~~(0x0040 ||| (if lat.btf then 0x0004 else 0))) b d t, { lat with btf := false },
        tr ++ [rDR i d, .memWrite p d], Memory.write m p.toNat d, more⟩ := by
  intro e l k h
  obtain ⟨e', h', hrun⟩ := during_storeMem (n := k + (xs.length + 1 + 1) + 1) (xs := xs) (tr := tr) (m := m) hA.unmarked h
    hA.free hp (hg { l with b := d }) (by omega)
  exact ⟨e', _, h', hrun⟩

section Status

variable (h1 : a &&& 0x2020 = 0) (h2 : b &&& 0x0008 = 0) (hs1 : sr1 &&& 0x2020 = 0) (hs2 : sr2 &&& 0x0008 = 0)
include h1 h2 hs1 hs2

/-- A controller's step. -/
theorem reaches_hwStep {lines : List Line} :
    Reaches s i e₀ o res ⟨hwStep i sr1 sr2 d' :: xs, r.set c a b d t, lat, tr, m, lines⟩
      ⟨xs, r.set (cr1Done c) sr1 sr2 d' t, lat, tr, m, lines⟩ := by
  intro e l k h
  obtain ⟨e', h', hrun⟩ := during_hwStep (n := k + (xs.length + 1) + 1) (xs := xs) (tr := tr) (m := m) (d := d')
    (f := ⟨o, i, lines, l, res⟩) hA.unmarked hA.has h hA.free h1 h2 hs1 hs2 (by omega)
  exact ⟨e', l, h', hrun⟩

/-- A poll answered at once. -/
theorem reaches_poll (hm : sr1 &&& mask = mask) :
    Reaches s i e₀ o res ⟨hwStep i sr1 sr2 d' :: .run :: xs, r.set c a b d t, lat, tr, m, waitFlags mask exit ++ rest⟩
      ⟨xs, r.set (cr1Done c) sr1 sr2 d' t, latchesOf sr1, tr ++ [rSR1 i sr1], m, rest⟩ :=
  fun _ _ k h => during_poll (n := k + (xs.length + 1 + 1) + 1) (xs := xs) (tr := tr) (m := m) (rest := rest) hA.unmarked
    hA.has h hA.free h1 h2 hs1 hs2 hm (by omega)

end Status

end Blocks

/-! ## The address phase (41 R181, R182) -/

theorem cr1Done_twice (v : Half) : cr1Done (cr1Done v) = cr1Done v := by simp only [cr1Done, BitVec.and_assoc, BitVec.and_self]

/-- A request performed leaves CR1 as it was without it. -/
theorem cr1Done_request (v : Half) (hm : mask &&& ~~~0x0300 = 0) : cr1Done (v ||| mask) = cr1Done v := by
  rw [cr1Done, BitVec.and_comm, BitVec.and_or_distrib_left, BitVec.and_comm _ mask, hm, cr1Done, BitVec.and_comm]
  exact BitVec.or_zero

/-- SR1 after an acknowledge of STOPF keeps its reserved bits (10 R40). -/
theorem reserved_stopf {b : Bool} {v : Half} (h : v &&& 0x2020 = 0) : (if b then v &&& ~~~0x0010 else v) &&& 0x2020 = 0 := by
  cases b
  · exact h
  · exact (clearMask_and (by decide)).trans h

/-- The same point, its values written in another way. -/
theorem reaches_of_eq {r r' : Regs} {lat lat' : Latches} {tr tr' : List Event} {lines : List Line} (hr : r = r')
    (hl : lat = lat') (ht : tr = tr') :
    Reaches s i e₀ o res ⟨xs, r, lat, tr, m, lines⟩ ⟨xs, r', lat', tr', m, lines⟩ := by
  subst hr hl ht
  exact .refl _

/-- START, SB, the address byte, ADDR. -/
theorem reaches_addressPhase (hA : Answering s i e₀) (he : c.getLsbD 0 = true) (h1 : a &&& 0x2020 = 0)
    (h2 : b &&& 0x0008 = 0) (hs2 : sr2 &&& 0x0008 = 0) (addr : Byte) (dir : Dir) (rx : Bool) :
    Reaches s i e₀ o res
      ⟨(addressSchedule i sr2).tail ++ xs, r.set c a b d t, lat, tr, m, addressPhase addr dir rx ++ rest⟩
      ⟨xs, r.set (cr1Done c) 0x0002 sr2 0 (addrByte addr dir), latchesOf 0x0002, tr ++ addressEvents i c (addrByte addr dir), m,
        rest⟩ := by
  refine Reaches.trans (reaches_setCR1 hA (mask := 0x0100) he (by decide)) ?_
  refine Reaches.trans (reaches_poll hA (reserved_stopf h1) h2 (by decide) (by decide) (by decide)) ?_
  refine Reaches.trans (reaches_writeDR hA (fun _ => rfl)) ?_
  refine Reaches.trans (reaches_poll hA (by decide) (by decide) (by decide) hs2 (by decide)) (reaches_of_eq ?_ rfl ?_)
  · rw [cr1Done_twice, cr1Done_request c (by decide)]
  · simp [addressEvents]

/-- No access is half of a clearing sequence (20 R75). -/
abbrev noLatch : Latches := ⟨false, false, false, false⟩

/-! ## The transmit (41 R181) -/

/-- START up to the clear of ADDR, in a transmit. -/
theorem reaches_txAddress (hA : Answering s i e₀) (he : c.getLsbD 0 = true) (h1 : a &&& 0x2020 = 0)
    (h2 : b &&& 0x0008 = 0) (addr : Byte) :
    Reaches s i e₀ o res
      ⟨(addressSchedule i 0x0007).tail ++ (.run :: .run :: .run :: xs), r.set c a b d t, lat, tr, m,
        addressPhase addr .write false ++ (clearAddr ++ rest)⟩
      ⟨xs, r.set (cr1Done c) 0 0x0007 0 (addrByte addr .write), noLatch,
        tr ++ (addressEvents i c (addrByte addr .write) ++ [rSR1 i 0x0002, rSR2 i 0x0007]), m, rest⟩ :=
  (reaches_addressPhase hA he h1 h2 (by decide) addr .write false).trans
    ((reaches_clearAddr hA).trans (reaches_of_eq rfl rfl (List.append_assoc ..)))

theorem word_succ_ne_zero {n : Nat} (hn : n + 1 < 2 ^ 32) : BitVec.ofNat 32 (n + 1) ≠ 0 := by
  intro h
  have := congrArg BitVec.toNat h
  simp only [BitVec.toNat_ofNat, Nat.mod_eq_of_lt hn] at this
  cases this

theorem word_succ (n : Nat) : BitVec.ofNat 32 (n + 1) = BitVec.ofNat 32 n + 1 := BitVec.ofNat_add ..

theorem word_succ_sub_one (n : Nat) : BitVec.ofNat 32 (n + 1) - 1 = BitVec.ofNat 32 n := by
  rw [word_succ, BitVec.add_sub_cancel]

theorem word_add_succ (p : Word) (n : Nat) : p + BitVec.ofNat 32 (n + 1) = p + 1 + BitVec.ofNat 32 n := by
  rw [word_succ, BitVec.add_comm _ 1, BitVec.add_assoc]

/-- The loop with a byte to send. -/
theorem txLoop_succ {n : Nat} (hn : n + 1 < 2 ^ 32) (src : Src) (sr : Bool) :
    txLoop src (BitVec.ofNat 32 (n + 1)) sr ++ rest =
      waitFlags sr1TxE (.abort false) ++ (sendFrom src (.txMore src.tail (BitVec.ofNat 32 n) sr) ++ rest) := by
  rw [txLoop, if_neg (word_succ_ne_zero hn), word_succ_sub_one, List.append_assoc]

/-- The loop with none. -/
theorem txLoop_zero (src : Src) (sr : Bool) :
    txLoop src 0 sr ++ rest = waitFlags (sr1TxE ||| sr1BTF) (.abort false) ++ (genStopUnless sr ++ rest) := by
  rw [txLoop, if_pos rfl, List.append_assoc]

/-- The schedule of the loop: TxE before each byte, then its micro-steps. -/
def byteSchedule (i : Idx) (perByte n : Nat) : List Input :=
  (List.replicate n (hwStep i 0x0080 0x0007 0 :: List.replicate perByte .run)).flatten

/-- The bytes of a transmit from caller memory. By induction on their number. -/
theorem reaches_txBytes (hA : Answering s i e₀) (hc : cr1Done c = c) (sr : Bool) (n : Nat) (hn : n < 2 ^ 32) (p : Word)
    (hp : ∀ k, k < n → s.params.bufferOk (p + BitVec.ofNat 32 k) = true) (t : Byte) (tr : List Event) :
    Reaches s i e₀ o res
      ⟨byteSchedule i 3 n ++ xs, r.set c 0 0x0007 0 t, noLatch, tr, s.mem, txLoop (.mem p) (BitVec.ofNat 32 n) sr ++ rest⟩
      ⟨xs, r.set c 0 0x0007 0 (if n = 0 then t else s.byteAt (p + BitVec.ofNat 32 (n - 1))), noLatch,
        tr ++ txByteEvents i s n p, s.mem,
        waitFlags (sr1TxE ||| sr1BTF) (.abort false) ++ (genStopUnless sr ++ rest)⟩ := by
  induction n generalizing p t tr with
  | zero =>
    rw [show BitVec.ofNat 32 0 = 0 from rfl, txLoop_zero]
    exact reaches_of_eq rfl rfl (List.append_nil tr).symm
  | succ n ih =>
    have hp0 : s.params.bufferOk p = true := by simpa using hp 0 (by omega)
    have hrest := ih (by omega) (p + 1) (fun k hk => word_add_succ p k ▸ hp (k + 1) (by omega)) (s.byteAt p)
      (tr ++ [rSR1 i 0x0080] ++ [.memRead p (s.byteAt p), wDR i (s.byteAt p)])
    rw [txLoop_succ hn]
    refine Reaches.trans (reaches_poll hA (by decide) (by decide) (by decide) (by decide) (by decide)) ?_
    refine Reaches.trans (reaches_sendMem hA (more := txLoop (.mem (p + 1)) (BitVec.ofNat 32 n) sr ++ rest) hp0 fun _ => rfl) ?_
    rw [hc]
    refine hrest.trans (reaches_of_eq ?_ rfl ?_)
    · cases n with
      | zero => simp
      | succ n =>
        rw [if_neg n.succ_ne_zero, if_neg (n + 1).succ_ne_zero]
        exact congrArg (fun y => r.set c 0 0x0007 0 (s.byteAt y)) (word_add_succ p n).symm
    · simp [txByteEvents]

/-- The bytes of a transmit from the command's own bytes. By induction on them. -/
theorem reaches_scratch (hA : Answering s i e₀) (hc : cr1Done c = c) (sr : Bool) (bs : List Byte) (hn : bs.length < 2 ^ 32)
    (t : Byte) (tr : List Event) :
    Reaches s i e₀ o res
      ⟨byteSchedule i 2 bs.length ++ xs, r.set c 0 0x0007 0 t, noLatch, tr, m,
        txLoop (.scratch bs) (BitVec.ofNat 32 bs.length) sr ++ rest⟩
      ⟨xs, r.set c 0 0x0007 0 (bs.getLastD t), noLatch, tr ++ scratchEvents i bs, m,
        waitFlags (sr1TxE ||| sr1BTF) (.abort false) ++ (genStopUnless sr ++ rest)⟩ := by
  induction bs generalizing t tr with
  | nil =>
    rw [show BitVec.ofNat 32 ([] : List Byte).length = 0 from rfl, txLoop_zero]
    exact reaches_of_eq rfl rfl (List.append_nil tr).symm
  | cons y bs ih =>
    have hrest := ih (Nat.lt_of_succ_lt hn) y (tr ++ [rSR1 i 0x0080] ++ [wDR i y])
    rw [List.length_cons, txLoop_succ hn]
    refine Reaches.trans (reaches_poll hA (by decide) (by decide) (by decide) (by decide) (by decide)) ?_
    refine Reaches.trans
      (reaches_writeDR hA (more := txLoop (.scratch bs) (BitVec.ofNat 32 bs.length) sr ++ rest) fun _ => rfl) ?_
    rw [hc]
    refine hrest.trans (reaches_of_eq ?_ rfl ?_)
    · rw [List.getLastD_cons]
    · simp [scratchEvents]

/-- TxE and BTF together: every byte has left. -/
theorem reaches_txEnd (hA : Answering s i e₀) (hc : cr1Done c = c) :
    Reaches s i e₀ o res
      ⟨hwStep i 0x0084 0x0007 0 :: .run :: xs, r.set c 0 0x0007 0 t, noLatch, tr, m,
        waitFlags (sr1TxE ||| sr1BTF) (.abort false) ++ rest⟩
      ⟨xs, r.set c 0x0084 0x0007 0 t, ⟨false, false, true, false⟩, tr ++ [rSR1 i 0x0084], m, rest⟩ :=
  Reaches.trans (reaches_poll hA (by decide) (by decide) (by decide) (by decide) (by decide))
    (reaches_of_eq (by rw [hc]) rfl rfl)

/-! ## The end of a command, when the inputs are used up -/

/-- The run of a command from `p` ends with its return, with these registers, latches, trace and memory. -/
def Finishes (s : State) (i : Idx) (e₀ : Engine) (mn : Mnemonic) (res : Result) (p : Point) (r : Regs) (lat : Latches)
    (tr : List Event) (m : List Host.Cell) : Prop :=
  ∀ (e : Engine) (l : Locals) (k : Nat), 8 ≤ k → Running e₀ e p.regs p.lat → ∃ e' : Engine, Running e₀ e' r lat ∧
    advance (k + p.xs.length + 1) s.depth (s.during i p.xs e p.tr p.m ⟨.command mn, i, p.lines, l, res⟩) =
      (s.latchAll.withInputs []).put i e' tr m

variable {mn : Mnemonic}

theorem Reaches.finishes (h : Reaches s i e₀ (.command mn) res p q) (hf : Finishes s i e₀ mn res q r lat tr m) :
    Finishes s i e₀ mn res p r lat tr m := by
  intro e l k hk hr
  obtain ⟨e₁, l₁, hr₁, h₁⟩ := h e l k hr
  obtain ⟨e₂, hr₂, h₂⟩ := hf e₁ l₁ k hk hr₁
  exact ⟨e₂, hr₂, h₁.trans h₂⟩

theorem finishes_return (hA : Answering s i e₀) :
    Finishes s i e₀ mn res ⟨[], r, lat, tr, m, []⟩ r lat (tr ++ [.result i mn res]) m :=
  fun _ _ _ _ h => during_return hA.unmarked h (by omega)

/-- A write of CR1 that acknowledges no STOPF. -/
theorem Running.withCR1 {e : Engine} {v : Half} (h : Running e₀ e (r.set c a b d t) lat) (hs : lat.stopf = false) :
    Running e₀ (e.withCR1 v) (r.set v a b d t) lat := by
  obtain ⟨hr, hl, h1, h2, h3, h4⟩ := h
  refine ⟨?_, ?_, h1, h2, h3, h4⟩
  · simp only [Engine.withCR1, hr, hl, hs]
    rfl
  · simp only [Engine.withCR1, hl]
    rw [← hs]

/-- `SetBits(CR1, mask)` with no input left, and the return. -/
theorem setCR1_return (hA : Answering s i e₀) {e : Engine} {l : Locals} {n : Nat} (h : Running e₀ e (r.set c a b d t) lat)
    (hs : lat.stopf = false) (he : c.getLsbD 0 = true) (hm : mask &&& ~~~cr1Writable = 0) (hn : 2 < n) :
    ∃ e' : Engine, Running e₀ e' (r.set (c ||| mask) a b d t) lat ∧
      advance n s.depth (s.during i [] e tr m ⟨.command mn, i, setBits .cr1 mask, l, res⟩) =
        (s.latchAll.withInputs []).put i e' (tr ++ rmwCR1 i c (c ||| mask) ++ [.result i mn res]) m := by
  have hq : (s.latchAll.withInputs []).Quiet := ⟨rfl, hA.unmarked⟩
  have hcr1 : e.regs.cr1 = c := congrArg Regs.cr1 h.regs
  have hrun := advance_setCR1 (X := s.latchAll.withInputs []) (o := .command mn) (i := i) (e := e) (tr := tr) (m := m)
    (rest := []) (l := l) (res := res) (n := n) rfl hq (by omega) (by rw [hcr1]; exact he) hm
  rw [hcr1, List.append_nil] at hrun
  obtain ⟨e', h', hret⟩ := during_return (s := s) (i := i) (n := n - 2) (tr := tr ++ rmwCR1 i c (c ||| mask)) (m := m)
    (l := { l with w := c.setWidth 32 }) (res := res) (mn := mn) hA.unmarked (h.latchPending.withCR1 (v := c ||| mask) hs)
    (by omega)
  refine ⟨e', h', Eq.trans ?_ hret⟩
  exact hrun.trans (by simp [State.during])

/-- STOP, unless a repeated start is asked for, and the return. -/
theorem finishes_stop (hA : Answering s i e₀) (hs : lat.stopf = false) (he : c.getLsbD 0 = true) (sr : Bool) :
    Finishes s i e₀ mn res ⟨[], r.set c a b d t, lat, tr, m, genStopUnless sr⟩
      (r.set (if sr then c else c ||| 0x0200) a b d t) lat (tr ++ stopEvents i sr c ++ [.result i mn res]) m := by
  intro e l k hk h
  cases sr with
  | true =>
    rw [stopEvents, if_pos rfl, if_pos rfl, List.append_nil]
    exact finishes_return hA e l k hk h
  | false => exact setCR1_return hA h hs he (by decide) (by omega)

/-- ACK re-enabled if the policy is ENABLE, and the return. -/
theorem finishes_restoreAck (hA : Answering s i e₀) (hs : lat.stopf = false) (he : c.getLsbD 0 = true) :
    Finishes s i e₀ mn res ⟨[], r.set c a b d t, lat, tr, m, restoreAck⟩
      (r.set (if e₀.h.cfg.ackControl = .enable then c ||| 0x0400 else c) a b d t) lat
      (tr ++ (if e₀.h.cfg.ackControl = .enable then rmwCR1 i c (c ||| 0x0400) else []) ++ [.result i mn res]) m := by
  intro e l k hk h
  have hq : (s.latchAll.withInputs []).Quiet := ⟨rfl, hA.unmarked⟩
  have hline : ∀ g,
      Next.ackOnIfPolicy.go s.params ⟨.command mn, i, [], { l with pol := e₀.h.cfg.ackControl }, res⟩ = .ok g →
      advance (k + 1) s.depth (s.during i [] e tr m ⟨.command mn, i, restoreAck, l, res⟩) =
        advance k s.depth (s.during i [] e.latchPending tr m g) := by
    intro g hg
    have hget : perform i l ((s.latchAll.withInputs []).put i e tr m) .getPolicy =
        some ((s.latchAll.withInputs []).put i e tr m, { l with pol := e₀.h.cfg.ackControl }) := by
      rw [perform, handle_eq, put_eng_same, h.h]
    refine (advance_line (X := s.latchAll.withInputs []) (o := .command mn) (a := .getPolicy) (rest := []) rfl hq
      (Nat.succ_pos k) nofun nofun hget hg).trans ?_
    simp [State.during]
  by_cases hpol : e₀.h.cfg.ackControl = .enable
  · simp only [if_pos hpol]
    obtain ⟨e', h', hrun⟩ := setCR1_return (mn := mn) (res := res) (mask := 0x0400) (n := k) (tr := tr) (m := m)
      (l := { l with pol := e₀.h.cfg.ackControl }) hA h.latchPending hs he (by decide) (by omega)
    exact ⟨e', h', (hline _ (by rw [Next.go, if_pos hpol]; rfl)).trans hrun⟩
  · simp only [if_neg hpol, List.append_nil]
    obtain ⟨e', h', hrun⟩ := during_return (s := s) (i := i) (n := k) (tr := tr) (m := m) (mn := mn) (res := res)
      (l := { l with pol := e₀.h.cfg.ackControl }) hA.unmarked h.latchPending (by omega)
    exact ⟨e', h', (hline _ (by rw [Next.go, if_neg hpol])).trans hrun⟩

/-! ## From the entry check to the return -/

/-- What a transfer that has returned leaves. -/
theorem transferred_put {e' : Engine} {tr : List Event} {m : List Host.Cell} (h : Running (s.eng i) e' r lat) :
    Transferred s ((s.latchAll.withInputs []).put i e' tr m) i r lat tr where
  regs := by rw [put_eng_same, h.regs]
  lat := by rw [put_eng_same, h.lat]
  handle := by rw [put_eng_same, h.h]
  cbTrace := by rw [put_eng_same, h.cbTrace]
  wiring := by rw [put_eng_same, h.wiring]
  ctrl := by rw [put_eng_same, h.ctrl]
  others j hj := by rw [put_eng_ne _ _ _ _ _ _ hj, withInputs_eng, latchAll_eng]
  trace := rfl
  returned := ⟨rfl, rfl⟩
  program := rfl
  inputs := rfl
  params := rfl
  refused := rfl
  faults := rfl

theorem lt_length_putEngine (e : Engine) : ∀ (es : List Engine) (i : Idx), i < (putEngine es i e).length
  | [], 0 => Nat.one_pos
  | [], i + 1 => Nat.succ_lt_succ (lt_length_putEngine e [] i)
  | _ :: _, 0 => Nat.succ_pos _
  | _ :: es, i + 1 => Nat.succ_lt_succ (lt_length_putEngine e es i)

theorem State.CanTransfer.answering (h : s.CanTransfer i) : Answering s i (s.eng i) := ⟨h.unmarked, h.has.1, h.free, h.ready⟩

/-- The run of a blocking command goes through its entry check, and then as its lines say. -/
theorem issue_finishes (hs : s.CanTransfer i) (hin : s.inputs = .run :: xs)
    (h : Finishes s i (s.eng i) mn res ⟨xs, (s.eng i).regs, (s.eng i).lat, [], s.mem, rest⟩ r lat tr m) :
    ∃ t, issue (.ok (Frame.start mn i (entryCheck ++ rest) res)) s = .next t ∧ Transferred s t i r lat tr ∧ t.mem = m ∧ t.Has i := by
  have hstate : perform i Locals.init (s.withInputs xs) .getState =
      some (s.withInputs xs, { Locals.init with s := .ready }) := by
    have hready : ((s.withInputs xs).handle i).transferState = .ready := hs.ready
    rw [perform, hready]
  have hself : (s.withInputs xs).latchAll = (s.latchAll.withInputs xs).put i (s.eng i).latchPending [] s.mem := by
    have hhas : (s.latchAll.withInputs xs).Has i := ⟨hs.has.1, by simpa [State.latchAll, State.withInputs] using hs.has.2⟩
    have := put_self hhas
    rw [withInputs_eng, latchAll_eng] at this
    exact this.symm
  obtain ⟨e', h', hrun⟩ := h (s.eng i).latchPending { Locals.init with s := .ready } 127 (by omega)
    ⟨rfl, rfl, rfl, rfl, rfl, rfl⟩
  refine ⟨_, ?_, transferred_put (m := m) h', rfl, hs.has.1, lt_length_putEngine ..⟩
  have hfuel : s.fuel = 127 + xs.length + 1 + 1 := by
    rw [State.fuel, hin, List.length_cons]
    omega
  rw [issue_ok, Frame.start, entryCheck, List.cons_append, List.nil_append,
    advance_run (by omega) rfl hin hs.unmarked (by simp) (by simp), hstate]
  simp only [Next.go, if_true]
  rw [hself, hfuel]
  exact congrArg Host.Outcome.next hrun

/-- CR1 stays enabled when the requests are performed. -/
theorem cr1Done_enabled (h : c.getLsbD 0 = true) : (cr1Done c).getLsbD 0 = true := by
  rw [cr1Done, BitVec.getLsbD_and, h]
  rfl

theorem State.CanTransfer.cr1 (h : s.CanTransfer i) : (s.eng i).regs.cr1.getLsbD 0 = true := h.enabled

/-- The byte a transmit sends last. -/
theorem lastByte_eq (s : State) (buf len : Word) (t : Byte) :
    (if len.toNat = 0 then t else s.byteAt (buf + BitVec.ofNat 32 (len.toNat - 1))) =
      if len = 0 then t else s.byteAt (buf + (len - 1)) := by
  by_cases hl : len = 0
  · rw [if_pos hl, if_pos (by rw [hl]; rfl)]
  · have h0 : len.toNat ≠ 0 := fun h => hl (BitVec.eq_of_toNat_eq h)
    obtain ⟨n, hn⟩ : ∃ n, len.toNat = n + 1 := ⟨len.toNat - 1, by omega⟩
    have hlen : len - 1 = BitVec.ofNat 32 n := by rw [← word_succ_sub_one, ← hn, BitVec.ofNat_toNat, BitVec.setWidth_eq]
    rw [if_neg hl, if_neg h0, hlen, hn, Nat.add_sub_cancel]

theorem txSchedule_eq (i : Idx) (perByte len : Nat) : txSchedule i perByte len ++ xs =
    .run :: ((addressSchedule i 0x0007).tail ++ (.run :: .run :: .run :: (byteSchedule i perByte len ++
      (hwStep i 0x0084 0x0007 0 :: .run :: xs)))) := by
  simp only [txSchedule, addressSchedule, byteSchedule, List.tail_cons, List.append_assoc, List.cons_append, List.nil_append]

theorem masterTx_eq (src : Src) (len : Word) (addr : Byte) (sr : Bool) : masterTx src len addr sr =
    entryCheck ++ (addressPhase addr .write false ++ (clearAddr ++ txLoop src len sr)) := by
  simp only [masterTx, List.append_assoc]

/-- MASTER_TX: its blocks one after the other, the loop by induction on the number of bytes. -/
theorem exec_masterTx_transferred {buf len : Word} {addr : Byte} {sr : Bool} (hs : s.CanTransfer i) (hbuf : buf ≠ 0 ∨ len = 0)
    (hok : ∀ k, k < len.toNat → s.params.bufferOk (buf + BitVec.ofNat 32 k) = true) (hin : s.inputs = txSchedule i 3 len.toNat) :
    ∃ t, exec (.masterTx i buf len addr sr) s = .next t ∧
      Transferred s t i
        { (s.eng i).regs with
          cr1 := if sr then cr1Done (s.eng i).regs.cr1 else cr1Done (s.eng i).regs.cr1 ||| 0x0200
          sr1 := 0x0084, sr2 := 0x0007, dr := 0
          tdr := if len = 0 then addrByte addr .write else s.byteAt (buf + (len - 1)) }
        ⟨false, false, true, false⟩
        (txEvents i s (s.eng i).regs.cr1 buf len addr sr ++ [.result i .MASTER_TX (.status .ok)]) ∧
      t.mem = s.mem ∧ t.Has i := by
  have hA := hs.answering
  have he := cr1Done_enabled hs.cr1
  have hc := cr1Done_twice (s.eng i).regs.cr1
  have hlen : BitVec.ofNat 32 len.toNat = len := by rw [BitVec.ofNat_toNat, BitVec.setWidth_eq]
  have haddress := reaches_txAddress (o := .command .MASTER_TX) (res := .status .ok) (r := (s.eng i).regs)
    (d := (s.eng i).regs.dr) (t := (s.eng i).regs.tdr) (lat := (s.eng i).lat) (tr := []) (m := s.mem)
    (rest := txLoop (.mem buf) len sr)
    (xs := byteSchedule i 3 len.toNat ++ (hwStep i 0x0084 0x0007 0 :: .run :: [])) hA hs.cr1 hs.sr1 hs.sr2 addr
  have hbytes := reaches_txBytes (o := .command .MASTER_TX) (res := .status .ok) (r := (s.eng i).regs) (rest := [])
    (xs := hwStep i 0x0084 0x0007 0 :: .run :: []) hA hc sr len.toNat len.isLt buf hok (addrByte addr .write)
    ([] ++ (addressEvents i (s.eng i).regs.cr1 (addrByte addr .write) ++ [rSR1 i 0x0002, rSR2 i 0x0007]))
  rw [hlen, List.append_nil, List.append_nil, lastByte_eq] at hbytes
  have hall := ((haddress.trans hbytes).trans (reaches_txEnd hA hc)).finishes (finishes_stop hA rfl he sr)
  obtain ⟨t, hexec, htr, hend⟩ := issue_finishes hs (hin.trans ((List.append_nil _).symm.trans (txSchedule_eq ..))) hall
  rw [exec_masterTx hs.has hbuf, masterTx_eq]
  refine ⟨t, hexec, ?_, hend⟩
  simpa [txEvents, Regs.set] using htr

/-- Settles O31. -/
theorem masterTxSendsEveryByte : Obligations.MasterTxSendsEveryByte := by
  unfold Obligations.MasterTxSendsEveryByte
  intro s i buf len addr sr hs hbuf hok hin
  obtain ⟨t, hexec, htr, hmem, -⟩ := exec_masterTx_transferred hs hbuf hok hin
  exact ⟨t, hexec, htr, fun a => by rw [State.byteAt, hmem]; rfl⟩

/-! ## The receive (41 R182, R189) -/

/-- Caller memory with these bytes stored from `p` on. -/
def storeBytes : List Host.Cell → Word → List Byte → List Host.Cell
  | m, _, [] => m
  | m, p, d :: ds => storeBytes (Memory.write m p.toNat d) (p + 1) ds

/-- CR1 in a receive while its last byte comes in: ACK is off, and STOP is requested unless a repeated start is asked for. -/
def cr1Last (v : Half) (sr : Bool) : Half := if sr then v &&& ~~~0x0400 else (v &&& ~~~0x0400) ||| 0x0200

theorem cr1Done_ackOff (hc : cr1Done c = c) : cr1Done (c &&& ~~~0x0400) = c &&& ~~~0x0400 := by
  rw [cr1Done, BitVec.and_assoc, BitVec.and_comm (~~~0x0400), ← BitVec.and_assoc]
  exact congrArg (· &&& _) hc

theorem cr1Done_cr1Last (hc : cr1Done c = c) (sr : Bool) : cr1Done (cr1Last c sr) = c &&& ~~~0x0400 := by
  cases sr
  · exact (cr1Done_request _ (by decide)).trans (cr1Done_ackOff hc)
  · exact cr1Done_ackOff hc

theorem ackOff_enabled (he : c.getLsbD 0 = true) : (c &&& ~~~0x0400).getLsbD 0 = true := by
  rw [BitVec.getLsbD_and, he]
  rfl

/-- The micro-steps of STOP, unless a repeated start is asked for. -/
def stopSchedule (sr : Bool) : List Input := if sr then [] else [.run, .run]

/-- STOP, unless a repeated start is asked for. -/
theorem reaches_stop (hA : Answering s i e₀) (hl : lat.stopf = false) (he : c.getLsbD 0 = true) (sr : Bool) :
    Reaches s i e₀ o res ⟨stopSchedule sr ++ xs, r.set (c &&& ~~~0x0400) a b d t, lat, tr, m, genStopUnless sr ++ rest⟩
      ⟨xs, r.set (cr1Last c sr) a b d t, lat, tr ++ stopEvents i sr (c &&& ~~~0x0400), m, rest⟩ := by
  cases sr with
  | true => exact reaches_of_eq rfl rfl (List.append_nil tr).symm
  | false =>
    refine Reaches.trans (reaches_setCR1 hA (mask := 0x0200) (ackOff_enabled he) (by decide)) (reaches_of_eq ?_ ?_ rfl)
    · rw [hl]; rfl
    · rw [← hl]

/-- `MANAGE_ACK(en = 0)`. -/
theorem reaches_ackOff (hA : Answering s i e₀) (hl : lat.stopf = false) (he : c.getLsbD 0 = true) :
    Reaches s i e₀ o res ⟨.run :: .run :: xs, r.set c a b d t, lat, tr, m, manageAck false ++ rest⟩
      ⟨xs, r.set (c &&& ~~~0x0400) a b d t, lat, tr ++ rmwCR1 i c (c &&& ~~~0x0400), m, rest⟩ := by
  refine Reaches.trans (reaches_clearCR1 hA (mask := 0x0400) he (by decide) (by decide)) (reaches_of_eq ?_ ?_ rfl)
  · rw [hl]; rfl
  · rw [← hl]

/-- START up to ADDR seen, in a receive. -/
theorem reaches_rxAddress (hA : Answering s i e₀) (he : c.getLsbD 0 = true) (h1 : a &&& 0x2020 = 0)
    (h2 : b &&& 0x0008 = 0) (addr : Byte) :
    Reaches s i e₀ o res
      ⟨(addressSchedule i 0x0003).tail ++ xs, r.set c a b d t, lat, tr, m, addressPhase addr .read true ++ rest⟩
      ⟨xs, r.set (cr1Done c) 0x0002 0x0003 0 (addrByte addr .read), latchesOf 0x0002,
        tr ++ addressEvents i c (addrByte addr .read), m, rest⟩ :=
  reaches_addressPhase hA he h1 h2 (by decide) addr .read true

/-- The clear of ADDR in a receive. -/
theorem reaches_rxClearAddr (hA : Answering s i e₀) :
    Reaches s i e₀ o res ⟨.run :: .run :: .run :: xs, r.set c 0x0002 0x0003 0 t, lat, tr, m, clearAddr ++ rest⟩
      ⟨xs, r.set c 0 0x0003 0 t, noLatch, tr ++ [rSR1 i 0x0002, rSR2 i 0x0003], m, rest⟩ :=
  reaches_clearAddr hA

/-- RxNE, with the byte `d'`. -/
theorem reaches_rxne (hA : Answering s i e₀) :
    Reaches s i e₀ o res
      ⟨hwStep i 0x0040 0x0003 d' :: .run :: xs, r.set c 0 0x0003 d t, noLatch, tr, m, waitFlags sr1RxNE (.abort true) ++ rest⟩
      ⟨xs, r.set (cr1Done c) 0x0040 0x0003 d' t, noLatch, tr ++ [rSR1 i 0x0040], m, rest⟩ :=
  reaches_poll hA (by decide) (by decide) (by decide) (by decide) (by decide)

/-- The byte read and stored. -/
theorem reaches_store (hA : Answering s i e₀) {p : Word} {nx : Next} {more : List Line} (hp : s.params.bufferOk p = true)
    (hg : ∀ l, nx.go s.params ⟨o, i, rest, l, res⟩ = .ok ⟨o, i, more, l, res⟩) :
    Reaches s i e₀ o res
      ⟨.run :: .run :: xs, r.set c 0x0040 0x0003 d t, noLatch, tr, m, .then .readDR :: ⟨.memWriteAt p, nx⟩ :: rest⟩
      ⟨xs, r.set c 0 0x0003 d t, noLatch, tr ++ [rDR i d, .memWrite p d], Memory.write m p.toNat d, more⟩ :=
  reaches_storeMem hA hp hg

/-- The schedule of a receive of one byte, from ADDR seen. -/
def oneSchedule (i : Idx) (sr : Bool) (d : Byte) : List Input :=
  [.run, .run, .run, .run, .run, hwStep i 0x0040 0x0003 d, .run] ++ stopSchedule sr ++ [.run, .run]

/-- The one-byte receive, from ADDR seen: ACK is disabled before ADDR is cleared. -/
theorem reaches_rxOne (hA : Answering s i e₀) (hc : cr1Done c = c) (he : c.getLsbD 0 = true) {buf : Word}
    (hp : s.params.bufferOk buf = true) (sr : Bool) (d : Byte) :
    Reaches s i e₀ o res
      ⟨oneSchedule i sr d ++ xs, r.set c 0x0002 0x0003 0 t, latchesOf 0x0002, tr, m, rxBytes buf 1 sr ++ rest⟩
      ⟨xs, r.set (cr1Last c sr) 0 0x0003 d t, noLatch,
        tr ++ (rmwCR1 i c (c &&& ~~~0x0400) ++ [rSR1 i 0x0002, rSR2 i 0x0003, rSR1 i 0x0040] ++
          stopEvents i sr (c &&& ~~~0x0400) ++ [rDR i d, .memWrite buf d]),
        Memory.write m buf.toNat d, rest⟩ := by
  have hlines : rxBytes buf 1 sr ++ rest = manageAck false ++ (clearAddr ++ (waitFlags sr1RxNE (.abort true) ++
      (genStopUnless sr ++ (.then .readDR :: .then (.memWriteAt buf) :: rest)))) := by
    rw [rxBytes, if_pos rfl]
    simp only [List.append_assoc, List.cons_append, List.nil_append]
  have hxs : oneSchedule i sr d ++ xs = .run :: .run :: .run :: .run :: .run :: hwStep i 0x0040 0x0003 d :: .run ::
      (stopSchedule sr ++ (.run :: .run :: xs)) := by
    simp only [oneSchedule, List.append_assoc, List.cons_append, List.nil_append]
  rw [hlines, hxs]
  refine Reaches.trans (reaches_ackOff hA rfl he) ?_
  refine Reaches.trans (reaches_rxClearAddr hA) ?_
  refine Reaches.trans (reaches_rxne hA) ?_
  rw [cr1Done_ackOff hc]
  refine Reaches.trans (reaches_stop hA rfl he sr) ?_
  refine Reaches.trans (reaches_store hA hp fun _ => rfl) (reaches_of_eq rfl rfl ?_)
  simp only [List.append_assoc, List.cons_append, List.nil_append]

/-- The loop with a byte to come. -/
theorem rxLoop_succ {n : Nat} (hn : n + 1 < 2 ^ 32) (p : Word) (sr : Bool) :
    rxLoop p (BitVec.ofNat 32 (n + 1)) sr ++ rest =
      waitFlags sr1RxNE (.abort true) ++ ((if n = 1 then manageAck false ++ genStopUnless sr else []) ++
        (.then .readDR :: ⟨.memWriteAt p, .rxMore (p + 1) (BitVec.ofNat 32 n) sr⟩ :: rest)) := by
  have htwo : BitVec.ofNat 32 (n + 1) = 2 ↔ n = 1 := by
    constructor
    · intro h
      have := congrArg BitVec.toNat h
      simp only [BitVec.toNat_ofNat, Nat.mod_eq_of_lt hn] at this
      exact Nat.succ.inj this
    · rintro rfl
      rfl
  rw [rxLoop, if_neg (word_succ_ne_zero hn), word_succ_sub_one]
  simp only [htwo, List.append_assoc, List.cons_append, List.nil_append]

theorem rxBytesSchedule_cons (sr : Bool) (d : Byte) (ds : List Byte) : rxBytesSchedule i sr (d :: ds) ++ xs =
    hwStep i 0x0040 0x0003 d :: .run :: ((if ds.length = 1 then .run :: .run :: stopSchedule sr else []) ++
      (.run :: .run :: (rxBytesSchedule i sr ds ++ xs))) := by
  simp only [rxBytesSchedule, stopSchedule, List.append_assoc, List.cons_append, List.nil_append]

/-- A byte of a receive that is not the last but one. -/
theorem reaches_rxByte (hA : Answering s i e₀) (sr : Bool) (d₁ : Byte) (ds : List Byte) (hlen : ds.length ≠ 1)
    (hn : ds.length + 1 < 2 ^ 32) {p : Word} (hp : s.params.bufferOk p = true) :
    Reaches s i e₀ o res
      ⟨rxBytesSchedule i sr (d₁ :: ds) ++ xs, r.set c 0 0x0003 d t, noLatch, tr, m,
        rxLoop p (BitVec.ofNat 32 (ds.length + 1)) sr ++ rest⟩
      ⟨rxBytesSchedule i sr ds ++ xs, r.set (cr1Done c) 0 0x0003 d₁ t, noLatch,
        tr ++ [rSR1 i 0x0040, rDR i d₁, .memWrite p d₁], Memory.write m p.toNat d₁,
        rxLoop (p + 1) (BitVec.ofNat 32 ds.length) sr ++ rest⟩ := by
  rw [rxBytesSchedule_cons, rxLoop_succ hn, if_neg hlen, if_neg hlen]
  refine Reaches.trans (reaches_rxne hA) ?_
  refine Reaches.trans (reaches_store hA (more := rxLoop (p + 1) (BitVec.ofNat 32 ds.length) sr ++ rest) hp fun _ => rfl)
    (reaches_of_eq rfl rfl ?_)
  simp only [List.append_assoc, List.cons_append, List.nil_append]

/-- The last byte but one: ACK is disabled and STOP requested before it is read (41 R189). -/
theorem reaches_rxByteButOne (hA : Answering s i e₀) (hc : cr1Done c = c) (he : c.getLsbD 0 = true) (sr : Bool) (d₁ d₂ : Byte)
    {p : Word} (hp : s.params.bufferOk p = true) :
    Reaches s i e₀ o res
      ⟨rxBytesSchedule i sr [d₁, d₂] ++ xs, r.set c 0 0x0003 d t, noLatch, tr, m, rxLoop p 2 sr ++ rest⟩
      ⟨rxBytesSchedule i sr [d₂] ++ xs, r.set (cr1Last c sr) 0 0x0003 d₁ t, noLatch,
        tr ++ ([rSR1 i 0x0040] ++ (rmwCR1 i c (c &&& ~~~0x0400) ++ stopEvents i sr (c &&& ~~~0x0400)) ++
          [rDR i d₁, .memWrite p d₁]), Memory.write m p.toNat d₁, rxLoop (p + 1) 1 sr ++ rest⟩ := by
  have hlines := rxLoop_succ (rest := rest) (n := 1) (by omega) p sr
  rw [if_pos rfl, List.append_assoc] at hlines
  rw [rxBytesSchedule_cons, if_pos (show [d₂].length = 1 from rfl), show (2 : Word) = BitVec.ofNat 32 (1 + 1) from rfl, hlines]
  refine Reaches.trans (reaches_rxne hA) ?_
  rw [hc]
  refine Reaches.trans (reaches_ackOff hA rfl he) ?_
  refine Reaches.trans (reaches_stop hA rfl he sr) ?_
  refine Reaches.trans (reaches_store hA (more := rxLoop (p + 1) 1 sr ++ rest) hp fun _ => rfl) (reaches_of_eq rfl rfl ?_)
  simp only [List.append_assoc, List.cons_append, List.nil_append]

/-- The bytes of a receive of more than one. By induction on them, down to the last two. -/
theorem reaches_rxLoop (hA : Answering s i e₀) (hc : cr1Done c = c) (he : c.getLsbD 0 = true) (sr : Bool) (d₁ d₂ : Byte)
    (ds : List Byte) (hn : ds.length + 2 < 2 ^ 32) (p : Word)
    (hp : ∀ k, k < ds.length + 2 → s.params.bufferOk (p + BitVec.ofNat 32 k) = true) (d : Byte) (tr : List Event)
    (m : List Host.Cell) :
    Reaches s i e₀ o res
      ⟨rxBytesSchedule i sr (d₁ :: d₂ :: ds) ++ xs, r.set c 0 0x0003 d t, noLatch, tr, m,
        rxLoop p (BitVec.ofNat 32 (ds.length + 2)) sr ++ rest⟩
      ⟨xs, r.set (c &&& ~~~0x0400) 0 0x0003 (ds.getLastD d₂) t, noLatch, tr ++ rxByteEvents i c sr p (d₁ :: d₂ :: ds),
        storeBytes m p (d₁ :: d₂ :: ds), rest⟩ := by
  have hp0 : s.params.bufferOk p = true := by simpa using hp 0 (by omega)
  induction ds generalizing d₁ d₂ p d tr m with
  | nil =>
    have hp1 : s.params.bufferOk (p + 1) = true := hp 1 (by decide)
    refine Reaches.trans (reaches_rxByteButOne hA hc he sr d₁ d₂ hp0) ?_
    refine Reaches.trans (reaches_rxByte hA sr d₂ [] (by decide) (by decide) hp1) (reaches_of_eq ?_ rfl ?_)
    · rw [cr1Done_cr1Last hc]
      rfl
    · simp [rxByteEvents]
  | cons d₃ ds ih =>
    have hp1 : s.params.bufferOk (p + 1) = true := hp 1 (by simp)
    refine Reaches.trans (reaches_rxByte hA sr d₁ (d₂ :: d₃ :: ds) (by simp) hn hp0) ?_
    rw [hc]
    refine Reaches.trans (ih d₂ d₃ (Nat.lt_of_succ_lt hn) (p + 1)
      (fun k hk => word_add_succ p k ▸ hp (k + 1) (Nat.succ_lt_succ hk)) d₁ _ _ hp1) (reaches_of_eq ?_ rfl ?_)
    · rw [List.getLastD_cons]
    · simp [rxByteEvents]

/-! ## Caller memory after a receive -/

theorem read_write_word (p a : Word) (v : Byte) (hm : Memory.wf m = true) :
    Memory.read (Memory.write m p.toNat v) a.toNat = if p = a then v else Memory.read m a.toNat := by
  rw [Memory.read_write _ _ _ hm]
  simp only [BitVec.toNat_inj]

/-- Only the bytes of the buffer are stored to. -/
theorem storeBytes_other {a : Word} {ds : List Byte} {p : Word} (hm : Memory.wf m = true)
    (ha : ∀ k, k < ds.length → a ≠ p + BitVec.ofNat 32 k) :
    Memory.read (storeBytes m p ds) a.toNat = Memory.read m a.toNat := by
  induction ds generalizing m p with
  | nil => rfl
  | cons d ds ih =>
    have hne : ¬ p = a := fun h => ha 0 (Nat.succ_pos _) (by rw [← h]; exact (BitVec.add_zero p).symm)
    rw [storeBytes, ih (Memory.wf_write _ _ p.isLt hm) fun k hk => word_add_succ p k ▸ ha (k + 1) (Nat.succ_lt_succ hk),
      read_write_word _ _ _ hm, if_neg hne]

/-- Each of them holds its byte. -/
theorem storeBytes_getElem {ds : List Byte} {p : Word} {k : Nat} (hm : Memory.wf m = true) (hn : ds.length < 2 ^ 32)
    (hk : ds[k]? = some d) : Memory.read (storeBytes m p ds) (p + BitVec.ofNat 32 k).toNat = d := by
  induction ds generalizing m p k with
  | nil => cases hk
  | cons y ds ih =>
    have hwf := Memory.wf_write p.toNat y p.isLt hm
    cases k with
    | zero =>
      obtain rfl : y = d := by simpa using hk
      have hzero : p + BitVec.ofNat 32 0 = p := BitVec.add_zero p
      rw [hzero, storeBytes, storeBytes_other hwf, read_write_word _ _ _ hm, if_pos rfl]
      intro j hj h
      have hj' : j + 1 < 2 ^ 32 := Nat.lt_of_le_of_lt (Nat.succ_le_succ (Nat.le_of_lt hj)) hn
      rw [← word_add_succ] at h
      exact word_succ_ne_zero hj' (by simpa using h)
    | succ k =>
      rw [word_add_succ, storeBytes]
      exact ih hwf (Nat.lt_of_succ_lt hn) hk

/-! ## The receive as a whole -/

/-- The accesses of a receive from ADDR seen, `v` the value of CR1. -/
def receiveEvents (i : Idx) (v : Half) (buf : Word) (sr : Bool) : List Byte → List Event
  | [d] => rmwCR1 i v (v &&& ~~~0x0400) ++ [rSR1 i 0x0002, rSR2 i 0x0003, rSR1 i 0x0040] ++
      stopEvents i sr (v &&& ~~~0x0400) ++ [rDR i d, .memWrite buf d]
  | ds => [rSR1 i 0x0002, rSR2 i 0x0003] ++ rxByteEvents i v sr buf ds

/-- The schedule of a receive from ADDR seen, without its last step. -/
def receiveSchedule (i : Idx) (sr : Bool) : List Byte → List Input
  | [d] => oneSchedule i sr d
  | ds => [.run, .run, .run] ++ rxBytesSchedule i sr ds

theorem rxEvents_eq (i : Idx) (v : Half) (pol : AckControl) (buf : Word) (addr : Byte) (sr : Bool) (ds : List Byte) :
    rxEvents i v pol buf addr sr ds = addressEvents i v (addrByte addr .read) ++ receiveEvents i (cr1Done v) buf sr ds ++
      (if pol = .enable then rmwCR1 i (cr1Done v &&& ~~~0x0400) (cr1Done v ||| 0x0400) else []) :=
  match ds with
  | [] => rfl
  | [_] => rfl
  | _ :: _ :: _ => rfl

theorem rxSchedule_eq (i : Idx) (sr : Bool) (ds : List Byte) : rxSchedule i sr ds =
    .run :: ((addressSchedule i 0x0003).tail ++ (receiveSchedule i sr ds ++
      [hwStep i 0 (if sr then 0x0003 else 0) (ds.getLastD 0)])) :=
  match ds with
  | [] => rfl
  | [_] => rfl
  | _ :: _ :: _ => rfl

theorem rxSchedule_tail (i : Idx) (sr : Bool) (ds : List Byte) : rxSchedule i sr ds = .run :: (rxSchedule i sr ds).tail := by
  rw [rxSchedule_eq, List.tail_cons]

/-- A receive from ADDR seen. -/
theorem reaches_receive (hA : Answering s i e₀) (hc : cr1Done c = c) (he : c.getLsbD 0 = true) (sr : Bool) {ds : List Byte}
    (hds : ds ≠ []) (hn : ds.length < 2 ^ 32) {buf : Word}
    (hp : ∀ k, k < ds.length → s.params.bufferOk (buf + BitVec.ofNat 32 k) = true) :
    Reaches s i e₀ o res
      ⟨receiveSchedule i sr ds ++ (hwStep i 0 (if sr then 0x0003 else 0) (ds.getLastD 0) :: xs), r.set c 0x0002 0x0003 0 t,
        latchesOf 0x0002, tr, m, rxBytes buf (BitVec.ofNat 32 ds.length) sr ++ rest⟩
      ⟨xs, r.set (c &&& ~~~0x0400) 0 (if sr then 0x0003 else 0) (ds.getLastD 0) t, noLatch,
        tr ++ receiveEvents i c buf sr ds, storeBytes m buf ds, rest⟩ := by
  have hend : (if sr then 0x0003 else 0 : Half) &&& 0x0008 = 0 := by cases sr <;> decide
  match ds with
  | [] => exact absurd rfl hds
  | [d] =>
    refine Reaches.trans (reaches_rxOne hA hc he (by simpa using hp 0 (by simp)) sr d) ?_
    refine Reaches.trans (reaches_hwStep hA (by decide) (by decide) (by decide) hend) (reaches_of_eq ?_ rfl rfl)
    rw [cr1Done_cr1Last hc]
  | d₁ :: d₂ :: ds =>
    have hone : BitVec.ofNat 32 (ds.length + 1 + 1) ≠ 1 := fun h =>
      word_succ_ne_zero (n := ds.length) (Nat.lt_of_succ_lt hn) (by rw [← word_succ_sub_one, h]; rfl)
    rw [List.length_cons, List.length_cons, rxBytes, if_neg hone, List.append_assoc]
    refine Reaches.trans (reaches_rxClearAddr hA) ?_
    refine Reaches.trans (reaches_rxLoop hA hc he sr d₁ d₂ ds hn buf hp 0 _ m) ?_
    refine Reaches.trans (reaches_hwStep hA (by decide) (by decide) (by decide) hend) (reaches_of_eq ?_ rfl ?_)
    · rw [cr1Done_ackOff hc, List.getLastD_cons, List.getLastD_cons]
    · simp [receiveEvents]

theorem clear_set (v x : Half) : (v &&& ~~~x) ||| x = v ||| x := by
  apply Half.ext_bits
  intro k hk
  simp only [BitVec.getLsbD_or, BitVec.getLsbD_and, BitVec.getLsbD_not, hk, decide_true, Bool.true_and]
  cases x.getLsbD k <;> simp

/-- A receive after its entry check, up to its return. -/
theorem finishes_masterRx (hA : Answering s i e₀) (he : c.getLsbD 0 = true) (h1 : a &&& 0x2020 = 0) (h2 : b &&& 0x0008 = 0)
    (addr : Byte) (sr : Bool) {ds : List Byte} (hds : ds ≠ []) (hn : ds.length < 2 ^ 32) {buf : Word}
    (hp : ∀ k, k < ds.length → s.params.bufferOk (buf + BitVec.ofNat 32 k) = true) :
    Finishes s i e₀ mn res
      ⟨(rxSchedule i sr ds).tail, r.set c a b d t, lat, tr, m,
        addressPhase addr .read true ++ (rxBytes buf (BitVec.ofNat 32 ds.length) sr ++ restoreAck)⟩
      (rxRegs (r.set c a b d t) e₀.h.cfg.ackControl addr sr (ds.getLastD 0)) noLatch
      (tr ++ rxEvents i c e₀.h.cfg.ackControl buf addr sr ds ++ [.result i mn res]) (storeBytes m buf ds) := by
  have hc := cr1Done_twice c
  have he' := cr1Done_enabled he
  have hreach := (reaches_rxAddress (o := .command mn) (res := res) (r := r) (d := d) (t := t) (lat := lat) (tr := tr) (m := m)
    (xs := receiveSchedule i sr ds ++ [hwStep i 0 (if sr then 0x0003 else 0) (ds.getLastD 0)])
    (rest := rxBytes buf (BitVec.ofNat 32 ds.length) sr ++ restoreAck) hA he h1 h2 addr).trans
    (reaches_receive hA hc he' sr hds hn hp)
  have hall := hreach.finishes (finishes_restoreAck hA rfl (ackOff_enabled he'))
  rw [clear_set] at hall
  rw [rxSchedule_eq, List.tail_cons, rxEvents_eq]
  simpa [rxRegs, Regs.set] using hall

theorem masterRx_eq (buf len : Word) (addr : Byte) (sr : Bool) : masterRx buf len addr sr =
    entryCheck ++ (addressPhase addr .read true ++ (rxBytes buf len sr ++ restoreAck)) := by
  simp only [masterRx, List.append_assoc]

theorem word_of_length {ds : List Byte} {len : Word} (hlen : ds.length = len.toNat) : BitVec.ofNat 32 ds.length = len := by
  rw [hlen, BitVec.ofNat_toNat, BitVec.setWidth_eq]

theorem ne_nil_of_length {ds : List Byte} {len : Word} (hl : len ≠ 0) (hlen : ds.length = len.toNat) : ds ≠ [] := by
  rintro rfl
  exact hl (BitVec.eq_of_toNat_eq hlen.symm)

/-- Caller memory after a receive, byte by byte. -/
theorem received_bytes {u : State} {ds : List Byte} {buf len : Word} (hm : s.MemoryCanonical) (hlen : ds.length = len.toNat)
    (hu : u.mem = storeBytes s.mem buf ds) :
    (∀ k d, ds[k]? = some d → u.byteAt (buf + BitVec.ofNat 32 k) = d) ∧
      ∀ a : Word, (∀ k, k < ds.length → a ≠ buf + BitVec.ofNat 32 k) → u.byteAt a = s.byteAt a := by
  have hn : ds.length < 2 ^ 32 := hlen ▸ len.isLt
  refine ⟨fun k d hk => ?_, fun a ha => ?_⟩
  · rw [State.byteAt, hu]
    exact storeBytes_getElem hm hn hk
  · rw [State.byteAt, hu]
    exact storeBytes_other hm ha

/-- Settles O32: the blocks of 41 R182 one after the other, the loop by induction on the bytes down to the last two. -/
theorem masterRxStoresEveryByte : Obligations.MasterRxStoresEveryByte := by
  unfold Obligations.MasterRxStoresEveryByte
  intro s i buf len addr sr ds hs hm hbuf hl hlen hok hin
  have hall := finishes_masterRx (mn := .MASTER_RX) (res := .status .ok) (r := (s.eng i).regs) (d := (s.eng i).regs.dr)
    (t := (s.eng i).regs.tdr) (lat := (s.eng i).lat) (tr := []) (m := s.mem) hs.answering hs.cr1 hs.sr1 hs.sr2 addr sr
    (ne_nil_of_length hl hlen) (hlen ▸ len.isLt) (hlen ▸ hok)
  rw [word_of_length hlen] at hall
  obtain ⟨t, hexec, htr, hmem, -⟩ := issue_finishes hs (hin.trans (rxSchedule_tail ..)) hall
  obtain ⟨hstored, hother⟩ := received_bytes hm hlen hmem
  rw [exec_masterRx hs.has hbuf hl, masterRx_eq]
  exact ⟨t, hexec, htr, hstored, hother⟩

/-! ## MEM_READ (41 R183) -/

/-- The memory-address bytes, as the statement writes them (30 R126). -/
theorem memAddrBytes_eq (memAddr : Half) (width : Byte) : memAddrBytes memAddr width =
    if width = 1 then [memAddr.setWidth 8] else [(memAddr >>> 8).setWidth 8, memAddr.setWidth 8] := by
  have hlow : memAddr.extractLsb' 0 8 = memAddr.setWidth 8 := by
    apply BitVec.eq_of_getLsbD_eq
    intro k hk
    simp [hk]
  have hhigh : memAddr.extractLsb' 8 8 = (memAddr >>> 8).setWidth 8 := rfl
  rw [memAddrBytes, hlow, hhigh]

theorem memAddrBytes_length {width : Byte} (hw : width = 1 ∨ width = 2) (memAddr : Half) :
    (memAddrBytes memAddr width).length = width.toNat := by
  obtain rfl | rfl := hw <;> rfl

theorem memRead_eq (addr : Byte) (memAddr : Half) {width : Byte} (hw : width = 1 ∨ width = 2) (buf size : Word) :
    memRead addr memAddr width buf size = entryCheck ++ (addressPhase addr .write false ++ (clearAddr ++
      (txLoop (.scratch (memAddrBytes memAddr width)) (BitVec.ofNat 32 (memAddrBytes memAddr width).length) true ++
        masterRx buf size addr false))) := by
  have hlen : BitVec.ofNat 32 (memAddrBytes memAddr width).length = width.setWidth 32 := by obtain rfl | rfl := hw <;> rfl
  rw [memRead, masterTx_eq, hlen]
  simp only [List.append_assoc]

/-- The transmit of the command's own bytes with a repeated start. -/
theorem reaches_scratchTransmit (hA : Answering s i e₀) (he : c.getLsbD 0 = true) (h1 : a &&& 0x2020 = 0)
    (h2 : b &&& 0x0008 = 0) (addr : Byte) (bs : List Byte) (hn : bs.length < 2 ^ 32) :
    Reaches s i e₀ o res
      ⟨(addressSchedule i 0x0007).tail ++ (.run :: .run :: .run :: (byteSchedule i 2 bs.length ++
          (hwStep i 0x0084 0x0007 0 :: .run :: xs))), r.set c a b d t, lat, tr, m,
        addressPhase addr .write false ++ (clearAddr ++ (txLoop (.scratch bs) (BitVec.ofNat 32 bs.length) true ++ rest))⟩
      ⟨xs, r.set (cr1Done c) 0x0084 0x0007 0 (bs.getLastD (addrByte addr .write)), ⟨false, false, true, false⟩,
        tr ++ (addressEvents i c (addrByte addr .write) ++ [rSR1 i 0x0002, rSR2 i 0x0007] ++ scratchEvents i bs ++
          [rSR1 i 0x0084]), m, rest⟩ := by
  have hc := cr1Done_twice c
  refine Reaches.trans (reaches_txAddress hA he h1 h2 addr) ?_
  refine Reaches.trans (reaches_scratch hA hc true bs hn _ _) ?_
  refine Reaches.trans (reaches_txEnd hA hc) (reaches_of_eq rfl rfl ?_)
  simp only [List.append_assoc]

/-- A receive leaves the same registers from CR1 with its requests performed, whatever the status and DR were. -/
theorem rxRegs_set (r : Regs) (pol : AckControl) (addr : Byte) (sr : Bool) (d : Byte) :
    rxRegs (r.set (cr1Done r.cr1) a b d' t) pol addr sr d = rxRegs r pol addr sr d := by
  simp only [rxRegs, Regs.set, cr1Done_twice]

/-- Settles O33: the blocks of the transmit of the address bytes, then those of the receive. -/
theorem memReadComposesTransmitAndReceive : Obligations.MemReadComposesTransmitAndReceive := by
  unfold Obligations.MemReadComposesTransmitAndReceive
  intro s i addr memAddr width buf size ds hs hm hw hbuf hl hlen hok hin
  have hA := hs.answering
  have hbytes : (memAddrBytes memAddr width).length < 2 ^ 32 := by
    rw [memAddrBytes_length hw]
    exact Nat.lt_trans width.isLt (by decide)
  have hsend := reaches_scratchTransmit (o := .command .MEM_READ) (res := .status .ok) (r := (s.eng i).regs)
    (d := (s.eng i).regs.dr) (t := (s.eng i).regs.tdr) (lat := (s.eng i).lat) (tr := []) (m := s.mem)
    (xs := .run :: (rxSchedule i false ds).tail)
    (rest := entryCheck ++ (addressPhase addr .read true ++ (rxBytes buf (BitVec.ofNat 32 ds.length) false ++ restoreAck)))
    hA hs.cr1 hs.sr1 hs.sr2 addr (memAddrBytes memAddr width) hbytes
  have hreceive := finishes_masterRx (mn := .MEM_READ) (res := .status .ok) (r := (s.eng i).regs) (d := 0)
    (t := (memAddrBytes memAddr width).getLastD (addrByte addr .write)) (lat := ⟨false, false, true, false⟩)
    (tr := [] ++ (addressEvents i (s.eng i).regs.cr1 (addrByte addr .write) ++ [rSR1 i 0x0002, rSR2 i 0x0007] ++
      scratchEvents i (memAddrBytes memAddr width) ++ [rSR1 i 0x0084])) (m := s.mem) hA (cr1Done_enabled hs.cr1)
    (show (0x0084 : Half) &&& 0x2020 = 0 by decide) (show (0x0007 : Half) &&& 0x0008 = 0 by decide) addr false
    (ne_nil_of_length hl hlen) (hlen ▸ size.isLt) (hlen ▸ hok)
  have hall := (hsend.trans (reaches_entryCheck hA)).finishes hreceive
  have hxs : s.inputs = .run :: ((addressSchedule i 0x0007).tail ++ (.run :: .run :: .run ::
      (byteSchedule i 2 (memAddrBytes memAddr width).length ++
        (hwStep i 0x0084 0x0007 0 :: .run :: .run :: (rxSchedule i false ds).tail)))) := by
    rw [hin, txSchedule_eq, ← rxSchedule_tail, memAddrBytes_length hw]
  obtain ⟨t, hexec, htr, hmem, -⟩ := issue_finishes hs hxs hall
  obtain ⟨hstored, hother⟩ := received_bytes hm hlen hmem
  rw [exec_memRead hs.has hw hbuf hl, memRead_eq _ _ hw, masterRx_eq, ← word_of_length hlen]
  refine ⟨t, hexec, ?_, hstored, hother⟩
  rw [rxRegs_set] at htr
  rw [← memAddrBytes_eq]
  simp only [List.nil_append, List.append_assoc] at htr ⊢
  exact htr

end Sys2Proof.Machine

/-! MEM_READ of a one-byte memory address and the explicit pair (41 R188): the run of the one beside the runs of the other,
and both under a controller that answers every poll at once. -/

namespace Sys2Proof.Machine

variable {s t u v : State} {i : Idx} {buf size p : Word} {addr : Byte} {memAddr : Half} {ds : List Byte} {f : Frame}

/-! ## Under any controllers' steps -/

/-- What MEM_READ runs, and that the receive of its bytes and the transmit of one byte are accepted where it is. -/
theorem softwareCmd_memRead {n : Nat} {width : Byte} (h : softwareCmd n (.memRead i addr memAddr width buf size) = .ok f)
    (hp : p ≠ 0) :
    f = Frame.start .MEM_READ i (memRead addr memAddr width buf size) (.status .ok) ∧
      softwareCmd n (.masterTx i p 1 addr true) =
        .ok (Frame.start .MASTER_TX i (masterTx (.mem p) 1 addr true) (.status .ok)) ∧
      softwareCmd n (.masterRx i buf size addr false) =
        .ok (Frame.start .MASTER_RX i (masterRx buf size addr false) (.status .ok)) := by
  obtain ⟨k, hk, hf⟩ := except_bind_eq_ok h
  clear h
  obtain rfl := checkIndex_eq_ok hk
  obtain ⟨-, -, hf⟩ := except_bind_eq_ok hf
  obtain ⟨⟨⟩, hlen, hf⟩ := except_bind_eq_ok hf
  obtain ⟨⟨⟩, hbuf, hf⟩ := except_bind_eq_ok hf
  cases hf
  refine ⟨rfl, ?_, ?_⟩
  · rw [softwareCmd, masterTxCmd, hk, checkBuffer_ok (.inl hp)]
    rfl
  · rw [softwareCmd, masterRxCmd, hk, hlen, hbuf]
    rfl

/-- A primitive or a blocking command is issued if its entry checks pass. -/
theorem exec_eq_issue {x : Instr} (hx : x.synchronous = true) : exec x s = issue (softwareCmd s.params.nInst x) s := by
  cases x
  case masterTxIt | masterRxIt | closeTx | closeRx | evIrq | erIrq => cases hx
  all_goals rfl

/-- Accepted with the inputs `xs` to come, it runs its frame with the fuel they give. -/
theorem exec_run {x : Instr} {xs : List Input} {Y : State} {d : Nat} (hx : x.synchronous = true)
    (h : softwareCmd s.params.nInst x = .ok f) (hd : s.depth = d)
    (hrun : ∀ k, advance (xs.length + k) d ((s.withInputs xs).push f) = Y) : exec x (s.withInputs xs) = .next Y := by
  subst hd
  rw [exec_eq_issue hx, withInputs_params, h, issue_ok]
  exact congrArg Host.Outcome.next (hrun 128)

/-- A command that has returned began unmarked. -/
theorem unmarked_of_returned (h : (advance s.fuel s.depth (s.push f)).depth = s.depth) : s.Unmarked := by
  by_contra hu
  have hm : s.marked = true := by
    by_contra hm
    exact hu ((marked_false_iff s).mp (by simpa using hm))
  rw [advance_marked (by simpa [State.marked] using hm), push_depth] at h
  exact Nat.succ_ne_self _ h

/-- MEM_READ of a one-byte address that returns OK, and the explicit pair beside it. -/
theorem memRead_pair (hc : s.ControllersOnly) (hp : p ≠ 0) (hok : s.params.bufferOk p = true)
    (hby : s.byteAt p = memAddr.setWidth 8) (hexec : exec (.memRead i addr memAddr 1 buf size) s = .next t)
    (hd : t.depth = s.depth) (hres : t.trace.getLast? = some (.result i .MEM_READ (.status .ok))) :
    ∃ (ys zs : List Input) (u v : State),
       controllerSteps s.inputs = controllerSteps ys ++ controllerSteps zs ++ controllerSteps t.inputs ∧
       exec (.masterTx i p 1 addr true) (s.withInputs ys) = .next u ∧ u.depth = s.depth ∧ u.inputs = [] ∧
       u.trace.getLast? = some (.result i .MASTER_TX (.status .ok)) ∧
       exec (.masterRx i buf size addr false) (u.withInputs zs) = .next v ∧ v.depth = s.depth ∧ v.inputs = [] ∧
       v.trace.getLast? = some (.result i .MASTER_RX (.status .ok)) ∧
       registerAccesses t.trace = registerAccesses v.trace ∧ wire t.trace = wire v.trace ∧ SameMemory t v := by
  obtain ⟨f, hf, rfl⟩ := exec_synchronous rfl hexec
  obtain ⟨rfl, htx, hrx⟩ := softwareCmd_memRead hf hp
  have hu := unmarked_of_returned hd
  have halike : Alike s s := ⟨rfl, rfl, rfl, rfl, rfl, hu, hu⟩
  have hbyte : s.byteAt p = memAddr.extractLsb' 0 8 := hby.trans (List.head_eq_of_cons_eq (memAddrBytes_eq memAddr 1)).symm
  obtain ⟨ys, zs, u, v, hrunTx, hud, hui, hur, hup, hrunRx, hvd, hvi, hvr, hsteps, hend⟩ :=
    (pairFrom_all (b := memAddr.extractLsb' 0 8) (p := p) (blocking_masterRx buf size addr false) s.fuel).1 s.depth s s i
      Locals.init Locals.init _ _ false false halike hc rfl rfl (blocking_masterTx _ _ _ _) (sameTransmit_masterTx _ p addr)
      nofun nofun (.inr ⟨_, rfl⟩) hok hbyte _ rfl (Nat.le_of_eq hd) hres
  refine ⟨ys, zs, u, v, hsteps, exec_run rfl htx rfl hrunTx, hud, hui, hur, exec_run rfl (hup ▸ hrx) hud hrunRx, hvd,
    hvi, hvr, hend.accesses.symm, hend.wireSame.symm, hend.byteAt⟩

/-! ## Under a controller that answers -/

theorem State.CanTransfer.withInputs (h : s.CanTransfer i) (xs : List Input) : (s.withInputs xs).CanTransfer i :=
  ⟨h.unmarked, h.has, h.enabled, h.free, h.ready, h.sr1, h.sr2⟩

theorem Transferred.depth {r : Regs} {lat : Latches} {tr : List Event} (h : Transferred s t i r lat tr) : t.depth = s.depth := by
  rw [State.depth, State.depth, h.returned.1, h.returned.2]

/-- The state after the transmit, ready for the receive. -/
theorem Transferred.canTransfer {r : Regs} {lat : Latches} {tr : List Event} (h : Transferred s u i r lat tr)
    (hs : s.CanTransfer i) (hu : u.Has i) (he : r.cr1.getLsbD 0 = true) (h1 : r.sr1 &&& 0x2020 = 0)
    (h2 : r.sr2 &&& 0x0008 = 0) : u.CanTransfer i where
  unmarked := ⟨h.refused.trans hs.unmarked.1, h.faults.trans hs.unmarked.2⟩
  has := hu
  enabled := by rw [State.Enabled, h.regs]; exact he
  free := h.ctrl.trans hs.free
  ready := (congrArg Handle.transferState h.handle).trans hs.ready
  sr1 := by rw [h.regs]; exact h1
  sr2 := by rw [h.regs]; exact h2

/-- An observation of a trace that reads the events one by one and sees neither reads of caller memory nor results: the two
transmits of one byte, each before the same receive, are the same to it (41 R188). -/
theorem pair_trace {β : Type} {g : List Event → List β} (hg : ∀ xs ys, g (xs ++ ys) = g xs ++ g ys)
    (hmem : ∀ a b, g [.memRead a b] = []) (hres : ∀ mn r, g [.result i mn r] = []) (hby : s.byteAt p = memAddr.setWidth 8)
    (c : Half) (addr : Byte) (before receive : List Event) (res : Result) :
    g (before ++ (addressEvents i c (addrByte addr .write) ++ [rSR1 i 0x0002, rSR2 i 0x0007] ++
        scratchEvents i [memAddr.setWidth 8] ++ [rSR1 i 0x0084] ++ receive ++ [.result i .MEM_READ res])) =
      g (before ++ (txEvents i s c p 1 addr true ++ [.result i .MASTER_TX res]) ++
        (receive ++ [.result i .MASTER_RX res])) := by
  have hsend : g (scratchEvents i [memAddr.setWidth 8]) = g (txByteEvents i s (1 : Word).toNat p) := by
    have hscratch : scratchEvents i [memAddr.setWidth 8] = [rSR1 i 0x0080] ++ [wDR i (s.byteAt p)] := by rw [hby]; rfl
    have hbyte : txByteEvents i s (1 : Word).toNat p =
        [rSR1 i 0x0080] ++ ([.memRead p (s.byteAt p)] ++ [wDR i (s.byteAt p)]) := rfl
    rw [hscratch, hbyte, hg, hg, hg, hmem, List.nil_append]
  simp only [txEvents, stopEvents, if_true, hg, hsend, hres, List.append_nil, List.nil_append, List.append_assoc]

/-- Memories that hold the bytes received and else what they held before are the same. -/
theorem sameMemory_received {u : State} (ht : ∀ k d, ds[k]? = some d → t.byteAt (buf + BitVec.ofNat 32 k) = d)
    (hv : ∀ k d, ds[k]? = some d → v.byteAt (buf + BitVec.ofNat 32 k) = d)
    (hto : ∀ a : Word, (∀ k, k < ds.length → a ≠ buf + BitVec.ofNat 32 k) → t.byteAt a = s.byteAt a)
    (hvo : ∀ a : Word, (∀ k, k < ds.length → a ≠ buf + BitVec.ofNat 32 k) → v.byteAt a = u.byteAt a)
    (hu : SameMemory s u) : SameMemory t v := by
  intro a
  by_cases ha : ∃ k, k < ds.length ∧ a = buf + BitVec.ofNat 32 k
  · obtain ⟨k, hk, rfl⟩ := ha
    exact (hv k _ (List.getElem?_eq_getElem hk)).trans (ht k _ (List.getElem?_eq_getElem hk)).symm
  · have hne : ∀ k, k < ds.length → a ≠ buf + BitVec.ofNat 32 k := fun k hk h => ha ⟨k, hk, h⟩
    exact (hvo a hne).trans ((hu a).trans (hto a hne).symm)

/-- MEM_READ of a one-byte address and the explicit pair, each under a controller that answers. -/
theorem memRead_pair_answered (hs : s.CanTransfer i) (hm : s.MemoryCanonical) (hp : p ≠ 0) (hok : s.params.bufferOk p = true)
    (hby : s.byteAt p = memAddr.setWidth 8) (hbuf : buf ≠ 0) (hsize : size ≠ 0) (hlen : ds.length = size.toNat)
    (hoks : ∀ k, k < size.toNat → s.params.bufferOk (buf + BitVec.ofNat 32 k) = true) :
    ∃ t u v,
      exec (.memRead i addr memAddr 1 buf size) (s.withInputs (txSchedule i 2 1 ++ rxSchedule i false ds)) =
        .next t ∧ t.depth = s.depth ∧ t.trace.getLast? = some (.result i .MEM_READ (.status .ok)) ∧
      exec (.masterTx i p 1 addr true) (s.withInputs (txSchedule i 3 1)) = .next u ∧ u.depth = s.depth ∧
      u.trace.getLast? = some (.result i .MASTER_TX (.status .ok)) ∧
      exec (.masterRx i buf size addr false) (u.withInputs (rxSchedule i false ds)) = .next v ∧ v.depth = s.depth ∧
      v.trace.getLast? = some (.result i .MASTER_RX (.status .ok)) ∧
      registerAccesses t.trace = registerAccesses v.trace ∧ wire t.trace = wire v.trace ∧ SameMemory t v := by
  obtain ⟨t, ht, htr, htb, hto⟩ := memReadComposesTransmitAndReceive _ i addr memAddr 1 buf size ds
    (hs.withInputs (txSchedule i 2 1 ++ rxSchedule i false ds)) hm (.inl rfl) hbuf hsize hlen hoks rfl
  have hone : ∀ k, k < (1 : Word).toNat → s.params.bufferOk (p + BitVec.ofNat 32 k) = true := by
    intro k hk
    obtain rfl : k = 0 := Nat.lt_one_iff.mp hk
    exact (BitVec.add_zero p).symm ▸ hok
  obtain ⟨u, hu, hur, hum, huh⟩ := exec_masterTx_transferred (addr := addr) (sr := true) (buf := p) (len := 1)
    (hs.withInputs (txSchedule i 3 1)) (.inl hp) hone rfl
  have huc : u.CanTransfer i := hur.canTransfer (hs.withInputs _) huh (cr1Done_enabled hs.cr1)
    (show (0x0084 : Half) &&& 0x2020 = 0 by decide) (show (0x0007 : Half) &&& 0x0008 = 0 by decide)
  have hup : u.params = s.params := hur.params
  have hmu : u.MemoryCanonical := by rw [State.MemoryCanonical, hum]; exact hm
  obtain ⟨v, hv, hvr, hvb, hvo⟩ := masterRxStoresEveryByte _ i buf size addr false ds
    (huc.withInputs (rxSchedule i false ds)) hmu hbuf hsize hlen (hup ▸ hoks) rfl
  have hcr1 : (u.eng i).regs.cr1 = cr1Done (s.eng i).regs.cr1 := congrArg Regs.cr1 hur.regs
  have hh : (u.eng i).h = (s.eng i).h := hur.handle
  have hsame : ∀ {β : Type} {g : List Event → List β}, (∀ xs ys, g (xs ++ ys) = g xs ++ g ys) →
      (∀ a b, g [.memRead a b] = []) → (∀ mn r, g [.result i mn r] = []) → g t.trace = g v.trace := by
    intro β g hg hmem hres
    rw [htr.trace, hvr.trace]
    simp only [withInputs_trace, withInputs_eng, handle_eq, hur.trace, hcr1, hh, if_true]
    exact pair_trace hg hmem hres hby _ _ _ _ _
  refine ⟨t, u, v, ht, htr.depth, ?_, hu, hur.depth, ?_, hv, hvr.depth.trans hur.depth, ?_,
    hsame registerAccesses_append (fun _ _ => rfl) fun _ _ => rfl, hsame wire_append (fun _ _ => rfl) fun _ _ => rfl, ?_⟩
  · rw [htr.trace, ← List.append_assoc, List.getLast?_concat]
  · rw [hur.trace, ← List.append_assoc, List.getLast?_concat]
  · rw [hvr.trace, ← List.append_assoc, List.getLast?_concat]
  · refine sameMemory_received htb hvb hto hvo fun a => ?_
    rw [withInputs_byteAt, withInputs_byteAt, State.byteAt, hum]
    rfl

/-- Settles O34. -/
theorem memReadWireEqualsExplicitPair : Obligations.MemReadWireEqualsExplicitPair := by
  unfold Obligations.MemReadWireEqualsExplicitPair
  exact ⟨fun s t i addr memAddr p buf size hc hp hok hby hexec hd hres => memRead_pair hc hp hok hby hexec hd hres,
    fun s i addr memAddr p buf size ds hs hm hp hok hby hbuf hsize hlen hoks =>
      memRead_pair_answered hs hm hp hok hby hbuf hsize hlen hoks⟩

end Sys2Proof.Machine

/-! The asynchronous starts and the closes (42): the writes of handle fields one after the other, the read-modify-writes of
CR2, and the commands assembled from them. -/

namespace Sys2Proof.Machine

variable {X s : State} {o : Owner} {i : Idx} {e : Engine} {tr : List Event} {m : List Host.Cell} {rest : List Line}
  {l : Locals} {res : Result} {n d : Nat} {a : Act} {as : List Act} {mn : Mnemonic} {x : Instr} {v mask : Half}
  {buf len : Word} {addr : Byte} {sr : Bool}

/-! ## Writes of handle fields -/

/-- The micro-steps that write one field of the handle with a value of the command's own. -/
def Act.setsField : Act → Bool
  | .setTxBuffer _ | .setRxBuffer _ | .setTxRemaining _ | .setRxRemaining _ | .setTotal _ | .setTarget _
  | .setRepeatedStart _ | .setState _ => true
  | _ => false

/-- The handle after such a micro-step. -/
def Act.written : Act → Handle → Handle
  | .setTxBuffer v, h => { h with txBuffer := v }
  | .setRxBuffer v, h => { h with rxBuffer := v }
  | .setTxRemaining v, h => { h with txRemaining := v }
  | .setRxRemaining v, h => { h with rxRemaining := v }
  | .setTotal v, h => { h with rxExpectedTotal := v }
  | .setTarget v, h => { h with targetDeviceAddress := v }
  | .setRepeatedStart v, h => { h with repeatedStartRequested := v }
  | .setState v, h => { h with transferState := v }
  | _, h => h

/-- The handle after several such micro-steps. -/
def writtenAll (as : List Act) (h : Handle) : Handle := as.foldl (fun h a => a.written h) h

theorem perform_setsField (ha : a.setsField = true) :
    perform i l X a = some (X.setHandle i (a.written (X.handle i)), l) := by
  cases a <;> cases ha <;> rfl

/-- A write of a handle field is no step of the application and calls none. -/
theorem Act.setsField_plain (ha : a.setsField = true) : a ≠ .app ∧ ∀ c, a ≠ .callback c :=
  ⟨(by rintro rfl; cases ha), (by rintro c rfl; cases ha)⟩

/-- The first `k` of a command's field writes, one boundary each, by induction on them. -/
theorem advance_fieldWrites {k : Nat} (hd : X.depth = d) (hq : X.Quiet) (hL : e.Latched)
    (has : ∀ a ∈ as, a.setsField = true) (hk : k ≤ as.length) (hn : k ≤ n) :
    advance n d ((X.latchAll.put i e tr m).push ⟨o, i, as.map .then ++ rest, l, res⟩) =
      advance (n - k) d ((X.latchAll.put i (e.withHandle (writtenAll (as.take k) e.h)) tr m).push
        ⟨o, i, (as.drop k).map .then ++ rest, l, res⟩) := by
  induction as generalizing e k n with
  | nil =>
    obtain rfl : k = 0 := Nat.le_zero.mp hk
    rfl
  | cons a as ih =>
    cases k with
    | zero => rfl
    | succ k =>
      have ha := has a List.mem_cons_self
      obtain ⟨happ, hcall⟩ := Act.setsField_plain ha
      have hwrite : perform i l (X.latchAll.put i e tr m) a =
          some (X.latchAll.put i (e.withHandle (a.written e.h)) tr m, l) := by
        simp only [perform_setsField ha, handle_eq, put_eng_same, put_setHandle]
      rw [List.map_cons, List.cons_append, Line.then,
        advance_line (by simpa using hd) (by simpa using hq) (by omega) happ hcall hwrite (go_straight ..),
        latchAll_twice, (hL.withHandle _).latchPending,
        ih (hL.withHandle _) (fun b hb => has b (List.mem_cons_of_mem _ hb)) (Nat.le_of_succ_le_succ hk) (by omega),
        Nat.sub_sub, Nat.add_comm 1 k]
      rfl

/-- All of a command's field writes. -/
theorem advance_allFieldWrites (hd : X.depth = d) (hq : X.Quiet) (hL : e.Latched)
    (has : ∀ a ∈ as, a.setsField = true) (hn : as.length ≤ n) :
    advance n d ((X.latchAll.put i e tr m).push ⟨o, i, as.map .then ++ rest, l, res⟩) =
      advance (n - as.length) d ((X.latchAll.put i (e.withHandle (writtenAll as e.h)) tr m).push ⟨o, i, rest, l, res⟩) := by
  rw [advance_fieldWrites hd hq hL has (Nat.le_refl _) hn, List.take_length, List.drop_length]
  rfl

/-! ## Read-modify-writes of CR2 (20 R74, R81) -/

/-- The read of a read-modify-write. -/
theorem perform_readW (r : RmwReg) : perform i l (X.put i e tr m) (.readW r) =
    some (X.put i e (tr ++ [.regRead i r.reg (e.value r.reg)]) m, { l with w := e.value r.reg }) := by
  have hkept : e.afterRead r.reg = e := by cases r <;> rfl
  simp only [perform, put_regRead, put_eng_same, hkept]

/-- A read-modify-write of CR2 whose second line writes back `v`. -/
theorem advance_rmwCR2 (hd : X.depth = d) (hq : X.Quiet) (hn : 1 < n) (ha : a ≠ .app) (hc : ∀ c, a ≠ .callback c)
    (hw : ∀ Y k, k.w = e.regs.cr2.setWidth 32 → perform i k Y a = some (Y.regWrite i .cr2 (v.setWidth 32), k))
    (hm : mergeMask e.regs.cr2 v cr2Writable = v) :
    advance n d ((X.put i e tr m).push ⟨o, i, .then (.readW .cr2) :: .then a :: rest, l, res⟩) =
      advance (n - 2) d ((X.latchAll.put i (e.latchPending.withCR2 v).latchPending (tr ++ rmwCR2 i e.regs.cr2 v) m).push
        ⟨o, i, rest, { l with w := e.regs.cr2.setWidth 32 }, res⟩) := by
  have hread : perform i l (X.put i e tr m) (.readW .cr2) =
      some (X.put i e (tr ++ [.regRead i .cr2 (e.regs.cr2.setWidth 32)]) m, { l with w := e.regs.cr2.setWidth 32 }) :=
    perform_readW .cr2
  have hwrite : e.latchPending.afterWrite (v.setWidth 32) .cr2 = e.latchPending.withCR2 v := by
    simp [Engine.afterWrite, Engine.writeCR2, Engine.withCR2, hm]
  rw [Line.then, advance_line hd hq (by omega) (by simp) (by simp) hread (go_straight ..), Line.then,
    advance_line (by simpa using hd) (by simpa using hq) (by omega) ha hc
      ((hw _ _ rfl).trans (by rw [put_regWrite, hwrite])) (go_straight ..)]
  simp only [latchAll_twice, rmwCR2, List.append_assoc, List.cons_append, List.nil_append]
  rfl

/-- `SetBits(CR2, mask)`. -/
theorem advance_setCR2 (hd : X.depth = d) (hq : X.Quiet) (hn : 1 < n) (hm : mask &&& ~~~cr2Writable = 0) :
    advance n d ((X.put i e tr m).push ⟨o, i, setBits .cr2 mask ++ rest, l, res⟩) =
      advance (n - 2) d ((X.latchAll.put i (e.latchPending.withCR2 (e.regs.cr2 ||| mask)).latchPending
        (tr ++ rmwCR2 i e.regs.cr2 (e.regs.cr2 ||| mask)) m).push
        ⟨o, i, rest, { l with w := e.regs.cr2.setWidth 32 }, res⟩) :=
  advance_rmwCR2 hd hq hn (by simp) (by simp) (fun Y k hk => by rw [perform, hk, word_or]; rfl) (mergeMask_or _ _ hm)

/-- `ClearBits(CR2, mask)`: an enable that is cleared asserts no line. -/
theorem advance_clearCR2 (hd : X.depth = d) (hq : X.Quiet) (hn : 1 < n) (hm : mask &&& ~~~cr2Writable = 0) :
    advance n d ((X.put i e tr m).push ⟨o, i, clearBits .cr2 mask ++ rest, l, res⟩) =
      advance (n - 2) d ((X.latchAll.put i (e.latchPending.withCR2 (e.regs.cr2 &&& ~~~mask))
        (tr ++ rmwCR2 i e.regs.cr2 (e.regs.cr2 &&& ~~~mask)) m).push
        ⟨o, i, rest, { l with w := e.regs.cr2.setWidth 32 }, res⟩) := by
  have hL : (e.latchPending.withCR2 (e.regs.cr2 &&& ~~~mask)).Latched :=
    e.latched_latchPending.withCR2_and rfl
  have hrun := advance_rmwCR2 (o := o) (i := i) (e := e) (tr := tr) (m := m) (rest := rest) (l := l) (res := res)
    (a := .writeAndNot .cr2 mask) hd hq hn (by simp) (by simp)
    (fun Y k hk => by rw [perform, hk, word_andNot]; rfl) (mergeMask_andNot _ _ hm)
  rwa [hL.latchPending] at hrun

/-! ## The interrupt enables (42 R210, R213) -/

theorem evLine_withCR2_or (h : (e.withCR2 v).evLine = true) : (e.withCR2 (v ||| mask)).evLine = true := by
  simp only [Engine.evLine, withCR2_cr2, withCR2_sr1, anyBit_ITEVTEN, anyBit_ITBUFEN, BitVec.getLsbD_or, Bool.and_eq_true,
    Bool.or_eq_true] at h ⊢
  obtain ⟨hevents, hflags⟩ := h
  exact ⟨.inl hevents, hflags.imp_right (And.imp_left .inl)⟩

theorem erLine_withCR2_or (h : (e.withCR2 v).erLine = true) : (e.withCR2 (v ||| mask)).erLine = true := by
  simp only [Engine.erLine, withCR2_cr2, withCR2_sr1, anyBit_ITERREN, BitVec.getLsbD_or, Bool.and_eq_true,
    Bool.or_eq_true] at h ⊢
  exact h.imp_left .inl

/-- A line that implies another adds nothing to a latch that the other sets. -/
theorem latch_or_of_imp : ∀ {p a b n : Bool}, (a = true → b = true) → (p || (a && n) || (b && n)) = (p || (b && n)) := by
  decide

/-- Between two writes that set enables of CR2 no latch is set that the second does not set. -/
theorem latchPending_withCR2_or : ((e.withCR2 v).latchPending.withCR2 (v ||| mask)).latchPending =
    (e.withCR2 (v ||| mask)).latchPending := by
  have hev := latch_or_of_imp (p := e.pendEV) (n := e.wiring.nvicEn) (evLine_withCR2_or (e := e) (v := v) (mask := mask))
  have her := latch_or_of_imp (p := e.pendER) (n := e.wiring.nvicEn) (erLine_withCR2_or (e := e) (v := v) (mask := mask))
  exact congrArg₂ (fun p q => { e.withCR2 (v ||| mask) with pendEV := p, pendER := q }) hev her

/-- The three enables, in their order (42 R210). -/
theorem advance_enableInterrupts (hd : X.depth = d) (hq : X.Quiet) (hn : 5 < n) :
    let c := e.regs.cr2
    ∃ l', advance n d ((X.put i e tr m).push ⟨o, i, enableInterrupts ++ rest, l, res⟩) =
      advance (n - 6) d ((X.latchAll.put i (e.latchPending.withCR2 (c ||| 0x0700)).latchPending
        (tr ++ rmwCR2 i c (c ||| 0x0400) ++ rmwCR2 i (c ||| 0x0400) (c ||| 0x0600) ++
          rmwCR2 i (c ||| 0x0600) (c ||| 0x0700)) m).push ⟨o, i, rest, l', res⟩) := by
  intro c
  have htwo : e.regs.cr2 ||| cr2ITBUFEN ||| cr2ITEVTEN = c ||| 0x0600 := BitVec.or_assoc ..
  have hthree : c ||| 0x0600 ||| cr2ITERREN = c ||| 0x0700 := BitVec.or_assoc ..
  refine ⟨{ l with w := (c ||| 0x0600).setWidth 32 }, ?_⟩
  rw [enableInterrupts, List.append_assoc, List.append_assoc, advance_setCR2 hd hq (by omega) (by decide),
    advance_setCR2 (by simpa using hd) (by simpa using hq) (by omega) (by decide),
    advance_setCR2 (by simpa using hd) (by simpa using hq) (by omega) (by decide)]
  simp only [latchAll_twice, latchPending_twice, latchPending_regs, withCR2_cr2, latchPending_withCR2_or, Nat.sub_sub]
  rw [htwo, hthree]
  rfl

/-- The enables of the two events cleared, ITBUFEN first (42 R213). -/
theorem advance_maskEvents (hd : X.depth = d) (hq : X.Quiet) (hn : 3 < n) :
    let c := e.regs.cr2
    ∃ l', advance n d ((X.put i e tr m).push ⟨o, i, maskEvents ++ rest, l, res⟩) =
      advance (n - 4) d ((X.latchAll.put i (e.latchPending.withCR2 (c &&& ~~~0x0600))
        (tr ++ rmwCR2 i c (c &&& ~~~0x0400) ++ rmwCR2 i (c &&& ~~~0x0400) (c &&& ~~~0x0600)) m).push
        ⟨o, i, rest, l', res⟩) := by
  intro c
  have htwo : e.regs.cr2 &&& ~~~cr2ITBUFEN &&& ~~~cr2ITEVTEN = c &&& ~~~0x0600 := BitVec.and_assoc ..
  have hL : (e.latchPending.withCR2 (e.regs.cr2 &&& ~~~cr2ITBUFEN)).Latched := e.latched_latchPending.withCR2_and rfl
  refine ⟨{ l with w := (c &&& ~~~0x0400).setWidth 32 }, ?_⟩
  rw [maskEvents, List.append_assoc, advance_clearCR2 hd hq (by omega) (by decide),
    advance_clearCR2 (by simpa using hd) (by simpa using hq) (by omega) (by decide)]
  simp only [latchAll_twice, hL.latchPending, withCR2_cr2, withCR2_withCR2, htwo, Nat.sub_sub]
  rfl

/-! ## The closes (42 R213, R214) -/

/-- A close up to its last field write: the two masks, then the writes `as`. -/
theorem advance_release (hd : X.depth = d) (hq : X.Quiet) (has : ∀ a ∈ as, a.setsField = true) (hn : as.length + 3 < n) :
    let c := e.regs.cr2
    ∃ l', advance n d ((X.put i e tr m).push ⟨o, i, maskEvents ++ (as.map .then ++ rest), l, res⟩) =
      advance (n - 4 - as.length) d
        ((X.latchAll.put i ((e.latchPending.withCR2 (c &&& ~~~0x0600)).withHandle (writtenAll as e.h))
          (tr ++ rmwCR2 i c (c &&& ~~~0x0400) ++ rmwCR2 i (c &&& ~~~0x0400) (c &&& ~~~0x0600)) m).push
          ⟨o, i, rest, l', res⟩) := by
  intro c
  obtain ⟨l', hmask⟩ := advance_maskEvents (X := X) (o := o) (i := i) (e := e) (tr := tr) (m := m)
    (rest := as.map .then ++ rest) (l := l) (res := res) hd hq (show 3 < n by omega)
  exact ⟨l', hmask.trans
    (advance_allFieldWrites hd hq (e.latched_latchPending.withCR2_and rfl) has (by omega))⟩

/-- The acknowledge bit set if the policy is ENABLE (42 R214). -/
theorem advance_restoreAck (hd : X.depth = d) (hq : X.Quiet) (hL : e.Latched) (he : e.regs.cr1.getLsbD 0 = true)
    (hn : 2 < n) :
    let on := e.h.cfg.ackControl = .enable
    ∃ n' l', n - 3 ≤ n' ∧
      advance n d ((X.latchAll.put i e tr m).push ⟨o, i, restoreAck ++ rest, l, res⟩) =
        advance n' d ((X.latchAll.put i (if on then e.withCR1 (e.regs.cr1 ||| 0x0400) else e)
          (tr ++ if on then rmwCR1 i e.regs.cr1 (e.regs.cr1 ||| 0x0400) else []) m).push ⟨o, i, rest, l', res⟩) := by
  intro on
  have hget : ∀ f, Next.ackOnIfPolicy.go X.params ⟨o, i, rest, { l with pol := e.h.cfg.ackControl }, res⟩ = .ok f →
      advance n d ((X.latchAll.put i e tr m).push ⟨o, i, restoreAck ++ rest, l, res⟩) =
        advance (n - 1) d ((X.latchAll.put i e tr m).push f) := by
    intro f hf
    have hread : perform i l (X.latchAll.put i e tr m) .getPolicy =
        some (X.latchAll.put i e tr m, { l with pol := e.h.cfg.ackControl }) := by simp [perform]
    rw [restoreAck, List.cons_append, List.nil_append,
      advance_line (by simpa using hd) (by simpa using hq) (by omega) (by simp) (by simp) hread hf, latchAll_twice,
      hL.latchPending]
  by_cases hon : on
  · refine ⟨n - 3, { l with pol := e.h.cfg.ackControl, w := e.regs.cr1.setWidth 32 }, Nat.le_refl _,
      (hget _ (congrArg Except.ok (if_pos hon))).trans ?_⟩
    rw [Frame.insert, manageAck, if_pos rfl,
      advance_setCR1 (by simpa using hd) (by simpa using hq) (by omega) he (by decide), latchAll_twice, hL.latchPending,
      if_pos hon, if_pos hon]
    rfl
  · refine ⟨n - 1, { l with pol := e.h.cfg.ackControl }, by omega,
      (hget _ (congrArg Except.ok (if_neg hon))).trans ?_⟩
    rw [if_neg hon, if_neg hon, List.append_nil]

/-- Settles O41: the two masks, then the writes of the handle fields, and after a receive the acknowledge by the policy. -/
theorem closesReleaseTheHandle : Obligations.ClosesReleaseTheHandle := by
  refine ⟨fun s i hh hq => ?_, fun s i hh hq he => ?_⟩
  all_goals have hL := (s.eng i).latched_latchPending.withCR2_and (m := ~~~0x0600) rfl
  · obtain ⟨l, hrun⟩ := advance_release (X := s) (o := .command .CLOSE_TX) (i := i) (e := s.eng i) (tr := []) (m := s.mem)
      (as := [.setTxBuffer 0, .setTxRemaining 0, .setState .ready]) (rest := []) (l := .init) (res := .none) (n := 128)
      rfl hq (by simp [Act.setsField]) (by decide)
    exact exec_completes rfl hh hq (hL.withHandle _) (by decide) hrun
  · obtain ⟨l, hrun⟩ := advance_release (X := s) (o := .command .CLOSE_RX) (i := i) (e := s.eng i) (tr := []) (m := s.mem)
      (as := [.setRxBuffer 0, .setRxRemaining 0, .setState .ready, .setTotal 0]) (rest := restoreAck) (l := .init)
      (res := .none) (n := 128) rfl hq (by simp [Act.setsField]) (by decide)
    obtain ⟨n, l', hn, hack⟩ := advance_restoreAck (X := s) (rest := []) (n := 120) rfl hq (hL.withHandle _) he
      (by decide)
    refine exec_completes rfl hh hq ?_ (by omega) (hrun.trans hack)
    split
    · exact (hL.withHandle _).withCR1 _
    · exact hL.withHandle _

/-! ## The asynchronous starts (42 R210 to R212) -/

/-- A start with the field writes `as`, after its refusals: the state check, the writes, GEN_START, the three enables. -/
def asyncStart (as : List Act) : List Line :=
  ⟨.getState, .rejectIfBusy⟩ :: (as.map .then ++ (genStart ++ enableInterrupts))

/-- The field writes of MASTER_TX_IT, in the rule's order (42 R210). -/
def txFields (buf len : Word) (addr : Byte) (sr : Bool) : List Act :=
  [.setTxBuffer buf, .setTxRemaining len, .setTarget addr, .setRepeatedStart sr, .setState .busyTx]

/-- The field writes of MASTER_RX_IT, in the rule's order (42 R211). -/
def rxFields (buf len : Word) (addr : Byte) (sr : Bool) : List Act :=
  [.setRxBuffer buf, .setRxRemaining len, .setTotal len, .setTarget addr, .setRepeatedStart sr, .setState .busyRx]

theorem txFields_setsField : ∀ a ∈ txFields buf len addr sr, a.setsField = true := by simp [txFields, Act.setsField]

theorem rxFields_setsField : ∀ a ∈ rxFields buf len addr sr, a.setsField = true := by simp [rxFields, Act.setsField]

theorem masterTxItCmd_ok (hi : i < n) (hb : buf ≠ 0 ∨ len = 0) : masterTxItCmd n i buf len addr sr =
    .ok (Frame.start .MASTER_TX_IT i (asyncStart (txFields buf len addr sr)) .none) := by
  rw [masterTxItCmd, checkIndex_lt hi, checkBuffer_ok hb]
  rfl

theorem masterRxItCmd_ok (hi : i < n) (hb : buf ≠ 0) (hl : len ≠ 0) : masterRxItCmd n i buf len addr sr =
    .ok (Frame.start .MASTER_RX_IT i (asyncStart (rxFields buf len addr sr)) .none) := by
  rw [masterRxItCmd, checkIndex_lt hi, checkReceiveLength_ok hl, checkBuffer_ok (.inl hb)]
  rfl

/-- A command past its refusals, whose run reaches its return, completes. -/
theorem exec_accepted_completes {lines : List Line} {res' : Result}
    (hx : exec x s = issue (.ok (Frame.start mn i lines res)) s) (hh : s.Has i) (hq : s.Quiet) (hL : e.Latched)
    (hn : 0 < n)
    (hrun : advance 128 s.depth ((s.put i (s.eng i) [] s.mem).push ⟨.command mn, i, lines, Locals.init, res⟩) =
      advance n s.depth ((s.latchAll.put i e tr s.mem).push ⟨.command mn, i, [], l, res'⟩)) :
    ∃ t, exec x s = .next t ∧ Effect s t i e (tr ++ [.result i mn res']) ∧ SameMemory s t ∧ Returned s t :=
  exec_completes (hx.trans (by rw [checkIndex_has hh]; rfl)) hh hq hL hn hrun

/-- A start in another state than READY returns that state after its one handle read (42 R212). -/
theorem start_rejected (hx : exec x s = issue (.ok (Frame.start mn i (asyncStart as) .none)) s) (hh : s.Has i)
    (hq : s.Quiet) (hs : (s.handle i).transferState ≠ .ready) :
    ∃ t, exec x s = .next t ∧
      Effect s t i (s.eng i).latchPending [.result i mn (.state (s.handle i).transferState)] ∧
      SameMemory s t ∧ Returned s t :=
  exec_accepted_completes hx hh hq (s.eng i).latched_latchPending (by decide)
    (advance_getState rfl hq (by decide) (congrArg Except.ok (if_neg hs)))

/-- Settles O40: the refusals come before the state is read, and the read of a state other than READY ends the start. -/
theorem startWhileBusyIsRejected : Obligations.StartWhileBusyIsRejected := by
  intro s i buf len addr sr hh hq hs
  refine ⟨fun hb => ?_, fun hb hl => ?_, fun hl => ?_, fun hb hl => ⟨?_, ?_⟩⟩
  · exact start_rejected (congrArg (issue · s) (masterTxItCmd_ok hh.1 hb)) hh hq hs
  · exact start_rejected (congrArg (issue · s) (masterRxItCmd_ok hh.1 hb hl)) hh hq hs
  · exact congrArg (issue · s) (hl ▸ masterRxItCmd_zero hh.1)
  · exact congrArg (issue · s) (hb ▸ masterTxItCmd_null hh.1 hl)
  · exact congrArg (issue · s) (hb ▸ masterRxItCmd_null hh.1 hl)

/-- A start in READY up to its `k`-th field write, with READY as its result. -/
theorem advance_start {k : Nat} (hq : s.Quiet) (hr : (s.handle i).transferState = .ready)
    (has : ∀ a ∈ as, a.setsField = true) (hk : k ≤ as.length) (hn : k < n) :
    ∃ l, advance n s.depth ((s.put i (s.eng i) [] s.mem).push (Frame.start mn i (asyncStart as) .none)) =
      advance (n - 1 - k) s.depth
        ((s.latchAll.put i ((s.eng i).latchPending.withHandle (writtenAll (as.take k) (s.handle i))) [] s.mem).push
          ⟨.command mn, i, (as.drop k).map .then ++ (genStart ++ enableInterrupts), l, .state .ready⟩) := by
  have hready := advance_getState (o := .command mn) (i := i) (e := s.eng i) (tr := []) (m := s.mem)
    (nx := .rejectIfBusy) (rest := as.map .then ++ (genStart ++ enableInterrupts)) (l := .init) (res := .none)
    rfl hq (Nat.zero_lt_of_lt hn) (congrArg Except.ok (if_pos hr))
  exact ⟨_, hready.trans
    (advance_fieldWrites rfl hq (s.eng i).latched_latchPending has hk (by omega))⟩

/-- A start in READY completes: the field writes, GEN_START, the three enables, and READY. -/
theorem start_completes (hx : exec x s = issue (.ok (Frame.start mn i (asyncStart as) .none)) s) (hh : s.Has i)
    (hq : s.Quiet) (he : s.Enabled i) (hr : (s.handle i).transferState = .ready) (has : ∀ a ∈ as, a.setsField = true)
    (hlen : as.length ≤ 100) :
    ∃ t, exec x s = .next t ∧
      (let e := (s.eng i).latchPending
       let v := e.regs.cr1
       let c := e.regs.cr2
       Effect s t i (Engine.latchPending
           { (e.withCR1 (v ||| 0x0100)).withCR2 (c ||| 0x0700) with h := writtenAll as e.h })
         (rmwCR1 i v (v ||| 0x0100) ++ rmwCR2 i c (c ||| 0x0400) ++ rmwCR2 i (c ||| 0x0400) (c ||| 0x0600) ++
           rmwCR2 i (c ||| 0x0600) (c ||| 0x0700) ++ [.result i mn (.state .ready)])) ∧
      SameMemory s t ∧ Returned s t := by
  obtain ⟨l, hwrites⟩ := advance_start (n := 128) (mn := mn) hq hr has (Nat.le_refl _) (by omega)
  rw [List.take_length, List.drop_length] at hwrites
  have hL := (s.eng i).latched_latchPending.withHandle (writtenAll as (s.handle i))
  have hstart := hwrites.trans (advance_setCR1 (X := s.latchAll) (mask := cr1START) (rest := enableInterrupts) rfl hq
    (by omega) he (by decide))
  rw [hL.latchPending, latchAll_twice] at hstart
  obtain ⟨l', hrun⟩ := advance_enableInterrupts (X := s.latchAll) (o := .command mn) (i := i)
    (e := ((s.eng i).latchPending.withHandle (writtenAll as (s.handle i))).withCR1 ((s.eng i).regs.cr1 ||| 0x0100))
    (tr := rmwCR1 i (s.eng i).regs.cr1 ((s.eng i).regs.cr1 ||| 0x0100)) (m := s.mem) (rest := [])
    (l := { l with w := (s.eng i).regs.cr1.setWidth 32 }) (res := .state .ready)
    (n := 128 - 1 - as.length - 2) rfl hq (by omega)
  rw [(hL.withCR1 _).latchPending, latchAll_twice] at hrun
  exact exec_accepted_completes hx hh hq (Engine.latched_latchPending _) (by omega) (hstart.trans hrun)

/-- The boundaries of a start up to GEN_START's first access: one field write each, after the state check. -/
theorem start_boundary (hh : s.Has i) (hq : s.Quiet) (hr : (s.handle i).transferState = .ready)
    (has : ∀ a ∈ as, a.setsField = true) (hn : n ≤ as.length + 2) :
    let u := advance n s.depth (s.push (Frame.start mn i (asyncStart as) .none))
    u.handle i = writtenAll (as.take (n - 1)) (s.handle i) ∧ (u.eng i).regs = (s.eng i).regs ∧
      u.trace = s.trace ++ if n = as.length + 2 then [.regRead i .cr1 ((s.eng i).regs.cr1.setWidth 32)] else [] := by
  have hput : s.push (Frame.start mn i (asyncStart as) .none) =
      (s.put i (s.eng i) [] s.mem).push (Frame.start mn i (asyncStart as) .none) := by rw [put_self hh]
  cases n with
  | zero => simp [advance, writtenAll]
  | succ k =>
    intro u
    obtain hk | rfl : k ≤ as.length ∨ k = as.length + 1 := by omega
    · obtain ⟨l, hrun⟩ := advance_start (n := k + 1) (mn := mn) hq hr has hk (by omega)
      rw [Nat.add_sub_cancel, Nat.sub_self, advance, ← hput] at hrun
      have hne : k ≠ as.length + 1 := by omega
      simp [u, hrun, hne]
    · obtain ⟨l, hrun⟩ := advance_start (n := as.length + 2) (mn := mn) hq hr has (Nat.le_refl _) (by omega)
      rw [List.take_length, List.drop_length, ← hput, show as.length + 2 - 1 - as.length = 1 by omega] at hrun
      have hu : u = _ := hrun.trans
        (advance_line rfl hq Nat.one_pos (by simp) (by simp) (perform_readW .cr1) (go_straight ..))
      rw [hu]
      simp [advance, RmwReg.reg, Engine.value, List.take_of_length_le]

/-- The handle of a start of a transmit after its first `n` boundaries (42 R210). -/
theorem txFields_written {h : Handle} (hr : h.transferState = .ready) (hn : n ≤ 7) :
    writtenAll ((txFields buf len addr sr).take (n - 1)) h = { h with
      txBuffer := if 2 ≤ n then buf else h.txBuffer
      txRemaining := if 3 ≤ n then len else h.txRemaining
      targetDeviceAddress := if 4 ≤ n then addr else h.targetDeviceAddress
      repeatedStartRequested := if 5 ≤ n then sr else h.repeatedStartRequested
      transferState := if 6 ≤ n then .busyTx else .ready } := by
  rw [← hr]
  interval_cases n <;> rfl

/-- The handle of a start of a receive after its first `n` boundaries (42 R211). -/
theorem rxFields_written {h : Handle} (hr : h.transferState = .ready) (hn : n ≤ 8) :
    writtenAll ((rxFields buf len addr sr).take (n - 1)) h = { h with
      rxBuffer := if 2 ≤ n then buf else h.rxBuffer
      rxRemaining := if 3 ≤ n then len else h.rxRemaining
      rxExpectedTotal := if 4 ≤ n then len else h.rxExpectedTotal
      targetDeviceAddress := if 5 ≤ n then addr else h.targetDeviceAddress
      repeatedStartRequested := if 6 ≤ n then sr else h.repeatedStartRequested
      transferState := if 7 ≤ n then .busyRx else .ready } := by
  rw [← hr]
  interval_cases n <;> rfl

/-- The run of an issued command with no input pending is its 128 boundaries at most. -/
theorem eq_advance_of_next {t : State} {f : Frame} (hx : exec x s = issue (.ok f) s) (hq : s.Quiet)
    (ht : exec x s = .next t) : t = advance 128 s.depth (s.push f) := by
  rw [hx, issue_ok, fuel_quiet hq.1] at ht
  exact (Host.Outcome.next.inj ht).symm

/-- Settles O39: the whole run by `start_completes`, its boundaries one by one by `start_boundary`. -/
theorem asynchronousStartArmsTheTransfer : Obligations.AsynchronousStartArmsTheTransfer := by
  refine ⟨fun s i buf len addr sr hh hq he hb hr => ?_, fun s i buf len addr sr hh hq he hb hl hr => ?_⟩
  · have hcmd := masterTxItCmd_ok (addr := addr) (sr := sr) hh.1 hb
    have hx : exec (.masterTxIt i buf len addr sr) s = issue (.ok _) s := congrArg (issue · s) hcmd
    obtain ⟨t, ht, heff, hmem, hret⟩ := start_completes hx hh hq he hr txFields_setsField (by simp [txFields])
    refine ⟨t, ht, heff, hmem, hret, _, hcmd, eq_advance_of_next hx hq ht, fun n hn => ?_⟩
    obtain ⟨hhandle, hregs, htrace⟩ := start_boundary hh hq hr txFields_setsField hn
    exact ⟨hhandle.trans (txFields_written hr hn), hregs, htrace⟩
  · have hcmd := masterRxItCmd_ok (addr := addr) (sr := sr) hh.1 hb hl
    have hx : exec (.masterRxIt i buf len addr sr) s = issue (.ok _) s := congrArg (issue · s) hcmd
    obtain ⟨t, ht, heff, hmem, hret⟩ := start_completes hx hh hq he hr rxFields_setsField (by simp [rxFields])
    refine ⟨t, ht, heff, hmem, hret, _, hcmd, eq_advance_of_next hx hq ht, fun n hn => ?_⟩
    obtain ⟨hhandle, hregs, htrace⟩ := start_boundary hh hq hr rxFields_setsField hn
    exact ⟨hhandle.trans (rxFields_written hr hn), hregs, htrace⟩

end Sys2Proof.Machine

/-! The lines of the event handler (43), over what they serve (`Served`). A stage of EV_IRQ is what has been served, the
locals and the lines to come; each block of lines leads from one stage to another in a bounded number of boundaries. -/

namespace Sys2Proof.Machine

variable {X : State} {p : Params} {i : Idx} {e : Engine} {x y z : Served} {l l' : Locals} {ls : List Line}
  {k k' : Nat} {a : Act} {nx : Next} {v mask : Half}

/-! ## What every access of the handler keeps of its controller -/

theorem Engine.Latched.writeDR (h : e.Latched) (w : Word) : (e.afterWrite w .dr).Latched := by
  rw [afterWrite_dr_lowByte, afterWrite_dr]
  exact h.mono rfl rfl rfl (fun _ hk => getLsbD_of_andNot hk) (fun _ hk => hk)

theorem Engine.Latched.readSR2 (h : e.Latched) : (e.afterRead .sr2).Latched := by
  rw [afterRead_sr2]
  split
  · exact h.mono rfl rfl rfl (fun _ hk => getLsbD_of_andNot hk) (fun _ hk => hk)
  · exact h

/-- A DR read asserts no line that RxNE has not asserted: a byte held back sets RxNE again. -/
theorem Engine.Latched.readDR (h : e.Latched) (hrx : e.regs.sr1.getLsbD 6 = true) : (e.afterRead .dr).Latched := by
  obtain ⟨-, -, hwiring, hev, her, -, hcr2⟩ := afterRead_keeps e .dr
  refine h.mono hwiring hev her (fun k hk => ?_) (fun k hk => hcr2 ▸ hk)
  cases hc : e.ctrl.heldByte with
  | none =>
    rw [afterRead_dr hc] at hk
    exact getLsbD_of_andNot hk
  | some d =>
    obtain ⟨q, hq, hd⟩ : ∃ q, e.ctrl = .ref q ∧ q.held = some d := by
      cases hctrl : e.ctrl with
      | free => rw [hctrl] at hc; cases hc
      | ref q => exact ⟨q, rfl, by rw [hctrl] at hc; exact hc⟩
    rw [(afterRead_dr_held hq hd).1] at hk
    have hset := getLsbD_of_andNot hk
    rw [BitVec.getLsbD_or, Bool.or_eq_true] at hset
    refine hset.elim id fun hbit => ?_
    have hk6 : k = 6 := by
      by_contra hne
      have hk16 : k < 16 := BitVec.lt_of_getLsbD hbit
      have hoff : ∀ j < 16, j ≠ 6 → (0x0040 : Half).getLsbD j = false := by decide
      rw [hoff k hk16 hne] at hbit
      cases hbit
    exact hk6 ▸ hrx

/-- From `x` to `y` the controller's pending latches stay up to date and the controller stays enabled (60 R306, 20 R84). -/
structure Served.Keeps (x y : Served) : Prop where
  latched : x.engine.Latched → y.engine.Latched
  enabled : x.engine.regs.cr1.getLsbD 0 = true → y.engine.regs.cr1.getLsbD 0 = true

theorem Served.Keeps.refl (x : Served) : x.Keeps x := ⟨id, id⟩

theorem Served.Keeps.trans (h : x.Keeps y) (h' : y.Keeps z) : x.Keeps z :=
  ⟨h'.latched ∘ h.latched, h'.enabled ∘ h.enabled⟩

theorem keeps_writeCR1 (hv : v.getLsbD 0 = true) : x.Keeps (x.writeCR1 i v) := ⟨fun h => h.withCR1 v, fun _ => hv⟩

theorem keeps_writeCR2 : x.Keeps (x.writeCR2 i (x.engine.regs.cr2 &&& mask)) := ⟨fun h => h.withCR2_and rfl, id⟩

theorem keeps_writeDR (b : Byte) : x.Keeps (x.writeDR i b) :=
  ⟨fun h => h.writeDR _, fun h => (afterWrite_cr1 x.engine .dr (b.setWidth 32) (by decide)).symm ▸ h⟩

theorem afterRead_cr1 (e : Engine) (r : Reg) : (e.afterRead r).regs.cr1 = e.regs.cr1 := by
  obtain ⟨-, -, -, -, -, hcr1, -⟩ := afterRead_keeps e r
  exact hcr1

theorem keeps_readSR2 : x.Keeps (x.readSR2 i) := ⟨fun h => h.readSR2, fun h => (afterRead_cr1 x.engine .sr2).symm ▸ h⟩

theorem keeps_handle (h : Handle) : x.Keeps (x.handle h) := ⟨fun hL => hL.withHandle h, id⟩

theorem keeps_emit (code : EventCode) : x.Keeps (x.emit i code) := ⟨fun hL => hL.withCallback code, id⟩

/-! ## Stages of the handler -/

/-- A stage of EV_IRQ: what has been served, the locals, the lines to come. -/
structure Stage where
  served : Served
  loc    : Locals
  lines  : List Line

/-- The state at a stage of EV_IRQ on controller `i`, entered above `X`. -/
def Stage.over (a : Stage) (X : State) (i : Idx) : State :=
  (X.latchAll.put i a.served.engine a.served.events a.served.mem).enter ⟨.ev, i, a.lines, a.loc, .none⟩

/-- With nothing in between, EV_IRQ gets from `a` to `b` in at most `k` boundaries. -/
structure Leads (p : Params) (i : Idx) (k : Nat) (a b : Stage) : Prop where
  keeps : a.served.Keeps b.served
  run   : a.served.engine.Latched → ∀ (X : State) (n : Nat), X.Quiet → X.params = p → k < n →
    ∃ n', n ≤ n' + k ∧ advance n X.depth (a.over X i) = advance n' X.depth (b.over X i)

theorem Leads.refl (a : Stage) : Leads p i 0 a a := ⟨.refl _, fun _ _ n _ _ _ => ⟨n, le_rfl, rfl⟩⟩

theorem Leads.trans {a b c : Stage} (h : Leads p i k a b) (h' : Leads p i k' b c) : Leads p i (k + k') a c where
  keeps := h.keeps.trans h'.keeps
  run hL X n hq hp hn := by
    obtain ⟨n₁, hn₁, h₁⟩ := h.run hL X n hq hp (by omega)
    obtain ⟨n₂, hn₂, h₂⟩ := h'.run (h.keeps.latched hL) X n₁ hq hp (by omega)
    exact ⟨n₂, by omega, h₁.trans h₂⟩

theorem Leads.mono {a b : Stage} (h : Leads p i k a b) (hk : k ≤ k') : Leads p i k' a b where
  keeps := h.keeps
  run hL X n hq hp hn := by
    obtain ⟨n₁, hn₁, h₁⟩ := h.run hL X n hq hp (by omega)
    exact ⟨n₁, by omega, h₁⟩

/-- One line: its access, then what its test puts before the lines to come. -/
theorem leads_line (more : List Line) (hk : x.Keeps y)
    (hp : ∀ X : State, X.params = p →
      perform i l (X.put i x.engine x.events x.mem) a = some (X.put i y.engine y.events y.mem, l'))
    (hg : nx.go p ⟨.ev, i, ls, l', .none⟩ = .ok (Frame.insert ⟨.ev, i, ls, l', .none⟩ more))
    (ha : a ≠ .app := by simp) (hc : ∀ c, a ≠ .callback c := by simp) :
    Leads p i 1 ⟨x, l, ⟨a, nx⟩ :: ls⟩ ⟨y, l', more ++ ls⟩ where
  keeps := hk
  run hL X n hq hX hn := by
    refine ⟨n - 1, by omega, ?_⟩
    simp only [Stage.over]
    rw [advance_quiet_enter (by omega) (by simp) (by simpa using hq) ha hc, hp X.latchAll (by simpa using hX)]
    simp only [put_params, latchAll_params, hX, hg, put_latchAll, latchAll_twice, (hk.latched hL).latchPending,
      Frame.insert]

/-! ## Accesses of the handle -/

/-- The locals after a micro-step that reads a field of the handle `h`. -/
def Act.fetched (h : Handle) (l : Locals) : Act → Option Locals
  | .getState => some { l with s := h.transferState }
  | .getTotal => some { l with t := h.rxExpectedTotal }
  | .getTxRemaining => some { l with n := h.txRemaining }
  | .getRxRemaining => some { l with n := h.rxRemaining }
  | .rereadRxRemaining => some { l with m := h.rxRemaining }
  | .getTxBuffer => some { l with p := h.txBuffer }
  | .getRxBuffer => some { l with p := h.rxBuffer }
  | .getTarget => some { l with a := h.targetDeviceAddress }
  | .getRepeatedStart => some { l with r := h.repeatedStartRequested }
  | .getPolicy => some { l with pol := h.cfg.ackControl }
  | _ => none

theorem perform_fetched (h : a.fetched (X.handle i) l = some l') : perform i l X a = some (X, l') := by
  cases a <;> cases h <;> rfl

/-- A line that reads a field of the handle. -/
theorem leads_fetch (more : List Line) (h : a.fetched x.engine.h l = some l')
    (hg : nx.go p ⟨.ev, i, ls, l', .none⟩ = .ok (Frame.insert ⟨.ev, i, ls, l', .none⟩ more)) :
    Leads p i 1 ⟨x, l, ⟨a, nx⟩ :: ls⟩ ⟨x, l', more ++ ls⟩ :=
  leads_line more (.refl x) (fun X _ => perform_fetched (by simpa using h)) hg (by rintro rfl; cases h)
    (by rintro c rfl; cases h)

/-- The handle after a micro-step that counts a byte, by the count or the pointer read before. -/
def Act.counted (h : Handle) (l : Locals) : Act → Option Handle
  | .decTxRemaining => some { h with txRemaining := l.n - 1 }
  | .incTxBuffer => some { h with txBuffer := l.p + 1 }
  | .decRxRemaining => some { h with rxRemaining := l.n - 1 }
  | .incRxBuffer => some { h with rxBuffer := l.p + 1 }
  | _ => none

theorem perform_counted {h : Handle} (hc : a.counted (X.handle i) l = some h) :
    perform i l X a = some (X.setHandle i h, l) := by
  cases a <;> cases hc <;> rfl

/-- A line that counts a byte. -/
theorem leads_count {h : Handle} (hc : a.counted x.engine.h l = some h) :
    Leads p i 1 ⟨x, l, .then a :: ls⟩ ⟨x.handle h, l, ls⟩ :=
  leads_line [] (keeps_handle h)
    (fun X _ => (perform_counted (by simpa using hc)).trans (by rw [put_setHandle]; rfl)) rfl
    (by rintro rfl; cases hc) (by rintro c rfl; cases hc)

/-- A line that writes a field of the handle with a value of its own. -/
theorem leads_write (ha : a.setsField = true) :
    Leads p i 1 ⟨x, l, .then a :: ls⟩ ⟨x.handle (a.written x.engine.h), l, ls⟩ :=
  leads_line [] (keeps_handle _)
    (fun X _ => (perform_setsField ha).trans (by rw [put_setHandle, handle_eq, put_eng_same]; rfl)) rfl
    (Act.setsField_plain ha).1 (Act.setsField_plain ha).2

/-- Several such lines. -/
theorem leads_writes {as : List Act} (has : ∀ a ∈ as, a.setsField = true) :
    Leads p i as.length ⟨x, l, as.map .then ++ ls⟩ ⟨x.handle (writtenAll as x.engine.h), l, ls⟩ := by
  induction as generalizing x with
  | nil => exact .refl _
  | cons a as ih =>
    rw [List.length_cons, Nat.add_comm]
    exact (leads_write (has a List.mem_cons_self)).trans (ih fun b hb => has b (List.mem_cons_of_mem _ hb))

/-! ## Register accesses -/

/-- The locals after a check's sample. -/
def Locals.sampling (l : Locals) (e : Engine) : Locals :=
  { l with c := e.regs.cr2.setWidth 32, v := e.regs.sr1.setWidth 32 }

/-- The sample of a check, and its test (43 R240). -/
theorem leads_check (more : List Line)
    (hg : ∀ f : Frame, f.loc.c = x.engine.regs.cr2.setWidth 32 → f.loc.v = x.engine.regs.sr1.setWidth 32 →
      nx.go p f = .ok (f.insert more)) :
    Leads p i 2 ⟨x, l, check nx ++ ls⟩ ⟨x.sampled i, l.sampling x.engine, more ++ ls⟩ where
  keeps := ⟨fun h => h.sampledSR1, id⟩
  run hL X n hq hX hn := by
    refine ⟨n - 2, by omega, ?_⟩
    have hrun := advance_check (X := X.latchAll) (i := i) (tr := x.events) (m := x.mem) (rest := ls) (l := l) (nx := nx)
      hn rfl (by simpa using hq) (latchAll_twice X) hL
    rw [latchAll_params, hX, hg _ rfl rfl] at hrun
    exact hrun

theorem leads_readSR2 (more : List Line)
    (hg : nx.go p ⟨.ev, i, ls, { l with u := x.engine.regs.sr2.setWidth 32 }, .none⟩ =
      .ok (Frame.insert ⟨.ev, i, ls, { l with u := x.engine.regs.sr2.setWidth 32 }, .none⟩ more)) :
    Leads p i 1 ⟨x, l, ⟨.readSR2, nx⟩ :: ls⟩
      ⟨x.readSR2 i, { l with u := x.engine.regs.sr2.setWidth 32 }, more ++ ls⟩ :=
  leads_line more keeps_readSR2 (fun X _ => by simp only [perform, put_regRead, put_eng_same]; rfl) hg

/-- The line that writes the address byte (43 R241). -/
theorem leads_sendTarget (d : Dir) :
    Leads p i 1 ⟨x, l, .then (.sendTarget d) :: ls⟩ ⟨x.writeDR i (addrByte l.a d), l, ls⟩ :=
  leads_line [] (keeps_writeDR _) (fun X _ => by simp only [perform, put_regWrite]; rfl) rfl

/-- `SetBits(CR1, mask)`. -/
theorem leads_setCR1 (he : x.engine.regs.cr1.getLsbD 0 = true) (hm : mask &&& ~~~cr1Writable = 0) :
    Leads p i 2 ⟨x, l, setBits .cr1 mask ++ ls⟩
      ⟨x.writeCR1 i (x.engine.regs.cr1 ||| mask), { l with w := x.engine.regs.cr1.setWidth 32 }, ls⟩ where
  keeps := keeps_writeCR1 (by simp [he])
  run hL X n hq _ hn := ⟨n - 2, by omega, block_setCR1 hq hL he hm hn⟩

/-- `ClearBits(CR1, mask)`. -/
theorem leads_clearCR1 (he : x.engine.regs.cr1.getLsbD 0 = true) (hm : mask &&& ~~~cr1Writable = 0)
    (h0 : mask.getLsbD 0 = false) :
    Leads p i 2 ⟨x, l, clearBits .cr1 mask ++ ls⟩
      ⟨x.writeCR1 i (x.engine.regs.cr1 &&& ~~~mask), { l with w := x.engine.regs.cr1.setWidth 32 }, ls⟩ where
  keeps := keeps_writeCR1 (by rw [BitVec.getLsbD_and, BitVec.getLsbD_not, he, h0]; rfl)
  run hL X n hq _ hn := ⟨n - 2, by omega, block_clearCR1 hq hL he hm h0 hn⟩

/-- `ClearBits(CR2, mask)`. -/
theorem leads_clearCR2 (hm : mask &&& ~~~cr2Writable = 0) :
    Leads p i 2 ⟨x, l, clearBits .cr2 mask ++ ls⟩
      ⟨x.writeCR2 i (x.engine.regs.cr2 &&& ~~~mask), { l with w := x.engine.regs.cr2.setWidth 32 }, ls⟩ where
  keeps := keeps_writeCR2
  run hL X n hq _ hn := ⟨n - 2, by omega, block_clearCR2 hq hL hm hn⟩

/-- A callback emission, with the no-op application (44 R274, R275). -/
theorem leads_callback (code : EventCode) (happ : p.app = []) :
    Leads p i 3 ⟨x, l, .then (.callback code) :: ls⟩ ⟨x.emit i code, l, ls⟩ where
  keeps := keeps_emit code
  run hL X n hq hX hn := ⟨n - 3, by omega, block_callback hq (hX ▸ happ) hL hn⟩

/-! ## Blocks -/

/-- CLEAR_ADDR's read sequence, on an engine just sampled or not (40 R153). -/
theorem leads_readSequence :
    Leads p i 2 ⟨x, l, .then .readSR1 :: .then .readSR2 :: ls⟩
      ⟨x.after x.engine.withAddrCleared [rSR1 i x.engine.regs.sr1, rSR2 i x.engine.regs.sr2],
        { l with v := x.engine.regs.sr1.setWidth 32, u := x.engine.regs.sr2.setWidth 32 }, ls⟩ := by
  have hsample : Leads p i 1 ⟨x, l, .then .readSR1 :: .then .readSR2 :: ls⟩
      ⟨x.after x.engine.sampledSR1 [rSR1 i x.engine.regs.sr1], { l with v := x.engine.regs.sr1.setWidth 32 },
        .then .readSR2 :: ls⟩ :=
    leads_line [] ⟨fun h => h.sampledSR1, id⟩
      (fun X _ => by simp only [perform, put_regRead, put_eng_same, afterRead_sr1]; rfl) rfl
  have hclear := hsample.trans (leads_readSR2 [] rfl)
  simpa only [Served.readSR2, Served.after, sampledSR1_regs, afterRead_sr1_sr2, List.append_assoc, List.cons_append,
    List.nil_append] using hclear

/-- GEN_STOP unless a repeated start is asked for (40 R151). -/
theorem leads_stopUnlessRepeated (he : x.engine.regs.cr1.getLsbD 0 = true) :
    ∃ l', Leads p i 2 ⟨x, l, genStopUnless x.engine.h.repeatedStartRequested ++ ls⟩
      ⟨x.stopUnlessRepeated i, l', ls⟩ := by
  unfold Served.stopUnlessRepeated genStopUnless
  cases x.engine.h.repeatedStartRequested with
  | true => exact ⟨l, (Leads.refl _).mono (by decide)⟩
  | false => exact ⟨_, leads_setCR1 he (by decide)⟩

theorem leads_maskEvents : ∃ l', Leads p i 4 ⟨x, l, maskEvents ++ ls⟩ ⟨x.maskEvents i, l', ls⟩ := by
  rw [maskEvents, List.append_assoc]
  exact ⟨_, (leads_clearCR2 (by decide)).trans (leads_clearCR2 (by decide))⟩

/-- `a <- h.cfg.ackControl; if a == ACK_ENABLE: MANAGE_ACK(en = 1)`. -/
theorem leads_restoreAck (he : x.engine.regs.cr1.getLsbD 0 = true) :
    ∃ l', Leads p i 3 ⟨x, l, restoreAck ++ ls⟩
      ⟨if x.engine.h.cfg.ackControl = .enable then x.writeCR1 i (x.engine.regs.cr1 ||| 0x0400) else x, l', ls⟩ := by
  by_cases hon : x.engine.h.cfg.ackControl = .enable
  · rw [if_pos hon]
    exact ⟨_, Leads.mono (.trans (leads_fetch (manageAck true) rfl (congrArg Except.ok (if_pos hon)))
      (leads_setCR1 he (by decide))) (by decide)⟩
  · rw [if_neg hon]
    exact ⟨_, Leads.mono (leads_fetch [] rfl (congrArg Except.ok (if_neg hon))) (by decide)⟩

/-- CLOSE_TX (42 R213). -/
theorem leads_closeTx : ∃ l', Leads p i 7 ⟨x, l, closeTx ++ ls⟩ ⟨x.closeTx i, l', ls⟩ := by
  rw [closeTx, List.append_assoc]
  obtain ⟨l', hmask⟩ := leads_maskEvents (p := p) (i := i) (x := x) (l := l)
  exact ⟨l', hmask.trans
    (leads_writes (as := [.setTxBuffer 0, .setTxRemaining 0, .setState .ready]) (by simp [Act.setsField]))⟩

/-- CLOSE_RX (42 R214). -/
theorem leads_closeRx (he : x.engine.regs.cr1.getLsbD 0 = true) :
    ∃ l', Leads p i 11 ⟨x, l, closeRx ++ ls⟩ ⟨x.closeRx i, l', ls⟩ := by
  rw [closeRx, List.append_assoc, List.append_assoc]
  obtain ⟨l₁, hmask⟩ := leads_maskEvents (p := p) (i := i) (x := x) (l := l)
  have hfields := hmask.trans (leads_writes (ls := restoreAck ++ ls)
    (as := [.setRxBuffer 0, .setRxRemaining 0, .setState .ready, .setTotal 0]) (by simp [Act.setsField]))
  obtain ⟨l', hack⟩ := leads_restoreAck (ls := ls) (hfields.keeps.enabled he)
  exact ⟨l', hfields.trans hack⟩

/-! ## The byte moves (43 R245, R247) -/

/-- The byte at `txBuffer` moved to DR and counted, `l.n` the count read before (43 R245). -/
theorem leads_sendByte (hb : p.bufferOk x.engine.h.txBuffer = true) (hn : l.n = x.engine.h.txRemaining) :
    let b := Memory.read x.mem x.engine.h.txBuffer.toNat
    Leads p i 5
      ⟨x, l, [.then .getTxBuffer, .then .memReadP, .then .writeDRLocal, .then .decTxRemaining, .then .incTxBuffer] ++ ls⟩
      ⟨((x.after x.engine [.memRead x.engine.h.txBuffer b]).writeDR i b).handle
          { x.engine.h with txRemaining := x.engine.h.txRemaining - 1, txBuffer := x.engine.h.txBuffer + 1 },
        { l with p := x.engine.h.txBuffer, b := b }, ls⟩ := by
  intro b
  have hread {ls : List Line} : Leads p i 1 ⟨x, { l with p := x.engine.h.txBuffer }, .then .memReadP :: ls⟩
      ⟨x.after x.engine [.memRead x.engine.h.txBuffer b], { l with p := x.engine.h.txBuffer, b := b }, ls⟩ :=
    leads_line [] ⟨id, id⟩ (fun X hX => by
      simp only [perform, put_params, hX, hb, if_true, put_memRead, put_byteAt]; rfl) rfl
  have hsend {z : Served} {l : Locals} {ls : List Line} :
      Leads p i 1 ⟨z, l, .then .writeDRLocal :: ls⟩ ⟨z.writeDR i l.b, l, ls⟩ :=
    leads_line [] (keeps_writeDR _) (fun X _ => by simp only [perform, put_regWrite]; rfl) rfl
  have hcount {z : Served} {l : Locals} : Leads p i 2 ⟨z, l, .then .decTxRemaining :: .then .incTxBuffer :: ls⟩
      ⟨z.handle { z.engine.h with txRemaining := l.n - 1, txBuffer := l.p + 1 }, l, ls⟩ :=
    .trans (leads_count (h := { z.engine.h with txRemaining := l.n - 1 }) rfl) (leads_count rfl)
  have hrun := (leads_fetch (p := p) (i := i) (ls := .then .memReadP :: .then .writeDRLocal :: .then .decTxRemaining ::
    .then .incTxBuffer :: ls) (a := .getTxBuffer) (nx := .straight) (x := x) (l := l) [] rfl rfl).trans
    (hread.trans (hsend.trans hcount))
  rw [← hn]
  exact hrun

/-- The next byte of a master transmit, or none with no byte left. -/
theorem leads_sendNext (hst : x.engine.h.transferState = .busyTx) (hy : x.sendNext p i = some y) :
    ∃ l', Leads p i 6 ⟨x, l, ⟨.getTxRemaining, .txeIfMore⟩ :: ls⟩ ⟨y, l', ls⟩ := by
  dsimp only [Served.sendNext] at hy
  by_cases hn : x.engine.h.txRemaining = 0
  · rw [if_neg fun h => h.2 hn] at hy
    cases hy
    exact ⟨_, Leads.mono (leads_fetch [] rfl (congrArg Except.ok (if_pos hn))) (by decide)⟩
  · by_cases hb : p.bufferOk x.engine.h.txBuffer = true
    · rw [if_pos ⟨hst, hn⟩, if_pos hb] at hy
      cases hy
      exact ⟨_, Leads.mono (.trans (leads_fetch _ rfl (congrArg Except.ok (if_neg hn))) (leads_sendByte hb rfl))
        (by decide)⟩
    · rw [if_pos ⟨hst, hn⟩, if_neg hb] at hy
      cases hy

theorem storeDR_h (q : Word) : (x.storeDR i q).engine.h = x.engine.h := (afterRead_keeps x.engine .dr).1

/-- A byte read from DR and stored at `rxBuffer`, of which `BUF_OK` must accept the address (20 R71). -/
theorem leads_storeDR (hb : p.bufferOk x.engine.h.rxBuffer = true) (hrx : x.engine.regs.sr1.getLsbD 6 = true) :
    Leads p i 3 ⟨x, l, .then .readDR :: .then .getRxBuffer :: .then .memWriteP :: ls⟩
      ⟨x.storeDR i x.engine.h.rxBuffer, { l with b := x.engine.regs.dr, p := x.engine.h.rxBuffer }, ls⟩ := by
  have hbyte : ((x.engine.value .dr).setWidth 8 : Byte) = x.engine.regs.dr := by simp [Engine.value]
  have hh : (x.engine.afterRead .dr).h = x.engine.h := storeDR_h (i := i) 0
  have hread : Leads p i 1 ⟨x, l, .then .readDR :: .then .getRxBuffer :: .then .memWriteP :: ls⟩
      ⟨x.after (x.engine.afterRead .dr) [rDR i x.engine.regs.dr], { l with b := x.engine.regs.dr },
        .then .getRxBuffer :: .then .memWriteP :: ls⟩ :=
    leads_line [] ⟨fun h => h.readDR hrx, fun h => (afterRead_cr1 x.engine .dr).symm ▸ h⟩
      (fun X _ => by simp only [perform, put_regRead, put_eng_same, hbyte]; rfl) rfl
  have hstore : Leads p i 1
      ⟨x.after (x.engine.afterRead .dr) [rDR i x.engine.regs.dr],
        { l with b := x.engine.regs.dr, p := x.engine.h.rxBuffer }, .then .memWriteP :: ls⟩
      ⟨x.storeDR i x.engine.h.rxBuffer, { l with b := x.engine.regs.dr, p := x.engine.h.rxBuffer }, ls⟩ :=
    leads_line [] ⟨id, id⟩ (fun X hX => by
      simp only [perform, put_params, hX, hb, if_true, put_memWrite, Served.storeDR, Served.after, List.append_assoc,
        List.cons_append, List.nil_append]) rfl
  exact .trans hread (.trans (leads_fetch [] (congrArg (Act.fetched · _ _) hh) rfl) hstore)

/-- The end of a receive: STOP unless a repeated start is asked for, the close, and the callback. -/
theorem leads_finishReceive (happ : p.app = []) (he : x.engine.regs.cr1.getLsbD 0 = true) :
    ∃ l', Leads p i 17 ⟨x, l, ⟨.getRepeatedStart, .rxneFinish⟩ :: ls⟩
      ⟨((x.stopUnlessRepeated i).closeRx i).emit i .rxCmplt, l', ls⟩ := by
  have hasks := leads_fetch (p := p) (i := i) (x := x) (l := l) (ls := ls) (a := .getRepeatedStart) (nx := .rxneFinish)
    (genStopUnless x.engine.h.repeatedStartRequested ++ closeRx ++ [.then (.callback .rxCmplt)]) rfl rfl
  rw [List.append_assoc, List.append_assoc] at hasks
  obtain ⟨l₁, hstop⟩ := leads_stopUnlessRepeated he
  obtain ⟨l₂, hclose⟩ := leads_closeRx (hstop.keeps.enabled he)
  exact ⟨l₂, (hasks.trans (hstop.trans (hclose.trans (leads_callback .rxCmplt happ))))⟩

/-- The end of a transmit. -/
theorem leads_finishTransmit (happ : p.app = []) (he : x.engine.regs.cr1.getLsbD 0 = true) :
    ∃ l', Leads p i 13 ⟨x, l, ⟨.getRepeatedStart, .btfFinish⟩ :: ls⟩
      ⟨((x.stopUnlessRepeated i).closeTx i).emit i .txCmplt, l', ls⟩ := by
  have hasks := leads_fetch (p := p) (i := i) (x := x) (l := l) (ls := ls) (a := .getRepeatedStart) (nx := .btfFinish)
    (genStopUnless x.engine.h.repeatedStartRequested ++ closeTx ++ [.then (.callback .txCmplt)]) rfl rfl
  rw [List.append_assoc, List.append_assoc] at hasks
  obtain ⟨l₁, hstop⟩ := leads_stopUnlessRepeated he
  obtain ⟨l₂, hclose⟩ := leads_closeTx
  exact ⟨l₂, (hasks.trans (hstop.trans (hclose.trans (leads_callback .txCmplt happ))))⟩

/-- RXNE_MASTER's last test: the receive ends where no byte is left. -/
theorem leads_ifNoneLeft (happ : p.app = []) (he : x.engine.regs.cr1.getLsbD 0 = true) :
    ∃ l', Leads p i 18 ⟨x, l, ⟨.rereadRxRemaining, .rxneIfNoneLeft⟩ :: ls⟩
      ⟨if x.engine.h.rxRemaining = 0 then ((x.stopUnlessRepeated i).closeRx i).emit i .rxCmplt else x, l', ls⟩ := by
  by_cases hn : x.engine.h.rxRemaining = 0
  · rw [if_pos hn]
    obtain ⟨l', hfinish⟩ := leads_finishReceive happ he
    exact ⟨l', Leads.mono (.trans (leads_fetch _ rfl (congrArg Except.ok (if_pos hn))) hfinish) (by decide)⟩
  · rw [if_neg hn]
    exact ⟨_, Leads.mono (leads_fetch [] rfl (congrArg Except.ok (if_neg hn))) (by decide)⟩

/-- The engine and memory once RXNE_MASTER has stored and counted its byte, `h` the handle before (43 R247). -/
def Served.storeNext (i : Idx) (h : Handle) (z : Served) : Served :=
  (z.storeDR i h.rxBuffer).handle
    { h with
      rxRemaining := h.rxRemaining - 1
      rxBuffer    := if h.rxExpectedTotal = 1 then h.rxBuffer else h.rxBuffer + 1 }

/-- RXNE_MASTER's byte, `n` the count read before: the pointer advances unless the original length was 1. -/
theorem leads_storeNext (hb : p.bufferOk x.engine.h.rxBuffer = true) (hrx : x.engine.regs.sr1.getLsbD 6 = true)
    (hn : l.n = x.engine.h.rxRemaining) :
    ∃ l', Leads p i 5
      ⟨x, l, [.then .readDR, .then .getRxBuffer, .then .memWriteP] ++
        ((if x.engine.h.rxExpectedTotal = 1 then [] else [.then .incRxBuffer]) ++ .then .decRxRemaining :: ls)⟩
      ⟨x.storeNext i x.engine.h, l', ls⟩ := by
  have hh : ∀ q, (x.storeDR i q).engine.h = x.engine.h := storeDR_h
  unfold Served.storeNext
  by_cases ht : x.engine.h.rxExpectedTotal = 1
  · rw [if_pos ht, if_pos ht]
    refine ⟨_, Leads.mono (.trans (leads_storeDR hb hrx) (leads_count ?_)) (by decide)⟩
    rw [hh, ← hn]
    rfl
  · rw [if_neg ht, if_neg ht]
    refine ⟨_, .trans (leads_storeDR hb hrx) (.trans
      (leads_count (h := { x.engine.h with rxBuffer := x.engine.h.rxBuffer + 1 }) ?_) (leads_count ?_))⟩
    · rw [hh]; rfl
    · rw [← hn]; rfl

end Sys2Proof.Machine

/-! The six checks of the event handler (43 R240 to R247): the lines of each serve the controller as `Served` says. -/

namespace Sys2Proof.Machine

variable {p : Params} {i : Idx} {x y z : Served} {l : Locals} {ls more : List Line} {k k' : Nat} {nx : Next}
  {v c : Half}

theorem rxneMasterByte_eq (t n : Word) : rxneMasterByte t n ++ ls =
    (if t ≠ 1 ∧ n = 2 then manageAck false else []) ++ ([.then .readDR, .then .getRxBuffer, .then .memWriteP] ++
      ((if t = 1 then [] else [.then .incRxBuffer]) ++ .then .decRxRemaining ::
        ⟨.rereadRxRemaining, .rxneIfNoneLeft⟩ :: ls)) := by
  by_cases ht : t = 1
  · simp only [rxneMasterByte, ht, if_true, ne_eq, not_true_eq_false, false_and, if_false, List.append_assoc]
    rfl
  · by_cases hn : n = 2 <;> simp only [rxneMasterByte, ht, hn, ne_eq, not_false_eq_true, and_self, and_false, if_true,
      if_false, List.append_assoc] <;> rfl

/-- ACK disabled in the case `P`, else nothing. -/
theorem leads_ackOffIf (P : Prop) [Decidable P] (he : x.engine.regs.cr1.getLsbD 0 = true) :
    ∃ l', l'.n = l.n ∧ Leads p i 2 ⟨x, l, (if P then manageAck false else []) ++ ls⟩
      ⟨if P then x.writeCR1 i (x.engine.regs.cr1 &&& ~~~0x0400) else x, l', ls⟩ := by
  by_cases h : P
  · rw [if_pos h, if_pos h]
    exact ⟨{ l with w := x.engine.regs.cr1.setWidth 32 }, rfl, leads_clearCR1 (mask := cr1ACK) he (by decide) (by decide)⟩
  · rw [if_neg h, if_neg h]
    exact ⟨l, rfl, (Leads.refl _).mono (by decide)⟩

/-- Two bytes are left of more than one: the next is received with ACK off (70 R346). -/
abbrev Handle.NackNext (h : Handle) : Prop := ¬ h.rxExpectedTotal = 1 ∧ h.rxRemaining = 2

/-- The engine before RXNE_MASTER's byte is read. -/
def Served.ackForNext (i : Idx) (x : Served) : Served :=
  if x.engine.h.NackNext then x.writeCR1 i (x.engine.regs.cr1 &&& ~~~0x0400)
  else x

theorem ackForNext_h : (x.ackForNext i).engine.h = x.engine.h := by
  unfold Served.ackForNext; split <;> rfl

/-- A CR1 write leaves RxNE. -/
theorem ackForNext_rxne (h : x.engine.regs.sr1.getLsbD 6 = true) : (x.ackForNext i).engine.regs.sr1.getLsbD 6 = true := by
  unfold Served.ackForNext
  split
  · have hbits := congrArg (·.getLsbD 6)
      (withCR1_sr1_and x.engine (x.engine.regs.cr1 &&& ~~~0x0400) (w := 0x0040) (by decide))
    simp only [BitVec.getLsbD_and, show (0x0040 : Half).getLsbD 6 = true from rfl, Bool.and_true] at hbits
    exact hbits.trans h
  · exact h

/-- RXNE_MASTER as it is served, with a byte left and its buffer byte valid. -/
theorem receiveNext_eq (hn : x.engine.h.rxRemaining ≠ 0) (hb : p.bufferOk x.engine.h.rxBuffer = true) :
    x.receiveNext p i = some (let u := (x.ackForNext i).storeNext i x.engine.h
      if u.engine.h.rxRemaining = 0 then ((u.stopUnlessRepeated i).closeRx i).emit i .rxCmplt else u) := by
  have hlast : (x.engine.h.rxRemaining - 1 = 0) = (x.engine.h.rxRemaining = 1) := propext sub_eq_zero
  dsimp only [Served.receiveNext]
  rw [if_neg hn, if_pos hb]
  simp only [Served.storeNext, Served.handle, hlast]
  rfl

/-- RXNE_MASTER (43 R247). -/
theorem leads_receiveNext (happ : p.app = []) (he : x.engine.regs.cr1.getLsbD 0 = true)
    (hrx : x.engine.regs.sr1.getLsbD 6 = true) (hy : x.receiveNext p i = some y) :
    ∃ l', Leads p i 27 ⟨x, l, rxneMaster ++ ls⟩ ⟨y, l', ls⟩ := by
  by_cases hn : x.engine.h.rxRemaining = 0
  · simp only [Served.receiveNext, hn, if_true, reduceCtorEq] at hy
  by_cases hb : p.bufferOk x.engine.h.rxBuffer = true
  · rw [receiveNext_eq hn hb] at hy
    cases hy
    have hbyte : Leads p i 2 ⟨x, l, rxneMaster ++ ls⟩
        ⟨x, { l with t := x.engine.h.rxExpectedTotal, n := x.engine.h.rxRemaining },
          rxneMasterByte x.engine.h.rxExpectedTotal x.engine.h.rxRemaining ++ ls⟩ :=
      Leads.mono (.trans (leads_fetch [] rfl rfl) (leads_fetch _ rfl (if_neg hn))) (by decide)
    rw [rxneMasterByte_eq] at hbyte
    obtain ⟨l₁, hl₁, hack⟩ := leads_ackOffIf (p := p) (i := i)
      (l := { l with t := x.engine.h.rxExpectedTotal, n := x.engine.h.rxRemaining }) x.engine.h.NackNext he
    have hh : (x.ackForNext i).engine.h = x.engine.h := ackForNext_h
    obtain ⟨l₂, hstore⟩ := leads_storeNext (p := p) (i := i) (x := x.ackForNext i) (l := l₁)
      (ls := ⟨.rereadRxRemaining, .rxneIfNoneLeft⟩ :: ls) (hh ▸ hb) (ackForNext_rxne hrx) (hh ▸ hl₁)
    rw [hh] at hstore
    have hstored := hbyte.trans (hack.trans hstore)
    obtain ⟨l₃, hend⟩ := leads_ifNoneLeft happ (hstored.keeps.enabled he)
    exact ⟨l₃, hstored.trans hend⟩
  · simp only [Served.receiveNext, hn, hb, if_false, Bool.false_eq_true, reduceCtorEq] at hy

/-! ## The six checks (43 R240 to R246) -/

/-- The lines `ls` serve the controller from `x` to `y` in at most `k` boundaries, whatever the locals and the lines after
them. -/
def Serves (p : Params) (i : Idx) (k : Nat) (ls : List Line) (x y : Served) : Prop :=
  ∀ l rest, ∃ l', Leads p i k ⟨x, l, ls ++ rest⟩ ⟨y, l', rest⟩

theorem Serves.append {ls' : List Line} (h : Serves p i k ls x y) (h' : Serves p i k' ls' y z) :
    Serves p i (k + k') (ls ++ ls') x z := by
  intro l rest
  obtain ⟨l₁, h₁⟩ := h l (ls' ++ rest)
  obtain ⟨l₂, h₂⟩ := h' l₁ rest
  exact ⟨l₂, List.append_assoc .. ▸ h₁.trans h₂⟩

theorem Serves.keeps (h : Serves p i k ls x y) : x.Keeps y := by
  obtain ⟨_, h⟩ := h .init []
  exact h.keeps

/-- The test of a check, in bits of its sample; what is no check has no test to fail. -/
def Next.flagged (c v : Half) : Next → Bool
  | .sbEvent => c.getLsbD 9 && v.getLsbD 0
  | .addrEvent => c.getLsbD 9 && v.getLsbD 1
  | .btfEvent => c.getLsbD 9 && v.getLsbD 2
  | .stopfEvent => c.getLsbD 9 && v.getLsbD 4
  | .txeEvent => c.getLsbD 9 && c.getLsbD 10 && v.getLsbD 7
  | .rxneEvent => c.getLsbD 9 && c.getLsbD 10 && v.getLsbD 6
  | _ => true

/-- A check whose test fails goes on to the next. -/
theorem go_unflagged {f : Frame} (hc : f.loc.c = c.setWidth 32) (hv : f.loc.v = v.setWidth 32)
    (h : nx.flagged c v = false) : nx.go p f = .ok f := by
  cases nx <;> simp only [Next.flagged, reduceCtorEq] at h
  case sbEvent => rw [go_sbEvent hc hv, h]; rfl
  case addrEvent => rw [go_addrEvent hc hv, h]; rfl
  case btfEvent => rw [go_btfEvent hc hv, h]; rfl
  case stopfEvent => rw [go_stopfEvent hc hv, h]; rfl
  case txeEvent => rw [go_txeEvent hc hv, h]; rfl
  case rxneEvent => rw [go_rxneEvent hc hv, h]; rfl

theorem Serves.mono (h : Serves p i k ls x y) (hk : k ≤ k') : Serves p i k' ls x y := fun l rest =>
  (h l rest).imp fun _ h => h.mono hk

/-- A check whose test fails only samples. -/
theorem serves_idle (h : nx.flagged x.engine.regs.cr2 x.engine.regs.sr1 = false) :
    Serves p i 2 (check nx) x (x.sampled i) := fun _ _ => ⟨_, leads_check [] fun _ hc hv => go_unflagged hc hv h⟩

/-- A check whose test holds acts by the lines `more`. -/
theorem serves_flagged {t : Bool} (h : t = true)
    (hgo : ∀ f : Frame, f.loc.c = x.engine.regs.cr2.setWidth 32 → f.loc.v = x.engine.regs.sr1.setWidth 32 →
      nx.go p f = .ok (if t then f.insert more else f))
    (hact : ∀ (l : Locals) (rest : List Line), ∃ l',
      Leads p i k ⟨x.sampled i, l.sampling x.engine, more ++ rest⟩ ⟨y, l', rest⟩) :
    Serves p i (2 + k) (check nx) x y := fun l rest =>
  (hact l rest).imp fun _ h' => .trans (leads_check _ fun f hc hv => (hgo f hc hv).trans (congrArg _ (if_pos h))) h'

@[simp] theorem served_sampled_regs : (x.sampled i).engine.regs = x.engine.regs := (rfl)
@[simp] theorem served_sampled_h : (x.sampled i).engine.h = x.engine.h := (rfl)

/-- A check as its test goes: it acts by the lines `more`, or only samples. -/
theorem serves_check {t : Prop} [Decidable t] (ht : t ↔ nx.flagged x.engine.regs.cr2 x.engine.regs.sr1 = true)
    (hgo : ∀ f : Frame, f.loc.c = x.engine.regs.cr2.setWidth 32 → f.loc.v = x.engine.regs.sr1.setWidth 32 →
      nx.go p f = .ok (if nx.flagged x.engine.regs.cr2 x.engine.regs.sr1 then f.insert more else f))
    (hact : t → ∀ (l : Locals) (rest : List Line), ∃ l',
      Leads p i k ⟨x.sampled i, l.sampling x.engine, more ++ rest⟩ ⟨y, l', rest⟩) :
    Serves p i (2 + k) (check nx) x (if t then y else x.sampled i) := by
  by_cases h : t
  · rw [if_pos h]
    exact serves_flagged (ht.mp h) hgo (hact h)
  · rw [if_neg h]
    exact (serves_idle (Bool.eq_false_iff.mpr (mt ht.mpr h))).mono (by omega)

/-- CLEAR_ADDR (40 R153). -/
theorem leads_clearAddr (he : x.engine.regs.cr1.getLsbD 0 = true) :
    let z := if x.engine.h.transferState = .busyRx ∧ x.engine.h.rxExpectedTotal = 1 then
      x.writeCR1 i (x.engine.regs.cr1 &&& ~~~0x0400) else x
    ∃ l', Leads p i 6 ⟨x, l, clearAddr ++ ls⟩
      ⟨z.after z.engine.withAddrCleared [rSR1 i z.engine.regs.sr1, rSR2 i z.engine.regs.sr2], l', ls⟩ := by
  intro z
  by_cases hrx : x.engine.h.transferState = .busyRx
  · by_cases hone : x.engine.h.rxExpectedTotal = 1
    · have hz : z = _ := if_pos ⟨hrx, hone⟩
      rw [hz]
      exact ⟨_, Leads.mono (.trans (leads_fetch _ rfl (congrArg Except.ok (if_pos hrx))) <|
        .trans (leads_fetch _ rfl (congrArg Except.ok (if_pos hone))) <|
        .trans (leads_clearCR1 (mask := cr1ACK) he (by decide) (by decide)) leads_readSequence) (by decide)⟩
    · have hz : z = x := if_neg fun h => hone h.2
      rw [hz]
      exact ⟨_, Leads.mono (.trans (leads_fetch _ rfl (congrArg Except.ok (if_pos hrx))) <|
        .trans (leads_fetch [] rfl (congrArg Except.ok (if_neg hone))) leads_readSequence) (by decide)⟩
  · have hz : z = x := if_neg fun h => hrx h.1
    rw [hz]
    exact ⟨_, Leads.mono (.trans (leads_fetch [] rfl (congrArg Except.ok (if_neg hrx))) leads_readSequence) (by decide)⟩

/-- The lines that send the address byte of a BUSY state's direction (43 R241). -/
def addressLines : TransferState → List Line
  | .ready => []
  | .busyTx => [.then .getTarget, .then (.sendTarget .write)]
  | .busyRx => [.then .getTarget, .then (.sendTarget .read)]

theorem go_sbByState {f : Frame} {st : TransferState} (h : f.loc.s = st) :
    Next.sbByState.go p f = .ok (f.insert (addressLines st)) := by
  cases st <;> simp only [Next.go, h] <;> rfl

/-- The check of SB (43 R241). -/
theorem serves_checkSB : Serves p i 5 (check .sbEvent) x (x.checkSB i) := by
  refine serves_check (k := 3) (by simp [Next.flagged]) (fun _ => go_sbEvent) fun _ l rest => ?_
  have hstate := leads_fetch (p := p) (i := i) (x := x.sampled i) (l := l.sampling x.engine) (ls := rest)
    (a := .getState) (nx := .sbByState) (addressLines x.engine.h.transferState) rfl (go_sbByState rfl)
  rw [served_sampled_h]
  cases hst : x.engine.h.transferState <;> rw [hst] at hstate
  case ready => exact ⟨_, hstate.mono (by decide)⟩
  case busyTx => exact ⟨_, hstate.trans (.trans (leads_fetch [] rfl rfl) (leads_sendTarget .write))⟩
  case busyRx => exact ⟨_, hstate.trans (.trans (leads_fetch [] rfl rfl) (leads_sendTarget .read))⟩

/-- The check of ADDR (43 R242). -/
theorem serves_checkADDR (he : x.engine.regs.cr1.getLsbD 0 = true) :
    Serves p i 8 (check .addrEvent) x (x.checkADDR i) :=
  serves_check (k := 6) (by simp [Next.flagged]) (fun _ => go_addrEvent) fun _ _ _ => leads_clearAddr he

/-- The check of STOPF (43 R244). -/
theorem serves_checkSTOPF (happ : p.app = []) (he : x.engine.regs.cr1.getLsbD 0 = true) :
    Serves p i 7 (check .stopfEvent) x (x.checkSTOPF i) := by
  refine serves_check (k := 5) (by simp [Next.flagged]) (fun _ => go_stopfEvent) fun _ l rest => ?_
  have hsame : x.engine.regs.cr1 ||| 0 = x.engine.regs.cr1 := BitVec.or_zero
  have hack := leads_setCR1 (p := p) (i := i) (x := x.sampled i) (l := l.sampling x.engine) (mask := 0)
    (ls := .then (.callback .stop) :: rest) he (by decide)
  rw [served_sampled_regs, hsame] at hack
  exact ⟨_, hack.trans (leads_callback .stop happ)⟩

/-- BTF with TxE in `BUSY_TX` and no byte left: the end of a transmit (43 R243). -/
def Served.TransmitEnded (x : Served) : Prop :=
  x.engine.regs.sr1.getLsbD 2 = true ∧ x.engine.h.transferState = .busyTx ∧ x.engine.regs.sr1.getLsbD 7 = true ∧
    x.engine.h.txRemaining = 0

theorem checkBTF_idle (h : ¬ x.TransmitEnded) : x.checkBTF i = x.sampled i := if_neg fun h' => h h'.2

/-- The check of BTF (43 R243). -/
theorem serves_checkBTF (happ : p.app = []) (he : x.TransmitEnded → x.engine.regs.cr1.getLsbD 0 = true) :
    Serves p i 17 (check .btfEvent) x (x.checkBTF i) := by
  have hsplit : x.checkBTF i = if x.engine.regs.cr2.getLsbD 9 = true ∧ x.engine.regs.sr1.getLsbD 2 = true then
      if x.engine.h.transferState = .busyTx ∧ x.engine.regs.sr1.getLsbD 7 = true then
        if x.engine.h.txRemaining = 0 then (((x.sampled i).stopUnlessRepeated i).closeTx i).emit i .txCmplt
        else x.sampled i
      else x.sampled i
    else x.sampled i := by
    simp only [Served.checkBTF, served_sampled_regs, served_sampled_h, ← ite_and, and_assoc]
  rw [hsplit]
  refine serves_check (k := 15) (by simp [Next.flagged]) (fun _ => go_btfEvent) fun hflag l rest => ?_
  have hv : sampled (l.sampling x.engine).v sr1TxE = x.engine.regs.sr1.getLsbD 7 := by
    rw [Locals.sampling, sampled_setWidth, anyBit_TxE]
  by_cases hst : x.engine.h.transferState = .busyTx ∧ x.engine.regs.sr1.getLsbD 7 = true
  · have hstate {ls : List Line} : Leads p i 1 ⟨x.sampled i, l.sampling x.engine, ⟨.getState, .btfByState⟩ :: ls⟩
        ⟨x.sampled i, { l.sampling x.engine with s := x.engine.h.transferState },
          ⟨.getTxRemaining, .btfIfNoneLeft⟩ :: ls⟩ :=
      leads_fetch [_] rfl (congrArg Except.ok (if_pos ⟨hst.1, hv.trans hst.2⟩))
    rw [if_pos hst]
    by_cases hn : x.engine.h.txRemaining = 0
    · rw [if_pos hn]
      obtain ⟨l', hend⟩ := leads_finishTransmit happ (x := x.sampled i) (he ⟨hflag.2, hst.1, hst.2, hn⟩)
      exact ⟨l', .trans hstate (.trans (leads_fetch [_] rfl (congrArg Except.ok (if_pos hn))) hend)⟩
    · rw [if_neg hn]
      exact ⟨_, Leads.mono (hstate.trans (leads_fetch [] rfl (congrArg Except.ok (if_neg hn)))) (by decide)⟩
  · rw [if_neg hst]
    exact ⟨_, Leads.mono (leads_fetch [] rfl (congrArg Except.ok (if_neg fun h => hst ⟨h.1, hv.symm.trans h.2⟩)))
      (by decide)⟩

theorem go_txeByRole {f : Frame} (hu : f.loc.u = v.setWidth 32) : Next.txeByRole.go p f =
    .ok (if v.getLsbD 0 then f.insert [⟨.getState, .txeByState⟩]
      else if v.getLsbD 2 then f.insert [.then (.callback .dataReq)] else f) := by
  simp only [Next.go, hu, sampled_setWidth, anyBit_MSL, anyBit_TRA]

theorem go_rxneByRole {f : Frame} (hu : f.loc.u = v.setWidth 32) : Next.rxneByRole.go p f =
    .ok (if v.getLsbD 0 then f.insert [⟨.getState, .rxneByState⟩]
      else if v.getLsbD 2 then f else f.insert [.then (.callback .dataRcv)]) := by
  simp only [Next.go, hu, sampled_setWidth, anyBit_MSL, anyBit_TRA]

/-- An SR2 read leaves RxNE. -/
theorem readSR2_rxne (h : x.engine.regs.sr1.getLsbD 6 = true) : (x.readSR2 i).engine.regs.sr1.getLsbD 6 = true := by
  unfold Served.readSR2 Served.after
  dsimp only
  rw [afterRead_sr2]
  split
  · rw [BitVec.getLsbD_and, h]; rfl
  · exact h

/-- The check of TxE, where it is not stuck (43 R245). -/
theorem serves_checkTXE (happ : p.app = []) (hy : x.checkTXE p i = some y) :
    Serves p i 10 (check .txeEvent) x y := by
  dsimp only [Served.checkTXE] at hy
  split at hy
  · next ht =>
    refine serves_flagged (k := 8) (by simpa [and_assoc] using ht) (fun _ => go_txeEvent) fun l rest => ?_
    have hrole {more : List Line} := leads_readSR2 (p := p) (i := i) (x := x.sampled i) (l := l.sampling x.engine)
      (ls := rest) (nx := .txeByRole) more
    split at hy
    · next hm =>
      have hmaster := hrole ((go_txeByRole rfl).trans (congrArg Except.ok (if_pos hm)))
      by_cases hst : ((x.sampled i).readSR2 i).engine.h.transferState = .busyTx
      · obtain ⟨l', hsend⟩ := leads_sendNext hst hy
        exact ⟨l', hmaster.trans (.trans (leads_fetch [_] rfl (congrArg Except.ok (if_pos hst))) hsend)⟩
      · dsimp only [Served.sendNext] at hy
        rw [if_neg fun h => hst h.1] at hy
        cases hy
        exact ⟨_, (hmaster.trans (leads_fetch [] rfl (congrArg Except.ok (if_neg hst)))).mono (by decide)⟩
    · next hm =>
      split at hy <;> cases hy
      · next ht =>
        exact ⟨_, Leads.mono (.trans
          (hrole ((go_txeByRole rfl).trans (congrArg Except.ok ((if_neg hm).trans (if_pos ht)))))
          (leads_callback .dataReq happ)) (by decide)⟩
      · next ht =>
        exact ⟨_, (hrole (more := [])
          ((go_txeByRole rfl).trans (congrArg Except.ok ((if_neg hm).trans (if_neg ht))))).mono (by decide)⟩
  · next ht =>
    cases hy
    exact (serves_idle (Bool.eq_false_iff.mpr fun h => ht (by simpa [Next.flagged, and_assoc] using h))).mono (by decide)

/-- The check of RxNE, where it is not stuck and raises no fault (43 R246, R247). -/
theorem serves_checkRXNE (happ : p.app = [])
    (he : x.engine.regs.cr2.getLsbD 10 = true → x.engine.regs.sr1.getLsbD 6 = true → x.engine.regs.sr2.getLsbD 0 = true →
      x.engine.h.transferState = .busyRx → x.engine.regs.cr1.getLsbD 0 = true)
    (hy : x.checkRXNE p i = some y) : Serves p i 31 (check .rxneEvent) x y := by
  dsimp only [Served.checkRXNE] at hy
  split at hy
  · next ht =>
    refine serves_flagged (k := 29) (by simpa [and_assoc] using ht) (fun _ => go_rxneEvent) fun l rest => ?_
    obtain ⟨-, h10, h6⟩ := ht
    have hrole {more : List Line} := leads_readSR2 (p := p) (i := i) (x := x.sampled i) (l := l.sampling x.engine)
      (ls := rest) (nx := .rxneByRole) more
    split at hy
    · next hm =>
      have hmaster := hrole ((go_rxneByRole rfl).trans (congrArg Except.ok (if_pos hm)))
      split at hy
      · next hst =>
        have hrx : ((x.sampled i).readSR2 i).engine.regs.sr1.getLsbD 6 = true := readSR2_rxne h6
        obtain ⟨l', hreceive⟩ := leads_receiveNext happ (hmaster.keeps.enabled (he h10 h6 hm hst)) hrx hy
        exact ⟨l', hmaster.trans (.trans (leads_fetch rxneMaster rfl (congrArg Except.ok (if_pos hst))) hreceive)⟩
      · next hst =>
        cases hy
        exact ⟨_, (hmaster.trans (leads_fetch [] rfl (congrArg Except.ok (if_neg hst)))).mono (by decide)⟩
    · next hm =>
      split at hy <;> cases hy
      · next ht =>
        exact ⟨_, (hrole (more := [])
          ((go_rxneByRole rfl).trans (congrArg Except.ok ((if_neg hm).trans (if_pos ht))))).mono (by decide)⟩
      · next ht =>
        exact ⟨_, Leads.mono (.trans
          (hrole ((go_rxneByRole rfl).trans (congrArg Except.ok ((if_neg hm).trans (if_neg ht)))))
          (leads_callback .dataRcv happ)) (by decide)⟩
  · next ht =>
    cases hy
    exact (serves_idle (Bool.eq_false_iff.mpr fun h => ht (by simpa [Next.flagged, and_assoc] using h))).mono (by decide)

end Sys2Proof.Machine

/-! EV_IRQ as its six checks, from its entry to its return, and checks that find nothing. -/

namespace Sys2Proof.Machine

variable {s X : State} {p : Params} {i : Idx} {e e' : Engine} {x y : Served} {k n : Nat} {below : List Frame}
  {v c mask w : Half} {tr : List Event}

/-! ## EV_IRQ from its entry to its return -/

/-- What EV_IRQ starts with: the controller with its latches up to date, no access made. -/
def State.served (s : State) (i : Idx) : Served := ⟨(s.eng i).latchPending, [], s.mem⟩

/-- EV_IRQ from its first line, its latches brought up to date: the first boundary does so before anything is tested. -/
theorem exec_evIrq_latched (hh : X.Has i) (hq : X.Quiet) :
    exec (.evIrq i) (X.enter ⟨.ev, i, handlerLines .ev, Locals.init, .none⟩) =
      .next (advance 128 X.depth (Stage.over ⟨X.served i, Locals.init, evIrq⟩ X i)) := by
  have hL : (X.eng i).latchPending.Latched := Engine.latched_latchPending _
  have hgo := (go_sbEvent (p := X.params) (f := ⟨.ev, i,
    check .addrEvent ++ check .btfEvent ++ check .stopfEvent ++ check .txeEvent ++ check .rxneEvent,
    { Locals.init with
      c := (X.eng i).latchPending.regs.cr2.setWidth 32
      v := (X.eng i).latchPending.regs.sr1.setWidth 32 }, .none⟩) rfl rfl)
  have hrun := advance_check (X := X.latchAll) (i := i) (tr := []) (m := X.mem) (l := Locals.init) (n := 128)
    (rest := check .addrEvent ++ check .btfEvent ++ check .stopfEvent ++ check .txeEvent ++ check .rxneEvent)
    (nx := .sbEvent) (by decide) (rfl : X.latchAll.depth = X.depth) (by simpa using hq) (latchAll_twice X) hL
  rw [exec_evIrq_entered hh hq rfl hgo]
  refine congrArg _ (Eq.symm (hrun.trans ?_))
  rw [latchAll_params, hgo]
  rfl

/-- EV_IRQ gets through the lines it has served, over the state `X` below it. -/
theorem exec_evIrq_leads {b : Stage} (h : s.EventEntry i below)
    (hl : Leads s.params i k ⟨s.served i, Locals.init, evIrq⟩ b) (hk : k < 128) :
    let X : State := { s with handlers := below }
    ∃ n, 128 ≤ n + k ∧ exec (.evIrq i) s = .next (advance n X.depth (b.over X i)) := by
  intro X
  obtain ⟨n, hn, hrun⟩ := hl.run (Engine.latched_latchPending _) X 128 h.quiet rfl hk
  exact ⟨n, hn, (congrArg (exec _) h.entered.eq_enter).trans
    ((exec_evIrq_latched (X := X) h.has h.quiet).trans (congrArg _ hrun))⟩

/-- EV_IRQ whose lines serve the controller to `y` completes, and has done what `y` says. -/
theorem exec_evIrq_serves (h : s.EventEntry i below) (hs : Serves s.params i k evIrq (s.served i) y) (hk : k < 127) :
    ∃ t, exec (.evIrq i) s = .next t ∧ Effect s t i y.engine y.events ∧ t.mem = y.mem ∧ HandlerReturned s t below := by
  obtain ⟨l', hl⟩ := hs Locals.init []
  obtain ⟨n, hn, hrun⟩ := exec_evIrq_leads h hl (by omega)
  have hL := hl.keeps.latched (Engine.latched_latchPending _)
  refine ⟨_, hrun.trans (congrArg _ (advance_evIrq_return h.quiet (by omega) hL)), ?_, rfl, rfl, rfl⟩
  obtain ⟨h₁, h₂, h₃, h₄, h₅, h₆, h₇, h₈⟩ := effect_put (s := { s with handlers := below }) (i := i) (e := y.engine)
    (tr := y.events) (m := y.mem)
  exact ⟨h₁, h₂, h₃, h₄, h₅, h₆, h₇, h₈⟩

/-- EV_IRQ from its six checks, in their order (43 R240). -/
theorem serves_evIrq {k₁ k₂ k₃ k₄ k₅ k₆ : Nat} {y₁ y₂ y₃ y₄ y₅ : Served} (h₁ : Serves p i k₁ (check .sbEvent) x y₁)
    (h₂ : Serves p i k₂ (check .addrEvent) y₁ y₂) (h₃ : Serves p i k₃ (check .btfEvent) y₂ y₃)
    (h₄ : Serves p i k₄ (check .stopfEvent) y₃ y₄) (h₅ : Serves p i k₅ (check .txeEvent) y₄ y₅)
    (h₆ : Serves p i k₆ (check .rxneEvent) y₅ y) : Serves p i (k₁ + k₂ + k₃ + k₄ + k₅ + k₆) evIrq x y :=
  ((((h₁.append h₂).append h₃).append h₄).append h₅).append h₆

/-- Whatever flags are set, the entry is its six checks. -/
theorem exec_evIrq_sixChecks (h : s.EventEntry i below) (he : s.Enabled i)
    (hy : Served.sixChecks s.params i (s.served i) = some y) :
    ∃ t, exec (.evIrq i) s = .next t ∧ Effect s t i y.engine y.events ∧ t.mem = y.mem ∧ HandlerReturned s t below := by
  obtain ⟨y₅, hy₅, hy₆⟩ := Option.bind_eq_some_iff.mp hy
  have h₁ : Serves s.params i 5 _ (s.served i) _ := serves_checkSB
  have he₁ := h₁.keeps.enabled he
  have h₂ := serves_checkADDR (p := s.params) (i := i) he₁
  have he₂ := h₂.keeps.enabled he₁
  have h₃ := serves_checkBTF (i := i) h.noop fun _ => he₂
  have he₃ := h₃.keeps.enabled he₂
  have h₄ := serves_checkSTOPF (i := i) h.noop he₃
  have h₅ := serves_checkTXE h.noop hy₅
  have h₆ := serves_checkRXNE h.noop (fun _ _ _ _ => h₅.keeps.enabled (h₄.keeps.enabled he₃)) hy₆
  exact exec_evIrq_serves h (serves_evIrq h₁ h₂ h₃ h₄ h₅ h₆) (by decide)

/-! ## Checks that find nothing -/

theorem after_after {e e' : Engine} {t t' : List Event} : (x.after e t).after e' t' = x.after e' (t ++ t') := by
  simp only [Served.after, List.append_assoc]

theorem after_engine : (x.after e tr).engine = e := rfl

/-- `n` checks that find nothing to do: the accesses of their samples, and the latches of the last. -/
def Served.idle (i : Idx) (n : Nat) (x : Served) : Served :=
  x.after x.engine.sampledSR1 (idleChecks i n x.engine.regs.cr2 x.engine.regs.sr1)

theorem sampled_eq_idle : x.sampled i = x.idle i 1 := by simp [Served.sampled, Served.idle, idleChecks]

theorem idle_idle : (x.idle i k).idle i n = x.idle i (k + n) := by
  simp only [Served.idle, Served.after, Engine.sampledSR1, idleChecks, List.replicate_add, List.flatten_append,
    List.append_assoc]

/-- Several checks in a row that find nothing. -/
theorem serves_idleChecks (nx : Next) (nxs : List Next)
    (h : ∀ m ∈ nx :: nxs, m.flagged x.engine.regs.cr2 x.engine.regs.sr1 = false) :
    Serves p i (2 * nxs.length + 2) ((nx :: nxs).flatMap check) x (x.idle i (nxs.length + 1)) := by
  have hfirst : Serves p i 2 (check nx) x (x.sampled i) := serves_idle (h nx List.mem_cons_self)
  induction nxs generalizing nx x with
  | nil =>
    rw [sampled_eq_idle] at hfirst
    simpa using hfirst
  | cons m nxs ih =>
    have htail := fun a ha => h a (List.mem_cons_of_mem _ ha)
    have hrest := ih (x := x.sampled i) m htail (serves_idle (htail m List.mem_cons_self))
    rw [sampled_eq_idle, idle_idle, Nat.add_comm 1] at hrest
    exact (hfirst.append hrest).mono (by simp only [List.length_cons]; omega)

/-- The flags of SR1 under a mask. -/
theorem flag_of_mask (h : v &&& mask = w) (hk : mask.getLsbD k = true) : v.getLsbD k = w.getLsbD k := by
  rw [← h, BitVec.getLsbD_and, hk, Bool.and_true]

/-- The flag of SR1 a check tests; no bit of SR1 for what is not a check. -/
def Next.bit : Next → Nat
  | .sbEvent => 0
  | .addrEvent => 1
  | .btfEvent => 2
  | .stopfEvent => 4
  | .txeEvent => 7
  | .rxneEvent => 6
  | _ => 16

/-- Checks whose flags SR1 does not show, as far as `mask` tells. -/
theorem unflagged_of_mask {nxs : List Next} (hv : v &&& mask = w)
    (hm : ∀ m ∈ nxs, mask.getLsbD m.bit = true ∧ w.getLsbD m.bit = false := by decide) :
    ∀ m ∈ nxs, m.flagged c v = false := by
  intro m hmem
  obtain ⟨hmask, hw⟩ := hm m hmem
  have hbit : v.getLsbD m.bit = false := (flag_of_mask hv hmask).trans hw
  cases m <;> dsimp only [Next.bit] at hbit hmask
  case sbEvent | addrEvent | btfEvent | stopfEvent | txeEvent | rxneEvent => simp only [Next.flagged, hbit, Bool.and_false]
  all_goals exact absurd (BitVec.lt_of_getLsbD hmask) (by decide)

/-- Checks while events are masked. -/
theorem unflagged_of_masked {nxs : List Next} (hc : c.getLsbD 9 = false) (hbit : ∀ m ∈ nxs, m.bit < 16 := by decide) :
    ∀ m ∈ nxs, m.flagged c v = false := by
  intro m hmem
  have hlt := hbit m hmem
  cases m <;> dsimp only [Next.bit] at hlt
  case sbEvent | addrEvent | btfEvent | stopfEvent | txeEvent | rxneEvent => simp only [Next.flagged, hc, Bool.false_and]
  all_goals omega

/-- The checks of the buffer events while those are masked. -/
theorem unflagged_of_bufferMasked (hc : c.getLsbD 10 = false) :
    ∀ m ∈ [.txeEvent, .rxneEvent], Next.flagged c v m = false := by
  simp only [List.forall_mem_cons, Next.flagged, hc, Bool.and_false, Bool.false_and, List.not_mem_nil, false_imp_iff,
    implies_true, and_self]

/-- An event statement from what its six checks serve. -/
theorem exec_evIrq_effect (h : s.EventEntry i below) (hs : Serves s.params i k evIrq (s.served i) y)
    (he : y.engine = e') (htr : y.events = tr) (hm : y.mem = s.mem) (hk : k < 127 := by decide) :
    ∃ t, exec (.evIrq i) s = .next t ∧ Effect s t i e' tr ∧ SameMemory s t ∧ HandlerReturned s t below := by
  obtain ⟨t, ht, heff, hmem, hret⟩ := exec_evIrq_serves h hs hk
  subst he htr
  exact ⟨t, ht, heff, fun a => congrArg (Memory.read · a.toNat) (hmem.trans hm), hret⟩

/-- An entry none of whose checks finds its flag. -/
theorem exec_evIrq_idle (h : s.EventEntry i below)
    (hoff : ∀ m ∈ [.sbEvent, .addrEvent, .btfEvent, .stopfEvent, .txeEvent, .rxneEvent],
      Next.flagged (s.eng i).latchPending.regs.cr2 (s.eng i).latchPending.regs.sr1 m = false) :
    ∃ t, exec (.evIrq i) s = .next t ∧ Effect s t i (s.eng i).latchPending.sampledSR1
      (idleChecks i 6 (s.eng i).latchPending.regs.cr2 (s.eng i).latchPending.regs.sr1) ∧ SameMemory s t ∧
      HandlerReturned s t below :=
  exec_evIrq_effect (k := 12) h (serves_idleChecks (x := s.served i) _ _ hoff) rfl rfl rfl

/-- A check of BTF that does not end a transmit. -/
theorem serves_checkBTF_idle (happ : p.app = []) (h : ¬ x.TransmitEnded) :
    Serves p i 17 (check .btfEvent) x (x.idle i 1) := by
  have hbtf := serves_checkBTF (p := p) (i := i) happ fun h' => absurd h' h
  rwa [checkBTF_idle h, sampled_eq_idle] at hbtf

/-- An SR2 read clears no ADDR that the last SR1 read has not seen (20 R76). -/
theorem readSR2_unlatched (h : x.engine.lat.addr = false) : x.readSR2 i = x.after x.engine [rSR2 i x.engine.regs.sr2] := by
  rw [Served.readSR2, afterRead_sr2, h]
  rfl

/-- The SR2 read of a check that samples no ADDR. -/
theorem readSR2_sampled (h : x.engine.regs.sr1.getLsbD 1 = false) :
    (x.sampled i).readSR2 i = x.after x.engine.sampledSR1
      (sample i x.engine.regs.cr2 x.engine.regs.sr1 ++ [rSR2 i x.engine.regs.sr2]) := by
  rw [readSR2_unlatched h, Served.sampled]
  simp only [Served.after, List.append_assoc]
  rfl

/-- A check of TxE as master that has no byte to send. -/
theorem checkTXE_nothing (h1 : x.engine.regs.sr1.getLsbD 1 = false) (h9 : x.engine.regs.cr2.getLsbD 9 = true)
    (h : x.engine.regs.cr2.getLsbD 10 = true → x.engine.regs.sr1.getLsbD 7 = true → x.engine.regs.sr2.getLsbD 0 = true ∧
      (x.engine.h.transferState ≠ .busyTx ∨ x.engine.h.txRemaining = 0)) :
    x.checkTXE p i = some (x.after x.engine.sampledSR1 (sample i x.engine.regs.cr2 x.engine.regs.sr1 ++
      if x.engine.regs.cr2.getLsbD 10 && x.engine.regs.sr1.getLsbD 7 then [rSR2 i x.engine.regs.sr2] else [])) := by
  rw [Served.checkTXE, readSR2_sampled h1]
  by_cases hflag : (x.engine.regs.cr2.getLsbD 10 && x.engine.regs.sr1.getLsbD 7) = true
  · rw [if_pos hflag]
    obtain ⟨h10, h7⟩ := Bool.and_eq_true_iff.mp hflag
    obtain ⟨hmaster, hnone⟩ := h h10 h7
    refine (if_pos ⟨h9, h10, h7⟩).trans ((if_pos hmaster).trans (if_neg fun hnext => ?_))
    exact hnone.elim (absurd hnext.1) (absurd · hnext.2)
  · rw [if_neg hflag]
    exact (if_neg fun hall => hflag (Bool.and_eq_true_iff.mpr hall.2)).trans (by simp [Served.sampled])

/-- A check of RxNE as master outside `BUSY_RX`. -/
theorem checkRXNE_nothing (h1 : x.engine.regs.sr1.getLsbD 1 = false) (h9 : x.engine.regs.cr2.getLsbD 9 = true)
    (h : x.engine.regs.cr2.getLsbD 10 = true → x.engine.regs.sr1.getLsbD 6 = true → x.engine.regs.sr2.getLsbD 0 = true ∧
      x.engine.h.transferState ≠ .busyRx) :
    x.checkRXNE p i = some (x.after x.engine.sampledSR1 (sample i x.engine.regs.cr2 x.engine.regs.sr1 ++
      if x.engine.regs.cr2.getLsbD 10 && x.engine.regs.sr1.getLsbD 6 then [rSR2 i x.engine.regs.sr2] else [])) := by
  rw [Served.checkRXNE, readSR2_sampled h1]
  by_cases hflag : (x.engine.regs.cr2.getLsbD 10 && x.engine.regs.sr1.getLsbD 6) = true
  · rw [if_pos hflag]
    obtain ⟨h10, h6⟩ := Bool.and_eq_true_iff.mp hflag
    obtain ⟨hmaster, hother⟩ := h h10 h6
    exact (if_pos ⟨h9, h10, h6⟩).trans ((if_pos hmaster).trans (if_neg hother))
  · rw [if_neg hflag]
    exact (if_neg fun hall => hflag (Bool.and_eq_true_iff.mpr hall.2)).trans (by simp [Served.sampled])

theorem idleChecks_succ (n : Nat) : idleChecks i (n + 1) c v = idleChecks i n c v ++ sample i c v := by
  simp only [idleChecks, List.replicate_succ', List.flatten_append, List.flatten_singleton]

/-- The first four checks, with no SB, ADDR or STOPF and no transmit at its end. -/
theorem serves_firstFour_idle (happ : p.app = []) (hx : x.engine.regs.sr1 &&& 0x0013 = 0) (hended : ¬ x.TransmitEnded) :
    Serves p i 23 (check .sbEvent ++ check .addrEvent ++ check .btfEvent ++ check .stopfEvent) x (x.idle i 4) := by
  have h₁₂ := serves_idleChecks (p := p) (i := i) (x := x) .sbEvent [.addrEvent] (unflagged_of_mask hx)
  have h₃ := serves_checkBTF_idle (i := i) (x := x.idle i 2) happ hended
  have hs := (h₁₂.append h₃).append (serves_idleChecks .stopfEvent [] (unflagged_of_mask hx))
  rw [idle_idle, idle_idle] at hs
  exact hs

/-- EV_IRQ where every flag has nothing to do. -/
theorem serves_evIrq_nothing (happ : p.app = []) (h9 : x.engine.regs.cr2.getLsbD 9 = true)
    (hx : x.engine.regs.sr1 &&& 0x0013 = 0)
    (hbtf : x.engine.regs.sr1.getLsbD 2 = true → x.engine.h.transferState ≠ .busyTx ∨ x.engine.regs.sr1.getLsbD 7 = false ∨
      x.engine.h.txRemaining ≠ 0)
    (htxe : x.engine.regs.cr2.getLsbD 10 = true → x.engine.regs.sr1.getLsbD 7 = true → x.engine.regs.sr2.getLsbD 0 = true ∧
      (x.engine.h.transferState ≠ .busyTx ∨ x.engine.h.txRemaining = 0))
    (hrxne : x.engine.regs.cr2.getLsbD 10 = true → x.engine.regs.sr1.getLsbD 6 = true →
      x.engine.regs.sr2.getLsbD 0 = true ∧ x.engine.h.transferState ≠ .busyRx) :
    Serves p i 64 evIrq x (x.after x.engine.sampledSR1 (idleChecks i 5 x.engine.regs.cr2 x.engine.regs.sr1 ++
      (if x.engine.regs.cr2.getLsbD 10 && x.engine.regs.sr1.getLsbD 7 then [rSR2 i x.engine.regs.sr2] else []) ++
      sample i x.engine.regs.cr2 x.engine.regs.sr1 ++
      if x.engine.regs.cr2.getLsbD 10 && x.engine.regs.sr1.getLsbD 6 then [rSR2 i x.engine.regs.sr2] else [])) := by
  have hended : ¬ x.TransmitEnded := fun ⟨h2, hst, h7, hn⟩ =>
    (hbtf h2).elim (absurd hst) fun h => h.elim (fun h => Bool.noConfusion (h7.symm.trans h)) (absurd hn)
  have h1 := flag_of_mask (k := 1) hx rfl
  have htx := serves_checkTXE (i := i) (x := x.idle i 4) happ (checkTXE_nothing h1 h9 htxe)
  have hrx := serves_checkRXNE (i := i) (x := (x.idle i 4).after x.engine.sampledSR1 (sample i x.engine.regs.cr2
      x.engine.regs.sr1 ++ if x.engine.regs.cr2.getLsbD 10 && x.engine.regs.sr1.getLsbD 7 then [rSR2 i x.engine.regs.sr2]
      else [])) happ
    (fun h10 h6 _ hst => absurd hst (hrxne h10 h6).2) (checkRXNE_nothing h1 h9 hrxne)
  refine Eq.subst (motive := Serves p i _ evIrq x) ?_ (((serves_firstFour_idle happ hx hended).append htx).append hrx)
  simp only [Served.idle, after_after, after_engine, sampledSR1_regs, idleChecks_succ 4, List.append_assoc]
  rfl

end Sys2Proof.Machine

/-! The event statements: each is the six checks of its entry, computed from the flags SR1 shows. -/

namespace Sys2Proof.Machine

variable {s X : State} {p : Params} {i : Idx} {e e' : Engine} {x y : Served} {l : Locals} {ls : List Line} {k n : Nat}
  {below : List Frame} {v mask w : Half} {tr : List Event}

/-- Settles O42, check by check: each check only samples, or acts as `Served` says, and the six follow one another. -/
theorem eventHandlerRunsItsSixChecks : Obligations.EventHandlerRunsItsSixChecks := by
  refine ⟨fun s i below h hoff => ?_, fun s i below h h9 hx hbtf htxe hrxne => ?_,
    fun s i below y h he hy => exec_evIrq_sixChecks h he hy⟩
  · refine exec_evIrq_idle h ?_
    obtain hmasked | ⟨hfour, hbuffer⟩ := hoff
    · exact unflagged_of_masked hmasked
    · refine List.forall_mem_append (l₁ := [.sbEvent, .addrEvent, .btfEvent, .stopfEvent]).mpr
        ⟨unflagged_of_mask hfour, ?_⟩
      exact hbuffer.elim unflagged_of_bufferMasked fun htwo => unflagged_of_mask htwo
  · exact exec_evIrq_effect h (serves_evIrq_nothing h.noop h9 hx hbtf htxe hrxne) rfl rfl rfl

/-! ## Flags known under a mask -/

/-- Clearing the bits `a` or the bits `b` is the same where they differ in known zeros only. -/
theorem andNot_of_mask {a b : Half} (hv : v &&& mask = w)
    (h : (~~~a &&& ~~~mask = ~~~b &&& ~~~mask) ∧ (~~~a &&& w = ~~~b &&& w) := by decide) : v &&& ~~~a = v &&& ~~~b := by
  obtain ⟨hout, hin⟩ := h
  refine BitVec.eq_of_getLsbD_eq fun k hk => ?_
  have hbit {u : Half} : (v &&& u).getLsbD k =
      if mask.getLsbD k then (u &&& w).getLsbD k else (v.getLsbD k && (u &&& ~~~mask).getLsbD k) := by
    simp only [← hv, BitVec.getLsbD_and, BitVec.getLsbD_not]
    cases mask.getLsbD k <;> simp [hk, Bool.and_comm]
  rw [hbit, hbit, hout, hin]

/-- Some of the known flags. -/
theorem and_of_mask {m w' : Half} (hv : v &&& mask = w) (hm : m = mask &&& m := by decide)
    (hw : w &&& m = w' := by decide) : v &&& m = w' := by
  rw [hm, ← BitVec.and_assoc, hv, hw]

/-- The known flags, once some bits are cleared. -/
theorem and_and_of_mask {m u w' : Half} (hv : v &&& mask = w) (hm : u &&& m = mask &&& (u &&& m) := by decide)
    (hw : w &&& (u &&& m) = w' := by decide) : v &&& u &&& m = w' :=
  (BitVec.and_assoc ..).trans (and_of_mask hv hm hw)

/-- The latches an SR1 read sets, of flags that are known. -/
theorem latchesOf_of_mask (hv : v &&& mask = w) (hm : mask &&& 0x0017 = 0x0017 := by decide) :
    latchesOf v = latchesOf w := by
  have hbit {k : Nat} (hk : (0x0017 : Half).getLsbD k = true) : v.getLsbD k = w.getLsbD k := by
    refine flag_of_mask hv ?_
    rw [← hm, BitVec.getLsbD_and, Bool.and_eq_true] at hk
    exact hk.1
  rw [latchesOf, hbit (k := 0) rfl, hbit (k := 1) rfl, hbit (k := 2) rfl, hbit (k := 4) rfl, latchesOf]

/-! ## SB (43 R241) -/

theorem onWriteDR_free {b : Bool} {d : Byte} {q : Ctrl} (h : q = .free) : q.onWriteDR b d = .free := by rw [h]; rfl

/-- The byte SB sends, in a BUSY state. -/
def Handle.addressByte (h : Handle) : Byte :=
  addrByte h.targetDeviceAddress (if h.transferState = .busyTx then .write else .read)

/-- The engine once SB alone has been answered by that byte; the write clears SB. -/
def Engine.addressSent (e : Engine) : Engine :=
  { e with
    regs := { e.regs with tdr := e.h.addressByte, sr1 := e.regs.sr1 &&& ~~~0x0001 }
    lat  := ⟨false, false, false, false⟩
    ctrl := e.ctrl.onWriteDR true e.h.addressByte }

/-- The check of SB in a BUSY state writes the address byte of its direction. -/
theorem checkSB_busy (h9 : x.engine.regs.cr2.getLsbD 9 = true) (hx : x.engine.regs.sr1 &&& 0x00D7 = 0x0001)
    (hst : x.engine.h.transferState ≠ .ready) :
    x.checkSB i = x.after x.engine.addressSent
      (sample i x.engine.regs.cr2 x.engine.regs.sr1 ++ [wDR i x.engine.h.addressByte]) := by
  have hsb : x.engine.regs.sr1.getLsbD 0 = true := flag_of_mask hx rfl
  have hbyte : x.checkSB i = (x.sampled i).writeDR i x.engine.h.addressByte := by
    refine (if_pos ⟨h9, hsb⟩).trans ?_
    rw [served_sampled_h, Handle.addressByte]
    cases h : x.engine.h.transferState
    · exact absurd h hst
    · rfl
    · rfl
  have hlat : (x.sampled i).engine.lat = ⟨true, false, false, false⟩ := latchesOf_of_mask hx
  have hclear : x.engine.regs.sr1 &&& ~~~(0x0080 ||| 0x0001 ||| 0) = x.engine.regs.sr1 &&& ~~~0x0001 := andNot_of_mask hx
  rw [hbyte, Served.writeDR, afterWrite_dr, hlat, served_sampled_regs, hsb, if_pos rfl, if_neg Bool.false_ne_true, hclear]
  simp only [Served.sampled, after_after]
  rfl

/-- Checks that find nothing and see the latches as they are. -/
theorem after_idle (h : latchesOf e.regs.sr1 = e.lat) :
    (x.after e tr).idle i n = x.after e (tr ++ idleChecks i n e.regs.cr2 e.regs.sr1) := by
  have hsame : e.sampledSR1 = e := by rw [Engine.sampledSR1, h]
  simp only [Served.idle, after_engine, after_after, hsame]

/-- The check of SB acts, and the five after it find nothing. -/
theorem serves_evIrq_SB (h9 : x.engine.regs.cr2.getLsbD 9 = true) (hx : x.engine.regs.sr1 &&& 0x00D7 = 0x0001)
    (hst : x.engine.h.transferState ≠ .ready) :
    Serves p i 15 evIrq x (x.after x.engine.addressSent
      (sample i x.engine.regs.cr2 x.engine.regs.sr1 ++ [wDR i x.engine.h.addressByte] ++
        idleChecks i 5 x.engine.regs.cr2 (x.engine.regs.sr1 &&& ~~~0x0001))) := by
  have hsb := serves_checkSB (p := p) (i := i) (x := x)
  rw [checkSB_busy h9 hx hst] at hsb
  have hcleared : x.engine.regs.sr1 &&& ~~~0x0001 &&& 0x00D7 = 0 := and_and_of_mask hx
  have hs := hsb.append (serves_idleChecks .addrEvent [.btfEvent, .stopfEvent, .txeEvent, .rxneEvent]
    (unflagged_of_mask hcleared))
  rw [after_idle (latchesOf_of_mask hcleared)] at hs
  exact hs

/-- The check of SB in READY leaves it. -/
theorem serves_checkSB_ready (hst : x.engine.h.transferState = .ready) : Serves p i 5 (check .sbEvent) x (x.idle i 1) := by
  have hsb := serves_checkSB (p := p) (i := i) (x := x)
  have hsame : x.checkSB i = x.sampled i := by rw [Served.checkSB, served_sampled_h, hst]; exact ite_self _
  rwa [hsame, sampled_eq_idle] at hsb

theorem serves_evIrq_SB_ready (hx : x.engine.regs.sr1 &&& 0x00D6 = 0) (hst : x.engine.h.transferState = .ready) :
    Serves p i 15 evIrq x (x.idle i 6) := by
  have hs := (serves_checkSB_ready (p := p) (i := i) hst).append
    (serves_idleChecks .addrEvent [.btfEvent, .stopfEvent, .txeEvent, .rxneEvent] (unflagged_of_mask hx))
  rw [idle_idle] at hs
  exact hs

/-- Settles O43: the check of SB acts, and the five after it find nothing. -/
theorem eventHandlerSendsAddress : Obligations.EventHandlerSendsAddress := by
  intro s i below h e c x h9 hx
  by_cases hst : e.h.transferState = .ready
  · obtain ⟨t, ht, heffect, hsame⟩ := exec_evIrq_effect h (serves_evIrq_SB_ready (and_of_mask hx) hst) rfl rfl rfl
    exact ⟨t, .free, ht, fun _ => rfl, by rw [hst]; exact heffect, hsame⟩
  · obtain ⟨t, ht, heffect, hsame⟩ := exec_evIrq_effect h (serves_evIrq_SB h9 hx hst) rfl rfl rfl
    refine ⟨t, e.ctrl.onWriteDR true e.h.addressByte, ht, onWriteDR_free, ?_, hsame⟩
    split
    · next hready => exact absurd hready hst
    · exact heffect

/-! ## ADDR (43 R242) -/

/-- A CR1 write where the last SR1 read has not seen STOPF (20 R79). -/
theorem withCR1_unlatched (h : e.lat.stopf = false) : e.withCR1 v = { e with regs := { e.regs with cr1 := v } } := by
  rw [Engine.withCR1, h, if_neg Bool.false_ne_true]
  simp only [← h]

/-- A receive of one byte, whose ACK the check of ADDR turns off. -/
abbrev Handle.ReceivesOne (h : Handle) : Prop := h.transferState = .busyRx ∧ h.rxExpectedTotal = 1

/-- The engine once ADDR alone has been cleared. -/
def Engine.addressCleared (e : Engine) : Engine :=
  { e with
    regs := { e.regs with
      cr1 := if e.h.ReceivesOne then e.regs.cr1 &&& ~~~0x0400 else e.regs.cr1, sr1 := e.regs.sr1 &&& ~~~0x0002 }
    lat  := ⟨false, false, false, false⟩ }

/-- The check of ADDR alone: ACK off for a receive of one byte, then the read sequence that clears ADDR. -/
theorem checkADDR_alone (h9 : x.engine.regs.cr2.getLsbD 9 = true) (hx : x.engine.regs.sr1 &&& 0x00D7 = 0x0002) :
    x.checkADDR i =
      let v := x.engine.regs.cr1
      x.after x.engine.addressCleared
        (sample i x.engine.regs.cr2 x.engine.regs.sr1 ++
          ((if x.engine.h.ReceivesOne then rmwCR1 i v (v &&& ~~~0x0400) else []) ++
          [rSR1 i x.engine.regs.sr1, rSR2 i x.engine.regs.sr2])) := by
  have haddr : x.engine.regs.sr1.getLsbD 1 = true := flag_of_mask hx rfl
  have hlat : latchesOf x.engine.regs.sr1 = ⟨false, true, false, false⟩ := latchesOf_of_mask hx
  have hstopf : (x.sampled i).engine.lat.stopf = false := congrArg Latches.stopf hlat
  refine (if_pos ⟨h9, haddr⟩).trans ?_
  by_cases hone : x.engine.h.ReceivesOne
  · have hone' : (x.sampled i).engine.h.ReceivesOne := hone
    rw [if_pos hone', Served.writeCR1, withCR1_unlatched hstopf]
    simp only [Engine.withAddrCleared, Engine.addressCleared, Served.sampled, after_after, after_engine, sampledSR1_regs,
      hlat, if_pos hone, List.append_assoc]
    rfl
  · have hone' : ¬ (x.sampled i).engine.h.ReceivesOne := hone
    rw [if_neg hone']
    simp only [Engine.withAddrCleared, Engine.addressCleared, Served.sampled, after_after, after_engine, sampledSR1_regs,
      hlat, if_neg hone]
    rfl

theorem serves_evIrq_ADDR (he : x.engine.regs.cr1.getLsbD 0 = true) (h9 : x.engine.regs.cr2.getLsbD 9 = true)
    (hx : x.engine.regs.sr1 &&& 0x00D7 = 0x0002) :
    Serves p i 18 evIrq x (
      let v := x.engine.regs.cr1
      x.after x.engine.addressCleared
        (sample i x.engine.regs.cr2 x.engine.regs.sr1 ++ sample i x.engine.regs.cr2 x.engine.regs.sr1 ++
          (if x.engine.h.ReceivesOne then rmwCR1 i v (v &&& ~~~0x0400) else []) ++
          [rSR1 i x.engine.regs.sr1, rSR2 i x.engine.regs.sr2] ++
          idleChecks i 4 x.engine.regs.cr2 (x.engine.regs.sr1 &&& ~~~0x0002))) := by
  have haddr := serves_checkADDR (p := p) (i := i) (x := x.idle i 1) he
  rw [checkADDR_alone (x := x.idle i 1) h9 hx] at haddr
  have hcleared : x.engine.regs.sr1 &&& ~~~0x0002 &&& 0x00D7 = 0 := and_and_of_mask hx
  have hs := ((serves_idleChecks (i := i) (x := x) .sbEvent [] (unflagged_of_mask hx)).append haddr).append
    (serves_idleChecks .btfEvent [.stopfEvent, .txeEvent, .rxneEvent] (unflagged_of_mask hcleared))
  rw [after_idle (latchesOf_of_mask hcleared)] at hs
  simp only [Served.idle, after_after, ← List.append_assoc] at hs
  exact hs

/-- Settles O44: the check of SB finds nothing, the check of ADDR clears it, and the four after it find nothing. -/
theorem eventHandlerClearsAddress : Obligations.EventHandlerClearsAddress :=
  fun _ _ _ h he h9 hx => exec_evIrq_effect h (serves_evIrq_ADDR he h9 hx) rfl rfl rfl

/-! ## The end of a transmit (43 R243) -/

theorem maskEvents_eq : x.maskEvents i = x.after (x.engine.withCR2 (x.engine.regs.cr2 &&& ~~~0x0600))
    (rmwCR2 i x.engine.regs.cr2 (x.engine.regs.cr2 &&& ~~~0x0400) ++
      rmwCR2 i (x.engine.regs.cr2 &&& ~~~0x0400) (x.engine.regs.cr2 &&& ~~~0x0600)) := by
  have hboth : x.engine.regs.cr2 &&& ~~~0x0400 &&& ~~~0x0200 = x.engine.regs.cr2 &&& ~~~0x0600 := by
    rw [BitVec.and_assoc]; rfl
  simp only [Served.maskEvents, Served.writeCR2, after_after, after_engine, withCR2_cr2, hboth]
  rfl

theorem after_handle {h : Handle} : (x.after e tr).handle h = x.after { e with h := h } tr := rfl

theorem after_emit {code : EventCode} : (x.after e tr).emit i code =
    x.after { e with cbTrace := e.cbTrace ++ [code] } (tr ++ [.callback i code]) := after_after

/-- GEN_STOP unless a repeated start is asked for, where the last SR1 read has not seen STOPF. -/
theorem stopUnlessRepeated_unlatched (h : x.engine.lat.stopf = false) :
    let v' := if x.engine.h.repeatedStartRequested then x.engine.regs.cr1 else x.engine.regs.cr1 ||| 0x0200
    x.stopUnlessRepeated i = x.after { x.engine with regs := { x.engine.regs with cr1 := v' } }
      (if x.engine.h.repeatedStartRequested then [] else rmwCR1 i x.engine.regs.cr1 v') := by
  intro v'
  rw [Served.stopUnlessRepeated, Served.writeCR1, withCR1_unlatched h]
  cases hsr : x.engine.h.repeatedStartRequested
  · simp only [v', hsr, Bool.false_eq_true, if_false]
  · simp only [v', hsr, if_true, Served.after, List.append_nil]

/-- The engine once BTF has ended a transmit. -/
def Engine.transmitEnded (e : Engine) : Engine :=
  { e with
    h := { e.h with txBuffer := 0, txRemaining := 0, transferState := .ready }
    regs := { e.regs with
      cr1 := if e.h.repeatedStartRequested then e.regs.cr1 else e.regs.cr1 ||| 0x0200, cr2 := e.regs.cr2 &&& ~~~0x0600 }
    lat  := ⟨false, false, true, false⟩
    cbTrace := e.cbTrace ++ [.txCmplt] }

/-- The check of BTF at the end of a transmit. -/
theorem checkBTF_ended (h9 : x.engine.regs.cr2.getLsbD 9 = true) (hx : x.engine.regs.sr1 &&& 0x00D7 = 0x0084)
    (hst : x.engine.h.transferState = .busyTx) (hn : x.engine.h.txRemaining = 0) :
    x.checkBTF i =
      let c := x.engine.regs.cr2
      let v := x.engine.regs.cr1
      let v' := if x.engine.h.repeatedStartRequested then v else v ||| 0x0200
      x.after x.engine.transmitEnded
        (sample i c x.engine.regs.sr1 ++ (if x.engine.h.repeatedStartRequested then [] else rmwCR1 i v v') ++
          rmwCR2 i c (c &&& ~~~0x0400) ++ rmwCR2 i (c &&& ~~~0x0400) (c &&& ~~~0x0600) ++ [.callback i .txCmplt]) := by
  have hbtf : x.engine.regs.sr1.getLsbD 2 = true := flag_of_mask hx rfl
  have htxe : x.engine.regs.sr1.getLsbD 7 = true := flag_of_mask hx rfl
  have hlat : x.engine.sampledSR1.lat = ⟨false, false, true, false⟩ := latchesOf_of_mask hx
  have hstopf : (x.sampled i).engine.lat.stopf = false := congrArg Latches.stopf hlat
  refine (if_pos ⟨h9, hbtf, hst, htxe, hn⟩).trans ?_
  rw [stopUnlessRepeated_unlatched hstopf, Served.closeTx, maskEvents_eq]
  simp only [Engine.transmitEnded, Served.sampled, after_after, after_engine, after_handle, after_emit, sampledSR1_regs,
    sampledSR1_h, hlat, List.append_assoc]
  rfl

theorem serves_evIrq_transmitEnded (happ : p.app = []) (he : x.engine.regs.cr1.getLsbD 0 = true)
    (h9 : x.engine.regs.cr2.getLsbD 9 = true) (hx : x.engine.regs.sr1 &&& 0x00D7 = 0x0084)
    (hst : x.engine.h.transferState = .busyTx) (hn : x.engine.h.txRemaining = 0) :
    Serves p i 27 evIrq x (
      let c := x.engine.regs.cr2
      let v := x.engine.regs.cr1
      let v' := if x.engine.h.repeatedStartRequested then v else v ||| 0x0200
      x.after x.engine.transmitEnded
        (idleChecks i 3 c x.engine.regs.sr1 ++ (if x.engine.h.repeatedStartRequested then [] else rmwCR1 i v v') ++
          rmwCR2 i c (c &&& ~~~0x0400) ++ rmwCR2 i (c &&& ~~~0x0400) (c &&& ~~~0x0600) ++ [.callback i .txCmplt] ++
          idleChecks i 3 (c &&& ~~~0x0600) x.engine.regs.sr1)) := by
  have hbtf := serves_checkBTF (p := p) (i := i) (x := x.idle i 2) happ fun _ => he
  rw [checkBTF_ended (x := x.idle i 2) h9 hx hst hn] at hbtf
  have hmasked : (x.engine.regs.cr2 &&& ~~~0x0600).getLsbD 9 = false := by
    rw [BitVec.getLsbD_and]; exact Bool.and_false _
  have hs := ((serves_idleChecks (i := i) (x := x) .sbEvent [.addrEvent] (unflagged_of_mask hx)).append hbtf).append
    (serves_idleChecks .stopfEvent [.txeEvent, .rxneEvent] (unflagged_of_masked hmasked))
  rw [after_idle (latchesOf_of_mask hx)] at hs
  simp only [Served.idle, after_after, ← List.append_assoc] at hs
  exact hs

/-- Settles O45: the check of BTF ends the transmit, and the three after it find events masked. -/
theorem eventHandlerEndsTransmit : Obligations.EventHandlerEndsTransmit :=
  fun _ _ _ h he h9 hx hst hn =>
    exec_evIrq_effect h (serves_evIrq_transmitEnded h.noop he h9 hx hst hn) rfl rfl rfl

/-! ## STOPF (43 R244) -/

/-- The engine once STOPF alone has been acknowledged. -/
def Engine.stopAcknowledged (e : Engine) : Engine :=
  { e with
    regs := { e.regs with sr1 := e.regs.sr1 &&& ~~~0x0010 }
    lat  := ⟨false, false, false, false⟩
    cbTrace := e.cbTrace ++ [.stop] }

/-- The check of STOPF alone: CR1 written back, which clears STOPF, and the callback. -/
theorem checkSTOPF_alone (h9 : x.engine.regs.cr2.getLsbD 9 = true) (hx : x.engine.regs.sr1 &&& 0x00D7 = 0x0010) :
    x.checkSTOPF i = x.after x.engine.stopAcknowledged
      (sample i x.engine.regs.cr2 x.engine.regs.sr1 ++ rmwCR1 i x.engine.regs.cr1 x.engine.regs.cr1 ++
        [.callback i .stop]) := by
  have hstopf : x.engine.regs.sr1.getLsbD 4 = true := flag_of_mask hx rfl
  have hlat : x.engine.sampledSR1.lat = ⟨false, false, false, true⟩ := latchesOf_of_mask hx
  refine (if_pos ⟨h9, hstopf⟩).trans ?_
  simp only [Served.sampled, Served.writeCR1, Engine.withCR1, after_after, after_engine, after_emit, sampledSR1_regs, hlat,
    if_true]
  rfl

theorem serves_evIrq_STOPF (happ : p.app = []) (he : x.engine.regs.cr1.getLsbD 0 = true)
    (h9 : x.engine.regs.cr2.getLsbD 9 = true) (hx : x.engine.regs.sr1 &&& 0x00D7 = 0x0010) :
    Serves p i 17 evIrq x (x.after x.engine.stopAcknowledged
      (idleChecks i 4 x.engine.regs.cr2 x.engine.regs.sr1 ++ rmwCR1 i x.engine.regs.cr1 x.engine.regs.cr1 ++
        [.callback i .stop] ++ idleChecks i 2 x.engine.regs.cr2 (x.engine.regs.sr1 &&& ~~~0x0010))) := by
  have hstopf := serves_checkSTOPF (p := p) (i := i) (x := x.idle i 3) happ he
  rw [checkSTOPF_alone (x := x.idle i 3) h9 hx] at hstopf
  have hcleared : x.engine.regs.sr1 &&& ~~~0x0010 &&& 0x00D7 = 0 := and_and_of_mask hx
  have hs := ((serves_idleChecks (i := i) (x := x) .sbEvent [.addrEvent, .btfEvent] (unflagged_of_mask hx)).append
    hstopf).append (serves_idleChecks .txeEvent [.rxneEvent] (unflagged_of_mask hcleared))
  rw [after_idle (latchesOf_of_mask hcleared)] at hs
  simp only [Served.idle, after_after, ← List.append_assoc] at hs
  exact hs

/-- Settles O46: the check of STOPF acknowledges it, and the two after it find nothing. -/
theorem eventHandlerAcknowledgesStop : Obligations.EventHandlerAcknowledgesStop :=
  fun _ _ _ h he h9 hx => exec_evIrq_effect h (serves_evIrq_STOPF h.noop he h9 hx) rfl rfl rfl

/-! ## The next byte of a transmit (43 R245) -/

/-- BTF cleared with the bits `m` where it is set, is BTF cleared with them. -/
theorem andNot_btf (m v : Half) : v &&& ~~~(m ||| if v.getLsbD 2 then 0x0004 else 0) = v &&& ~~~(m ||| 0x0004) := by
  cases h : v.getLsbD 2
  · refine BitVec.eq_of_getLsbD_eq fun k hk => ?_
    by_cases h2 : k = 2
    · rw [h2, BitVec.getLsbD_and, BitVec.getLsbD_and, h, Bool.false_and, Bool.false_and]
    · have hoff : ∀ j < 16, j ≠ 2 → (0x0004 : Half).getLsbD j = false := by decide
      have hzero : (0 : Half).getLsbD k = false := BitVec.getLsbD_zero
      simp only [BitVec.getLsbD_and, BitVec.getLsbD_not, BitVec.getLsbD_or, hoff k hk h2, hzero, Bool.false_eq_true,
        if_false]
  · rfl

/-- The engine once TxE has been answered by the next byte `b`; the write clears BTF with it (20 R77). -/
def Engine.byteSent (e : Engine) (b : Byte) : Engine :=
  { e with
    h := { e.h with txRemaining := e.h.txRemaining - 1, txBuffer := e.h.txBuffer + 1 }
    regs := { e.regs with tdr := b, sr1 := e.regs.sr1 &&& ~~~0x0084 }
    lat  := ⟨false, false, false, false⟩
    ctrl := e.ctrl.onWriteDR false b }

/-- The check of TxE as master, with bytes left to send. -/
theorem checkTXE_next (h9 : x.engine.regs.cr2.getLsbD 9 = true) (h10 : x.engine.regs.cr2.getLsbD 10 = true)
    (hx : x.engine.regs.sr1 &&& 0x00D3 = 0x0080) (hm : x.engine.regs.sr2.getLsbD 0 = true)
    (hst : x.engine.h.transferState = .busyTx) (hn : x.engine.h.txRemaining ≠ 0)
    (hb : p.bufferOk x.engine.h.txBuffer = true) :
    x.checkTXE p i = some (
      let b := Memory.read x.mem x.engine.h.txBuffer.toNat
      x.after (x.engine.byteSent b)
        (sample i x.engine.regs.cr2 x.engine.regs.sr1 ++
          [rSR2 i x.engine.regs.sr2, .memRead x.engine.h.txBuffer b, wDR i b])) := by
  have hflag (k : Nat) (hk : (0x00D3 : Half).getLsbD k = true) := flag_of_mask hx hk
  have hlat : x.engine.sampledSR1.lat = ⟨false, false, x.engine.regs.sr1.getLsbD 2, false⟩ := by
    rw [Engine.sampledSR1, latchesOf, hflag 0 rfl, hflag 1 rfl, hflag 4 rfl]; rfl
  have hclear : x.engine.regs.sr1 &&& ~~~(0x0080 ||| 0 ||| if x.engine.regs.sr1.getLsbD 2 then 0x0004 else 0) =
      x.engine.regs.sr1 &&& ~~~0x0084 := andNot_btf _ _
  rw [Served.checkTXE, readSR2_sampled (hflag 1 rfl)]
  refine (if_pos ⟨h9, h10, hflag 7 rfl⟩).trans ((if_pos hm).trans ?_)
  dsimp only [Served.sendNext]
  refine (if_pos ⟨hst, hn⟩).trans ((if_pos hb).trans ?_)
  simp only [Served.writeDR, afterWrite_dr, after_after, after_engine, after_handle, sampledSR1_regs, sampledSR1_h, hlat,
    Bool.false_and, Bool.false_eq_true, if_false, hclear, List.append_assoc]
  rfl

theorem serves_evIrq_sendNext (happ : p.app = []) (h9 : x.engine.regs.cr2.getLsbD 9 = true)
    (h10 : x.engine.regs.cr2.getLsbD 10 = true) (hx : x.engine.regs.sr1 &&& 0x00D3 = 0x0080)
    (hm : x.engine.regs.sr2.getLsbD 0 = true) (hst : x.engine.h.transferState = .busyTx)
    (hn : x.engine.h.txRemaining ≠ 0) (hb : p.bufferOk x.engine.h.txBuffer = true) :
    Serves p i 35 evIrq x (
      let b := Memory.read x.mem x.engine.h.txBuffer.toNat
      x.after (x.engine.byteSent b)
        (idleChecks i 5 x.engine.regs.cr2 x.engine.regs.sr1 ++
          [rSR2 i x.engine.regs.sr2, .memRead x.engine.h.txBuffer b, wDR i b] ++
          sample i x.engine.regs.cr2 (x.engine.regs.sr1 &&& ~~~0x0084))) := by
  have hfour := serves_firstFour_idle (i := i) (x := x) happ (and_of_mask hx) fun ⟨_, _, _, h⟩ => hn h
  have htxe := serves_checkTXE (i := i) (x := x.idle i 4) happ (checkTXE_next (x := x.idle i 4) h9 h10 hx hm hst hn hb)
  have hcleared : x.engine.regs.sr1 &&& ~~~0x0084 &&& 0x00D7 = 0 := and_and_of_mask hx
  have hs := (hfour.append htxe).append (serves_idleChecks .rxneEvent [] (unflagged_of_mask hcleared))
  rw [after_idle (latchesOf_of_mask hcleared)] at hs
  simp only [Served.idle, after_after, ← List.append_assoc] at hs
  exact hs

/-- Settles O47: the first four checks find nothing, the check of TxE sends the byte, and the check of RxNE finds
nothing. -/
theorem eventHandlerSendsNextByte : Obligations.EventHandlerSendsNextByte := by
  intro s i below h e c x q b h9 h10 hx hm hst hn hb
  obtain ⟨t, ht, heffect, hsame⟩ := exec_evIrq_effect h (serves_evIrq_sendNext h.noop h9 h10 hx hm hst hn hb) rfl rfl rfl
  exact ⟨t, e.ctrl.onWriteDR false b, ht, onWriteDR_free, heffect, hsame⟩

/-! ## The slave (43 R245, R246) -/

/-- What a slave's check does once it has read SR2: the callback `code`, or nothing. -/
def Served.answered (i : Idx) (code : EventCode) (b : Prop) [Decidable b] (x : Served) : Served :=
  x.after { x.engine.sampledSR1 with cbTrace := x.engine.cbTrace ++ if b then [code] else [] }
    (sample i x.engine.regs.cr2 x.engine.regs.sr1 ++ [rSR2 i x.engine.regs.sr2] ++
      if b then [.callback i code] else [])

theorem answered_of_not {code : EventCode} {b : Prop} [Decidable b] (h : ¬ b) : x.answered i code b =
    x.after x.engine.sampledSR1 (sample i x.engine.regs.cr2 x.engine.regs.sr1 ++ [rSR2 i x.engine.regs.sr2]) := by
  simp only [Served.answered, Engine.sampledSR1, if_neg h, List.append_nil]

theorem answered_of {code : EventCode} {b : Prop} [Decidable b] (h : b) : x.answered i code b =
    (x.after x.engine.sampledSR1 (sample i x.engine.regs.cr2 x.engine.regs.sr1 ++ [rSR2 i x.engine.regs.sr2])).emit i
      code := by
  simp only [Served.answered, after_emit, if_pos h]
  rfl

/-- The check of TxE as slave. -/
theorem checkTXE_slave (h1 : x.engine.regs.sr1.getLsbD 1 = false) (h9 : x.engine.regs.cr2.getLsbD 9 = true)
    (h10 : x.engine.regs.cr2.getLsbD 10 = true) (h7 : x.engine.regs.sr1.getLsbD 7 = true)
    (hm : x.engine.regs.sr2.getLsbD 0 = false) :
    x.checkTXE p i = some (x.answered i .dataReq (x.engine.regs.sr2.getLsbD 2)) := by
  rw [Served.checkTXE, readSR2_sampled h1]
  refine (if_pos ⟨h9, h10, h7⟩).trans ((if_neg (Bool.eq_false_iff.mp hm)).trans ?_)
  by_cases htra : x.engine.regs.sr2.getLsbD 2 = true
  · rw [answered_of htra]
    exact if_pos htra
  · rw [answered_of_not htra]
    exact if_neg htra

/-- The check of RxNE as slave. -/
theorem checkRXNE_slave (h1 : x.engine.regs.sr1.getLsbD 1 = false) (h9 : x.engine.regs.cr2.getLsbD 9 = true)
    (h10 : x.engine.regs.cr2.getLsbD 10 = true) (h6 : x.engine.regs.sr1.getLsbD 6 = true)
    (hm : x.engine.regs.sr2.getLsbD 0 = false) :
    x.checkRXNE p i = some (x.answered i .dataRcv (¬ x.engine.regs.sr2.getLsbD 2 = true)) := by
  rw [Served.checkRXNE, readSR2_sampled h1]
  refine (if_pos ⟨h9, h10, h6⟩).trans ((if_neg (Bool.eq_false_iff.mp hm)).trans ?_)
  by_cases htra : x.engine.regs.sr2.getLsbD 2 = true
  · rw [answered_of_not (not_not_intro htra)]
    exact if_pos htra
  · rw [answered_of htra]
    exact if_neg htra

/-- TxE as slave, alone. -/
theorem serves_evIrq_slaveTXE (happ : p.app = []) (h9 : x.engine.regs.cr2.getLsbD 9 = true)
    (h10 : x.engine.regs.cr2.getLsbD 10 = true) (hm : x.engine.regs.sr2.getLsbD 0 = false)
    (hx : x.engine.regs.sr1 &&& 0x00D7 = 0x0080) :
    Serves p i 35 evIrq x (
      let tra := x.engine.regs.sr2.getLsbD 2
      x.after
        { x.engine with
          lat := ⟨false, false, false, false⟩, cbTrace := x.engine.cbTrace ++ if tra then [.dataReq] else [] }
        (idleChecks i 5 x.engine.regs.cr2 x.engine.regs.sr1 ++ [rSR2 i x.engine.regs.sr2] ++
          (if tra then [.callback i .dataReq] else []) ++ sample i x.engine.regs.cr2 x.engine.regs.sr1)) := by
  have hfour := serves_firstFour_idle (i := i) happ (and_of_mask hx) fun ⟨h2, _⟩ =>
    Bool.noConfusion ((flag_of_mask (k := 2) hx rfl).symm.trans h2)
  have htxe := serves_checkTXE (i := i) (x := x.idle i 4) happ
    (checkTXE_slave (x := x.idle i 4) (flag_of_mask hx rfl) h9 h10 (flag_of_mask hx rfl) hm)
  have hs := (hfour.append htxe).append (serves_idleChecks .rxneEvent [] (unflagged_of_mask hx))
  have hlat : x.engine.sampledSR1.lat = ⟨false, false, false, false⟩ := latchesOf_of_mask hx
  rw [Served.answered, after_idle rfl] at hs
  simp only [Served.idle, after_after, after_engine, sampledSR1_sampledSR1, ← List.append_assoc] at hs
  rw [hlat] at hs
  exact hs

/-- RxNE as slave, alone. -/
theorem serves_evIrq_slaveRXNE (happ : p.app = []) (h9 : x.engine.regs.cr2.getLsbD 9 = true)
    (h10 : x.engine.regs.cr2.getLsbD 10 = true) (hm : x.engine.regs.sr2.getLsbD 0 = false)
    (hx : x.engine.regs.sr1 &&& 0x00D7 = 0x0040) :
    Serves p i 56 evIrq x (
      let tra := x.engine.regs.sr2.getLsbD 2
      x.after
        { x.engine with
          lat := ⟨false, false, false, false⟩, cbTrace := x.engine.cbTrace ++ if tra then [] else [.dataRcv] }
        (idleChecks i 6 x.engine.regs.cr2 x.engine.regs.sr1 ++ [rSR2 i x.engine.regs.sr2] ++
          if tra then [] else [.callback i .dataRcv])) := by
  have hfour := serves_firstFour_idle (i := i) happ (and_of_mask hx) fun ⟨h2, _⟩ =>
    Bool.noConfusion ((flag_of_mask (k := 2) hx rfl).symm.trans h2)
  have hfive := hfour.append (serves_idleChecks .txeEvent [] (unflagged_of_mask hx))
  rw [idle_idle] at hfive
  have hrxne : Serves p i 31 (check .rxneEvent) (x.idle i 5)
      ((x.idle i 5).answered i .dataRcv (¬ x.engine.regs.sr2.getLsbD 2 = true)) :=
    serves_checkRXNE happ (fun _ _ h => Bool.noConfusion (hm.symm.trans h))
      (checkRXNE_slave (x := x.idle i 5) (flag_of_mask hx rfl) h9 h10 (flag_of_mask hx rfl) hm)
  have hs := hfive.append hrxne
  have hlat : x.engine.sampledSR1.lat = ⟨false, false, false, false⟩ := latchesOf_of_mask hx
  simp only [Served.answered, Served.idle, after_after, after_engine, sampledSR1_sampledSR1, ite_not,
    ← List.append_assoc] at hs
  rw [hlat] at hs
  exact hs

/-- Settles O48: the check of the flag reads SR2 and answers by a callback or not; the others find nothing. -/
theorem eventHandlerSlaveCallbacks : Obligations.EventHandlerSlaveCallbacks :=
  fun _ _ _ h h9 h10 hm =>
    ⟨fun hx => exec_evIrq_effect h (serves_evIrq_slaveTXE h.noop h9 h10 hm hx) rfl rfl rfl,
      fun hx => exec_evIrq_effect h (serves_evIrq_slaveRXNE h.noop h9 h10 hm hx) rfl rfl rfl⟩

/-! ## The bytes of a receive (43 R247) -/

/-- The premise of the receive statements, of what has been served. -/
structure Served.Receives (p : Params) (x : Served) : Prop where
  enabled : x.engine.regs.cr1.getLsbD 0 = true
  itevten : x.engine.regs.cr2.getLsbD 9 = true
  itbufen : x.engine.regs.cr2.getLsbD 10 = true
  flags   : x.engine.regs.sr1 &&& 0x00D3 = 0x0040
  master  : x.engine.regs.sr2.getLsbD 0 = true
  busy    : x.engine.h.transferState = .busyRx
  buffer  : p.bufferOk x.engine.h.rxBuffer = true
  noHeld  : x.engine.ctrl.heldByte = none

theorem State.ReceiveEntry.receives (h : s.ReceiveEntry i below) : (s.served i).Receives s.params where
  enabled := h.enabled
  itevten := h.itevten
  itbufen := h.itbufen
  flags   := h.flags
  master  := h.master
  busy    := h.busy
  buffer  := h.buffer
  noHeld  := h.noHeld

/-- The five checks before RxNE's find nothing. -/
theorem Served.Receives.firstFive (h : x.Receives p) (happ : p.app = []) :
    Serves p i 25 (check .sbEvent ++ check .addrEvent ++ check .btfEvent ++ check .stopfEvent ++ check .txeEvent) x
      (x.idle i 5) := by
  have hfour := serves_firstFour_idle (i := i) happ (and_of_mask h.flags) fun ⟨_, hst, _⟩ =>
    TransferState.noConfusion (h.busy.symm.trans hst)
  have hs := hfour.append (serves_idleChecks .txeEvent [] (unflagged_of_mask h.flags))
  rw [idle_idle] at hs
  exact hs

/-- EV_IRQ where it enters RXNE_MASTER: six samples and the SR2 read. -/
def Served.asMaster (i : Idx) (x : Served) : Served :=
  x.after x.engine.sampledSR1 (idleChecks i 6 x.engine.regs.cr2 x.engine.regs.sr1 ++ [rSR2 i x.engine.regs.sr2])

theorem Served.Receives.readSR2_eq (h : x.Receives p) : ((x.idle i 5).sampled i).readSR2 i = x.asMaster i := by
  rw [sampled_eq_idle, idle_idle, readSR2_unlatched (flag_of_mask (k := 1) h.flags rfl), Served.idle, after_after]
  rfl

/-- The check of RxNE up to RXNE_MASTER. -/
theorem Served.Receives.checkRXNE_eq (h : x.Receives p) : (x.idle i 5).checkRXNE p i = (x.asMaster i).receiveNext p i := by
  rw [Served.checkRXNE, h.readSR2_eq]
  exact (if_pos ⟨h.itevten, h.itbufen, flag_of_mask h.flags rfl⟩).trans ((if_pos h.master).trans (if_pos h.busy))

/-- EV_IRQ once RXNE_MASTER has stored and counted its byte. -/
def Served.received (i : Idx) (x : Served) : Served :=
  let v := x.engine.regs.cr1
  let h := x.engine.h
  let d := x.engine.regs.dr
  { x with mem := Memory.write x.mem h.rxBuffer.toNat d }.after
    { x.engine with
      h := { h with
        rxRemaining := h.rxRemaining - 1, rxBuffer := if h.rxExpectedTotal = 1 then h.rxBuffer else h.rxBuffer + 1 }
      regs := { x.engine.regs with
        cr1 := if h.NackNext then v &&& ~~~0x0400 else v, sr1 := x.engine.regs.sr1 &&& ~~~0x0044 }
      lat  := ⟨false, false, false, false⟩ }
    (idleChecks i 6 x.engine.regs.cr2 x.engine.regs.sr1 ++ [rSR2 i x.engine.regs.sr2] ++
      (if h.NackNext then rmwCR1 i v (v &&& ~~~0x0400) else []) ++ [rDR i d, .memWrite h.rxBuffer d])

theorem ackForNext_unlatched (h : x.engine.lat.stopf = false) :
    x.ackForNext i = x.after
      { x.engine with regs := { x.engine.regs with
        cr1 := if x.engine.h.NackNext then x.engine.regs.cr1 &&& ~~~0x0400 else x.engine.regs.cr1 } }
      (if x.engine.h.NackNext then rmwCR1 i x.engine.regs.cr1 (x.engine.regs.cr1 &&& ~~~0x0400) else []) := by
  rw [Served.ackForNext, Served.writeCR1, withCR1_unlatched h]
  by_cases hnack : x.engine.h.NackNext
  · simp only [if_pos hnack]
  · simp only [if_neg hnack, Served.after, List.append_nil]

/-- The byte of RXNE_MASTER; its DR read clears BTF where the check has seen it (20 R78). -/
theorem Served.Receives.storeNext_eq (h : x.Receives p) :
    ((x.asMaster i).ackForNext i).storeNext i x.engine.h = x.received i := by
  have hlat : x.engine.sampledSR1.lat = ⟨false, false, x.engine.regs.sr1.getLsbD 2, false⟩ := by
    rw [Engine.sampledSR1, latchesOf, flag_of_mask (k := 0) h.flags rfl, flag_of_mask (k := 1) h.flags rfl,
      flag_of_mask (k := 4) h.flags rfl]; rfl
  have hclear : x.engine.regs.sr1 &&& ~~~(0x0040 ||| if x.engine.regs.sr1.getLsbD 2 then 0x0004 else 0) =
      x.engine.regs.sr1 &&& ~~~0x0044 := andNot_btf _ _
  rw [ackForNext_unlatched (congrArg Latches.stopf hlat), Served.storeNext, Served.storeDR, afterRead_dr]
  · simp only [Served.asMaster, after_after, after_engine, sampledSR1_regs, sampledSR1_h, hlat, hclear, Served.received,
      List.append_assoc]
    rfl
  · exact h.noHeld

/-- EV_IRQ on RxNE with a byte left: the byte, and the end of the receive where it was the last. -/
theorem Served.Receives.serves_evIrq (h : x.Receives p) (happ : p.app = []) (hn : x.engine.h.rxRemaining ≠ 0) :
    Serves p i 56 evIrq x (if x.engine.h.rxRemaining = 1 then
      (((x.received i).stopUnlessRepeated i).closeRx i).emit i .rxCmplt else x.received i) := by
  have hlast : ((x.received i).engine.h.rxRemaining = 0) = (x.engine.h.rxRemaining = 1) := propext sub_eq_zero
  have hstored : ((x.asMaster i).ackForNext i).storeNext i (x.asMaster i).engine.h = x.received i := h.storeNext_eq
  have hrxne := h.checkRXNE_eq (i := i)
  rw [receiveNext_eq (x := x.asMaster i) hn h.buffer, hstored] at hrxne
  simp only [hlast] at hrxne
  exact (h.firstFive happ).append (serves_checkRXNE happ (fun _ _ _ _ => h.enabled) hrxne)

/-- An event statement whose handler stores one byte. -/
theorem exec_evIrq_stores {q : Word} {d : Byte} (h : s.EventEntry i below) (hc : s.MemoryCanonical)
    (hs : Serves s.params i k evIrq (s.served i) y) (he : y.engine = e') (htr : y.events = tr)
    (hm : y.mem = Memory.write s.mem q.toNat d) (hk : k < 127 := by decide) :
    ∃ t, exec (.evIrq i) s = .next t ∧ Effect s t i e' tr ∧ t.byteAt q = d ∧ SameMemoryBut q s t ∧
      HandlerReturned s t below := by
  obtain ⟨t, ht, heff, hmem, hret⟩ := exec_evIrq_serves h hs hk
  have hread (a : Word) : t.byteAt a = if q = a then d else s.byteAt a := by
    rw [State.byteAt, hmem, hm, read_write_word q a d hc]
    rfl
  subst he htr
  exact ⟨t, ht, heff, (hread q).trans (if_pos rfl), fun a ha => (hread a).trans (if_neg ha.symm), hret⟩

/-- Settles O49: the first five checks find nothing, and the check of RxNE stores and counts the byte. -/
theorem eventHandlerReceivesByte : Obligations.EventHandlerReceivesByte := by
  intro s i below h e c x v n q one nack hn hmore
  have hserves := h.receives.serves_evIrq (i := i) h.noop hn
  rw [if_neg (by exact hmore)] at hserves
  exact exec_evIrq_stores h.toEventEntry h.memory hserves rfl rfl rfl

theorem after_writeCR1 (h : e.lat.stopf = false) : (x.after e tr).writeCR1 i v =
    x.after { e with regs := { e.regs with cr1 := v } } (tr ++ rmwCR1 i e.regs.cr1 v) := by
  rw [Served.writeCR1, after_engine, withCR1_unlatched h, after_after]

/-- CLOSE_RX where the last SR1 read has not seen STOPF (42 R214). -/
theorem closeRx_unlatched (h : x.engine.lat.stopf = false) :
    let on := x.engine.h.cfg.ackControl = .enable
    let v := x.engine.regs.cr1
    let c := x.engine.regs.cr2
    x.closeRx i = x.after
      { x.engine with
        h := { x.engine.h with rxBuffer := 0, rxRemaining := 0, transferState := .ready, rxExpectedTotal := 0 }
        regs := { x.engine.regs with cr1 := if on then v ||| 0x0400 else v, cr2 := c &&& ~~~0x0600 } }
      (rmwCR2 i c (c &&& ~~~0x0400) ++ rmwCR2 i (c &&& ~~~0x0400) (c &&& ~~~0x0600) ++
        if on then rmwCR1 i v (v ||| 0x0400) else []) := by
  intro on v c
  dsimp only [Served.closeRx]
  rw [maskEvents_eq, after_handle]
  by_cases hon : on
  · refine (if_pos hon).trans ?_
    rw [after_writeCR1 (by exact h), if_pos hon, if_pos hon]
    rfl
  · rw [if_neg hon, if_neg hon, List.append_nil]
    exact if_neg hon

/-- EV_IRQ once it has ended a receive. -/
def Served.receiveEnded (i : Idx) (x : Served) : Served :=
  let e := x.engine
  let c := e.regs.cr2
  let v := e.regs.cr1
  let q := e.h.rxBuffer
  let sr := e.h.repeatedStartRequested
  let on := e.h.cfg.ackControl = .enable
  let v1 := if sr then v else v ||| 0x0200
  let v2 := if on then v1 ||| 0x0400 else v1
  Served.after { x with mem := Memory.write x.mem q.toNat e.regs.dr }
    { e with
      h := { e.h with rxBuffer := 0, rxRemaining := 0, rxExpectedTotal := 0, transferState := .ready }
      regs := { e.regs with cr1 := v2, cr2 := c &&& ~~~0x0600, sr1 := e.regs.sr1 &&& ~~~0x0044 }
      lat  := ⟨false, false, false, false⟩
      cbTrace := e.cbTrace ++ [.rxCmplt] }
    (idleChecks i 6 c e.regs.sr1 ++ [rSR2 i e.regs.sr2, rDR i e.regs.dr, .memWrite q e.regs.dr] ++
      (if sr then [] else rmwCR1 i v v1) ++ rmwCR2 i c (c &&& ~~~0x0400) ++
      rmwCR2 i (c &&& ~~~0x0400) (c &&& ~~~0x0600) ++ (if on then rmwCR1 i v1 v2 else []) ++ [.callback i .rxCmplt])

theorem received_ended (hn : x.engine.h.rxRemaining = 1) :
    (((x.received i).stopUnlessRepeated i).closeRx i).emit i .rxCmplt = x.receiveEnded i := by
  have hack : ¬ x.engine.h.NackNext := fun ⟨_, h⟩ => absurd (hn.symm.trans h) (by decide)
  rw [stopUnlessRepeated_unlatched rfl, closeRx_unlatched rfl]
  simp only [Served.received, Served.receiveEnded, if_neg hack, after_after, after_engine, after_emit, List.append_nil,
    List.append_assoc]
  by_cases hon : x.engine.h.cfg.ackControl = .enable
  · simp only [if_pos hon]
    rfl
  · simp only [if_neg hon]
    rfl

/-- Settles O50: as O49, and the byte was the last. -/
theorem eventHandlerEndsReceive : Obligations.EventHandlerEndsReceive := by
  intro s i below h e c x v q sr on v1 v2 hn
  have hserves := h.receives.serves_evIrq (i := i) h.noop (fun hz => absurd (hn.symm.trans hz) (by decide))
  rw [if_pos (by exact hn), received_ended hn] at hserves
  exact exec_evIrq_stores h.toEventEntry h.memory hserves rfl rfl rfl

/-! ## A receive with no byte left (43 R247) -/

/-- EV_IRQ up to RXNE_MASTER's test of the bytes left. -/
theorem Served.Receives.leads_rxneByte (h : x.Receives p) (happ : p.app = []) :
    ∃ l, Leads p i 30 ⟨x, Locals.init, evIrq⟩ ⟨x.asMaster i, l, [⟨.getRxRemaining, .rxneByte⟩]⟩ := by
  obtain ⟨l₅, hfive⟩ := h.firstFive (i := i) happ Locals.init (check .rxneEvent)
  have hsr2 := leads_readSR2 (p := p) (i := i) (x := (x.idle i 5).sampled i) (l := l₅.sampling x.engine) (ls := [])
    (nx := .rxneByRole) [⟨.getState, .rxneByState⟩] ((go_rxneByRole rfl).trans (congrArg Except.ok (if_pos h.master)))
  rw [h.readSR2_eq] at hsr2
  have hflag : (x.engine.regs.cr2.getLsbD 9 && x.engine.regs.cr2.getLsbD 10 && x.engine.regs.sr1.getLsbD 6) = true := by
    rw [h.itevten, h.itbufen, flag_of_mask (k := 6) h.flags rfl]; rfl
  have hrxne : Leads p i 2 ⟨x.idle i 5, l₅, check .rxneEvent ++ []⟩
      ⟨(x.idle i 5).sampled i, l₅.sampling x.engine, [⟨.readSR2, .rxneByRole⟩]⟩ :=
    leads_check [_] fun f hc hv => (go_rxneEvent hc hv).trans (congrArg Except.ok (if_pos hflag))
  exact ⟨_, hfive.trans (hrxne.trans (hsr2.trans (.trans (leads_fetch rxneMaster rfl (congrArg Except.ok (if_pos h.busy)))
    (leads_fetch [] rfl rfl))))⟩

/-- RXNE_MASTER's test raises with no byte left, and the handler stays where it stands (60 R302, R311). -/
theorem advance_rxneByte_raises (hq : X.Quiet) (hn : 0 < n) (hL : x.engine.Latched) (h0 : x.engine.h.rxRemaining = 0) :
    advance n X.depth (Stage.over ⟨x, l, ⟨.getRxRemaining, .rxneByte⟩ :: ls⟩ X i) =
      (Stage.over ⟨x, l, ⟨.getRxRemaining, .rxneByte⟩ :: ls⟩ X i).fail (.rxUnderflow i) := by
  have hget : (Act.getRxRemaining).fetched ((X.latchAll.put i x.engine x.events x.mem).handle i) l =
      some { l with n := 0 } := by
    simp [Act.fetched, h0]
  simp only [Stage.over]
  rw [advance_quiet_enter hn (by simp) (by simpa using hq) (by simp) (by simp), perform_fetched hget]
  simp only [Next.go, if_true, put_latchAll, latchAll_twice, hL.latchPending]

theorem over_eng_same {b : Stage} : (b.over X i).eng i = b.served.engine :=
  put_eng_same X.latchAll i b.served.engine b.served.events b.served.mem

/-- Settles O51: EV_IRQ gets to RXNE_MASTER's test, which raises. -/
theorem receiveUnderflowFaults : Obligations.ReceiveUnderflowFaults := by
  intro s i below h h0 e
  obtain ⟨l, hl⟩ := h.receives.leads_rxneByte (i := i) h.noop
  obtain ⟨n, hn, hrun⟩ := exec_evIrq_leads h.toEventEntry hl (by decide)
  rw [advance_rxneByte_raises (X := { s with handlers := below }) h.quiet (by omega)
    (hl.keeps.latched (Engine.latched_latchPending _)) h0] at hrun
  obtain ⟨-, hrefused, hfaults⟩ := h.quiet
  have hraised : s.faults ++ [Fault.rxUnderflow i] = [.rxUnderflow i] := congrArg (· ++ [_]) hfaults
  refine ⟨_, _, hrun, hraised, step_faulted hrefused hraised, ?_, over_eng_same, fun _ => rfl, rfl, rfl, rfl, rfl⟩
  rw [List.append_assoc]
  rfl

end Sys2Proof.Machine

/-! The error handler (44 R270 to R273): its lines serve the controller check by check, from the sampled gate to the
return. -/

namespace Sys2Proof.Machine

variable {s X : State} {i : Idx} {x y z : Served} {l : Locals} {ls ls' : List Line} {k k' n : Nat} {c v w m : Half}
  {code : EventCode} {a : Half × EventCode} {as : List (Half × EventCode)} {below : List Frame}

/-! ## Error flags under a mask -/

/-- Clearing bits that are not set. -/
theorem andNot_of_disjoint (h : v &&& m = 0) : v &&& ~~~m = v := by
  refine Half.ext_bits fun j hj => ?_
  have hbit := congrArg (·.getLsbD j) h
  simp only [BitVec.getLsbD_and, BitVec.getLsbD_not, hj] at hbit ⊢
  cases hv : v.getLsbD j <;> simp_all

/-- The flags of a mask do not see that others are cleared. -/
theorem andNot_and_of_disjoint (h : w &&& m = 0) : v &&& ~~~m &&& w = v &&& w := by
  rw [BitVec.and_assoc, BitVec.and_comm (~~~m), andNot_of_disjoint h]

theorem latchesOf_andNot (h : 0x0017 &&& m = 0) : latchesOf (v &&& ~~~m) = latchesOf v :=
  (latchesOf_of_mask (andNot_and_of_disjoint (v := v) h)).trans (latchesOf_of_mask (v := v) rfl).symm

/-- The write of R271 for the flags of `m` clears them and no other (20 R80). -/
theorem writeSR1_errClearValue {e : Engine} (hm : m &&& rcw0All = m) :
    e.writeSR1 (errClearValue (m.setWidth 32)) = { e with regs := { e.regs with sr1 := e.regs.sr1 &&& ~~~m } } := by
  have hkeep : (errClearValue (m.setWidth 32)).setWidth 16 ||| ~~~rcw0All = ~~~m := by
    have hwidth : (errClearValue (m.setWidth 32)).setWidth 16 = rcw0All &&& ~~~m := by
      rw [errClearValue_setWidth]; simp [rcw0All]
    rw [hwidth]
    refine Half.ext_bits fun j hj => ?_
    have hbit := congrArg (·.getLsbD j) hm
    simp only [BitVec.getLsbD_and, BitVec.getLsbD_or, BitVec.getLsbD_not, hj] at hbit ⊢
    cases hr : rcw0All.getLsbD j <;> simp_all
  rw [Engine.writeSR1, hkeep]

/-! ## Checks of several flags -/

/-- The flags of some checks. -/
def errorMask : List (Half × EventCode) → Half
  | [] => 0
  | (m, _) :: rest => m ||| errorMask rest

/-- The checks test error flags, each its own. -/
def ErrorFlags (as : List (Half × EventCode)) : Prop :=
  (∀ a ∈ as, a.1 &&& errMask = a.1) ∧ as.Pairwise fun a b => b.1 &&& a.1 = 0

theorem errorMask_singleton : errorMask [a] = a.1 := BitVec.or_zero

theorem errorFlags_errorChecks : ErrorFlags errorChecks := ⟨by decide, by decide⟩

theorem ErrorFlags.tail (h : ErrorFlags (a :: as)) : ErrorFlags as :=
  ⟨fun b hb => h.1 b (List.mem_cons_of_mem _ hb), (List.pairwise_cons.mp h.2).2⟩

theorem ErrorFlags.head (h : ErrorFlags (a :: as)) : a.1 &&& errMask = a.1 := h.1 a List.mem_cons_self

/-- An error flag is no flag of a latch. -/
theorem ErrorFlags.latches (h : ErrorFlags (a :: as)) : 0x0017 &&& a.1 = 0 := by
  have h0 : (0x0017 : Half) &&& (errMask &&& a.1) = 0x0000 &&& a.1 := (BitVec.and_assoc ..).symm
  rw [BitVec.and_comm errMask, h.head] at h0
  exact h0.trans BitVec.zero_and

/-- The codes of checks whose flags show alike. -/
theorem errorCodes_congr (h : ∀ a ∈ as, w &&& a.1 = v &&& a.1) : errorCodes w as = errorCodes v as := by
  induction as with
  | nil => rfl
  | cons a as ih =>
    rw [errorCodes, errorCodes, h a List.mem_cons_self, ih fun b hb => h b (List.mem_cons_of_mem _ hb)]

theorem errorCodes_cons (h : ErrorFlags (a :: as)) :
    errorCodes v (a :: as) = errorCodes v [a] ++ errorCodes (v &&& ~~~a.1) as := by
  rw [errorCodes_congr (w := v &&& ~~~a.1) (v := v) fun b hb =>
    andNot_and_of_disjoint ((List.pairwise_cons.mp h.2).1 b hb)]
  simp [errorCodes]

theorem errorEvents_cons : errorEvents i v (a :: as) = errorEvents i v [a] ++ errorEvents i (v &&& ~~~a.1) as := by
  by_cases h : v &&& a.1 = 0
  · simp only [errorEvents, h, andNot_of_disjoint h, ne_eq, not_true_eq_false, if_false, List.singleton_append]
  · simp only [errorEvents, h, ne_eq, not_false_eq_true, if_true, List.append_assoc, List.nil_append]

/-- What some checks do with the gate open (44 R270, R271). -/
def Served.errorChecks (i : Idx) (as : List (Half × EventCode)) (x : Served) : Served :=
  let v := x.engine.regs.sr1
  x.after
    { x.engine with
      regs := { x.engine.regs with sr1 := v &&& ~~~errorMask as }
      lat := latchesOf v
      cbTrace := x.engine.cbTrace ++ errorCodes v as }
    (errorEvents i v as)

theorem errorChecks_cons (h : ErrorFlags (a :: as)) :
    (x.errorChecks i [a]).errorChecks i as = x.errorChecks i (a :: as) := by
  have hmask : errorMask (a :: as) = a.1 ||| errorMask as := rfl
  simp only [Served.errorChecks, after_after, after_engine, errorMask_singleton, latchesOf_andNot h.latches,
    errorEvents_cons (as := as), errorCodes_cons h, hmask, BitVec.not_or, ← BitVec.and_assoc, List.append_assoc]

/-! ## Stages of the handler -/

/-- ER_IRQ on controller `i`, entered above `X`: what has been served, the locals, the lines to come. -/
def State.erAt (X : State) (i : Idx) (x : Served) (l : Locals) (ls : List Line) : State :=
  (X.latchAll.put i x.engine x.events x.mem).enter ⟨.er, i, ls, l, .none⟩

/-- With CR2 sampled as `c` and nothing in between, the lines `ls` of ER_IRQ serve the controller from `x` to `y` in at
most `k` boundaries, whatever the other locals and the lines after them. -/
structure ErServes (c : Half) (i : Idx) (k : Nat) (ls : List Line) (x y : Served) : Prop where
  latched : x.engine.Latched → y.engine.Latched
  run     : x.engine.Latched → ∀ (X : State) (n : Nat) (l : Locals) (rest : List Line), X.Quiet → X.params.app = [] →
    l.c = c.setWidth 32 → k < n → ∃ (n' : Nat) (l' : Locals), n ≤ n' + k ∧ l'.c = c.setWidth 32 ∧
      advance n X.depth (X.erAt i x l (ls ++ rest)) = advance n' X.depth (X.erAt i y l' rest)

theorem ErServes.nil : ErServes c i 0 [] x x := ⟨id, fun _ _ n l _ _ _ hc _ => ⟨n, l, le_rfl, hc, rfl⟩⟩

theorem ErServes.append (h : ErServes c i k ls x y) (h' : ErServes c i k' ls' y z) :
    ErServes c i (k + k') (ls ++ ls') x z where
  latched := h'.latched ∘ h.latched
  run hL X n l rest hq happ hc hn := by
    obtain ⟨n₁, l₁, hn₁, hc₁, h₁⟩ := h.run hL X n l (ls' ++ rest) hq happ hc (by omega)
    obtain ⟨n₂, l₂, hn₂, hc₂, h₂⟩ := h'.run (h.latched hL) X n₁ l₁ rest hq happ hc₁ (by omega)
    exact ⟨n₂, l₂, by omega, hc₂, List.append_assoc .. ▸ h₁.trans h₂⟩

theorem ErServes.mono (h : ErServes c i k ls x y) (hk : k ≤ k') : ErServes c i k' ls x y where
  latched := h.latched
  run hL X n l rest hq happ hc hn := by
    obtain ⟨n₁, l₁, hn₁, h₁⟩ := h.run hL X n l rest hq happ hc (by omega)
    exact ⟨n₁, l₁, by omega, h₁⟩

/-- One line: its access, by which the locals become those of `f`, then the lines its test puts before those to come. -/
theorem erServes_line {act : Act} {nx : Next} (more : List Line) (f : Locals → Locals)
    (hL : x.engine.Latched → y.engine.Latched) (hf : ∀ l, (f l).c = l.c)
    (hp : ∀ (X : State) l, perform i l (X.put i x.engine x.events x.mem) act =
      some (X.put i y.engine y.events y.mem, f l))
    (hg : ∀ p rest l, l.c = c.setWidth 32 →
      nx.go p ⟨.er, i, rest, f l, .none⟩ = .ok (Frame.insert ⟨.er, i, rest, f l, .none⟩ more))
    (hmore : ErServes c i k more y z) (ha : act ≠ .app := by simp) (hcb : ∀ code, act ≠ .callback code := by simp) :
    ErServes c i (1 + k) [⟨act, nx⟩] x z where
  latched := hmore.latched ∘ hL
  run hx X n l rest hq happ hc hn := by
    obtain ⟨n', l', hn', hc', hrun⟩ :=
      hmore.run (hL hx) X (n - 1) (f l) rest hq happ ((hf l).trans hc) (by omega)
    refine ⟨n', l', by omega, hc', Eq.trans ?_ hrun⟩
    simp only [State.erAt, List.cons_append, List.nil_append]
    rw [advance_quiet_enter (by omega) (by simp) (by simpa using hq) ha hcb, hp]
    simp only [hg _ _ _ hc, put_latchAll, latchAll_twice, (hL hx).latchPending, Frame.insert]

/-- A callback emission, with the no-op application (44 R274, R275). -/
theorem erServes_callback : ErServes c i 3 [.then (.callback code)] x (x.emit i code) where
  latched := fun h => h.withCallback code
  run hL _ n l _ hq happ hc hn := ⟨n - 3, l, by omega, hc, block_callback hq happ hL hn⟩

/-- A write of SR1 (20 R80). -/
theorem erServes_writeSR1 {u : Word} : ErServes c i 1 [.then (.writeSR1 u)] x
    (x.after (x.engine.afterWrite u .sr1) [.regWrite i .sr1 u]) :=
  erServes_line (y := x.after (x.engine.afterWrite u .sr1) [.regWrite i .sr1 u]) [] id (fun h => h.writeSR1 u)
    (fun _ => rfl) (fun X _ => by simp only [perform, put_regWrite]; rfl) (fun _ _ _ _ => rfl) .nil

/-- The write that clears the flags of `m` and no other (44 R271). -/
theorem erServes_clear (hm : m &&& rcw0All = m) : ErServes c i 1 [.then (.writeSR1 (errClearValue (m.setWidth 32)))] x
    (x.after { x.engine with regs := { x.engine.regs with sr1 := x.engine.regs.sr1 &&& ~~~m } }
      [.regWrite i .sr1 ((0xDF00 &&& ~~~m : Half).setWidth 32)]) := by
  have hwrite := erServes_writeSR1 (c := c) (i := i) (x := x) (u := errClearValue (m.setWidth 32))
  rw [Engine.afterWrite, writeSR1_errClearValue hm] at hwrite
  rw [← errClearValue_setWidth]
  exact hwrite

/-! ## The checks (44 R270, R271) -/

/-- A check reads SR1 afresh, then goes on as its test says. -/
theorem erServes_errCheck (more : List Line)
    (hg : ∀ (p : Params) (f : Frame), f.loc.c = c.setWidth 32 → f.loc.v = x.engine.regs.sr1.setWidth 32 →
      (Next.errEvent m code).go p f = .ok (f.insert more))
    (hmore : ErServes c i k more (x.after x.engine.sampledSR1 [rSR1 i x.engine.regs.sr1]) y) :
    ErServes c i (1 + k) (errCheck m code) x y :=
  erServes_line more (fun l => { l with v := x.engine.regs.sr1.setWidth 32 })
    (y := x.after x.engine.sampledSR1 [rSR1 i x.engine.regs.sr1]) (fun h => h.sampledSR1) (fun _ => rfl)
    (fun X _ => by simp only [perform, put_regRead, put_eng_same, afterRead_sr1]; rfl)
    (fun p _ _ hc => hg p _ hc rfl) hmore

/-- The test of a check, in bits of its samples. -/
theorem go_errEvent {p : Params} {f : Frame} (hc : f.loc.c = c.setWidth 32) (hv : f.loc.v = v.setWidth 32) :
    (Next.errEvent m code).go p f = .ok (if c.getLsbD 8 = true ∧ v &&& m ≠ 0 then
      f.insert [.then (.writeSR1 (errClearValue (m.setWidth 32))), .then (.callback code)] else f) := by
  have hflag : anyBit v m = true ↔ v &&& m ≠ 0 := bne_iff_ne
  simp only [Next.go, hc, hv, sampled_setWidth, anyBit_ITERREN, Bool.and_eq_true, hflag]

/-- A check whose test fails only reads SR1. -/
theorem erServes_idle (h : ¬ (c.getLsbD 8 = true ∧ x.engine.regs.sr1 &&& m ≠ 0)) :
    ErServes c i 1 (errCheck m code) x (x.after x.engine.sampledSR1 [rSR1 i x.engine.regs.sr1]) :=
  erServes_errCheck [] (fun _ _ hc hv => (go_errEvent hc hv).trans (congrArg Except.ok (if_neg h))) .nil

/-- The lines of some checks. -/
def errLines (as : List (Half × EventCode)) : List Line := as.flatMap fun a => errCheck a.1 a.2

theorem errLines_singleton : errLines [a] = errCheck a.1 a.2 := List.append_nil _

/-- One check with the gate open. -/
theorem erServes_check (hgate : c.getLsbD 8 = true) (hm : a.1 &&& errMask = a.1) :
    ErServes c i 5 (errLines [a]) x (x.errorChecks i [a]) := by
  rw [errLines_singleton]
  obtain ⟨m, code⟩ := a
  by_cases hset : x.engine.regs.sr1 &&& m = 0
  · refine Eq.subst ?_ ((erServes_idle (c := c) (i := i) (x := x) (code := code) fun h => h.2 hset).mono
      (by decide : 1 ≤ 5))
    simp only [Served.errorChecks, errorMask_singleton, andNot_of_disjoint hset, errorCodes, errorEvents, hset, ne_eq,
      not_true_eq_false, if_false, List.append_nil]
    rfl
  · have hin : m &&& rcw0All = m := by
      rw [← show m &&& errMask = m from hm, BitVec.and_assoc]; rfl
    refine Eq.subst ?_ (erServes_errCheck (i := i) (m := m) (code := code) _
      (fun _ _ hc hv => (go_errEvent hc hv).trans (congrArg Except.ok (if_pos ⟨hgate, hset⟩)))
      ((erServes_clear hin).append erServes_callback))
    simp only [Served.errorChecks, errorMask_singleton, errorCodes, errorEvents, hset, ne_eq, not_false_eq_true,
      if_true, after_emit, after_after, after_engine, List.append_nil]
    rfl

/-- The checks in their order, with the gate open. -/
theorem erServes_checks (hgate : c.getLsbD 8 = true) (h : ErrorFlags (a :: as)) :
    ErServes c i (5 * as.length + 5) (errLines (a :: as)) x (x.errorChecks i (a :: as)) := by
  have hfirst : ErServes c i 5 (errLines [a]) x (x.errorChecks i [a]) := erServes_check hgate h.head
  induction as generalizing a x with
  | nil => exact hfirst
  | cons b as ih =>
    have hrest := ih (x := x.errorChecks i [a]) h.tail (erServes_check hgate h.tail.head)
    rw [errorChecks_cons h] at hrest
    exact (hfirst.append hrest).mono (by simp only [List.length_cons]; omega)

/-- The checks with the gate closed: a read of SR1 each. -/
theorem erServes_closed (hgate : c.getLsbD 8 = false) :
    ErServes c i (as.length + 1) (errLines (a :: as)) x
      (x.after x.engine.sampledSR1 (List.replicate (as.length + 1) (rSR1 i x.engine.regs.sr1))) := by
  have hfirst {m : Half} {code : EventCode} {x : Served} : ErServes c i 1 (errCheck m code) x
      (x.after x.engine.sampledSR1 [rSR1 i x.engine.regs.sr1]) :=
    erServes_idle fun h => Bool.noConfusion (hgate.symm.trans h.1)
  induction as generalizing a x with
  | nil => exact errLines_singleton ▸ hfirst
  | cons b as ih =>
    have hall := (hfirst (m := a.1) (code := a.2) (x := x)).append (ih (a := b))
    simp only [after_after, after_engine, sampledSR1_sampledSR1, sampledSR1_regs, List.singleton_append,
      ← List.replicate_succ] at hall
    exact hall.mono (by simp only [List.length_cons]; omega)

/-! ## ER_IRQ from its entry to its return -/

/-- What ER_IRQ has served once it has sampled its gate. -/
def State.gateSampled (s : State) (i : Idx) : Served :=
  (s.served i).after (s.eng i).latchPending [.regRead i .cr2 ((s.eng i).latchPending.regs.cr2.setWidth 32)]

/-- ER_IRQ up to its first check: the first boundary brings the latches up to date. -/
theorem exec_erIrq_sampled (hh : X.Has i) (hq : X.Quiet) :
    exec (.erIrq i) (X.enter ⟨.er, i, handlerLines .er, Locals.init, .none⟩) =
      .next (advance 127 X.depth (X.erAt i (X.gateSampled i)
        { Locals.init with c := (X.eng i).latchPending.regs.cr2.setWidth 32 } (errLines errorChecks))) := by
  refine (runHandler_put (s := X) (k := .er) hh).trans (congrArg _ ?_)
  have hlines : handlerLines .er = .then .readCR2 :: errLines errorChecks := rfl
  rw [fuel_quiet hq.1, hlines, Line.then,
    advance_quiet_enter (by omega) (by simp) (by simpa using hq) (by simp) (by simp)]
  simp only [perform, put_regRead, put_eng_same, put_params, go_straight, put_latchAll]
  rfl

/-- The return of ER_IRQ. -/
theorem advance_erIrq_return (hq : X.Quiet) (hn : 0 < n) (hL : x.engine.Latched) :
    advance n X.depth (X.erAt i x l []) = X.latchAll.put i x.engine x.events x.mem := by
  have h := advance_return_enter (X := X.latchAll.put i x.engine x.events x.mem) (i := i) (l := l) (res := .none)
    (d := X.depth) .er hn (by simp) (by simpa using hq)
  rw [put_latchAll, latchAll_twice, hL.latchPending] at h
  exact h

/-- ER_IRQ whose checks serve the controller to `y`, with caller memory left, completes, and has done what `y` says. -/
theorem exec_erIrq_effect (hh : s.Has i) (he : s.AtHandler .er i below) (hq : s.Quiet) (happ : s.params.app = [])
    (hs : ErServes (s.eng i).latchPending.regs.cr2 i k (errLines errorChecks) (s.gateSampled i) y) (hm : y.mem = s.mem)
    (hk : k < 126 := by decide) :
    ∃ t, exec (.erIrq i) s = .next t ∧ Effect s t i y.engine y.events ∧ SameMemory s t ∧ HandlerReturned s t below := by
  obtain ⟨X, rfl, rfl⟩ : ∃ X : State, s = X.enter ⟨.er, i, handlerLines .er, Locals.init, .none⟩ ∧ X.handlers = below :=
    ⟨_, he.eq_enter, rfl⟩
  have hL : (X.gateSampled i).engine.Latched := Engine.latched_latchPending _
  obtain ⟨n, l, hn, -, hrun⟩ := hs.run hL X 127
    { Locals.init with c := (X.eng i).latchPending.regs.cr2.setWidth 32 } [] hq happ rfl (by omega)
  rw [List.append_nil] at hrun
  have hret := advance_erIrq_return (X := X) (i := i) (l := l) hq (by omega : 0 < n) (hs.latched hL)
  exact ⟨_, (exec_erIrq_sampled (X := X) hh hq).trans (congrArg _ (hrun.trans hret)), effect_enter,
    fun a => congrArg (Memory.read · a.toNat) hm, rfl, rfl⟩

/-- Settles O52: with the gate open each check clears and reports its flag, with it closed each only reads SR1. -/
theorem errorHandlerClearsAndReports : Obligations.ErrorHandlerClearsAndReports := by
  intro s i below hh he hq happ e c x r
  by_cases hgate : c.getLsbD 8 = true
  · simp only [if_pos hgate]
    exact exec_erIrq_effect hh he hq happ (erServes_checks hgate errorFlags_errorChecks) rfl
  · simp only [if_neg hgate]
    exact exec_erIrq_effect hh he hq happ (erServes_closed (Bool.eq_false_iff.mpr hgate)) rfl

end Sys2Proof.Machine

/-! The application callback (44 R274 to R277): its start, its steps, and its return. -/

namespace Sys2Proof.Machine

variable {s : State} {f g h : Frame} {below : List Frame} {i : Idx}

/-! ## Moves of the handler context -/

section Handlers

variable (hh : s.handlers = f :: below)

include hh

theorem top_of_handlers : s.top = some f := by simp only [State.top, hh]

theorem setTop_handlers : (s.setTop g).handlers = g :: below := by simp only [State.setTop, hh]

theorem setTop_main : (s.setTop g).main = s.main := by simp only [State.setTop, hh]

theorem push_handlers : (s.push g).handlers = g :: f :: below := by simp only [State.push, hh]

theorem push_main : (s.push g).main = s.main := by simp only [State.push, hh]

theorem pop_handlers : s.pop.handlers = below := by simp only [State.pop, hh]

theorem pop_main : s.pop.main = s.main := by simp only [State.pop, hh]

/-- The boundary of a callback emission: the code recorded, the application started above the handler that emitted
(44 R274). -/
theorem tick_emission {o : Owner} {c : EventCode} {rest : List Line} {l : Locals} {res : Result} (hq : s.inputs = [])
    (hf : f = ⟨o, i, ⟨.callback c, .straight⟩ :: rest, l, res⟩) :
    tick s = (((s.emitCallback i c).setTop ⟨o, i, rest, l, res⟩).push (Frame.callback i c)).latchAll := by
  subst hf
  rw [tick_quiet hq]
  simp only [contextStep, top_of_handlers hh, frameStep, lineStep, perform, Next.go, State.callAfter]

/-- The boundary of the application's step. -/
theorem tick_app (hq : s.inputs = []) (hf : f.lines = [⟨.app, .straight⟩]) : tick s = (appStep f s).latchAll := by
  rw [tick_quiet hq]
  simp only [contextStep, top_of_handlers hh, frameStep, hf]

/-- The boundary of the callback's return. -/
theorem tick_appReturn (hq : s.inputs = []) (hf : f.lines = []) (ho : f.owner = .app) : tick s = s.pop.latchAll := by
  rw [tick_quiet hq]
  simp only [contextStep, top_of_handlers hh, frameStep, hf, State.leave, ho]

/-- The innermost frame moved on after an access that led to `s`: nothing else changes but the latches. -/
theorem setTop_frame : let t := (s.setTop g).latchAll
    t.trace = s.trace ∧ SameMemory s t ∧ (∀ j, t.eng j = (s.eng j).latchPending) ∧ t.handlers = g :: below := by
  refine ⟨setTop_trace s g, fun a => ?_, fun j => ?_, setTop_handlers hh⟩
  · simp [State.byteAt]
  · rw [latchAll_eng, setTop_eng]

/-- Whatever the application's step, the main context stays where it is (60 R311). -/
theorem appStep_main : (appStep f s).main = s.main := by
  obtain h | ⟨e, h⟩ | ⟨g, -, h | ⟨w, c, -, h⟩ | ⟨p, -, h⟩ | ⟨p, b, -, h⟩ | h | ⟨w, h⟩⟩ := appStep_cases s f <;> rw [h]
  · rfl
  · exact setTop_main hh
  · exact (push_main (setTop_handlers hh)).trans (setTop_main hh)
  all_goals exact setTop_main hh

end Handlers

/-! ## The application's steps (44 R276) -/

/-- The empty program chooses nothing (44 R275). -/
theorem appChoice_noop (h : s.params.app = []) : appChoice f s = none := by
  simp only [appChoice, h, List.getD_nil, List.find?_nil, Option.map_none]

theorem putVar_getElem? (vs : List Word) (k : Nat) (v : Word) : (putVar vs k v)[k]? = some v := by
  induction k generalizing vs with
  | zero => cases vs <;> rfl
  | succ k ih => cases vs <;> exact ih _

/-- The callback returns where its program says so or has nothing to do. -/
theorem appStep_return (h : appChoice f s = none ∨ ∃ g, appChoice f s = some (.ret, g)) :
    ∃ g : Frame, appStep f s = s.setTop g ∧ g.lines = [] ∧ g.owner = f.owner := by
  obtain h | ⟨g, h⟩ := h
  · exact ⟨f.finish .none, by simp only [appStep, h], rfl, rfl⟩
  · obtain ⟨howner, -, -⟩ := appChoice_frame h
    exact ⟨g.finish .none, by simp only [appStep, h], rfl, howner⟩

/-- A record that decodes is issued as its command, and one of no row of the opcode map is refused (30 R123). -/
theorem issued_decoded {n : Nat} {w : CmdWord} {x : Instr} (hd : decode w = .ok x) : issued n w = softwareCmd n x := by
  simp only [issued, hd]

theorem issued_unknown {n : Nat} {w : CmdWord} {op : Byte} (hd : decode w = .error (.unknownCommand op)) :
    issued n w = .error (.unknownCommand op) := by
  simp only [issued, hd]

section Command

variable {c : AppCommand} (hc : appChoice f s = some (.command c, g))

include hc

theorem appStep_refused {e : Refusal} (he : issued s.params.nInst (c.record g s) = .error e) :
    appStep f s = s.refuse e := by
  simp only [appStep, hc, he]

theorem appStep_issued (hi : issued s.params.nInst (c.record g s) = .ok h) : appStep f s = (s.setTop g).push h := by
  simp only [appStep, hc, hi]

/-- A refused command marks the run, and the callback stays where it is (60 R311, log 11). -/
theorem appStep_refused_marks {e : Refusal} (he : issued s.params.nInst (c.record g s) = .error e) :
    let t := (appStep f s).latchAll
    t.handlers = s.handlers ∧ t.refused = some e ∧ step t = .refused e := by
  rw [appStep_refused hc he]
  exact ⟨rfl, rfl, step_refused rfl⟩

/-- The issue of a command accesses nothing. -/
theorem appStep_command_frame : let t := (appStep f s).latchAll
    t.trace = s.trace ∧ SameMemory s t ∧ ∀ j, t.eng j = (s.eng j).latchPending := by
  cases hi : issued s.params.nInst (c.record g s) with
  | error e =>
    rw [appStep_refused hc hi]
    exact ⟨rfl, fun _ => rfl, fun j => latchAll_eng _ j⟩
  | ok h =>
    rw [appStep_issued hc hi]
    refine ⟨?_, fun a => ?_, fun j => ?_⟩
    · rw [latchAll_trace, push_trace, setTop_trace]
    · simp [State.byteAt]
    · rw [latchAll_eng, push_eng, setTop_eng]

end Command

theorem appStep_memRead {a : AppExpr} {k : Nat} (hc : appChoice f s = some (.memRead a k, g))
    (hb : s.params.bufferOk (a.eval g s) = true) : appStep f s =
      (s.memRead (a.eval g s)).setTop (g.setVar k ((s.byteAt (a.eval g s)).setWidth 32)) := by
  simp only [appStep, hc, hb, if_true]

theorem appStep_memWrite {a v : AppExpr} (hc : appChoice f s = some (.memWrite a v, g))
    (hb : s.params.bufferOk (a.eval g s) = true) : appStep f s =
      (s.memWrite (a.eval g s) ((v.eval g s).setWidth 8)).setTop g := by
  simp only [appStep, hc, hb, if_true]

theorem appStep_readDR {k : Nat} (hc : appChoice f s = some (.readDR k, g)) : appStep f s =
    (s.regRead f.inst .dr).setTop (g.setVar k ((s.eng f.inst).value .dr)) := by
  simp only [appStep, hc]

theorem appStep_writeDR {v : AppExpr} (hc : appChoice f s = some (.writeDR v, g)) : appStep f s =
    (s.regWrite f.inst .dr (((v.eval g s).setWidth 8 : Byte).setWidth 32)).setTop g := by
  simp only [appStep, hc]

/-! ## The statement settled -/

/-- Settles O53: the boundary of the emission, of each of the application's steps, and of its return. -/
theorem callbackRunsTheApplication : Obligations.CallbackRunsTheApplication := by
  refine ⟨fun s i o c rest l res below hq hh => ?emission, fun s f below hq hh hf => ?steps,
    fun s f below hq hh hf ho => ?finish⟩
  case emission =>
    rw [tick_emission hh hq.1 rfl]
    have hset := setTop_handlers (s := s.emitCallback i c) (g := ⟨o, i, rest, l, res⟩) hh
    refine ⟨?_, ?_, ⟨Frame.callback i c, push_handlers hset, rfl, rfl, rfl, rfl, rfl, rfl⟩,
      (push_main hset).trans (setTop_main (s := s.emitCallback i c) hh), fun a => ?_, fun j => ?_⟩
    · simp
    · simp
    · simp [State.byteAt]
    · obtain ⟨hhandle, -, -, -, hregs⟩ := emitCallback_keeps s i j c
      simp [hhandle, hregs]
  case steps =>
    rw [tick_app hh hq.1 hf]
    refine ⟨appStep_main hh, appChoice_noop, fun hc => ?ret, fun c g hc => ?command, fun a k g hc hb => ?memRead,
      fun a v g hc hb hwf => ?memWrite, fun k g hc => ?readDR, fun v g hc => ?writeDR⟩
    case ret =>
      obtain ⟨g, hstep, hlines, howner⟩ := appStep_return hc
      obtain ⟨htrace, hmem, heng, hhandlers⟩ := setTop_frame (g := g) hh
      rw [hstep]
      exact ⟨htrace, hmem, heng, g, hhandlers, hlines, howner⟩
    case command =>
      obtain ⟨htrace, hmem, heng⟩ := appStep_command_frame hc
      refine ⟨htrace, hmem, heng, fun x h hd hx => ?_, fun x r hd hx => ?_, fun op hd => ?_⟩
      · rw [appStep_issued hc ((issued_decoded hd).trans hx)]
        exact push_handlers (setTop_handlers hh)
      · exact appStep_refused_marks hc ((issued_decoded hd).trans hx)
      · exact appStep_refused_marks hc (issued_unknown hd)
    case memRead =>
      rw [appStep_memRead hc hb]
      obtain ⟨htrace, hmem, heng, hhandlers⟩ := setTop_frame (s := s.memRead (a.eval g s)) hh
      exact ⟨htrace, hmem, heng, _, hhandlers, rfl, putVar_getElem? _ k _⟩
    case memWrite =>
      rw [appStep_memWrite hc hb]
      obtain ⟨htrace, hmem, heng, hhandlers⟩ := setTop_frame (g := g)
        (s := s.memWrite (a.eval g s) ((v.eval g s).setWidth 8)) hh
      have hbyte := fun p => (hmem p).trans (State.byteAt_memWrite s (a.eval g s) p ((v.eval g s).setWidth 8) hwf)
      exact ⟨htrace, (hbyte _).trans (if_pos rfl), fun p hp => (hbyte p).trans (if_neg hp.symm), heng, hhandlers⟩
    case readDR =>
      rw [appStep_readDR hc]
      obtain ⟨htrace, hmem, heng, hhandlers⟩ := setTop_frame (s := s.regRead f.inst .dr) hh
      refine ⟨htrace, hmem, (heng _).trans ?_, fun j hj => (heng j).trans ?_, _, hhandlers, rfl, putVar_getElem? _ k _⟩
      · rw [regRead_eng_same]
      · rw [regRead_eng_ne _ _ _ _ hj.symm]
    case writeDR =>
      rw [appStep_writeDR hc]
      obtain ⟨htrace, hmem, heng, hhandlers⟩ := setTop_frame (g := g)
        (s := s.regWrite f.inst .dr (((v.eval g s).setWidth 8 : Byte).setWidth 32)) hh
      refine ⟨htrace, hmem, (heng _).trans ?_, fun j hj => (heng j).trans ?_, hhandlers⟩
      · rw [regWrite_eng_same]
      · rw [regWrite_eng_ne _ _ _ _ _ hj.symm]
  case finish =>
    rw [tick_appReturn hh hq.1 hf ho]
    refine ⟨pop_handlers hh, pop_main hh, ?_, fun a => ?_, fun j => ?_⟩
    · rw [latchAll_trace, pop_trace]
    · simp [State.byteAt]
    · rw [latchAll_eng, pop_eng]

end Sys2Proof.Machine

/-! Interrupt lines, pending latches, and a handler's entry and return at one boundary (60 R303 to R312). -/

namespace Sys2Proof.Machine

variable {s t : State} {i j : Idx} {k k' : HandlerKind} {e e' : Engine}

/-! ## One engine's lines and latches -/

/-- The line behind a pending latch (60 R306). -/
def Engine.line (e : Engine) : HandlerKind → Bool
  | .ev => e.evLine
  | .er => e.erLine

@[simp] theorem latchPending_line : e.latchPending.line k = e.line k := by cases k <;> rfl

/-- A boundary's update sets the latch of a line that is asserted and routed (60 R306). -/
@[simp] theorem latchPending_pending :
    e.latchPending.pending k = (e.pending k || (e.line k && e.wiring.nvicEn)) := by
  cases k <;> rfl

@[simp] theorem clearPending_pending : (e.clearPending k).pending k = false := by cases k <;> rfl

theorem clearPending_pending_ne (h : k' ≠ k) : (e.clearPending k').pending k = e.pending k := by
  cases k <;> cases k' <;> first | exact absurd rfl h | rfl

@[simp] theorem launch_pending (l : Launch) (w : Wiring) (c : Ctrl) : (Engine.launch i l w c).pending k = false := by
  cases k <;> rfl

theorem pending_congr (hev : e'.pendEV = e.pendEV) (her : e'.pendER = e.pendER) (k : HandlerKind) :
    e'.pending k = e.pending k := by
  cases k
  · exact hev
  · exact her

/-! ## What the running context leaves of the latches -/

theorem regRead_pending (r : Reg) (k : HandlerKind) : ((s.regRead i r).eng j).pending k = (s.eng j).pending k := by
  obtain ⟨-, -, -, hev, her, -⟩ := regRead_keeps s i j r
  exact pending_congr hev her k

theorem regWrite_pending (r : Reg) (v : Word) (k : HandlerKind) :
    ((s.regWrite i r v).eng j).pending k = (s.eng j).pending k := by
  obtain ⟨-, -, -, hev, her⟩ := regWrite_keeps s i j r v
  exact pending_congr hev her k

/-- A micro-step's access sets and clears no latch. -/
theorem perform_pending {l l' : Locals} {a : Act} (h : perform i l s a = some (t, l')) (j : Idx) (k : HandlerKind) :
    (t.eng j).pending k = (s.eng j).pending k := by
  obtain rfl | ⟨r, rfl⟩ | ⟨r, v, rfl, -⟩ | ⟨q, m, ⟨-, rfl⟩ | ⟨-, rfl⟩⟩ | ⟨p, rfl, -⟩ | ⟨p, b, rfl, -⟩ |
    ⟨g, rfl, -, -⟩ | ⟨c, -, rfl⟩ := perform_cases _ _ _ h
  · rfl
  · exact regRead_pending r k
  · exact regWrite_pending r v k
  · exact regWrite_pending _ _ k
  · exact regWrite_pending _ _ k
  · rfl
  · rfl
  · obtain ⟨-, -, hev, her, -⟩ := setHandle_keeps s i j g
    exact pending_congr hev her k
  · obtain ⟨-, -, hev, her, -⟩ := emitCallback_keeps s i j c
    exact pending_congr hev her k

theorem appStep_pending (f : Frame) (j : Idx) (k : HandlerKind) :
    ((appStep f s).eng j).pending k = (s.eng j).pending k := by
  obtain h | ⟨r, h⟩ | ⟨g, -, h | ⟨w, c, -, h⟩ | ⟨p, -, h⟩ | ⟨p, b, -, h⟩ | h | ⟨w, h⟩⟩ := appStep_cases s f <;>
    rw [h]
  · rfl
  · rw [setTop_eng]
  · rw [push_eng, setTop_eng]
  · rw [setTop_eng, memRead_eng]
  · rw [setTop_eng, memWrite_eng]
  · rw [setTop_eng]; exact regRead_pending .dr k
  · rw [setTop_eng]; exact regWrite_pending .dr w k

/-- The running context's micro-step sets and clears no latch. -/
theorem contextStep_pending (s : State) (j : Idx) (k : HandlerKind) :
    ((contextStep s).eng j).pending k = (s.eng j).pending k := by
  refine contextStep_keeps (P := fun u => (u.eng j).pending k = (s.eng j).pending k) rfl ?leave
    (fun f _ _ _ _ => appStep_pending f j k) ?line ?fault
  case leave => intro f _ _; rw [leave_eng]
  case line => intro f x rest u l f' _ _ hp _; rw [callAfter_eng, setTop_eng]; exact perform_pending hp j k
  case fault => intro f x rest u l r _ _ hp _; rw [fail_eng]; exact perform_pending hp j k

/-! ## A boundary is a move and the latches' update -/

/-- What moves at a boundary: the next input, or, with none left, the running context. -/
def State.move (s : State) : State :=
  match s.inputs with
  | [] => contextStep s
  | x :: rest => applyInput x (s.withInputs rest)

theorem tick_eq_move (s : State) : tick s = s.move.latchAll := by
  unfold tick State.move
  cases s.inputs <;> rfl

theorem move_quiet (h : s.inputs = []) : s.move = contextStep s := by simp only [State.move, h]

theorem move_input {x : Input} {rest : List Input} (h : s.inputs = x :: rest) :
    s.move = applyInput x (s.withInputs rest) := by
  simp only [State.move, h]

/-- After any boundary the latches are up to date with the lines (60 R306). -/
theorem tick_latched (s : State) (i : Idx) : ((tick s).eng i).Latched := by
  rw [tick_eq_move, latchAll_eng]
  exact Engine.latched_latchPending _

/-- A controller's step sets and clears no latch (20 R85). -/
theorem controllerStep_pending {f : Engine → Engine} (h : ∀ e, (f e).pending k = e.pending k) :
    ((s.controllerStep j f).eng i).pending k = (s.eng i).pending k := by
  rw [State.controllerStep, eng_setEng]
  split
  · next hij => subst hij; exact h _
  · rfl

theorem applyFreeInput_pending (c : HwChange) (e : Engine) : (e.applyFreeInput c).pending k = e.pending k := by
  obtain ⟨-, -, -, hev, her, -⟩ := applyFreeInput_keeps e c
  exact pending_congr hev her k

theorem applyRef_pending (x : Reaction) (e : Engine) : (e.applyRef x).pending k = e.pending k := by
  obtain ⟨-, -, -, hev, her, -⟩ := applyRef_keeps e x
  exact pending_congr hev her k

/-- Handler entry clears the latch it takes and no other (60 R310). -/
theorem dispatch_pending (s : State) (i : Idx) (k : HandlerKind) :
    (s.dispatch.eng i).pending k = (s.eng i).pending k ∨
      (s.dispatch.eng i).pending k = false ∧ s.nextInterrupt = some (k, i) := by
  obtain hn | ⟨k', j, hn⟩ := nextInterrupt_cases s
  · rw [dispatch_none hn]; exact .inl rfl
  · rw [dispatch_some hn, enter_eng, eng_setEng]
    split
    · next hji =>
      subst hji
      by_cases hk : k' = k
      · subst hk; exact .inr ⟨clearPending_pending, hn⟩
      · exact .inl (clearPending_pending_ne hk)
    · exact .inl rfl

/-- A re-initialisation clears the latches of its own controller and no other (log 14). -/
theorem reinitInput_pending (s : State) (l : Launch) (k : HandlerKind) :
    ((s.reinitInput j l).eng i).pending k = (s.eng i).pending k ∨
      ((s.reinitInput j l).eng i).pending k = false ∧ j = i := by
  unfold State.reinitInput
  split
  · rw [State.reinit, eng_setEng]
    split
    · next hji => exact .inr ⟨launch_pending l _ _, hji⟩
    · exact .inl rfl
  · exact .inl rfl

/-- A move sets no latch, and clears one only by its handler's entry or its controller's re-initialisation. -/
theorem move_pending (s : State) (i : Idx) (k : HandlerKind) :
    (s.move.eng i).pending k = (s.eng i).pending k ∨ (s.move.eng i).pending k = false ∧
      ((s.inputs.head? = some .dispatch ∧ s.nextInterrupt = some (k, i)) ∨
        ∃ l, s.inputs.head? = some (.reinit i l)) := by
  cases hi : s.inputs with
  | nil => rw [move_quiet hi]; exact .inl (contextStep_pending s i k)
  | cons x rest =>
    rw [move_input hi]
    cases x with
    | run => exact .inl (contextStep_pending _ i k)
    | free j c =>
      simp only [applyInput]
      split
      · exact .inl (controllerStep_pending (applyFreeInput_pending c))
      · exact .inl rfl
    | ref j x =>
      simp only [applyInput]
      split
      · exact .inl (controllerStep_pending (applyRef_pending x))
      · exact .inl rfl
    | dispatch =>
      exact (dispatch_pending (s.withInputs rest) i k).imp_right fun ⟨hc, hn⟩ =>
        ⟨hc, .inl ⟨rfl, (withInputs_nextInterrupt s rest).symm.trans hn⟩⟩
    | reinit j l =>
      simp only [applyInput]
      split
      · refine (reinitInput_pending (s.withInputs rest) l k).imp_right ?_
        rintro ⟨hc, rfl⟩
        exact ⟨hc, .inr ⟨l, rfl⟩⟩
      · exact .inl rfl

/-- A latch after a boundary: set before the update, or by its line (60 R306). -/
theorem tick_pending (s : State) (i : Idx) (k : HandlerKind) : ((tick s).eng i).pending k =
    ((s.move.eng i).pending k || (((tick s).eng i).line k && ((tick s).eng i).wiring.nvicEn)) := by
  simp only [tick_eq_move, latchAll_eng, latchPending_pending, latchPending_line, latchPending_wiring]

/-! ## Entry and return (60 R310, R312) -/

/-- The boundary at which the dispatch takes a latch. -/
theorem tick_dispatch {rest : List Input} (hi : s.inputs = .dispatch :: rest) (hn : s.nextInterrupt = some (k, i)) :
    tick s = (((s.withInputs rest).setEng i ((s.eng i).clearPending k)).enter
      ⟨k.owner, i, handlerLines k, Locals.init, .none⟩).latchAll := by
  have hn' : (s.withInputs rest).nextInterrupt = some (k, i) := (withInputs_nextInterrupt s rest).trans hn
  rw [tick_eq_move, move_input hi, applyInput, dispatch_some hn', withInputs_eng]

/-- A handler's return takes its frame away and does nothing else. -/
theorem leave_handler {f : Frame} (h : f.owner.isHandler = true) : s.leave f = s.pop := by
  unfold State.leave
  cases ho : f.owner with
  | ev => rfl
  | er => rfl
  | command m => simp [Owner.isHandler, ho] at h
  | app => simp [Owner.isHandler, ho] at h

/-- The boundary at which a handler returns. -/
theorem tick_handlerReturn {f : Frame} {below : List Frame} (hi : s.inputs = []) (hh : s.handlers = f :: below)
    (hl : f.lines = []) (ho : f.owner.isHandler = true) : tick s = s.pop.latchAll := by
  rw [tick_quiet hi]
  simp only [contextStep, top_of_handlers hh, frameStep, hl, leave_handler ho]

/-! ## Lines that are latched, along a run -/

theorem linesLatched_iff : s.LinesLatched ↔ ∀ i, (s.eng i).Latched := Iff.rfl

/-- What leaves every engine leaves the latches up to date. -/
theorem State.LinesLatched.of_eng (hs : s.LinesLatched) (h : ∀ i, t.eng i = s.eng i) : t.LinesLatched :=
  linesLatched_iff.mpr fun i => h i ▸ linesLatched_iff.mp hs i

/-! ## The statements settled -/

/-- Settles O55: every boundary ends with the latches' update, and what a step does before its first boundary changes no
engine. -/
theorem stepKeepsLinesLatched : Obligations.StepKeepsLinesLatched := by
  intro s t hs h
  refine step_keeps (P := State.LinesLatched) (fun u _ => linesLatched_iff.mpr (tick_latched u)) ?inputs ?program ?push
    hs h
  case inputs => exact fun u x xs hu _ => hu.of_eng fun _ => rfl
  case program => exact fun u w ws hu _ => hu.of_eng fun _ => rfl
  case push => exact fun u x f hu _ => hu.of_eng fun i => push_eng u i f

/-- Settles O10: a latch after a boundary is the one after the move, or its line (`tick_pending`), and a move clears a
latch only by its handler's entry or a re-initialisation (`move_pending`). -/
theorem pendingLatchesFollowTheLines : Obligations.PendingLatchesFollowTheLines := by
  intro s i k t line
  have htick : (t.eng i).pending k = ((s.move.eng i).pending k || (line && (t.eng i).wiring.nvicEn)) :=
    tick_pending s i k
  have hmove := move_pending s i k
  refine ⟨fun hl hn => ?set, fun hp => ?onlySet, fun hs ht => ?cleared⟩
  case set => rw [htick, hl, hn, Bool.and_self, Bool.or_true]
  case onlySet =>
    rw [htick, Bool.or_eq_true, Bool.and_eq_true] at hp
    refine hp.imp_left fun hu => ?_
    obtain hsame | ⟨hclear, -⟩ := hmove
    · exact hsame ▸ hu
    · simp [hclear] at hu
  case cleared =>
    rw [htick, Bool.or_eq_false_iff] at ht
    obtain hsame | ⟨-, hcause⟩ := hmove
    · simp [hsame, hs] at ht
    · exact hcause

/-- Settles O12: the boundaries of an entry and of a return, each as one change of the state. -/
theorem handlerEntryAndReturn : Obligations.HandlerEntryAndReturn := by
  refine ⟨fun s rest k i hi hn => ?entry, fun s f below hq hh hl ho => ?ret⟩
  case entry =>
    rw [tick_dispatch hi hn]
    refine ⟨rfl, rfl, ?_, fun j hj => ?_, fun _ => rfl, rfl, rfl, rfl, rfl, rfl, rfl⟩
    · rw [latchAll_eng, enter_eng, eng_setEng_same]
    · rw [latchAll_eng, enter_eng, eng_setEng_ne _ _ _ _ hj.symm, withInputs_eng]
  case ret =>
    rw [tick_handlerReturn hq.1 hh hl ho]
    refine ⟨pop_handlers hh, pop_main hh, fun j => ?_, fun a => ?_, pop_trace s, pop_program s, pop_params s⟩
    · rw [latchAll_eng, pop_eng]
    · simp only [State.byteAt, latchAll_mem, pop_mem]

/-- Settles O9: each mask of a line tests its flags one by one. -/
theorem interruptLinesAreLevels : Obligations.InterruptLinesAreLevels := by
  intro e
  constructor
  · simp only [Engine.evLine, anyBit_or, anyBit_ITEVTEN, anyBit_ITBUFEN, anyBit_SB, anyBit_ADDR, anyBit_ADD10,
      anyBit_STOPF, anyBit_BTF, anyBit_TxE, anyBit_RxNE]
  · simp only [Engine.erLine, anyBit_or, anyBit_ITERREN, anyBit_BERR, anyBit_ARLO, anyBit_AF, anyBit_OVR,
      anyBit_PECERR, anyBit_TIMEOUT, anyBit_SMBALERT]

end Sys2Proof.Machine

/-! The dispatch's order (60 R307, R308) and the nesting of handlers (60 R311, R313 to R315). -/

namespace Sys2Proof.Machine

variable {s t : State} {f g : Frame} {i : Idx} {k : HandlerKind}

/-! ## The order of the dispatch -/

/-- In a list sorted by a rank, the first element that passes a test is the one of least rank that does. -/
theorem find?_eq_some_iff_least {α : Type} (rank : α → Nat) (p : α → Bool) {l : List α}
    (hl : l.Pairwise fun a b => rank a < rank b) (a : α) :
    l.find? p = some a ↔ a ∈ l ∧ p a = true ∧ ∀ b ∈ l, p b = true → rank a ≤ rank b := by
  induction l with
  | nil => simp
  | cons x xs ih =>
    rw [List.pairwise_cons] at hl
    obtain ⟨hx, hxs⟩ := hl
    cases hpx : p x with
    | true =>
      rw [List.find?_cons_of_pos hpx, Option.some.injEq]
      constructor
      · rintro rfl
        refine ⟨List.mem_cons_self, hpx, fun b hb _ => ?_⟩
        obtain rfl | hb := List.mem_cons.mp hb
        · exact le_rfl
        · exact (hx b hb).le
      · rintro ⟨ha, -, hleast⟩
        obtain rfl | ha := List.mem_cons.mp ha
        · rfl
        · exact absurd (hleast x List.mem_cons_self hpx) (hx a ha).not_ge
    | false =>
      have hne : ∀ b, p b = true → (b ∈ x :: xs ↔ b ∈ xs) := by
        intro b hb
        refine List.mem_cons.trans (or_iff_right ?_)
        rintro rfl
        simp [hpx] at hb
      rw [List.find?_cons_of_neg (by simp [hpx]), ih hxs]
      constructor
      · rintro ⟨ha, hpa, hleast⟩
        exact ⟨(hne a hpa).mpr ha, hpa, fun b hb hpb => hleast b ((hne b hpb).mp hb) hpb⟩
      · rintro ⟨ha, hpa, hleast⟩
        exact ⟨(hne a hpa).mp ha, hpa, fun b hb => hleast b (List.mem_cons_of_mem _ hb)⟩

/-- The dispatch looks at both latches of every controller that exists. -/
theorem mem_dispatchOrder {n : Nat} {o : IrqOrder} : (k, i) ∈ dispatchOrder n o ↔ i < n := by
  cases o <;> cases k <;> simp [dispatchOrder, IrqOrder.kinds]

/-- It looks at them in the order of `latchRank` (60 R308). -/
theorem dispatchOrder_sorted (n : Nat) (o : IrqOrder) :
    (dispatchOrder n o).Pairwise fun x y => latchRank o x.1 x.2 < latchRank o y.1 y.2 := by
  have hrank : ∀ (k : HandlerKind) (i : Nat), 2 * i ≤ latchRank o k i ∧ latchRank o k i < 2 * i + 2 := by
    intro k i
    cases o <;> cases k <;> simp [latchRank]
  refine List.pairwise_flatMap.mpr ⟨fun i _ => ?_, List.pairwise_lt_range.imp fun {i j} hij x hx y hy => ?_⟩
  · cases o <;> simp [IrqOrder.kinds, latchRank]
  · obtain ⟨k, -, rfl⟩ := List.mem_map.mp hx
    obtain ⟨k', -, rfl⟩ := List.mem_map.mp hy
    obtain ⟨-, hi⟩ := hrank k i
    obtain ⟨hj, -⟩ := hrank k' j
    dsimp only
    omega

/-- The error latches stand in the order of their controllers. -/
theorem latchRank_er_le (o : IrqOrder) (i j : Idx) : latchRank o .er i ≤ latchRank o .er j ↔ i ≤ j := by
  cases o <;> simp [latchRank]

/-- No latch is taken where none that is set may be entered. -/
theorem nextInterrupt_eq_none_iff : s.nextInterrupt = none ↔
    ∀ k i, i < s.params.nInst → (s.eng i).pending k = true → ¬ s.mayEnter k = true := by
  simp only [State.nextInterrupt, List.find?_eq_none, Prod.forall, mem_dispatchOrder, Bool.and_eq_true, not_and]

/-- The latch taken is the first in the order that is set and may be entered (60 R307, R308). -/
theorem nextInterrupt_eq_some_iff : s.nextInterrupt = some (k, i) ↔
    i < s.params.nInst ∧ ((s.eng i).pending k = true ∧ s.mayEnter k = true) ∧
      ∀ k' i', i' < s.params.nInst → (s.eng i').pending k' = true → s.mayEnter k' = true →
        latchRank s.params.irqOrder k i ≤ latchRank s.params.irqOrder k' i' := by
  rw [State.nextInterrupt, find?_eq_some_iff_least (fun x => latchRank s.params.irqOrder x.1 x.2) _
    (dispatchOrder_sorted _ _)]
  simp only [Prod.forall, mem_dispatchOrder, Bool.and_eq_true, and_imp]

/-! ## What may be entered -/

/-- A handler context is not stuck where its innermost frame's next access, if it is one of caller memory, is of a valid
byte (60 R311). -/
theorem handlerStuck_eq_false_iff : s.handlerStuck = false ↔
    ∀ f below a, s.handlers = f :: below → f.Accesses s a → s.params.bufferOk a = true := by
  unfold State.handlerStuck
  cases hh : s.handlers with
  | nil => simp
  | cons f below =>
    rw [← Bool.not_eq_true, stuck_iff]
    constructor
    · rintro h g below' a ⟨⟩ ha
      simpa using fun hb => h ⟨a, ha, hb⟩
    · rintro h ⟨a, ha, hb⟩
      simp [h f below a rfl ha] at hb

/-- A latch may be taken with no handler running, or, with nesting, an error latch over an event handler that is not
stuck (60 R307, R311, R313). -/
theorem mayEnter_iff : s.mayEnter k = true ↔ s.handlers = [] ∨
    (s.params.irqNesting = true ∧ k = .er ∧ (∀ f ∈ s.handlers, f.owner ≠ .er) ∧ s.handlerStuck = false) := by
  simp [State.mayEnter, State.noErHandler, and_assoc]

/-- With no handler running, every latch may be taken. -/
theorem mayEnter_idle (hh : s.handlers = []) (k : HandlerKind) : s.mayEnter k = true := mayEnter_iff.mpr (.inl hh)

/-- With nesting, over a handler context that is not stuck and runs no error handler, the error latches may. -/
theorem mayEnter_nested {below : List Frame} (hn : s.params.irqNesting = true) (hh : s.handlers = f :: below)
    (her : ∀ g ∈ s.handlers, g.owner ≠ .er) (hs : s.handlerStuck = false) : s.mayEnter k = true ↔ k = .er := by
  have hne : s.handlers ≠ [] := hh ▸ List.cons_ne_nil f below
  rw [mayEnter_iff, or_iff_right hne]
  exact ⟨fun ⟨_, hk, _⟩ => hk, fun hk => ⟨hn, hk, her, hs⟩⟩

/-! ## The main context under a handler -/

/-- The application's step leaves the commands the main context has still to issue. -/
theorem appStep_program (f : Frame) : (appStep f s).program = s.program := by
  obtain h | ⟨e, h⟩ | ⟨g, -, h | ⟨w, c, -, h⟩ | ⟨p, -, h⟩ | ⟨p, b, -, h⟩ | h | ⟨w, h⟩⟩ := appStep_cases s f <;>
    rw [h] <;> simp

/-- A micro-step of the handler context leaves the main context and its program (60 R307). -/
theorem contextStep_main (hh : s.handlers ≠ []) :
    (contextStep s).main = s.main ∧ (contextStep s).program = s.program := by
  obtain ⟨g, below, hh⟩ := List.exists_cons_of_ne_nil hh
  refine contextStep_keeps (P := fun u => u.main = s.main ∧ u.program = s.program) ⟨rfl, rfl⟩ ?leave ?app ?line ?fault
  case leave =>
    intro f _ _
    exact ⟨(leave_eq_pop s f).1.trans (pop_main hh), leave_program s f⟩
  case app =>
    intro f nx rest hf _
    obtain rfl : g = f := Option.some.inj ((top_of_handlers hh).symm.trans hf)
    exact ⟨appStep_main hh, appStep_program g⟩
  case line =>
    intro f x rest u l f' _ _ hp _
    have hkeeps := perform_keeps hp
    have htop := setTop_handlers (g := f') (hkeeps.handlers.trans hh)
    have hmain : (u.setTop f').main = s.main := (setTop_main (hkeeps.handlers.trans hh)).trans hkeeps.main
    refine ⟨?_, by rw [callAfter_program, setTop_program, hkeeps.program]⟩
    unfold State.callAfter
    split
    · exact (push_main htop).trans hmain
    · exact hmain
  case fault =>
    intro f x rest u l e _ _ hp _
    have hkeeps := perform_keeps hp
    exact ⟨hkeeps.main, hkeeps.program⟩

/-- While a handler runs no boundary moves the main context (60 R307, R314). -/
theorem tick_main (hh : s.handlers ≠ []) : (tick s).main = s.main ∧ (tick s).program = s.program := by
  refine tick_keeps (P := fun u => u.main = s.main ∧ u.program = s.program) (fun _ hu => hu) (fun _ _ _ => ⟨rfl, rfl⟩)
    (fun xs _ => ?context) (fun _ _ _ _ => ⟨rfl, rfl⟩) (fun _ _ _ _ => ⟨rfl, rfl⟩) (fun xs _ => ?dispatch)
    (fun i l xs _ => ?reinit)
  case context => exact contextStep_main (s := s.withInputs xs) hh
  case dispatch =>
    obtain hn | ⟨k, i, hn⟩ := nextInterrupt_cases (s.withInputs xs)
    · rw [dispatch_none hn]; exact ⟨rfl, rfl⟩
    · rw [dispatch_some hn]; exact ⟨rfl, rfl⟩
  case reinit => unfold State.reinitInput; split <;> exact ⟨rfl, rfl⟩

/-! ## The nesting of handlers -/

/-- The shape of the handler context, by the owners of its frames, innermost first (60 R307, R313, R315). -/
def OwnersNested (nesting : Bool) (os : List Owner) : Prop :=
  (os.filter Owner.isHandler = [] ∨ os.filter Owner.isHandler = [.ev] ∨ os.filter Owner.isHandler = [.er] ∨
    (os.filter Owner.isHandler = [.er, .ev] ∧ nesting = true)) ∧
  ∀ o, os.getLast? = some o → o.isHandler = true

theorem handlersNested_iff : s.HandlersNested ↔ OwnersNested s.params.irqNesting (s.handlers.map (·.owner)) := by
  simp [State.HandlersNested, OwnersNested, State.running]

/-- A call inside a handler keeps the shape. -/
theorem OwnersNested.call {nesting : Bool} {o o' : Owner} {os : List Owner} (h : OwnersNested nesting (o :: os))
    (ho : o'.isHandler = false) : OwnersNested nesting (o' :: o :: os) := by
  obtain ⟨hrun, hlast⟩ := h
  refine ⟨?_, fun x hx => hlast x (by rwa [List.getLast?_cons_cons] at hx)⟩
  rwa [List.filter_cons_of_neg (by simp [ho])]

/-- So does the end of a call or of a handler. -/
theorem OwnersNested.tail {nesting : Bool} {o : Owner} {os : List Owner} (h : OwnersNested nesting (o :: os)) :
    OwnersNested nesting os := by
  obtain ⟨hrun, hlast⟩ := h
  refine ⟨?_, fun x hx => hlast x ?_⟩
  · cases ho : o.isHandler with
    | false => rwa [List.filter_cons_of_neg (by simp [ho])] at hrun
    | true =>
      rw [List.filter_cons_of_pos ho] at hrun
      obtain hrun | hrun | hrun | ⟨hrun, -⟩ := hrun
      · cases hrun
      · exact .inl (List.cons.inj hrun).2
      · exact .inl (List.cons.inj hrun).2
      · exact .inr (.inl (List.cons.inj hrun).2)
  · cases os with
    | nil => cases hx
    | cons y ys => rwa [List.getLast?_cons_cons]

theorem HandlerKind.owner_isHandler (k : HandlerKind) : k.owner.isHandler = true := by cases k <;> rfl

/-- The entry of a handler into an idle handler context gives the shape (60 R307). -/
theorem OwnersNested.single (nesting : Bool) (k : HandlerKind) : OwnersNested nesting [k.owner] := by
  refine ⟨?_, fun o ho => ?_⟩
  · cases k
    · exact .inr (.inl rfl)
    · exact .inr (.inr (.inl rfl))
  · cases ho
    exact k.owner_isHandler

/-- With nesting, the entry of an error handler where none runs keeps the shape (60 R313). -/
theorem OwnersNested.error {os : List Owner} (h : OwnersNested true os) (hno : .er ∉ os) :
    OwnersNested true (.er :: os) := by
  obtain ⟨hrun, hlast⟩ := h
  have hfilter : .er ∉ os.filter Owner.isHandler := fun hm => hno (List.mem_of_mem_filter hm)
  refine ⟨?_, fun o ho => ?_⟩
  · rw [List.filter_cons_of_pos rfl]
    obtain hrun | hrun | hrun | ⟨hrun, -⟩ := hrun <;> rw [hrun] at hfilter ⊢
    · exact .inr (.inr (.inl rfl))
    · exact .inr (.inr (.inr ⟨rfl, rfl⟩))
    · simp at hfilter
    · simp at hfilter
  · cases os with
    | nil => cases ho; rfl
    | cons y ys => exact hlast o (by rwa [List.getLast?_cons_cons] at ho)

/-! ## Every step keeps the nesting -/

/-- What leaves the owners of the handler context's frames keeps its shape. -/
theorem State.HandlersNested.of_owners (hs : s.HandlersNested)
    (ho : t.handlers.map (·.owner) = s.handlers.map (·.owner)) (hp : t.params = s.params) : t.HandlersNested := by
  rw [handlersNested_iff] at hs ⊢
  rwa [ho, hp]

theorem State.HandlersNested.of_handlers (hs : s.HandlersNested) (hh : t.handlers = s.handlers)
    (hp : t.params = s.params) : t.HandlersNested :=
  hs.of_owners (congrArg _ hh) hp

/-- The running context moved on, its innermost frame still of what it was of. -/
theorem State.HandlersNested.setTop (hs : s.HandlersNested) (ht : s.top = some f) (ho : g.owner = f.owner) :
    (s.setTop g).HandlersNested := by
  refine hs.of_owners ?_ (setTop_params s g)
  cases hh : s.handlers with
  | nil => simp [State.setTop, hh]
  | cons f' below =>
    obtain rfl : f' = f := Option.some.inj ((top_of_handlers hh).symm.trans ht)
    rw [setTop_handlers hh, List.map_cons, List.map_cons, ho]

theorem State.HandlersNested.push (hs : s.HandlersNested) (hf : f.owner.isHandler = false) :
    (s.push f).HandlersNested := by
  cases hh : s.handlers with
  | nil => exact hs.of_handlers (by simp [State.push, hh]) (push_params s f)
  | cons g below =>
    rw [handlersNested_iff, hh] at hs
    rw [handlersNested_iff, push_handlers hh, push_params]
    exact OwnersNested.call hs hf

theorem State.HandlersNested.leave (hs : s.HandlersNested) (f : Frame) : (s.leave f).HandlersNested := by
  obtain ⟨-, hleave⟩ := leave_eq_pop s f
  cases hh : s.handlers with
  | nil => exact hs.of_handlers (hleave.trans (by simp [State.pop, hh])) (leave_params s f)
  | cons g below =>
    rw [handlersNested_iff, hh] at hs
    rw [handlersNested_iff, hleave, pop_handlers hh, leave_params]
    exact OwnersNested.tail hs

/-- The frame of a command software issues is the command's own (30 R137). -/
theorem softwareCmd_owner {n : Nat} {x : Instr} (h : softwareCmd n x = .ok f) : f.owner.isHandler = false := by
  cases x <;> obtain ⟨j, -, h⟩ := except_bind_eq_ok h
  case evIrq | erIrq => cases h
  case masterTx | masterTxIt =>
    obtain ⟨-, -, h⟩ := except_bind_eq_ok h
    cases h; rfl
  case masterRx | masterRxIt =>
    obtain ⟨-, -, h⟩ := except_bind_eq_ok h
    obtain ⟨-, -, h⟩ := except_bind_eq_ok h
    cases h; rfl
  case memRead =>
    obtain ⟨-, -, h⟩ := except_bind_eq_ok h
    obtain ⟨-, -, h⟩ := except_bind_eq_ok h
    obtain ⟨-, -, h⟩ := except_bind_eq_ok h
    cases h; rfl
  all_goals cases h; rfl

/-- So is that of a command the application issues. -/
theorem issued_owner {n : Nat} {w : CmdWord} (h : issued n w = .ok f) : f.owner.isHandler = false := by
  unfold issued at h
  split at h
  · cases h
  · exact softwareCmd_owner h

theorem State.HandlersNested.appStep (hs : s.HandlersNested) (ht : s.top = some f) :
    (appStep f s).HandlersNested := by
  obtain h | ⟨e, h⟩ | ⟨g, ⟨ho, -, -⟩, h | ⟨w, c, hc, h⟩ | ⟨p, -, h⟩ | ⟨p, b, -, h⟩ | h | ⟨w, h⟩⟩ :=
    appStep_cases s f <;> rw [h]
  · exact hs
  · exact hs.of_handlers rfl rfl
  · exact hs.setTop ht ho
  · exact (hs.setTop ht ho).push (issued_owner hc)
  · exact State.HandlersNested.setTop (s := s.memRead p) (hs.of_handlers rfl rfl) ht ho
  · exact State.HandlersNested.setTop (s := s.memWrite p b) (hs.of_handlers rfl rfl) ht ho
  · exact State.HandlersNested.setTop (s := s.regRead f.inst .dr) (hs.of_handlers rfl rfl) ht ho
  · exact State.HandlersNested.setTop (s := s.regWrite f.inst .dr w) (hs.of_handlers rfl rfl) ht ho

theorem State.HandlersNested.contextStep (hs : s.HandlersNested) : (contextStep s).HandlersNested := by
  refine contextStep_keeps hs (fun f _ _ => hs.leave f) (fun f nx rest ht _ => hs.appStep ht) ?line ?fault
  case line =>
    intro f x rest u l f' ht _ hp hgo
    have hkeeps := perform_keeps hp
    have htop : u.top = some f := by rw [← ht, State.top, State.top, hkeeps.handlers, hkeeps.main]
    have hset := (hs.of_handlers hkeeps.handlers hkeeps.params).setTop htop (go_owner hgo).1
    unfold State.callAfter
    split
    · exact hset.push rfl
    · exact hset
  case fault =>
    intro f x rest u l e _ _ hp _
    have hkeeps := perform_keeps hp
    exact hs.of_handlers hkeeps.handlers hkeeps.params

/-- A dispatch enters a handler where the shape admits it. -/
theorem State.HandlersNested.dispatch (hs : s.HandlersNested) : s.dispatch.HandlersNested := by
  obtain hn | ⟨k, i, hn⟩ := nextInterrupt_cases s
  · rw [dispatch_none hn]; exact hs
  · rw [dispatch_some hn, handlersNested_iff, enter_handlers, setEng_handlers, enter_params, setEng_params,
      List.map_cons]
    obtain hh | ⟨hnest, rfl, hno, -⟩ := mayEnter_iff.mp (nextInterrupt_pending hn).2
    · rw [hh]; exact OwnersNested.single _ k
    · rw [handlersNested_iff, hnest] at hs
      rw [hnest]
      exact hs.error (by simpa using hno)

theorem State.HandlersNested.tick (hs : s.HandlersNested) : (tick s).HandlersNested := by
  have hin : ∀ xs, (s.withInputs xs).HandlersNested := fun _ => hs.of_handlers rfl rfl
  refine tick_keeps (fun u hu => hu.of_handlers rfl rfl) (fun _ xs _ => hin xs) (fun xs _ => (hin xs).contextStep)
    (fun _ _ xs _ => (hin xs).of_handlers rfl rfl) (fun _ _ xs _ => (hin xs).of_handlers rfl rfl)
    (fun xs _ => (hin xs).dispatch) (fun i l xs _ => ?reinit)
  case reinit => unfold State.reinitInput; split <;> exact (hin xs).of_handlers rfl rfl

/-! ## The statements settled -/

/-- Settles O56: every move keeps the shape of the handler context; only a dispatch adds a handler, where `mayEnter`
admits it. -/
theorem stepKeepsHandlersNested : Obligations.StepKeepsHandlersNested := by
  intro s t hs h
  exact step_keeps (fun _ hu => hu.tick) (fun _ _ _ hu _ => hu.of_handlers rfl rfl)
    (fun _ _ _ hu _ => hu.of_handlers rfl rfl) (fun _ _ _ hu hf => hu.push (softwareCmd_owner hf)) hs h

/-- Settles O11: the dispatch takes the latch of least rank among those set that may be entered, which are all with no
handler running and the error latches when nested. -/
theorem dispatchTakesFirstSetLatch : Obligations.DispatchTakesFirstSetLatch := by
  refine ⟨fun s hh => ⟨?none, fun k i => ?some⟩, fun s f below hn hh her hbuf => ?nested⟩
  case none => simp [nextInterrupt_eq_none_iff, mayEnter_idle hh]
  case some => simp [nextInterrupt_eq_some_iff, mayEnter_idle hh]
  case nested =>
    have hstuck : s.handlerStuck = false := by
      rw [handlerStuck_eq_false_iff, hh]
      rintro g below' a ⟨⟩
      exact hbuf a
    have hmay : ∀ k, s.mayEnter k = true ↔ k = .er := fun k => mayEnter_nested hn hh her hstuck
    refine ⟨?_, fun k i => ?_⟩
    · simp only [nextInterrupt_eq_none_iff, hmay]
      refine ⟨fun h i hi => Bool.eq_false_iff.mpr fun hp => h .er i hi hp rfl, ?_⟩
      rintro h k i hi hp rfl
      exact Bool.eq_false_iff.mp (h i hi) hp
    · rw [nextInterrupt_eq_some_iff]
      simp only [hmay]
      constructor
      · rintro ⟨hi, ⟨hp, rfl⟩, hleast⟩
        exact ⟨rfl, hi, hp, fun i' hi' hp' => (latchRank_er_le _ i i').mp (hleast .er i' hi' hp' rfl)⟩
      · rintro ⟨rfl, hi, hp, hleast⟩
        refine ⟨hi, ⟨hp, rfl⟩, ?_⟩
        rintro k' i' hi' hp' rfl
        exact (latchRank_er_le _ i i').mpr (hleast i' hi' hp')

/-- Settles O13: a boundary under a handler leaves the main context (`tick_main`), and what the dispatch takes there is
what `mayEnter` admits. -/
theorem handlerRunExcludesMainAndNests : Obligations.HandlerRunExcludesMainAndNests := by
  refine ⟨fun s hh => tick_main hh, fun s k i hh hn => ?_⟩
  obtain ⟨hp, hmay⟩ := nextInterrupt_pending hn
  obtain ⟨hnest, rfl, hno, hstuck⟩ := (mayEnter_iff.mp hmay).resolve_left hh
  exact ⟨hnest, rfl, hp, hno, handlerStuck_eq_false_iff.mp hstuck⟩

end Sys2Proof.Machine

/-! What launch leaves in an engine (70 R340, R342), the engines of the state after reset, and the boundary that
initialises one controller anew (70 R344). -/

namespace Sys2Proof.Machine

variable {s : State} {i j : Idx} {l : Launch} {rest : List Input}

/-! ## An engine at launch -/

/-- OAR1 at launch holds the own address in its bits 7:1, bit 14 set and bit 15 clear (70 R342). -/
theorem launch_oar1 (l : Launch) : (Regs.launch l).oar1.getLsbD 14 = true ∧
    (Regs.launch l).oar1.extractLsb' 1 7 = l.cfg.ownAddress ∧ (Regs.launch l).oar1.getLsbD 15 = false := by
  refine ⟨?set, ?address, ?clear⟩
  case address =>
    have hfixed : ∀ (k : Nat) (_ : k < 7), (0x4000 : Half)[1 + k] = false := by decide
    refine BitVec.eq_of_getLsbD_eq fun k hk => ?_
    have hin : 1 + k < 16 := by omega
    simpa [Regs.launch, hk, hin] using fun h => absurd ((hfixed k hk).symm.trans h) Bool.false_ne_true
  all_goals simp [Regs.launch]

/-- SR1 is 0 at launch, so no line is asserted. -/
theorem launch_line (i : Idx) (l : Launch) (w : Wiring) (c : Ctrl) (k : HandlerKind) :
    (Engine.launch i l w c).line k = false := by
  have hsr1 : (Engine.launch i l w c).regs.sr1 = 0 := rfl
  cases k <;> simp [Engine.line, Engine.evLine, Engine.erLine, hsr1, anyBit]

/-- With no line asserted, the latches follow the lines. -/
theorem launch_latched (i : Idx) (l : Launch) (w : Wiring) (c : Ctrl) : (Engine.launch i l w c).Latched :=
  ⟨fun h => absurd ((launch_line i l w c .ev).symm.trans h) Bool.false_ne_true,
    fun h => absurd ((launch_line i l w c .er).symm.trans h) Bool.false_ne_true⟩

/-- CR1 at launch is PE, and ACK or not (70 R342). -/
theorem launch_cr1Kept (l : Launch) : cr1Kept (Regs.launch l).cr1 := by
  cases h : l.ack <;> simp only [Regs.launch, h] <;> exact ⟨by decide, by decide⟩

/-! ## The state after reset -/

/-- Every controller stands at launch after reset, with its lines routed. -/
theorem reset_eng (h : i < State.reset.params.nInst) :
    ∃ b, State.reset.eng i = Engine.launch i Launch.default ⟨b, true⟩ .free := by
  match i with
  | 0 | 1 | 2 => exact ⟨_, rfl⟩
  | n + 3 => exact absurd h (Nat.not_lt.mpr (Nat.le_add_left 3 n))

/-- Every index reads an engine at launch after reset, one of no controller an unrouted one. -/
theorem reset_eng_launch (i : Idx) : ∃ k w, State.reset.eng i = Engine.launch k Launch.default w .free := by
  match i with
  | 0 | 1 | 2 => exact ⟨_, _, rfl⟩
  | n + 3 => exact ⟨0, ⟨0, false⟩, rfl⟩

/-! ## A boundary that initialises a controller anew -/

theorem quietFor_iff : s.quietFor i = true ↔
    s.handlers = [] ∧ (∀ f ∈ s.main, f.inst ≠ i) ∧ (s.handle i).transferState = .ready := by
  simp only [State.quietFor, Bool.and_eq_true, List.isEmpty_iff, List.all_eq_true, decide_eq_true_eq, and_assoc]

/-- The boundary at which a controller is initialised anew (70 R344). -/
theorem tick_reinit (hi : i < s.params.nInst) (hin : s.inputs = .reinit i l :: rest) (hq : s.quietFor i = true) :
    tick s = ((s.withInputs rest).reinit i l).latchAll := by
  have hq' : (s.withInputs rest).quietFor i = true := hq
  rw [tick_eq_move, move_input hin]
  simp only [applyInput, withInputs_params, if_pos hi, State.reinitInput, if_pos hq']

/-- A re-initialisation and the latches' update leave the controller at launch: no line is asserted there. -/
theorem reinit_latchAll_eng_same : ((s.reinit i l).latchAll).eng i =
    Engine.launch i l (s.eng i).wiring (s.eng i).ctrl.atLaunch := by
  rw [latchAll_eng, State.reinit, eng_setEng_same, (launch_latched _ _ _ _).latchPending]

theorem reinit_latchAll_eng_ne (hj : j ≠ i) : ((s.reinit i l).latchAll).eng j = (s.eng j).latchPending := by
  rw [latchAll_eng, State.reinit, eng_setEng_ne _ _ _ _ hj.symm]

/-! ## The statements settled -/

/-- Settles O17: the boundary is the re-initialisation and the latches' update (`tick_reinit`), which put the controller at
launch and change no other field of the state. -/
theorem reinitialisationResetsOneController : Obligations.ReinitialisationResetsOneController := by
  intro s i l rest hi hin hh hm hr
  obtain ⟨hset, haddr, hclear⟩ := launch_oar1 l
  dsimp only
  rw [tick_reinit hi hin (quietFor_iff.mpr ⟨hh, hm, hr⟩), reinit_latchAll_eng_same]
  exact ⟨rfl, rfl, rfl, rfl, rfl, rfl, rfl, rfl, rfl, rfl, hset, haddr, hclear, fun _ hj => reinit_latchAll_eng_ne hj,
    fun _ => rfl, ⟨rfl, rfl⟩, rfl, rfl⟩

/-- Settles O20: every controller of the state after reset stands at launch (`reset_eng`). -/
theorem resetGivesTheEngineState : Obligations.ResetGivesTheEngineState := by
  refine ⟨fun i hi => ⟨⟨hi, hi⟩, ?_⟩, rfl, rfl, rfl, rfl⟩
  obtain ⟨b, he⟩ := reset_eng hi
  rw [he]
  exact ⟨⟨rfl, rfl, rfl, rfl, rfl, rfl, rfl, rfl, rfl⟩, rfl, rfl, rfl, rfl⟩

/-- Settles O21: the launch values of the state after reset, in a controller at launch. -/
theorem resetMeetsTheLaunchPremise : Obligations.ResetMeetsTheLaunchPremise := by
  intro i hi
  obtain ⟨b, he⟩ := reset_eng hi
  obtain ⟨hset, haddr, hclear⟩ := launch_oar1 Launch.default
  rw [he]
  exact ⟨rfl, rfl, hset, hclear, haddr, rfl, rfl, rfl, rfl⟩

/-- Settles O58: both contexts are idle and memory is empty after reset, and an engine at launch has its latches up to
date and its CR1 kept. -/
theorem resetMeetsTheInvariants : Obligations.ResetMeetsTheInvariants := by
  refine ⟨Memory.wf_reset, linesLatched_iff.mpr fun i => ?latched, ⟨.inl rfl, fun _ hf => ?nested⟩,
    fun i => ?kept, List.forall_mem_nil _, List.forall_mem_nil _⟩
  case nested => cases hf
  all_goals
    obtain ⟨k, w, he⟩ := reset_eng_launch i
    rw [he]
  case latched => exact launch_latched k Launch.default w .free
  case kept => exact launch_cr1Kept Launch.default

end Sys2Proof.Machine
